-- ==== Sys2Proof/Word.lean ====
section
/-! DEFINITION. The word types of the block and nothing else: registers and output words are 32 bits (rules R31,
R86), source and destination memory is made of bytes (rule R80). -/

namespace Sys2Proof

/-- A 32-bit register or output word (rules R31, R86). -/
abbrev Word := BitVec 32

/-- One byte of the source or destination space (rule R80). -/
abbrev Byte := BitVec 8

end Sys2Proof
end

