-- ==== Sys2Proof/Syntax.lean ====
section
/-! DEFINITION. The instructions: one constructor per row of `spec/opcode_table.json`. Rule R2 says that three things
are instructions of this block: host commands (words written to `CMD`, rule R113), meta symbols (rule R118) and
endpoint-reference codes (rule R123). -/

namespace Sys2Proof

/-- The eight model slots under the names of rules R46 and R115. -/
inductive SlotId where
  | ref | epd0 | epd1 | seld0 | seld1 | metaCode | aux0 | aux1
  deriving DecidableEq, Repr

/-- The instructions of the block. -/
inductive Instr where
  /-- `NOP` (rule R321). -/
  | nop
  /-- `SOFT_RESET` (rule R322). -/
  | softReset
  /-- `BR_START` (rule R156). -/
  | brStart
  /-- `GET_BITS n` (rule R157), `n = CMD[5:0]`. -/
  | getBits (n : BitVec 6)
  /-- `BR_STOP` (rule R158). -/
  | brStop
  /-- `BUILD slot` (rule R193). -/
  | build (slot : SlotId)
  /-- `CLEAR slot` (rule R194). -/
  | clear (slot : SlotId)
  /-- `DECODE slot` (rule R214). -/
  | decode (slot : SlotId)
  /-- `RECV_MODEL slot` (rule R243). -/
  | recvModel (slot : SlotId)
  /-- `UNPACK cls` (rule R261), `cls = CMD[3:0]`. -/
  | unpack (cls : BitVec 4)
  /-- `M_LEN0` (rule R236), and so on to `M_LEN16`: one code length of that value. -/
  | mLen0
  | mLen1
  | mLen2
  | mLen3
  | mLen4
  | mLen5
  | mLen6
  | mLen7
  | mLen8
  | mLen9
  | mLen10
  | mLen11
  | mLen12
  | mLen13
  | mLen14
  | mLen15
  | mLen16
  /-- `M_ZRUN_S` with its 3 extra bits (rule R237). -/
  | mZrunS (e : BitVec 3)
  /-- `M_ZRUN_L` with its 7 extra bits (rule R238). -/
  | mZrunL (e : BitVec 7)
  /-- `M_REP_S` with its 2 extra bits (rule R239). -/
  | mRepS (e : BitVec 2)
  /-- `M_REP_L` with its 6 extra bits (rule R240). -/
  | mRepL (e : BitVec 6)
  /-- `REF_NEW` (rule R271). -/
  | refNew
  /-- `REF_LEFT` (rule R272). -/
  | refLeft
  /-- `REF_TOP` (rule R273). -/
  | refTop
  /-- `REF_DIAG` (rule R274). -/
  | refDiag
  deriving DecidableEq, Repr

end Sys2Proof
end

