-- ==== Sys2Proof/WellFormed.lean ====
section
/-! DEFINITION. Well-formed instructions: the operand values that rule R114 calls legal. The operand fields are typed by
their widths, so an operand that does not fit its field cannot be written; the three checks below are the operand
values that fit their field and that the block refuses with an error of its own. Every instruction, well-formed or
not, has an encoding and a meaning (an ill-formed one raises the error that rule R114 names). -/

namespace Sys2Proof

/-- Rule R114: `GET_BITS n` has `n ≤ 32`, `RECV_MODEL` does not target slot 5, `UNPACK cls` has `cls < 4`. -/
def Instr.wellFormed : Instr → Bool
  | .getBits n => n ≤ 32
  | .recvModel slot => slot ≠ .metaCode
  | .unpack cls => cls < 4
  | .nop | .softReset | .brStart | .brStop => true
  | .build _ | .clear _ | .decode _ => true
  | .mLen0 | .mLen1 | .mLen2 | .mLen3 | .mLen4 | .mLen5 | .mLen6 | .mLen7 | .mLen8 => true
  | .mLen9 | .mLen10 | .mLen11 | .mLen12 | .mLen13 | .mLen14 | .mLen15 | .mLen16 => true
  | .mZrunS _ | .mZrunL _ | .mRepS _ | .mRepL _ => true
  | .refNew | .refLeft | .refTop | .refDiag => true

end Sys2Proof
end

