-- ==== Sys2Proof/Decode.lean ====
section
/-! DEFINITION. Decoding, total on every code, refusing by name, and after it the encoder. Three spaces are encoded
(chapter 30 of the spec): the command word, the meta symbol with its extra bits, the endpoint-reference code. -/

namespace Sys2Proof

/-- What is decoded: one code of one of the three encoding spaces of chapter 30. -/
inductive Code where
  /-- A word written to `CMD` (rule R112). -/
  | command (c : Word)
  /-- A symbol of the meta alphabet, as `Decode(5)` returns it, with its extra field zero-extended (rules R118, R119). -/
  | metaSymbol (symbol : Nat) (extra : Nat)
  /-- A two-bit endpoint-reference code (rule R123). -/
  | refCode (c : BitVec 2)
  deriving DecidableEq, Repr

/-- Why a code is no instruction. -/
inductive DecodeError where
  /-- A command word whose opcode is in no row of rule R113. -/
  | unknownOpcode
  /-- A command word of a known opcode with a non-zero bit in a must-be-zero position (rule R112). -/
  | reservedBits
  /-- A meta symbol above 20 (rule R235, `BAD_META_SYMBOL`). -/
  | badMetaSymbol
  /-- An extra field wider than the symbol's (rule R118); no stream field produces it. -/
  | extraTooWide
  deriving DecidableEq, Repr

/-- Slot numbers (rule R115). -/
def SlotId.num : SlotId → BitVec 3
  | .ref => 0
  | .epd0 => 1
  | .epd1 => 2
  | .seld0 => 3
  | .seld1 => 4
  | .metaCode => 5
  | .aux0 => 6
  | .aux1 => 7

/-- The slot a 3-bit field names (rule R115). -/
def SlotId.ofNum (b : BitVec 3) : SlotId :=
  if b = 0 then .ref
  else if b = 1 then .epd0
  else if b = 2 then .epd1
  else if b = 3 then .seld0
  else if b = 4 then .seld1
  else if b = 5 then .metaCode
  else if b = 6 then .aux0
  else .aux1

/-- Formats `N`, `B`, `S`, `U` of rule R112: which bits of the word select the row. -/
def maskN : Word := 0xFFFFFFFF#32
def maskB : Word := 0xFFFFFFC0#32
def maskS : Word := 0xFFFFFFF8#32
def maskU : Word := 0xFFFFFFF0#32

/-- Mask and match of every row of rule R113. -/
def commandRows : List (Word × Word) :=
  [(maskN, 0x00000000#32), (maskN, 0x01000000#32), (maskN, 0x10000000#32), (maskB, 0x11000000#32),
   (maskN, 0x12000000#32), (maskS, 0x20000000#32), (maskS, 0x21000000#32), (maskS, 0x22000000#32),
   (maskS, 0x30000000#32), (maskU, 0x40000000#32)]

/-- The instructions that are host commands; the others stand in the stream (rule R2). -/
def Instr.isCommand : Instr → Bool
  | .nop | .softReset | .brStart | .getBits _ | .brStop | .build _ | .clear _ | .decode _ | .recvModel _
  | .unpack _ => true
  | .mLen0 | .mLen1 | .mLen2 | .mLen3 | .mLen4 | .mLen5 | .mLen6 | .mLen7 | .mLen8 => false
  | .mLen9 | .mLen10 | .mLen11 | .mLen12 | .mLen13 | .mLen14 | .mLen15 | .mLen16 => false
  | .mZrunS _ | .mZrunL _ | .mRepS _ | .mRepL _ => false
  | .refNew | .refLeft | .refTop | .refDiag => false

/-- The opcodes of rule R113. -/
def opcodes : List (BitVec 8) := [0x00, 0x01, 0x10, 0x11, 0x12, 0x20, 0x21, 0x22, 0x30, 0x40]

/-- The command decoder: "a word `c` selects the row with `c & mask = match`" (rule R113); every other word is illegal
(rule R114). -/
def decodeCommand (c : Word) : Except DecodeError Instr :=
  if c &&& maskN = 0x00000000#32 then .ok .nop
  else if c &&& maskN = 0x01000000#32 then .ok .softReset
  else if c &&& maskN = 0x10000000#32 then .ok .brStart
  else if c &&& maskB = 0x11000000#32 then .ok (.getBits (c.extractLsb' 0 6))
  else if c &&& maskN = 0x12000000#32 then .ok .brStop
  else if c &&& maskS = 0x20000000#32 then .ok (.build (SlotId.ofNum (c.extractLsb' 0 3)))
  else if c &&& maskS = 0x21000000#32 then .ok (.clear (SlotId.ofNum (c.extractLsb' 0 3)))
  else if c &&& maskS = 0x22000000#32 then .ok (.decode (SlotId.ofNum (c.extractLsb' 0 3)))
  else if c &&& maskS = 0x30000000#32 then .ok (.recvModel (SlotId.ofNum (c.extractLsb' 0 3)))
  else if c &&& maskU = 0x40000000#32 then .ok (.unpack (c.extractLsb' 0 4))
  else if opcodes.contains (c.extractLsb' 24 8) then .error .reservedBits
  else .error .unknownOpcode

/-- How many extra bits follow the codeword of a meta symbol (rules R11, R118). -/
def metaExtraBits (symbol : Nat) : Nat :=
  if symbol = 17 then 3
  else if symbol = 18 then 7
  else if symbol = 19 then 2
  else if symbol = 20 then 6
  else 0

/-- The meta symbols 0 to 16, `M_LEN0` to `M_LEN16` (rule R236). -/
def metaLengths : List Instr :=
  [.mLen0, .mLen1, .mLen2, .mLen3, .mLen4, .mLen5, .mLen6, .mLen7, .mLen8, .mLen9, .mLen10, .mLen11, .mLen12,
   .mLen13, .mLen14, .mLen15, .mLen16]

/-- The meta-symbol decoder (rules R118, R235). -/
def decodeMeta (symbol extra : Nat) : Except DecodeError Instr :=
  if symbol > 20 then .error .badMetaSymbol
  else if 2 ^ metaExtraBits symbol ≤ extra then .error .extraTooWide
  else if symbol = 17 then .ok (.mZrunS (BitVec.ofNat 3 extra))
  else if symbol = 18 then .ok (.mZrunL (BitVec.ofNat 7 extra))
  else if symbol = 19 then .ok (.mRepS (BitVec.ofNat 2 extra))
  else if symbol = 20 then .ok (.mRepL (BitVec.ofNat 6 extra))
  else .ok (metaLengths.getD symbol .mLen0)

/-- The endpoint-reference codes (rule R123). -/
def decodeRef (c : BitVec 2) : Instr :=
  if c = 0 then .refNew
  else if c = 1 then .refLeft
  else if c = 2 then .refTop
  else .refDiag

/-- The decoder. -/
def decode : Code → Except DecodeError Instr
  | .command c => decodeCommand c
  | .metaSymbol symbol extra => decodeMeta symbol extra
  | .refCode c => .ok (decodeRef c)

/-- The encoder, from the same tables (rules R113, R118, R123). -/
def encode : Instr → Code
  | .nop => .command 0x00000000#32
  | .softReset => .command 0x01000000#32
  | .brStart => .command 0x10000000#32
  | .getBits n => .command (0x11000000#32 ||| n.setWidth 32)
  | .brStop => .command 0x12000000#32
  | .build slot => .command (0x20000000#32 ||| slot.num.setWidth 32)
  | .clear slot => .command (0x21000000#32 ||| slot.num.setWidth 32)
  | .decode slot => .command (0x22000000#32 ||| slot.num.setWidth 32)
  | .recvModel slot => .command (0x30000000#32 ||| slot.num.setWidth 32)
  | .unpack cls => .command (0x40000000#32 ||| cls.setWidth 32)
  | .mLen0 => .metaSymbol 0 0
  | .mLen1 => .metaSymbol 1 0
  | .mLen2 => .metaSymbol 2 0
  | .mLen3 => .metaSymbol 3 0
  | .mLen4 => .metaSymbol 4 0
  | .mLen5 => .metaSymbol 5 0
  | .mLen6 => .metaSymbol 6 0
  | .mLen7 => .metaSymbol 7 0
  | .mLen8 => .metaSymbol 8 0
  | .mLen9 => .metaSymbol 9 0
  | .mLen10 => .metaSymbol 10 0
  | .mLen11 => .metaSymbol 11 0
  | .mLen12 => .metaSymbol 12 0
  | .mLen13 => .metaSymbol 13 0
  | .mLen14 => .metaSymbol 14 0
  | .mLen15 => .metaSymbol 15 0
  | .mLen16 => .metaSymbol 16 0
  | .mZrunS e => .metaSymbol 17 e.toNat
  | .mZrunL e => .metaSymbol 18 e.toNat
  | .mRepS e => .metaSymbol 19 e.toNat
  | .mRepL e => .metaSymbol 20 e.toNat
  | .refNew => .refCode 0
  | .refLeft => .refCode 1
  | .refTop => .refCode 2
  | .refDiag => .refCode 3

/-- The widths of the opcode table's meta patterns, 5 bits of symbol value and the extra bits, with the symbols that have
each width (rule R118). -/
def metaPatternWidths : List Nat := [5, 8, 12, 7, 11]

/-- Splits a meta pattern of the opcode table into symbol value (the 5 leading bits) and extra field. -/
def splitMeta (width w : Nat) : Option (Nat × Nat) :=
  let symbol := w / 2 ^ (width - 5)
  if metaExtraBits symbol = width - 5 ∧ symbol ≤ 20 then some (symbol, w % 2 ^ (width - 5)) else none

/-- The code that a table word of `nbits` bits stands for. 32 bits are a command word, 2 bits an endpoint-reference code, a
pattern's own width or that width in whole bytes a meta symbol. In whole bytes the reference codes' words 0 to 3 are
also the words of `M_LEN0` to `M_LEN3`; such a word is read as the meta symbol (assumption log 2). -/
def codeOfTableWord (nbits w : Nat) : Option Code :=
  if nbits = 32 then if w < 2 ^ 32 then some (.command (BitVec.ofNat 32 w)) else none
  else if nbits = 2 then if w < 4 then some (.refCode (BitVec.ofNat 2 w)) else none
  else
    (metaPatternWidths.findSome? fun width =>
      if width = nbits ∨ (width + 7) / 8 * 8 = nbits then splitMeta width w else none).map
      fun p => .metaSymbol p.1 p.2

/-- The instruction the decoder reads from a row's word. A command word is written whole to `CMD` (rule R87: host-visible
registers are whole 32-bit words and have no byte order). -/
def decodeTableWord (nbits w : Nat) : Option Instr :=
  match codeOfTableWord nbits w with
  | none => none
  | some c =>
    match decode c with
    | .ok i => some i
    | .error _ => none

end Sys2Proof
end

