-- ==== Sys2Proof/Config.lean ====
section
/-! DEFINITION. The configuration record `CFG` of rule R15: what an implementation fixes. It is plain data that the
machine's state carries and no step changes, so that every statement about a state holds for every configuration
(rule R12: a model takes `CFG.TOTAL_SYMS_BITS` as an argument). Assumption log 1. -/

namespace Sys2Proof

/-- `CFG` (rule R15). The defaults are the spec's. -/
structure Config where
  /-- `CFG.TOTAL_SYMS_BITS`, the width of the `total_used_syms` field (rule R12). -/
  totalSymsBits : Nat := 13
  /-- `CFG.FIXED_TABLE_BITS`, which of CR1's two lookup widths is used (rule R7). No command result depends on it. -/
  fixedTableBits : Bool := false
  deriving DecidableEq, Repr

end Sys2Proof
end

