-- ==== Sys2Proof/Machine/State.lean ====
section
/-! DEFINITION. The state of the block as plain data (rules R30 to R57), the memories and palettes it reaches (rules R54,
R80), the host's pending bus actions, the outcomes' reasons, and the state after reset (rule R56). -/

namespace Sys2Proof.Machine

/-- The error kinds of rule R341. -/
inductive ErrorKind where
  | malformedHeader
  /-- Never raised by the block (rule R344): the code is kept for the host's own numbering. -/
  | corruptChecksum
  | unsupportedFormat
  | entropyError
  | argumentError
  | resourceError
  deriving DecidableEq, Repr

/-- The causes of rule R342, one constructor per row. -/
inductive Cause where
  | emptyModel
  | badLmax
  | oversubscribed
  | noCode
  /-- Listed by rule R342 as unreachable (rule R215). -/
  | indexRange
  | badNumCodelengthCodes
  | repeatNoPrev
  | runOvershoot
  /-- Listed by rule R342 as unreachable (rule R235). -/
  | badMetaSymbol
  | refSymbolRange
  | reservedRefCode
  | staleTop
  | selectorRange
  | streamOverrun
  | badOpcode
  | badNbits
  | badSlot
  | nullDst
  | misalignedDst
  | badPitch
  | dstTooSmall
  | badGeometry
  | badFaces
  | badClvN
  | badRange
  | badFmtClass
  | zeroPalette
  | blockBuffer
  deriving DecidableEq, Repr

/-- How the last command ended: it holds the bits `DONE`, `ERR`, `KIND` and `CAUSE` of `STATUS` (rule R32), of which at most
one of `DONE`, `ERR` is 1, and `KIND`, `CAUSE` are those of the raised cause (assumption log 14). -/
inductive Ending where
  /-- No command has ended since reset, or one is running: `DONE = ERR = 0`. -/
  | pending
  /-- `DONE = 1`. -/
  | done
  /-- `ERR = 1`, with its cause. -/
  | raised (cause : Cause)
  deriving DecidableEq, Repr

/-- The format classes of rule R116 that `UNPACK` serves. -/
inductive FormatClass where
  | c | ca | a | aa
  deriving DecidableEq, Repr

/-- The three index channels: colour, alpha-0, alpha-1 (rules R51, R262). -/
inductive Channel where
  | color | alpha0 | alpha1
  deriving DecidableEq, Repr

/-- Which procedure is under way inside a command. Commands are atomic (rule R320), so it is `idle` whenever the host can
look; the other values are the instants inside a command at which the stream's own instructions run (assumption log 8). -/
inductive Activity where
  | idle
  /-- In the fill loop of `RECV_MODEL` (rule R235). -/
  | receiving
  /-- In the walk of `UNPACK` (rule R261). -/
  | walking
  deriving DecidableEq, Repr

/-- The six `DST_BASE` registers (rule R31). -/
structure DstBases where
  base0 : Word
  base1 : Word
  base2 : Word
  base3 : Word
  base4 : Word
  base5 : Word
  deriving DecidableEq, Repr

/-- The host-written registers of rule R31, each as wide as its named field. -/
structure Regs where
  srcBase : Word
  srcLen : Word
  clvN : BitVec 14
  wb : BitVec 11
  hb : BitVec 11
  faces : BitVec 3
  numCE : BitVec 16
  numCS : BitVec 16
  numAE : BitVec 16
  numAS : BitVec 16
  rowPitch : Word
  dstSize : Word
  dstBase : DstBases
  deriving DecidableEq, Repr

/-- The bit reader (rules R40 to R42). -/
structure Reader where
  /-- `br.base` (rule R41). -/
  base : Word
  /-- `br.len` (rule R41). -/
  len : Word
  /-- `br.bitpos`, the position in the stream (rule R40): a natural number in the model (assumption log 24). -/
  bitpos : Nat
  /-- `br.overrun` (rule R42). -/
  overrun : Bool
  /-- `br.started` (rule R41). -/
  started : Bool
  /-- The model's own: the host has stored into the range since the reader was started, which rule R388 forbids while
  the stream is still read (assumption log 9). -/
  touched : Bool
  deriving DecidableEq, Repr

/-- A built Huffman model. Rule R48: the code-length vector is all of it, since every other field of rule R47 is a function
of the vector (rules R182 to R192); those functions are in `Machine/Huffman.lean` (assumption log 15). -/
structure Model where
  cl : List Nat
  deriving DecidableEq, Repr

/-- The eight model slots (rules R45, R46): `none` is `EMPTY` (`ready = 0`). -/
structure Slots where
  ref : Option Model
  epd0 : Option Model
  epd1 : Option Model
  seld0 : Option Model
  seld1 : Option Model
  metaCode : Option Model
  aux0 : Option Model
  aux1 : Option Model
  deriving DecidableEq, Repr

/-- The working values of `RecvModel` (rule R230). `cl` holds the entries filled so far, so that `ofs` is its length; the
entries at and above `ofs` are the zeros of rule R235. -/
structure Receiver where
  target : SlotId
  total : Nat
  cl : List Nat
  deriving DecidableEq, Repr

/-- The walker registers (rules R49 to R51, R53) and the class of the running `UNPACK` (assumption log 25). -/
structure Walker where
  cls : FormatClass
  f : Nat
  y : Nat
  x : Nat
  referenceGroup : BitVec 8
  colorEndpointIndex : Nat
  alpha0EndpointIndex : Nat
  alpha1EndpointIndex : Nat
  blocksWritten : Nat
  deriving DecidableEq, Repr

/-- One entry of `block_buffer` (rule R52). -/
structure BufEntry where
  endpointReference : BitVec 4
  colorEndpointIndex : Nat
  alpha0EndpointIndex : Nat
  alpha1EndpointIndex : Nat
  valid : Bool
  deriving DecidableEq, Repr

/-- The source and destination bytes, by address (rules R80, R85): pairs of address and byte with strictly rising
addresses. An address that is not listed has no value (assumption log 3). -/
abbrev Memory := List Host.Cell

/-- Where the four palette arrays lie in the address space of memory; `none` is an array that is not in it, such as a RAM
beside the block (rule R84). -/
structure PalettePlaces where
  ce : Option Word
  cs : Option Word
  ae : Option Word
  as : Option Word
  deriving DecidableEq, Repr

/-- What the outside does to the block: the host's bus accesses (rules R31, R57), its own stores and palettes (rules R54,
R388, R390), the reset input (rule R380); assumption log 18. -/
inductive HostAction where
  /-- A bus write of `width` bytes at a byte offset from the block's base address. -/
  | write (width offset : Nat) (value : Word)
  /-- A bus read of `width` bytes at a byte offset from the block's base address. -/
  | read (width offset : Nat)
  /-- The host stores a byte into the memory that holds sources and destinations. -/
  | store (addr : Word) (byte : Byte)
  /-- A palette is replaced: where its array lies in memory, if it lies there (rule R84), and its elements. -/
  | loadPalCE (place : Option Word) (entries : List Word)
  | loadPalCS (place : Option Word) (entries : List Word)
  | loadPalAE (place : Option Word) (entries : List (BitVec 16))
  | loadPalAS (place : Option Word) (entries : List (BitVec 16))
  /-- The platform says where it has no memory and where the block's registers lie (rules R90, R386). -/
  | platform (holes : List (Nat × Nat)) (registerBase : Option Word)
  /-- The hardware reset input. -/
  | hardReset
  /-- The host writes `c` to `CMD`, and the reset input comes when the command has written `words` words to memory; a
  command that writes fewer has then ended (rule R380; assumption log 19). -/
  | resetDuring (c : Word) (words : Nat)
  deriving DecidableEq, Repr

/-- The whole machine. -/
structure State where
  /-- `CFG` (rule R15). No step changes it. -/
  cfg : Config
  /-- The host-written registers (rule R31). -/
  regs : Regs
  /-- `RESULT` (rule R33). -/
  result : Word
  /-- `ERRINFO` (rule R34). -/
  errinfo : Word
  /-- `STATUS.DONE`, `.ERR`, `.KIND`, `.CAUSE` (rule R32). -/
  ending : Ending
  /-- `STATUS.ANYERR` (rule R32). -/
  anyErr : Bool
  /-- The RAM `CLV` (rule R37): the entries that are not 0, indices strictly rising (assumption log 27). -/
  clv : List (Nat × BitVec 5)
  /-- The bit reader (rules R40 to R42). -/
  br : Reader
  /-- The model slots (rules R45 to R48). -/
  slots : Slots
  /-- Which procedure is under way (`STATUS.BUSY`, rule R32). -/
  activity : Activity
  /-- Working values of `RecvModel` (rule R230). -/
  recv : Receiver
  /-- Walker registers (rules R49 to R51, R53). -/
  walk : Walker
  /-- `block_buffer` (rule R52): the entries that differ from the reset entry, columns strictly rising. -/
  blockBuf : List (Nat × BufEntry)
  /-- The bytes of the `SRC` and `DST` spaces (rule R80). -/
  mem : Memory
  /-- `PAL_CE` (rule R83; assumption log 13). -/
  palCE : List Word
  /-- `PAL_CS` (rule R83). -/
  palCS : List Word
  /-- `PAL_AE` (rule R83). -/
  palAE : List (BitVec 16)
  /-- `PAL_AS` (rule R83), three words per entry. -/
  palAS : List (BitVec 16)
  /-- The model's own: where the palette arrays lie (rule R84; assumption log 13). -/
  palPlaces : PalettePlaces
  /-- The model's own: the block's base address in the address space of memory, if its registers lie there (rule R90;
  assumption log 13). -/
  registerBase : Option Word
  /-- The model's own: address ranges (base, length) at which the platform has no memory (rule R386; assumption log 4). -/
  holes : List (Nat × Nat)
  /-- The model's own: what the outside does next, first action first (assumption log 18). -/
  inputs : List HostAction
  /-- The model's own: the word the last bus read returned to the host (assumption log 18). -/
  readData : Word
  deriving DecidableEq, Repr

/-- Why a step stops with a fault. -/
inductive Fault where
  /-- Raised by `runToIdle` alone, when a command has not ended within its bound of inner steps. Rule R320 says that
  every command ends; the model states that this never happens. Safe: the machine stops where the hardware goes on (assumption log 8). -/
  | unfinished
  deriving DecidableEq, Repr

/-- Why a step is refused: the traces that chapter 93 of the spec puts outside the model (`refuse`). Each is safe: the
model has no behaviour where the spec promises none. -/
inductive Refusal where
  /-- An instruction with no meaning yet; raised by no arm of this model. -/
  | notModelled (mnemonic : String)
  /-- U11, rule R57: a host access that is not an aligned 32-bit access. Raised by `step`. -/
  | badBusAccess
  /-- U10, rule R386: a source range at which there is no memory, or a source byte that nothing has written. Raised by
  the commands that read the stream, by `BR_START` and by `UNPACK`. -/
  | sourceNotBacked
  /-- U10, rule R386: a destination range at which there is no memory. Raised by `UNPACK`. -/
  | destinationNotBacked
  /-- U10, rule R386: a palette array placed at addresses without memory, raised by `UNPACK`; or a palette index outside the
  array, raised by a walk under way whose `NUM_*` exceed the arrays, which `UNPACK` refuses with `paletteMismatch`
  before it starts (rule R84). -/
  | paletteNotBacked
  /-- U10, U21, rule R390: a `NUM_*` register that is not the number of entries of its palette. Raised by `UNPACK`. -/
  | paletteMismatch
  /-- U21, rule R389: destination ranges that overlap one another, the source range, a palette array or the block's
  registers. Raised by `UNPACK`. -/
  | overlappingRanges
  /-- U21, rule R388: the host changed the source range under a started reader and reads on. Raised by the commands that
  read the stream. -/
  | sourceChanged
  deriving DecidableEq, Repr

/-- The outcome of one step. -/
abbrev Result := Host.Outcome State Fault Refusal

/-- No palette lies in memory. -/
def PalettePlaces.reset : PalettePlaces := ⟨none, none, none, none⟩

def DstBases.reset : DstBases := ⟨0, 0, 0, 0, 0, 0⟩

/-- Every host-written register is 0 after reset (rule R56). -/
def Regs.reset : Regs := ⟨0, 0, 0, 0, 0, 0, 0, 0, 0, 0, 0, 0, DstBases.reset⟩

/-- The reader after reset: not started, all fields 0 (rule R56). -/
def Reader.reset : Reader := ⟨0, 0, 0, false, false, false⟩

/-- All slots `EMPTY` (rule R56). -/
def Slots.reset : Slots := ⟨none, none, none, none, none, none, none, none⟩

/-- Working values, which rule R230 gives no reset value; zero (assumption log 5). -/
def Receiver.reset : Receiver := ⟨.ref, 0, []⟩

/-- Walker registers, which rule R56 leaves unspecified; zero (assumption log 5). -/
def Walker.reset : Walker := ⟨.c, 0, 0, 0, 0, 0, 0, 0, 0⟩

/-- A `block_buffer` entry after reset: `valid = 0` (rule R56), the unspecified rest zero (assumption log 5). -/
def BufEntry.reset : BufEntry := ⟨0, 0, 0, 0, false⟩

/-- The machine right after reset (rule R56), with nothing placed in memory and nothing pending. -/
def State.reset : State where
  cfg := {}
  regs := Regs.reset
  result := 0
  errinfo := 0
  ending := .pending
  anyErr := false
  clv := []
  br := Reader.reset
  slots := Slots.reset
  activity := .idle
  recv := Receiver.reset
  walk := Walker.reset
  blockBuf := []
  mem := []
  palCE := []
  palCS := []
  palAE := []
  palAS := []
  palPlaces := PalettePlaces.reset
  registerBase := none
  holes := []
  inputs := []
  readData := 0

end Sys2Proof.Machine
end

