-- ==== Sys2Proof/Machine/Flags.lean ====
section
/-! DEFINITION. The flags: `STATUS` and its codes (rules R32, R55, R341, R342) and the packing of `ERRINFO` (rule R34). -/

namespace Sys2Proof.Machine

/-- `STATUS.KIND` codes (rule R341). -/
def ErrorKind.code : ErrorKind → BitVec 3
  | .malformedHeader => 1
  | .corruptChecksum => 2
  | .unsupportedFormat => 3
  | .entropyError => 4
  | .argumentError => 5
  | .resourceError => 6

/-- The kind of each cause (rule R342). -/
def Cause.kind : Cause → ErrorKind
  | .emptyModel | .badLmax | .oversubscribed | .noCode | .indexRange | .badNumCodelengthCodes
  | .repeatNoPrev | .runOvershoot | .badMetaSymbol | .refSymbolRange | .reservedRefCode
  | .staleTop | .selectorRange | .streamOverrun => .entropyError
  | .badOpcode | .badNbits | .badSlot | .nullDst | .misalignedDst | .badPitch | .dstTooSmall
  | .badGeometry | .badFaces | .badClvN | .badRange => .argumentError
  | .badFmtClass => .unsupportedFormat
  | .zeroPalette => .malformedHeader
  | .blockBuffer => .resourceError

/-- `STATUS.CAUSE` codes (rule R342). -/
def Cause.code : Cause → BitVec 8
  | .emptyModel => 0x01
  | .badLmax => 0x02
  | .oversubscribed => 0x03
  | .noCode => 0x04
  | .indexRange => 0x05
  | .badNumCodelengthCodes => 0x06
  | .repeatNoPrev => 0x07
  | .runOvershoot => 0x08
  | .badMetaSymbol => 0x09
  | .refSymbolRange => 0x0A
  | .reservedRefCode => 0x0B
  | .staleTop => 0x0C
  | .selectorRange => 0x0D
  | .streamOverrun => 0x0E
  | .badOpcode => 0x20
  | .badNbits => 0x21
  | .badSlot => 0x22
  | .nullDst => 0x23
  | .misalignedDst => 0x24
  | .badPitch => 0x25
  | .dstTooSmall => 0x26
  | .badGeometry => 0x27
  | .badFaces => 0x28
  | .badClvN => 0x29
  | .badRange => 0x2A
  | .badFmtClass => 0x30
  | .zeroPalette => 0x40
  | .blockBuffer => 0x50

/-- `STATUS.DONE`. -/
def Ending.doneBit : Ending → Bool
  | .done => true
  | .pending | .raised _ => false

/-- `STATUS.ERR`. -/
def Ending.errBit : Ending → Bool
  | .raised _ => true
  | .pending | .done => false

/-- `STATUS.KIND`, 0 when `ERR = 0`. -/
def Ending.kindField : Ending → BitVec 3
  | .raised c => c.kind.code
  | .pending | .done => 0

/-- `STATUS.CAUSE`, 0 when `ERR = 0`. -/
def Ending.causeField : Ending → BitVec 8
  | .raised c => c.code
  | .pending | .done => 0

/-- `STATUS.BUSY`: a command is running (rule R32). -/
def State.busy (s : State) : Bool := s.activity ≠ .idle

/-- The word a read of `STATUS` returns (rule R32): reserved bits 31:16, `CAUSE` 15:8, `ANYERR` 7, `KIND` 6:4, `OVERRUN` 3,
`ERR` 2, `DONE` 1, `BUSY` 0. `OVERRUN` mirrors `br.overrun` (rule R42). -/
def State.status (s : State) : Word :=
  0#16 ++ s.ending.causeField ++ BitVec.ofBool s.anyErr ++ s.ending.kindField ++ BitVec.ofBool s.br.overrun
    ++ BitVec.ofBool s.ending.errBit ++ BitVec.ofBool s.ending.doneBit ++ BitVec.ofBool s.busy

/-- `ERRINFO` (rule R34): reserved 31:28, `SLOT` 27:25, `F` 24:22, `Y` 21:11, `X` 10:0. -/
def packErrinfo (slot : BitVec 3) (f y x : Nat) : Word :=
  0#4 ++ slot ++ BitVec.ofNat 3 f ++ BitVec.ofNat 11 y ++ BitVec.ofNat 11 x

end Sys2Proof.Machine
end

