-- ==== Sys2Proof/Machine/Operands.lean ====
section
/-! DEFINITION. What operands select: the constants of the meta-code (rules R9 to R11), the format classes with their
channels, models and palettes (rules R116, R262), and the quantities of the geometry that are computed from
registers (rules R265, R266). -/

namespace Sys2Proof.Machine

/-- `META_ORDER` (rule R10). -/
def metaOrder : List Nat :=
  [17, 18, 19, 20, 0, 8, 7, 9, 6, 10, 5, 11, 4, 12, 3, 13, 2, 14, 1, 15, 16]

/-- `META_SYMS` (rule R9). -/
def metaSyms : Nat := 21
/-- `META_SIZE_BITS` (rule R9). -/
def metaSizeBits : Nat := 3
/-- `META_COUNT_BITS` (rule R9). -/
def metaCountBits : Nat := 5
/-- `MAX_CODE_SIZE` (rule R6). -/
def maxCodeSize : Nat := 16
/-- `MAX_TABLE_BITS` (rule R7). -/
def maxTableBits : Nat := 11
/-- `MAX_GET_BITS` (rule R8). -/
def maxGetBits : Nat := 32
/-- `BLOCK_BUF_DEPTH` (rule R13). -/
def blockBufDepth : Nat := 1024

/-- The added constants of the run symbols (rule R11). -/
def zrunSBase : Nat := 3
def zrunLBase : Nat := 11
def repSBase : Nat := 3
def repLBase : Nat := 7

/-- `CFG.MAX_SUPPORTED_SYMS` (rule R12). -/
def maxSupportedSyms (cfg : Config) : Nat := 2 ^ cfg.totalSymsBits - 1

/-- `CLV_DEPTH` (rule R14). -/
def clvDepth (cfg : Config) : Nat := 2 ^ cfg.totalSymsBits

/-- The class that a `cls` operand names; `none` for the reserved codes 4 to 15 (rule R116). -/
def FormatClass.ofCode (cls : BitVec 4) : Option FormatClass :=
  if cls = 0 then some .c
  else if cls = 1 then some .ca
  else if cls = 2 then some .a
  else if cls = 3 then some .aa
  else none

/-- The channels of a class in stream order: its accumulators, and its selectors, which are one per accumulator (rule R262;
the order is the spec's decision D21). -/
def FormatClass.channels : FormatClass → List Channel
  | .c => [.color]
  | .ca => [.color, .alpha0]
  | .a => [.alpha0]
  | .aa => [.alpha0, .alpha1]

/-- 32-bit words a visible block emits (rule R262). -/
def FormatClass.words : FormatClass → Nat
  | .c => 2
  | .ca => 4
  | .a => 2
  | .aa => 4

/-- `bpb`, bytes per block (rule R262). -/
def FormatClass.bpb (cls : FormatClass) : Nat := 4 * cls.words

/-- `e(a)`, the delta model of an accumulator (rule R262). -/
def Channel.deltaSlot : Channel → SlotId
  | .color => .epd0
  | .alpha0 => .epd1
  | .alpha1 => .epd1

/-- `m(q)`, the model of a selector (rule R262). -/
def Channel.selectorSlot : Channel → SlotId
  | .color => .seld0
  | .alpha0 => .seld1
  | .alpha1 => .seld1

/-- `n(a)`, the size of an accumulator's endpoint palette (rule R262). -/
def Regs.endpointCount (r : Regs) : Channel → Nat
  | .color => r.numCE.toNat
  | .alpha0 => r.numAE.toNat
  | .alpha1 => r.numAE.toNat

/-- `n(q)`, the size of a selector's palette (rule R262). -/
def Regs.selectorCount (r : Regs) : Channel → Nat
  | .color => r.numCS.toNat
  | .alpha0 => r.numAS.toNat
  | .alpha1 => r.numAS.toNat

/-- `v` rounded up to an even number, `(v + 1) & ~1` (rule R16). -/
def roundUpEven (v : Nat) : Nat := (v + 1) / 2 * 2

/-- `WBp` (rule R265). -/
def Regs.wbp (r : Regs) : Nat := roundUpEven r.wb.toNat

/-- `HBp` (rule R265). -/
def Regs.hbp (r : Regs) : Nat := roundUpEven r.hb.toNat

/-- `DST_BASE[f]`; there is no register for `f ≥ 6`, and no rule reads one. -/
def DstBases.get (d : DstBases) (f : Nat) : Word :=
  if f = 0 then d.base0
  else if f = 1 then d.base1
  else if f = 2 then d.base2
  else if f = 3 then d.base3
  else if f = 4 then d.base4
  else d.base5

/-- Writes `DST_BASE[f]`, `f < 6`. -/
def DstBases.set (d : DstBases) (f : Nat) (v : Word) : DstBases :=
  if f = 0 then { d with base0 := v }
  else if f = 1 then { d with base1 := v }
  else if f = 2 then { d with base2 := v }
  else if f = 3 then { d with base3 := v }
  else if f = 4 then { d with base4 := v }
  else { d with base5 := v }

/-- The row pitch (rule R266). -/
def Regs.pitch (r : Regs) (cls : FormatClass) : Nat :=
  if r.rowPitch = 0 then cls.bpb * r.wb.toNat else r.rowPitch.toNat

/-- The destination address of block `(f, y, x)` (rule R301). -/
def Regs.blockAddr (r : Regs) (cls : FormatClass) (f y x : Nat) : Nat :=
  (r.dstBase.get f).toNat + y * r.pitch cls + x * cls.bpb

/-- A block is visible when `x < WB` and `y < HB` (rule R277). -/
def Regs.visible (r : Regs) (y x : Nat) : Bool := x < r.wb.toNat && y < r.hb.toNat

/-- The accumulator of a channel (rule R51). -/
def Walker.index (w : Walker) : Channel → Nat
  | .color => w.colorEndpointIndex
  | .alpha0 => w.alpha0EndpointIndex
  | .alpha1 => w.alpha1EndpointIndex

def Walker.setIndex (w : Walker) (ch : Channel) (v : Nat) : Walker :=
  match ch with
  | .color => { w with colorEndpointIndex := v }
  | .alpha0 => { w with alpha0EndpointIndex := v }
  | .alpha1 => { w with alpha1EndpointIndex := v }

/-- The index field of a channel in a `block_buffer` entry (rule R52). -/
def BufEntry.index (e : BufEntry) : Channel → Nat
  | .color => e.colorEndpointIndex
  | .alpha0 => e.alpha0EndpointIndex
  | .alpha1 => e.alpha1EndpointIndex

def BufEntry.setIndex (e : BufEntry) (ch : Channel) (v : Nat) : BufEntry :=
  match ch with
  | .color => { e with colorEndpointIndex := v }
  | .alpha0 => { e with alpha0EndpointIndex := v }
  | .alpha1 => { e with alpha1EndpointIndex := v }

/-- The selector indices of one block, `cs`, `as0`, `as1` (rule R275): values of one block step, not state. -/
structure Selectors where
  cs : Nat := 0
  as0 : Nat := 0
  as1 : Nat := 0
  deriving DecidableEq, Repr

def Selectors.set (q : Selectors) (ch : Channel) (v : Nat) : Selectors :=
  match ch with
  | .color => { q with cs := v }
  | .alpha0 => { q with as0 := v }
  | .alpha1 => { q with as1 := v }

/-- `ofs` of the fill loop (rule R235). -/
def Receiver.ofs (r : Receiver) : Nat := r.cl.length

/-- `rem = total − ofs` (rule R235). -/
def Receiver.rem (r : Receiver) : Nat := r.total - r.ofs

end Sys2Proof.Machine
end

