-- ==== Sys2Proof/Machine/Ops.lean ====
section
/-! DEFINITION. The named operations over memory, registers, slots and the bit reader, and how a command begins, ends and
raises an error. -/

namespace Sys2Proof.Machine

/-! ### Sparse data by key: memory, `CLV`, `block_buffer` -/

/-- The value at a key, if one is listed. -/
def lookupCell {α : Type} : List (Nat × α) → Nat → Option α
  | [], _ => none
  | (k, v) :: m, a => if a = k then some v else lookupCell m a

/-- Writes the value at a key, keeping the keys strictly rising. -/
def putCell {α : Type} : List (Nat × α) → Nat → α → List (Nat × α)
  | [], a, v => [(a, v)]
  | (k, w) :: m, a, v =>
    if a < k then (a, v) :: (k, w) :: m
    else if a = k then (a, v) :: m
    else (k, w) :: putCell m a v

/-- Takes a key out. -/
def dropCell {α : Type} : List (Nat × α) → Nat → List (Nat × α)
  | [], _ => []
  | (k, w) :: m, a => if a = k then dropCell m a else (k, w) :: dropCell m a

/-- Writes a value where an unlisted key reads as `d`: writing `d` takes the key out. -/
def putOr {α : Type} [DecidableEq α] (d : α) (m : List (Nat × α)) (a : Nat) (v : α) : List (Nat × α) :=
  if v = d then dropCell m a else putCell m a v

/-- The value at a key where an unlisted key reads as `d`. -/
def lookupOr {α : Type} (d : α) (m : List (Nat × α)) (a : Nat) : α := (lookupCell m a).getD d

/-- Keys strictly rising. -/
abbrev keysRise {α : Type} (m : List (Nat × α)) : Prop := m.Pairwise fun a b => a.1 < b.1

/-- No entry equal to what an unlisted key reads as. -/
abbrev noneIs {α : Type} (d : α) (m : List (Nat × α)) : Prop := ∀ c ∈ m, c.2 ≠ d

/-- The canonical form of memory. An unlisted address has no value, so no entry can equal it. -/
abbrev Memory.wf (m : Memory) : Prop := keysRise m

/-- What a byte of memory reads as; `none` where nothing has written one (assumption log 3). -/
def Memory.read (m : Memory) (a : Nat) : Option Byte := lookupCell m a

/-- Writes one byte. -/
def Memory.write (m : Memory) (a : Nat) (b : Byte) : Memory := putCell m a b

/-- `MemWrite(addr, 4, w)`: little-endian (rule R86). -/
def Memory.writeWord (m : Memory) (a : Nat) (w : Word) : Memory :=
  (((m.write a (w.extractLsb' 0 8)).write (a + 1) (w.extractLsb' 8 8)).write (a + 2) (w.extractLsb' 16 8)).write
    (a + 3) (w.extractLsb' 24 8)

/-- The words of a block, in increasing address order (rules R89, R301). -/
def Memory.writeWords (m : Memory) (a : Nat) : List Word → Memory
  | [] => m
  | w :: ws => Memory.writeWords (m.writeWord a w) (a + 4) ws

/-! ### Slots, `CLV`, `block_buffer` -/

/-- `slot[k]` (rule R45). -/
def Slots.get (t : Slots) : SlotId → Option Model
  | .ref => t.ref
  | .epd0 => t.epd0
  | .epd1 => t.epd1
  | .seld0 => t.seld0
  | .seld1 => t.seld1
  | .metaCode => t.metaCode
  | .aux0 => t.aux0
  | .aux1 => t.aux1

def Slots.set (t : Slots) (k : SlotId) (m : Option Model) : Slots :=
  match k with
  | .ref => { t with ref := m }
  | .epd0 => { t with epd0 := m }
  | .epd1 => { t with epd1 := m }
  | .seld0 => { t with seld0 := m }
  | .seld1 => { t with seld1 := m }
  | .metaCode => { t with metaCode := m }
  | .aux0 => { t with aux0 := m }
  | .aux1 => { t with aux1 := m }

def State.slot (s : State) (k : SlotId) : Option Model := s.slots.get k

/-- `slot[k].ready <- 0` with `none`, installing a model with `some`. -/
def State.setSlot (s : State) (k : SlotId) (m : Option Model) : State :=
  { s with slots := s.slots.set k m }

/-- `CLV[i]` (rule R37). -/
def State.clvAt (s : State) (i : Nat) : BitVec 5 := lookupOr 0 s.clv i

/-- The vector that `BUILD` reads: `CLV[0..n−1]` (rule R180). -/
def State.clvVector (s : State) (n : Nat) : List Nat := (List.range n).map fun i => (s.clvAt i).toNat

/-- `block_buffer[x]` (rule R52). -/
def bufEntry (b : List (Nat × BufEntry)) (x : Nat) : BufEntry := lookupOr BufEntry.reset b x

def setBufEntry (b : List (Nat × BufEntry)) (x : Nat) (e : BufEntry) : List (Nat × BufEntry) :=
  putOr BufEntry.reset b x e

/-- `for i = 0 .. n − 1: block_buffer[i].valid <- 0` (rule R267). -/
def clearValid : Nat → List (Nat × BufEntry) → List (Nat × BufEntry)
  | 0, b => b
  | n + 1, b => clearValid n (setBufEntry b n { bufEntry b n with valid := false })

/-- The entry of the walker's column. -/
def State.entry (s : State) : BufEntry := bufEntry s.blockBuf s.walk.x

def State.setEntry (s : State) (e : BufEntry) : State :=
  { s with blockBuf := setBufEntry s.blockBuf s.walk.x e }

/-! ### What a procedure answers -/

/-- The result of an inner procedure: it runs to its end, it reaches a `raise` (with the cause and the value of
`ERRINFO.SLOT`; the state is the one reached at the `raise`, rule R345), or the trace is refused. -/
inductive Res (α : Type) where
  | ok (a : α) (s : State)
  | err (c : Cause) (slot : BitVec 3) (s : State)
  | refused (r : Refusal)
  deriving DecidableEq, Repr

/-- Goes on with a procedure where the one before ran to its end. -/
def Res.andThen {α β : Type} (r : Res α) (f : α → State → Res β) : Res β :=
  match r with
  | .ok a s => f a s
  | .err c k s => .err c k s
  | .refused r => .refused r

/-! ### Beginning, ending, raising -/

/-- What a write of `CMD` does before the command's own rule: `DONE`, `ERR`, `KIND`, `CAUSE` become 0 (rule R324). -/
def State.startCommand (s : State) : State := { s with ending := .pending }

/-- What every command does when it has run to its end: `DONE <- 1`, `BUSY <- 0` (rule R324). -/
def State.finishCommand (s : State) : State := { s with ending := .done, activity := .idle }

/-- `raise Kind(CAUSE)` (rule R345): `STATUS` records the cause, `ANYERR` is set, `ERRINFO` gets the position and the
slot, the command ends. Everything the command changed before stays changed. -/
def State.raise (s : State) (c : Cause) (slot : BitVec 3) (f y x : Nat) : State :=
  { s with ending := .raised c, anyErr := true, errinfo := packErrinfo slot f y x, activity := .idle }

/-- A `raise` outside the walk of `UNPACK`: position 0 (rule R345). -/
def State.raiseAt0 (s : State) (c : Cause) (slot : BitVec 3) : State := s.raise c slot 0 0 0

/-- `RESULT <- v`. -/
def State.setResult (s : State) (v : Word) : State := { s with result := v }

/-- A `raise` inside the walk of `UNPACK`: `RESULT <- blocks_written` (rule R261), the walker's position (rule R278). -/
def State.raiseInWalk (s : State) (c : Cause) (slot : BitVec 3) : State :=
  (s.setResult (BitVec.ofNat 32 s.walk.blocksWritten)).raise c slot s.walk.f s.walk.y s.walk.x

/-- Runs a command's rule between its beginning and its end (rule R324). -/
def runCommand (body : State → Res Unit) (s : State) : Result :=
  match body s.startCommand with
  | .ok _ t => .next t.finishCommand
  | .err c k t => .next (t.raiseAt0 c k)
  | .refused r => .refused r

/-- The illegal command word: `raise ArgumentError(BAD_OPCODE)`, nothing else (rule R323). -/
def execIllegal (s : State) : Result := runCommand (fun t => .err .badOpcode 0 t) s

/-! ### The bit reader: chapter 40, first layer -/

/-- The length of the range the reader reads: `br.len`, or 0 for a reader not started since reset (rules R41, R155). -/
def Reader.rangeLen (r : Reader) : Nat := if r.started then r.len.toNat else 0

/-- `StreamBit(i)` (rule R150): bit `7 − (i mod 8)` of byte `i div 8` of the range, 0 past its end. A byte inside the range
that has no value, or a range the host has changed under the reader, refuses the trace (rules R386, R388). -/
def State.streamBit (s : State) (i : Nat) : Except Refusal Bool :=
  if i / 8 < s.br.rangeLen then
    if s.br.touched then .error .sourceChanged
    else
      match s.mem.read (s.br.base.toNat + i / 8) with
      | none => .error .sourceNotBacked
      | some b => .ok (b.getLsbD (7 - i % 8))
  else .ok false

/-- The `n` stream bits from position `pos`, the first one most significant (rule R151). -/
def State.bitsAt (s : State) (pos : Nat) : Nat → Except Refusal Nat
  | 0 => .ok 0
  | n + 1 =>
    match s.bitsAt pos n with
    | .error r => .error r
    | .ok v =>
      match s.streamBit (pos + n) with
      | .error r => .error r
      | .ok b => .ok (2 * v + b.toNat)

/-- `PeekBits(n)` (rule R151). -/
def State.peekBits (s : State) (n : Nat) : Except Refusal Nat := s.bitsAt s.br.bitpos n

/-- `Consume(n)` (rule R152). -/
def State.consume (s : State) (n : Nat) : State :=
  { s with
    br := { s.br with
      bitpos := s.br.bitpos + n
      overrun := s.br.overrun || decide (8 * s.br.rangeLen < s.br.bitpos + n) } }

/-- `GetBits(n)` (rule R153). -/
def State.getBits (s : State) (n : Nat) : Res Nat :=
  match s.peekBits n with
  | .error r => .refused r
  | .ok v => .ok v (s.consume n)

/-- Starts the reader on the range that `SRC_BASE`, `SRC_LEN` name (rules R156, R264). -/
def State.startReader (s : State) : State :=
  { s with
    br := { base := s.regs.srcBase, len := s.regs.srcLen, bitpos := 0, overrun := false, started := true,
            touched := false } }

/-! ### Address ranges -/

/-- Two ranges (base, length) share an address. -/
def rangesMeet (a b : Nat × Nat) : Bool :=
  decide (0 < a.2) && decide (0 < b.2) && decide (a.1 < b.1 + b.2) && decide (b.1 < a.1 + a.2)

/-- Some two of the ranges share an address. -/
def someMeet : List (Nat × Nat) → Bool
  | [] => false
  | r :: rs => rs.any (rangesMeet r) || someMeet rs

/-- The range names addresses at which the platform has no memory (rule R386). -/
def State.inHole (s : State) (r : Nat × Nat) : Bool := s.holes.any (rangesMeet r)

/-- The range `SRC_BASE`, `SRC_LEN` (rule R36). -/
def Regs.srcRange (r : Regs) : Nat × Nat := (r.srcBase.toNat, r.srcLen.toNat)

/-- The range of face `f` (rule R85). -/
def Regs.dstRange (r : Regs) (f : Nat) : Nat × Nat := ((r.dstBase.get f).toNat, r.dstSize.toNat)

/-- The addresses an array of `n` elements of `width` bytes takes, if it lies in memory. -/
def placedRange (place : Option Word) (width n : Nat) : List (Nat × Nat) :=
  place.toList.map fun base => (base.toNat, width * n)

/-- The ranges of the palette arrays that lie in memory (rules R83, R84). -/
def State.paletteRanges (s : State) : List (Nat × Nat) :=
  placedRange s.palPlaces.ce 4 s.palCE.length ++ placedRange s.palPlaces.cs 4 s.palCS.length ++
    placedRange s.palPlaces.ae 2 s.palAE.length ++ placedRange s.palPlaces.as 2 s.palAS.length

/-- `base + size > 2^32` (rules R81, R91). -/
def crosses32 (r : Nat × Nat) : Bool := decide (2 ^ 32 < r.1 + r.2)

/-! ### Reset -/

/-- Every piece of the block's state at its reset value (rules R56, R380). What is not state of the block (rule R54: memory,
palettes, configuration; and the host's side) stays (assumption log 20). -/
def State.blockReset (s : State) : State :=
  { State.reset with
    cfg := s.cfg, mem := s.mem, palCE := s.palCE, palCS := s.palCS, palAE := s.palAE, palAS := s.palAS,
    palPlaces := s.palPlaces, registerBase := s.registerBase, holes := s.holes, inputs := s.inputs, readData := s.readData }

end Sys2Proof.Machine
end

