-- ==== Sys2Proof/Machine/Huffman.lean ====
section
/-! DEFINITION. The canonical-Huffman builder and the decode engine: chapters 41 and 42. Every field of a slot (rule R47) is
a function of the code-length vector (rule R48). -/

namespace Sys2Proof.Machine

/-- The code lengths 1 to 16. -/
def codeLengths : List Nat := [1, 2, 3, 4, 5, 6, 7, 8, 9, 10, 11, 12, 13, 14, 15, 16]

/-- `N`, the alphabet size. -/
def Model.alphabet (m : Model) : Nat := m.cl.length

/-- `cl[i]`. -/
def Model.lengthOf (m : Model) (i : Nat) : Nat := m.cl.getD i 0

/-- `num[ℓ]`, for `ℓ ≥ 1` (rule R182). -/
def Model.num (m : Model) (l : Nat) : Nat := m.cl.count l

/-- `total_used` (rule R182). -/
def Model.totalUsed (m : Model) : Nat := (codeLengths.map m.num).sum

/-- `min_size` (rule R182). -/
def Model.minSize (m : Model) : Nat := (codeLengths.find? fun l => decide (0 < m.num l)).getD 0

/-- `L_max` (rule R182). -/
def Model.lMax (m : Model) : Nat := (codeLengths.reverse.find? fun l => decide (0 < m.num l)).getD 0

/-- `first[ℓ]`, for `ℓ ≥ 1`: `first[1] = 0`, `first[ℓ+1] = (first[ℓ] + num[ℓ]) · 2` (rule R183). -/
def Model.first (m : Model) : Nat → Nat
  | 0 => 0
  | l + 1 => if l = 0 then 0 else (m.first l + m.num l) * 2

/-- `rank(s)` (rule R183). -/
def Model.rank (m : Model) (s : Nat) : Nat := (m.cl.take s).count (m.lengthOf s)

/-- `code(s)`, a number of `cl[s]` bits (rule R183). -/
def Model.code (m : Model) (s : Nat) : Nat := m.first (m.lengthOf s) + m.rank s

/-- `base[ℓ]`, for `ℓ ≥ 1` (rule R185). -/
def Model.base (m : Model) : Nat → Nat
  | 0 => 0
  | l + 1 => if l = 0 then 0 else m.base l + m.num l

/-- The symbols of length `ℓ` in ascending order. -/
def Model.symbolsOf (m : Model) (l : Nat) : List Nat :=
  (List.range m.alphabet).filter fun i => m.lengthOf i = l

/-- `sorted`, the sorted symbol order (rule R186). -/
def Model.sorted (m : Model) : List Nat := codeLengths.flatMap m.symbolsOf

/-- `max_codes[ℓ]` (rule R187). -/
def Model.maxCode (m : Model) (l : Nat) : Nat :=
  if m.num l = 0 then 0 else (m.first l + m.num l) * 2 ^ (16 - l)

/-- `val_ptr[ℓ]`, signed (rule R188). -/
def Model.valPtr (m : Model) (l : Nat) : Int := (m.base l : Int) - (m.first l : Int)

/-- `T` (rule R189). -/
def Model.tableBits (m : Model) (cfg : Config) : Nat :=
  if cfg.fixedTableBits then maxTableBits else min m.lMax maxTableBits

/-- `lookup[i]`: the used symbol of length at most `T` whose codeword is the top bits of the `T`-bit number `i`, with its
length; `none` is CR1's sentinel (rule R190). -/
def Model.lookup (m : Model) (cfg : Config) (i : Nat) : Option (Nat × Nat) :=
  let t := m.tableBits cfg
  ((List.range m.alphabet).find? fun s =>
    decide (0 < m.lengthOf s) && decide (m.lengthOf s ≤ t) && decide (i / 2 ^ (t - m.lengthOf s) = m.code s)).map
    fun s => (s, m.lengthOf s)

/-- `ℓ*`, the largest used length at most `T` (rule R191). -/
def Model.lStar (m : Model) (cfg : Config) : Option Nat :=
  codeLengths.reverse.find? fun l => decide (l ≤ m.tableBits cfg) && decide (0 < m.num l)

/-- `table_max_code` (rule R191). -/
def Model.tableMaxCode (m : Model) (cfg : Config) : Nat :=
  match m.lStar cfg with
  | some l => m.maxCode l
  | none => 0

/-- `decode_start` (rule R192): 17 when there is no longer used length. -/
def Model.decodeStart (m : Model) (cfg : Config) : Nat :=
  (codeLengths.find? fun l => decide ((m.lStar cfg).getD 0 < l) && decide (0 < m.num l)).getD 17

/-- Over-subscription (rule R184). -/
def Model.oversubscribed (m : Model) : Bool :=
  codeLengths.any fun l => decide (0 < m.num l) && decide (2 ^ l < m.first l + m.num l)

/-- `2^16` times the Kraft sum `Σ 2^−cl[s]` over the used symbols of a vector of lengths at most 16 (rule R184). -/
def kraftSum (cl : List Nat) : Nat := (cl.map fun l => if l = 0 then 0 else 2 ^ (16 - l)).sum

/-- Symbol `s` is used and its codeword is the leading bits of the 16-bit number `w` (rule R183). -/
def Model.leads (m : Model) (s w : Nat) : Prop :=
  s < m.alphabet ∧ 0 < m.lengthOf s ∧ w / 2 ^ (16 - m.lengthOf s) = m.code s

/-- `Build(cl)`: the checks of rule R181 in their order, then the slot's contents. -/
def buildModel (cl : List Nat) : Except Cause Model :=
  if cl.length = 0 then .error .emptyModel
  else if cl.any fun l => decide (maxCodeSize < l) then .error .badLmax
  else if cl.all fun l => decide (l = 0) then .error .badLmax
  else if Model.oversubscribed ⟨cl⟩ then .error .oversubscribed
  else .ok ⟨cl⟩

/-- `min L`: the smallest length with `k ≤ max_codes[ℓ]`, where `k = w + 1` (rule R210). -/
def Model.matchLength (m : Model) (w : Nat) : Option Nat :=
  codeLengths.find? fun l => decide (w + 1 ≤ m.maxCode l)

/-- `val_ptr[ℓ] + (w >> (16 − ℓ))` (rule R210). -/
def Model.symbolIndex (m : Model) (l w : Nat) : Int := m.valPtr l + ((w / 2 ^ (16 - l) : Nat) : Int)

/-- What rule R210 finds in 16 bits of lookahead: the symbol and its length, or the cause it raises. -/
def Model.decodeBits (m : Model) (w : Nat) : Except Cause (Nat × Nat) :=
  match m.matchLength w with
  | none => .error .noCode
  | some l =>
    if m.symbolIndex l w < 0 ∨ (m.alphabet : Int) ≤ m.symbolIndex l w then .error .indexRange
    else .ok (m.sorted.getD (m.symbolIndex l w).toNat 0, l)

/-- The same by CR1's structure, lookup and tail search (rule R212). The lookup entry of the first branch is never the
sentinel; the definition, which must answer something, answers `NO_CODE` there (assumption log 28). -/
def Model.decodeBitsFast (m : Model) (cfg : Config) (w : Nat) : Except Cause (Nat × Nat) :=
  if w + 1 ≤ m.tableMaxCode cfg then
    match m.lookup cfg (w / 2 ^ (16 - m.tableBits cfg)) with
    | some e => .ok e
    | none => .error .noCode
  else
    match codeLengths.find? fun l => decide (m.decodeStart cfg ≤ l) && decide (w + 1 ≤ m.maxCode l) with
    | none => .error .noCode
    | some l =>
      if m.symbolIndex l w < 0 ∨ (m.alphabet : Int) ≤ m.symbolIndex l w then .error .indexRange
      else .ok (m.sorted.getD (m.symbolIndex l w).toNat 0, l)

/-- `Decode(s)` over either way of finding the symbol: an `EMPTY` slot and a lookahead without a symbol consume nothing. -/
def State.decodeWith (s : State) (k : SlotId) (find : Model → Nat → Except Cause (Nat × Nat)) : Res Nat :=
  match s.slot k with
  | none => .err .emptyModel k.num s
  | some m =>
    match s.peekBits 16 with
    | .error r => .refused r
    | .ok w =>
      match find m w with
      | .error c => .err c k.num s
      | .ok e => .ok e.1 (s.consume e.2)

/-- `Decode(s)`, the definition (rule R210). -/
def State.decodeSymbol (s : State) (k : SlotId) : Res Nat := s.decodeWith k Model.decodeBits

/-- `Decode(s)` by CR1's structure (rule R212). -/
def State.decodeSymbolFast (s : State) (k : SlotId) : Res Nat :=
  s.decodeWith k fun m w => m.decodeBitsFast s.cfg w

end Sys2Proof.Machine
end

