-- ==== Sys2Proof/Machine/Tables.lean ====
section
/-! DEFINITION. The commands over model slots: `BUILD`, `CLEAR` (chapter 41), `DECODE` (chapter 42). -/

namespace Sys2Proof.Machine

/-- Empties a slot, builds a vector and installs the result; a failed build leaves the slot `EMPTY` and reports it (rules
R193, R234, R242). -/
def State.installModel (s : State) (k : SlotId) (cl : List Nat) : Res Unit :=
  match buildModel cl with
  | .error c => .err c k.num (s.setSlot k none)
  | .ok m => .ok () (s.setSlot k (some m))

/-- Rule R193 between the command's beginning and its end. `BAD_CLV_N` is raised before any slot is being built, so
`ERRINFO.SLOT` is 0 (assumption log 6). -/
def buildBody (k : SlotId) (s : State) : Res Unit :=
  if maxSupportedSyms s.cfg < s.regs.clvN.toNat then .err .badClvN 0 s
  else
    (s.installModel k (s.clvVector s.regs.clvN.toNat)).andThen fun _ t =>
      .ok () (t.setResult (t.regs.clvN.setWidth 32))

/-- `BUILD slot` (rule R193). -/
def execBuild (k : SlotId) (s : State) : Result := runCommand (buildBody k) s

/-- `CLEAR slot` (rule R194). -/
def execClear (k : SlotId) (s : State) : Result := runCommand (fun t => .ok () (t.setSlot k none)) s

/-- `DECODE slot` (rule R214). -/
def execDecode (k : SlotId) (s : State) : Result :=
  runCommand (fun t => (t.decodeSymbol k).andThen fun v u => .ok () (u.setResult (BitVec.ofNat 32 v))) s

end Sys2Proof.Machine
end

