-- ==== Sys2Proof/Machine/MetaCode.lean ====
section
/-! DEFINITION. The meta-code decoder (chapter 43): the meanings of the 21 meta symbols on the working values of
`RecvModel`, how a meta symbol is fetched from the stream, the header before the fill loop and the completion after it. -/

namespace Sys2Proof.Machine

/-! ### The meta symbols -/

/-- Writes entries at `cl[ofs ..]` and moves `ofs` past them. -/
def State.appendLengths (s : State) (ls : List Nat) : State :=
  { s with recv := { s.recv with cl := s.recv.cl ++ ls } }

/-- Rule R236: `cl[ofs] <- k`, `ofs <- ofs + 1`. -/
def metaLength (k : Nat) (s : State) : Result := .next (s.appendLengths [k])

/-- The slot that every error of rules R231 to R240 reports (rule R243). -/
def metaSlotNum : BitVec 3 := SlotId.metaCode.num

/-- Rules R237, R238: a run of `n` zero lengths. -/
def metaZeroRun (n : Nat) (s : State) : Result :=
  if s.recv.rem < n then .next (s.raiseAt0 .runOvershoot metaSlotNum)
  else .next (s.appendLengths (List.replicate n 0))

/-- `cl[ofs − 1]`, or 0 when `ofs = 0` (rules R239, R241). -/
def Receiver.previous (r : Receiver) : Nat := r.cl.getLast?.getD 0

/-- Rules R239, R240: `n` copies of the length before; the previous-length check comes before the overshoot check. -/
def metaRepeat (n : Nat) (s : State) : Result :=
  if s.recv.previous = 0 then .next (s.raiseAt0 .repeatNoPrev metaSlotNum)
  else if s.recv.rem < n then .next (s.raiseAt0 .runOvershoot metaSlotNum)
  else .next (s.appendLengths (List.replicate n s.recv.previous))

/-- `M_LEN0` to `M_LEN16` (rule R236). -/
def execMLen0 (s : State) : Result := metaLength 0 s
def execMLen1 (s : State) : Result := metaLength 1 s
def execMLen2 (s : State) : Result := metaLength 2 s
def execMLen3 (s : State) : Result := metaLength 3 s
def execMLen4 (s : State) : Result := metaLength 4 s
def execMLen5 (s : State) : Result := metaLength 5 s
def execMLen6 (s : State) : Result := metaLength 6 s
def execMLen7 (s : State) : Result := metaLength 7 s
def execMLen8 (s : State) : Result := metaLength 8 s
def execMLen9 (s : State) : Result := metaLength 9 s
def execMLen10 (s : State) : Result := metaLength 10 s
def execMLen11 (s : State) : Result := metaLength 11 s
def execMLen12 (s : State) : Result := metaLength 12 s
def execMLen13 (s : State) : Result := metaLength 13 s
def execMLen14 (s : State) : Result := metaLength 14 s
def execMLen15 (s : State) : Result := metaLength 15 s
def execMLen16 (s : State) : Result := metaLength 16 s

/-- `M_ZRUN_S` (rule R237): a run of `3 + e` zero lengths. -/
def execMZrunS (e : BitVec 3) (s : State) : Result := metaZeroRun (e.toNat + zrunSBase) s

/-- `M_ZRUN_L` (rule R238): a run of `11 + e` zero lengths. -/
def execMZrunL (e : BitVec 7) (s : State) : Result := metaZeroRun (e.toNat + zrunLBase) s

/-- `M_REP_S` (rule R239): `3 + e` copies of the previous length. -/
def execMRepS (e : BitVec 2) (s : State) : Result := metaRepeat (e.toNat + repSBase) s

/-- `M_REP_L` (rule R240): `7 + e` copies of the previous length. -/
def execMRepL (e : BitVec 6) (s : State) : Result := metaRepeat (e.toNat + repLBase) s

/-! ### Fetching a meta symbol (rules R235, R118) -/

/-- Reads the next meta symbol with its extra bits: `Decode(5)`, then a plain field as wide as the symbol asks. A symbol
above 20 raises `BAD_META_SYMBOL`. -/
def fetchMeta (s : State) : Res Instr :=
  (s.decodeSymbol .metaCode).andThen fun symbol t =>
    if symbol > 20 then .err .badMetaSymbol metaSlotNum t
    else
      (t.getBits (metaExtraBits symbol)).andThen fun extra u =>
        match decode (.metaSymbol symbol extra) with
        | .ok i => .ok i u
        | .error _ => .err .badMetaSymbol metaSlotNum u

/-! ### The header (rules R230 to R234) -/

/-- Reads one code size per meta symbol of the list, in order (rule R233). -/
def readMetaSizes : List Nat → List Nat → State → Res (List Nat)
  | [], msz, s => .ok msz s
  | symbol :: order, msz, s =>
    (s.getBits metaSizeBits).andThen fun v t => readMetaSizes order (msz.set symbol v) t

/-- An error before the final build reports slot 5 (rule R243; assumption log 21). -/
def headerError {α : Type} (c : Cause) (s : State) : Res α := .err c metaSlotNum s

/-- Rules R232 to R234: the count, the code sizes, the meta model; then the fill loop may begin. -/
def receiveMetaModel (target : SlotId) (total : Nat) (s : State) : Res Unit :=
  (s.getBits metaCountBits).andThen fun ncodes t =>
    if ncodes < 1 ∨ metaSyms < ncodes then headerError .badNumCodelengthCodes t
    else
      (readMetaSizes (metaOrder.take ncodes) (List.replicate metaSyms 0) t).andThen fun msz u =>
        (u.installModel .metaCode msz).andThen fun _ v =>
          .ok () { v with activity := .receiving, recv := { target := target, total := total, cl := [] } }

/-- Rules R230 and R231: the target slot is emptied, the alphabet size is read; 0 is the empty model, which ends the
command, unless the field was read past the end of the range. -/
def receiveHeader (target : SlotId) (s : State) : Res Unit :=
  ((s.setSlot target none).getBits s.cfg.totalSymsBits).andThen fun total t =>
    if total = 0 then
      if t.br.overrun then headerError .streamOverrun t
      else .ok () (t.setResult 0).finishCommand
    else receiveMetaModel target total t

/-! ### Completion (rule R242) -/

/-- The end of the fill loop: the overrun check, the build of the target, `RESULT <- N`. Errors report the target slot. -/
def finishReceive (s : State) : Result :=
  if s.br.overrun then .next (s.raiseAt0 .streamOverrun s.recv.target.num)
  else
    match s.installModel s.recv.target s.recv.cl with
    | .ok _ t => .next (t.setResult (BitVec.ofNat 32 s.recv.total)).finishCommand
    | .err c k t => .next (t.raiseAt0 c k)
    | .refused r => .refused r

end Sys2Proof.Machine
end

