-- ==== Sys2Proof/Machine/Assembly.lean ====
section
/-! DEFINITION. Block assembly (chapter 45): the words of a visible block and where they are written. -/

namespace Sys2Proof.Machine

/-- `MemRead(PAL_x, i, 1)`: an index outside the palette array refuses the trace (rules R386, R390; assumption log 12). -/
def paletteRead {w : Nat} (p : List (BitVec w)) (i : Nat) : Except Refusal (BitVec w) :=
  match p[i]? with
  | some v => .ok v
  | none => .error .paletteNotBacked

/-- `zext_32(lo) | (zext_32(hi) << 16)` (rule R303). -/
def pairWord (lo hi : BitVec 16) : Word := lo.setWidth 32 ||| (hi.setWidth 32 <<< 16)

/-- `AlphaWords(ae, as)` (rule R303). -/
def State.alphaWords (s : State) (ae sel : Nat) : Except Refusal (List Word) := do
  let e ← paletteRead s.palAE ae
  let s0 ← paletteRead s.palAS (3 * sel)
  let s1 ← paletteRead s.palAS (3 * sel + 1)
  let s2 ← paletteRead s.palAS (3 * sel + 2)
  return [pairWord e s0, pairWord s1 s2]

/-- The colour half: `[color_endpoints[ce]; color_selectors[cs]]` (rule R302). -/
def State.colorWords (s : State) (ce cs : Nat) : Except Refusal (List Word) := do
  let e ← paletteRead s.palCE ce
  let q ← paletteRead s.palCS cs
  return [e, q]

/-- The words of a block of each class (rules R302 to R306), from the running accumulators and the selectors just decoded
(rule R300). -/
def State.blockWords (s : State) (q : Selectors) : Except Refusal (List Word) :=
  match s.walk.cls with
  | .c => s.colorWords s.walk.colorEndpointIndex q.cs
  | .ca => do
    let lo ← s.alphaWords s.walk.alpha0EndpointIndex q.as0
    let hi ← s.colorWords s.walk.colorEndpointIndex q.cs
    return lo ++ hi
  | .a => s.alphaWords s.walk.alpha0EndpointIndex q.as0
  | .aa => do
    let lo ← s.alphaWords s.walk.alpha0EndpointIndex q.as0
    let hi ← s.alphaWords s.walk.alpha1EndpointIndex q.as1
    return lo ++ hi

/-- The address of the walker's block (rule R301). -/
def State.walkAddr (s : State) : Nat := s.regs.blockAddr s.walk.cls s.walk.f s.walk.y s.walk.x

/-- `Emit`, and `blocks_written <- blocks_written + 1` (rules R277, R300). -/
def State.emit (s : State) (q : Selectors) : Except Refusal State :=
  match s.blockWords q with
  | .error r => .error r
  | .ok ws =>
    .ok { s with
      mem := s.mem.writeWords s.walkAddr ws
      walk := { s.walk with blocksWritten := s.walk.blocksWritten + 1 } }

end Sys2Proof.Machine
end

