-- ==== Sys2Proof/Machine/Registers.lean ====
section
/-! DEFINITION. The register map: what a bus read returns and what a bus write stores (rules R31, R57). -/

namespace Sys2Proof.Machine

/-- The offsets of rule R31. -/
def offCmd : Nat := 0x000
def offStatus : Nat := 0x004
def offResult : Nat := 0x008
def offErrinfo : Nat := 0x00C
def offBitposLo : Nat := 0x010
def offBitposHi : Nat := 0x014
def offSrcBase : Nat := 0x018
def offSrcLen : Nat := 0x01C
def offClvN : Nat := 0x020
def offWb : Nat := 0x024
def offHb : Nat := 0x028
def offFaces : Nat := 0x02C
def offNumCE : Nat := 0x030
def offNumCS : Nat := 0x034
def offNumAE : Nat := 0x038
def offNumAS : Nat := 0x03C
def offRowPitch : Nat := 0x040
def offDstSize : Nat := 0x044
def offDstBase : Nat := 0x048
def offClv : Nat := 0x10000

/-- The face of a `DST_BASE` offset, if it is one. -/
def dstBaseFace (off : Nat) : Option Nat :=
  if offDstBase ≤ off ∧ off < offDstBase + 24 then some ((off - offDstBase) / 4) else none

/-- The index of a `CLV` offset, if it is one. -/
def clvIndex (cfg : Config) (off : Nat) : Option Nat :=
  if offClv ≤ off ∧ (off - offClv) / 4 < clvDepth cfg then some ((off - offClv) / 4) else none

/-- The bits of the named fields of an `RW` register (rule R31); `none` for a register the host cannot write and for an
offset with no register. -/
def fieldMask (cfg : Config) (off : Nat) : Option Word :=
  if off = offSrcBase ∨ off = offSrcLen ∨ off = offRowPitch ∨ off = offDstSize then some 0xFFFFFFFF
  else if off = offClvN then some 0x3FFF
  else if off = offWb ∨ off = offHb then some 0x7FF
  else if off = offFaces then some 0x7
  else if off = offNumCE ∨ off = offNumCS ∨ off = offNumAE ∨ off = offNumAS then some 0xFFFF
  else if (dstBaseFace off).isSome then some 0xFFFFFFFF
  else if (clvIndex cfg off).isSome then some 0x1F
  else none

/-- The offsets that have a register (rule R31). -/
def hasRegister (cfg : Config) (off : Nat) : Bool := decide (off < 0x060) || (clvIndex cfg off).isSome

/-- The block's registers, `CLV` among them, as a range of memory addresses, if they lie there (rules R31, R90). -/
def State.registerRanges (s : State) : List (Nat × Nat) := placedRange s.registerBase 1 (offClv + 4 * clvDepth s.cfg)

/-- What an aligned read of an offset returns: 0 for `CMD` and for an offset with no register (rule R57), the view of
rule R35 for `BITPOS_LO` and `BITPOS_HI`. -/
def State.readReg (s : State) (off : Nat) : Word :=
  if off = offStatus then s.status
  else if off = offResult then s.result
  else if off = offErrinfo then s.errinfo
  else if off = offBitposLo then BitVec.ofNat 32 s.br.bitpos
  else if off = offBitposHi then BitVec.ofNat 32 (s.br.bitpos / 2 ^ 32)
  else if off = offSrcBase then s.regs.srcBase
  else if off = offSrcLen then s.regs.srcLen
  else if off = offClvN then s.regs.clvN.setWidth 32
  else if off = offWb then s.regs.wb.setWidth 32
  else if off = offHb then s.regs.hb.setWidth 32
  else if off = offFaces then s.regs.faces.setWidth 32
  else if off = offNumCE then s.regs.numCE.setWidth 32
  else if off = offNumCS then s.regs.numCS.setWidth 32
  else if off = offNumAE then s.regs.numAE.setWidth 32
  else if off = offNumAS then s.regs.numAS.setWidth 32
  else if off = offRowPitch then s.regs.rowPitch
  else if off = offDstSize then s.regs.dstSize
  else
    match dstBaseFace off with
    | some f => s.regs.dstBase.get f
    | none =>
      match clvIndex s.cfg off with
      | some i => (s.clvAt i).setWidth 32
      | none => 0

/-- The host-written registers after an aligned write of an offset other than `CMD`: an `RW` register stores the bits of its
field, every other offset ignores the write (rule R57). -/
def Regs.write (r : Regs) (off : Nat) (v : Word) : Regs :=
  if off = offSrcBase then { r with srcBase := v }
  else if off = offSrcLen then { r with srcLen := v }
  else if off = offClvN then { r with clvN := v.setWidth 14 }
  else if off = offWb then { r with wb := v.setWidth 11 }
  else if off = offHb then { r with hb := v.setWidth 11 }
  else if off = offFaces then { r with faces := v.setWidth 3 }
  else if off = offNumCE then { r with numCE := v.setWidth 16 }
  else if off = offNumCS then { r with numCS := v.setWidth 16 }
  else if off = offNumAE then { r with numAE := v.setWidth 16 }
  else if off = offNumAS then { r with numAS := v.setWidth 16 }
  else if off = offRowPitch then { r with rowPitch := v }
  else if off = offDstSize then { r with dstSize := v }
  else
    match dstBaseFace off with
    | some f => { r with dstBase := r.dstBase.set f v }
    | none => r

/-- An aligned write of an offset other than `CMD`: the registers and `CLV` (rules R31, R57). -/
def State.writeReg (s : State) (off : Nat) (v : Word) : State :=
  match clvIndex s.cfg off with
  | some i => { s with clv := putOr 0 s.clv i (v.setWidth 5) }
  | none => { s with regs := s.regs.write off v }

/-- Rule R57: host accesses are aligned and 32 bits wide (assumption log 10). -/
def busAccessOk (width off : Nat) : Bool := decide (width = 4) && decide (off % 4 = 0)

/-- A store of the host inside the range of a started reader (rule R388). -/
def State.storeTouches (s : State) (addr : Word) : Bool :=
  decide (s.br.base.toNat ≤ addr.toNat) && decide (addr.toNat < s.br.base.toNat + s.br.rangeLen)

end Sys2Proof.Machine
end

