-- ==== Sys2Proof/Machine/Walker.lean ====
section
/-! DEFINITION. The block grid walker (chapter 44): the meanings of the four endpoint-reference codes, how the code of a
block is fetched, the rest of a block after its code, the argument checks and the start of the walk. -/

namespace Sys2Proof.Machine

/-! ### The endpoint-reference codes -/

/-- Ends an inner procedure of the walk: a `raise` in it is one inside the walk (rule R278). -/
def endInWalk {α : Type} (r : Res α) (k : α → State → Result) : Result :=
  match r with
  | .ok a s => k a s
  | .err c slot s => .next (s.raiseInWalk c slot)
  | .refused x => .refused x

/-- `block_buffer[x].a <- a` (rules R271, R272). -/
def State.storeIndex (s : State) (ch : Channel) : State := s.setEntry (s.entry.setIndex ch (s.walk.index ch))

/-- `a <- v`. -/
def State.setAccumulator (s : State) (ch : Channel) (v : Nat) : State :=
  { s with walk := s.walk.setIndex ch v }

/-- `block_buffer[x].valid <- 1`. -/
def State.markValid (s : State) : State := s.setEntry { s.entry with valid := true }

/-- The deltas of rule R271, one per accumulator of the class, in order; the sum is reduced by a true remainder. -/
def newIndices : List Channel → State → Res Unit
  | [], s => .ok () s
  | ch :: chs, s =>
    (s.decodeSymbol ch.deltaSlot).andThen fun d t =>
      newIndices chs ((t.setAccumulator ch ((t.walk.index ch + d) % t.regs.endpointCount ch)).storeIndex ch)

/-- `REF_NEW` (rule R271). -/
def execRefNew (s : State) : Result :=
  endInWalk (newIndices s.walk.cls.channels s) fun _ t => .next t.markValid

/-- `REF_LEFT` (rule R272). -/
def execRefLeft (s : State) : Result :=
  .next (s.walk.cls.channels.foldl State.storeIndex s).markValid

/-- Loads an accumulator from `block_buffer[x]` (rule R273). -/
def State.loadIndex (s : State) (ch : Channel) : State := s.setAccumulator ch (s.entry.index ch)

/-- `REF_TOP` (rule R273). -/
def execRefTop (s : State) : Result :=
  if s.entry.valid then .next (s.walk.cls.channels.foldl State.loadIndex s)
  else .next (s.raiseInWalk .staleTop 0)

/-- `REF_DIAG` (rule R274): reserved in every class of this block. -/
def execRefDiag (s : State) : Result := .next (s.raiseInWalk .reservedRefCode 0)

/-! ### Fetching the code of a block -/

/-- Rule R268: the reference byte of a 2×2 group. -/
def readReferenceByte (s : State) : Res Unit :=
  (s.decodeSymbol .ref).andThen fun v t =>
    if 255 < v then .err .refSymbolRange SlotId.ref.num t
    else .ok () { t with walk := { t.walk with referenceGroup := BitVec.ofNat 8 v } }

/-- Rule R269: in an even row the code comes from the reference byte and the code of the block below is stashed. -/
def State.evenRowCode (s : State) : Instr × State :=
  let rg := s.walk.referenceGroup
  if s.walk.x % 2 = 0 then
    (decodeRef (rg.extractLsb' 0 2),
      s.setEntry { s.entry with endpointReference := (rg.extractLsb' 2 2).setWidth 4 })
  else
    (decodeRef (rg.extractLsb' 4 2),
      s.setEntry { s.entry with endpointReference := (rg.extractLsb' 6 2).setWidth 4 })

/-- Rules R268 to R270: the endpoint-reference code of the block at the walker's position. -/
def fetchRef (s : State) : Res Instr :=
  if s.walk.y % 2 = 0 then
    if s.walk.x % 2 = 0 then
      (readReferenceByte s).andThen fun _ t => .ok t.evenRowCode.1 t.evenRowCode.2
    else .ok s.evenRowCode.1 s.evenRowCode.2
  else .ok (decodeRef (s.entry.endpointReference.extractLsb' 0 2)) s

/-! ### The rest of a block, and the next position -/

/-- Rule R275: one selector index per channel of the class, each checked against its palette's size. -/
def readSelectors : List Channel → Selectors → State → Res Selectors
  | [], q, s => .ok q s
  | ch :: chs, q, s =>
    (s.decodeSymbol ch.selectorSlot).andThen fun v t =>
      if t.regs.selectorCount ch ≤ v then .err .selectorRange ch.selectorSlot.num t
      else readSelectors chs (q.set ch v) t

/-- How many visible blocks the walk meets before position `(f, y, x)` (rules R277, R283). -/
def Regs.visibleBefore (r : Regs) (f y x : Nat) : Nat :=
  f * (r.hb.toNat * r.wb.toNat) + min y r.hb.toNat * r.wb.toNat + if y < r.hb.toNat then min x r.wb.toNat else 0

/-- `FaceReset()` (rule R267). -/
def State.faceReset (s : State) : State :=
  { s with
    walk := { s.walk with colorEndpointIndex := 0, alpha0EndpointIndex := 0, alpha1EndpointIndex := 0 }
    blockBuf := clearValid s.regs.wbp s.blockBuf }

/-- The next position of the walk in `(face, y, x)` order; after the last one the command ends with `RESULT <-
blocks_written` (rules R261, R279). -/
def State.advance (s : State) : State :=
  if s.walk.x + 1 < s.regs.wbp then { s with walk := { s.walk with x := s.walk.x + 1 } }
  else if s.walk.y + 1 < s.regs.hbp then { s with walk := { s.walk with x := 0, y := s.walk.y + 1 } }
  else if s.walk.f + 1 < s.regs.faces.toNat then
    State.faceReset { s with walk := { s.walk with x := 0, y := 0, f := s.walk.f + 1 } }
  else (s.setResult (BitVec.ofNat 32 s.walk.blocksWritten)).finishCommand

/-- Rules R276 and R277: the overrun check, then the emission of a visible block. -/
def endBlock (q : Selectors) (s : State) : Result :=
  if s.br.overrun then .next (s.raiseInWalk .streamOverrun 0)
  else if s.regs.visible s.walk.y s.walk.x then
    match s.emit q with
    | .error r => .refused r
    | .ok t => .next t.advance
  else .next s.advance

/-- The selectors of a block, then what is done with them. -/
def restOfBlockWith (last : Selectors → State → Result) (s : State) : Result :=
  endInWalk (readSelectors s.walk.cls.channels {} s) last

/-- What follows the reference code in `BlockStep` (rule R278), and the move to the next position. -/
def restOfBlock (s : State) : Result := restOfBlockWith endBlock s

/-! ### The argument checks and the start of the walk -/

/-- Checks 2 to 10 of rule R263, in order, for a class of rule R116. -/
def argErrorOf (r : Regs) (cls : FormatClass) : Option Cause :=
  let faces := List.range r.faces.toNat
  if r.wb = 0 ∨ r.hb = 0 then some .badGeometry
  else if r.faces ≠ 1 ∧ r.faces ≠ 6 then some .badFaces
  else if blockBufDepth < r.wbp then some .blockBuffer
  else if r.rowPitch ≠ 0 ∧ (r.rowPitch.toNat % 4 ≠ 0 ∨ r.rowPitch.toNat < cls.bpb * r.wb.toNat) then some .badPitch
  else if r.dstSize.toNat < r.pitch cls * r.hb.toNat then some .dstTooSmall
  else if faces.any fun f => r.dstBase.get f = 0 then some .nullDst
  else if faces.any fun f => (r.dstBase.get f).toNat % 4 ≠ 0 then some .misalignedDst
  else if (faces.any fun f => crosses32 (r.dstRange f)) || crosses32 r.srcRange then some .badRange
  else if cls.channels.any fun ch => r.endpointCount ch = 0 || r.selectorCount ch = 0 then some .zeroPalette
  else none

/-- The argument checks (rule R263): the class to walk, or the first check's error. -/
def argChecks (r : Regs) (cls : BitVec 4) : Except Cause FormatClass :=
  match FormatClass.ofCode cls with
  | none => .error .badFmtClass
  | some k =>
    match argErrorOf r k with
    | some c => .error c
    | none => .ok k

/-- The `NUM_*` registers equal the lengths of the palette arrays, three words per entry in `PAL_AS` (rules R83, R390). -/
def State.palettesMatch (s : State) : Bool :=
  decide (s.palCE.length = s.regs.numCE.toNat) && decide (s.palCS.length = s.regs.numCS.toNat) &&
    decide (s.palAE.length = s.regs.numAE.toNat) && decide (s.palAS.length = 3 * s.regs.numAS.toNat)

/-- No memory stands behind a palette array that is said to lie in memory: it meets a hole, or it reaches past the last address
(rule R386, U10; that all four arrays count whatever the class, and what a placed array takes, are assumption log 4 and
13). -/
def State.paletteInHole (s : State) : Bool := s.paletteRanges.any fun r => s.inHole r || crosses32 r

/-- The host's duties on what an `UNPACK` names: memory behind the ranges and the palettes (rule R386); no overlap among the
destinations, nor of one with the source, a palette array or the block's registers (rule R389); `NUM_*` the lengths of
the palettes (rule R390). Assumption log 11. -/
def State.hostDuties (s : State) : Option Refusal :=
  let dsts := (List.range s.regs.faces.toNat).map s.regs.dstRange
  if s.inHole s.regs.srcRange then some .sourceNotBacked
  else if dsts.any s.inHole then some .destinationNotBacked
  else if s.paletteInHole then some .paletteNotBacked
  else if someMeet (s.regs.srcRange :: dsts) then some .overlappingRanges
  else if dsts.any fun d => (s.paletteRanges ++ s.registerRanges).any (rangesMeet d) then some .overlappingRanges
  else if !s.palettesMatch then some .paletteMismatch
  else none

/-- `blocks_written <- 0` (rule R261). -/
def State.clearWritten (s : State) : State := { s with walk := { s.walk with blocksWritten := 0 } }

/-- A `raise` of an argument check: `RESULT <- blocks_written`, which is 0; position and slot 0 (rules R261, R263). -/
def State.raiseArgs (s : State) (c : Cause) : State :=
  (s.setResult (BitVec.ofNat 32 s.walk.blocksWritten)).raiseAt0 c 0

/-- The start of the walk: the reader on the level's range, position `(0, 0, 0)`, the first face (rules R261, R264, R267).
`reference_group` keeps its value (rule R267). -/
def State.startWalk (s : State) (cls : FormatClass) : State :=
  let t := s.startReader
  State.faceReset { t with
    activity := .walking
    walk := { t.walk with cls := cls, f := 0, y := 0, x := 0 } }

end Sys2Proof.Machine
end

