-- ==== Sys2Proof/Machine/Engine.lean ====
section
/-! DEFINITION. The instants inside a command, and the two commands made of them, `RECV_MODEL` (rule R243) and `UNPACK`
(rule R261). One inner step runs one instruction of the stream: a meta symbol in the fill loop, a reference code
with the rest of its block in the walk. A command runs its inner steps to the end, so it is one transition (rule
R320). -/

namespace Sys2Proof.Machine

/-- The meaning of an instruction of the stream. Commands are not in the stream: for them this answers the state
unchanged, and no fetch of the stream yields one (assumption log 23). -/
def execStream (i : Instr) (s : State) : Result :=
  match i with
  | .mLen0 => execMLen0 s
  | .mLen1 => execMLen1 s
  | .mLen2 => execMLen2 s
  | .mLen3 => execMLen3 s
  | .mLen4 => execMLen4 s
  | .mLen5 => execMLen5 s
  | .mLen6 => execMLen6 s
  | .mLen7 => execMLen7 s
  | .mLen8 => execMLen8 s
  | .mLen9 => execMLen9 s
  | .mLen10 => execMLen10 s
  | .mLen11 => execMLen11 s
  | .mLen12 => execMLen12 s
  | .mLen13 => execMLen13 s
  | .mLen14 => execMLen14 s
  | .mLen15 => execMLen15 s
  | .mLen16 => execMLen16 s
  | .mZrunS e => execMZrunS e s
  | .mZrunL e => execMZrunL e s
  | .mRepS e => execMRepS e s
  | .mRepL e => execMRepL e s
  | .refNew => execRefNew s
  | .refLeft => execRefLeft s
  | .refTop => execRefTop s
  | .refDiag => execRefDiag s
  | .nop | .softReset | .brStart | .getBits _ | .brStop | .build _ | .clear _ | .decode _ | .recvModel _
  | .unpack _ => .next s

/-- One pass of the fill loop (rule R235), or its completion (rule R242). -/
def receiveStep (s : State) : Result :=
  if s.recv.ofs < s.recv.total then
    match fetchMeta s with
    | .ok i t => execStream i t
    | .err c k t => .next (t.raiseAt0 c k)
    | .refused r => .refused r
  else finishReceive s

/-- After the reference code of a block: the rest of the block, unless the code has ended the command. -/
def afterRefWith (last : Selectors → State → Result) (s : State) : Result :=
  if s.activity = .walking then restOfBlockWith last s else .next s

/-- One block of the walk up to its selectors, then what is done with them. -/
def walkStepWith (last : Selectors → State → Result) (s : State) : Result :=
  endInWalk (fetchRef s) fun i t =>
    match execStream i t with
    | .next u => afterRefWith last u
    | .fault x => .fault x
    | .refused r => .refused r

/-- One block of the walk (rule R278). -/
def walkStep (s : State) : Result := walkStepWith endBlock s

/-- One inner step of the procedure under way. -/
def innerStep (s : State) : Result :=
  match s.activity with
  | .idle => .next s
  | .receiving => receiveStep s
  | .walking => walkStep s

/-- Inner steps until the command has ended, at most `n` of them. -/
def runToIdle : Nat → State → Result
  | 0, s => if s.activity = .idle then .next s else .fault .unfinished
  | n + 1, s =>
    if s.activity = .idle then .next s
    else
      match innerStep s with
      | .next t => runToIdle n t
      | .fault x => .fault x
      | .refused r => .refused r

/-- `RECV_MODEL slot` (rules R230 to R243). The loop ends within one inner step per entry of the vector and one for the
completion (rule R245). -/
def execRecvModel (k : SlotId) (s : State) : Result :=
  if k = .metaCode then .next (s.startCommand.raiseAt0 .badSlot 0)
  else
    match receiveHeader k s.startCommand with
    | .ok _ t => runToIdle (t.recv.total + 1) t
    | .err c n t => .next (t.raiseAt0 c n)
    | .refused r => .refused r

/-- `UNPACK cls` (rules R260 to R280). The walk has `FACES · WBp · HBp` inner steps (rule R265). -/
def execUnpack (cls : BitVec 4) (s : State) : Result :=
  match argChecks s.regs cls with
  | .error c => .next (s.startCommand.clearWritten.raiseArgs c)
  | .ok k =>
    match s.hostDuties with
    | some r => .refused r
    | none =>
      runToIdle (s.regs.faces.toNat * s.regs.hbp * s.regs.wbp) (s.startCommand.clearWritten.startWalk k)

end Sys2Proof.Machine
end

