-- ==== Sys2Proof/Machine/Fetch.lean ====
section
/-! DEFINITION. Where the block fetches its next instruction (rule R2): the host's write of `CMD` when no command is under
way, the stream inside a command; and how a given instruction is placed there (assumption log 7). -/

namespace Sys2Proof.Machine

/-- Places a command word: the host's next action writes it to `CMD`, and no command is under way. -/
def State.placeCommand (s : State) (c : Word) : State :=
  { s with activity := .idle, inputs := .write 4 offCmd c :: s.inputs }

/-- The code-length vector in which one meta symbol is used, with the one-bit codeword `0`. -/
def oneMetaSymbol (symbol : Nat) : List Nat := (List.replicate metaSyms 0).set symbol 1

/-- Places a meta symbol with its extra bits: a receive is under way with one entry filled and room for the longest run,
slot 5 holds a model in which the symbol's codeword is `0`, and the reader stands before that bit and the extra
field, in one byte at address 0. -/
def State.placeMeta (s : State) (symbol extra : Nat) : State :=
  { s.setSlot .metaCode (some ⟨oneMetaSymbol symbol⟩) with
    activity := .receiving
    recv := { target := s.recv.target, total := 140, cl := [1] }
    br := { base := 0, len := 1, bitpos := 0, overrun := false, started := true, touched := false }
    mem := s.mem.write 0 (BitVec.ofNat 8 (extra * 2 ^ (7 - metaExtraBits symbol))) }

/-- Places an endpoint-reference code: a walk is under way at column 0 of an odd row, and the code is the one stashed for that
column (rule R270). -/
def State.placeRef (s : State) (c : BitVec 2) : State :=
  { s with
    activity := .walking
    walk := { s.walk with y := 1, x := 0 }
    blockBuf := setBufEntry s.blockBuf 0 { bufEntry s.blockBuf 0 with endpointReference := c.setWidth 4 } }

/-- Places a code of any of the three spaces. -/
def State.placeCode (s : State) : Code → State
  | .command c => s.placeCommand c
  | .metaSymbol symbol extra => s.placeMeta symbol extra
  | .refCode c => s.placeRef c

/-- The hardware reset input is the host's next action (rule R380). -/
def State.resetPending (s : State) : Bool := s.inputs.head? = some .hardReset

end Sys2Proof.Machine
end

