-- ==== Sys2Proof/Machine/System.lean ====
section
/-! DEFINITION. The system commands `NOP`, `SOFT_RESET` (chapter 46) and the hardware reset (rule R380). -/

namespace Sys2Proof.Machine

/-- `NOP` (rule R321). -/
def execNop (s : State) : Result := runCommand (fun t => .ok () t) s

/-- `SOFT_RESET` (rule R322): every piece of state at its reset value, then the end of a successful command. -/
def execSoftReset (s : State) : Result := runCommand (fun t => .ok () t.blockReset) s

/-- The hardware reset (rule R380): as `SOFT_RESET`, but no command ends. Destination bytes stay written. -/
def State.hardwareReset (s : State) : State := s.blockReset

end Sys2Proof.Machine
end

