-- ==== Sys2Proof/Machine/Abandon.lean ====
section
/-! DEFINITION. A command abandoned by a hardware reset (rule R380). Only `UNPACK` writes memory (rule R331), one word at a time
(rule R89), and the reset puts every other piece of the block's state at its reset value. So the number of words that
the command has written says all that is left of the instant at which the reset comes (assumption log 19). -/

namespace Sys2Proof.Machine

/-- The block of the walk cut off after its first `n` words (rules R89, R301). -/
def writeFirstWords (n : Nat) (q : Selectors) (s : State) : Result :=
  match s.blockWords q with
  | .error r => .refused r
  | .ok ws => .next { s with mem := s.mem.writeWords s.walkAddr (ws.take n) }

/-- The words that a walk writes between two instants: those of the blocks it has emitted (rule R53). -/
def wordsBetween (s t : State) : Nat := (t.walk.blocksWritten - s.walk.blocksWritten) * s.walk.cls.words

/-- Inner steps of a walk, at most `fuel` of them, until it has written `n` more words or has ended. -/
def walkUntil : Nat → Nat → State → Result
  | 0, _, s => .next s
  | fuel + 1, n, s =>
    if n = 0 ∨ s.activity = .idle then .next s
    else
      match innerStep s with
      | .next t => if wordsBetween s t ≤ n then walkUntil fuel (n - wordsBetween s t) t
        else walkStepWith (writeFirstWords n) s
      | .fault x => .fault x
      | .refused r => .refused r

/-- `UNPACK cls` until it has written `n` words or has ended. -/
def unpackUntil (cls : BitVec 4) (n : Nat) (s : State) : Result :=
  match argChecks s.regs cls with
  | .error _ => .next s
  | .ok k =>
    match s.hostDuties with
    | some r => .refused r
    | none =>
      walkUntil (s.regs.faces.toNat * s.regs.hbp * s.regs.wbp) n (s.startCommand.clearWritten.startWalk k)

/-- A command until it has written `n` words or has ended. What a command that writes no memory has done by then is gone
with the reset. -/
def commandUntil (i : Instr) (n : Nat) (s : State) : Result :=
  match i with
  | .unpack cls => unpackUntil cls n s
  | .nop | .softReset | .brStart | .getBits _ | .brStop | .build _ | .clear _ | .decode _ | .recvModel _ => .next s
  | .mLen0 | .mLen1 | .mLen2 | .mLen3 | .mLen4 | .mLen5 | .mLen6 | .mLen7 | .mLen8 => .next s
  | .mLen9 | .mLen10 | .mLen11 | .mLen12 | .mLen13 | .mLen14 | .mLen15 | .mLen16 => .next s
  | .mZrunS _ | .mZrunL _ | .mRepS _ | .mRepL _ => .next s
  | .refNew | .refLeft | .refTop | .refDiag => .next s

/-- The reset at the instant that a command has reached. -/
def resetThere : Result → Result
  | .next t => .next t.hardwareReset
  | .fault x => .fault x
  | .refused r => .refused r

/-- The host writes `c` to `CMD`, and the reset abandons the command after `n` words: "destination bytes it had written stay
written" (rule R380). An illegal word writes none. -/
def abandonCommand (c : Word) (n : Nat) (s : State) : Result :=
  match decode (.command c) with
  | .ok i => resetThere (commandUntil i n s)
  | .error _ => .next s.hardwareReset

end Sys2Proof.Machine
end

