-- ==== Sys2Proof/Machine/BitReader.lean ====
section
/-! DEFINITION. The bit reader's commands: `BR_START`, `GET_BITS`, `BR_STOP` (chapter 40). -/

namespace Sys2Proof.Machine

/-- Rule R156 between the command's beginning and its end. A source range at which the platform has no memory refuses
the trace (rule R386). -/
def brStartBody (s : State) : Res Unit :=
  if crosses32 s.regs.srcRange then .err .badRange 0 s
  else if s.inHole s.regs.srcRange then .refused .sourceNotBacked
  else .ok () s.startReader

/-- `BR_START` (rule R156). -/
def execBrStart (s : State) : Result := runCommand brStartBody s

/-- Rule R157 between the command's beginning and its end. -/
def getBitsBody (n : Nat) (s : State) : Res Unit :=
  if maxGetBits < n then .err .badNbits 0 s
  else (s.getBits n).andThen fun v t => .ok () (t.setResult (BitVec.ofNat 32 v))

/-- `GET_BITS n` (rule R157). -/
def execGetBits (n : BitVec 6) (s : State) : Result := runCommand (getBitsBody n.toNat) s

/-- `min(br.len, ⌈br.bitpos / 8⌉)` (rule R158). -/
def State.bytesConsumed (s : State) : Nat := min s.br.rangeLen ((s.br.bitpos + 7) / 8)

/-- `BR_STOP` (rule R158): the reader keeps its position. -/
def execBrStop (s : State) : Result :=
  runCommand (fun t => .ok () (t.setResult (BitVec.ofNat 32 t.bytesConsumed))) s

end Sys2Proof.Machine
end

