-- ==== Sys2Proof/Machine/Dispatch.lean ====
section
/-! DEFINITION. The dispatch: one arm per instruction, each one call of its meaning. -/

namespace Sys2Proof.Machine

def exec (i : Instr) (s : State) : Host.Outcome State Fault Refusal :=
  match i with
  -- host commands (rule R113)
  | .nop => Sys2Proof.Machine.execNop s
  | .softReset => Sys2Proof.Machine.execSoftReset s
  | .brStart => Sys2Proof.Machine.execBrStart s
  | .getBits n => Sys2Proof.Machine.execGetBits n s
  | .brStop => Sys2Proof.Machine.execBrStop s
  | .build slot => Sys2Proof.Machine.execBuild slot s
  | .clear slot => Sys2Proof.Machine.execClear slot s
  | .decode slot => Sys2Proof.Machine.execDecode slot s
  | .recvModel slot => Sys2Proof.Machine.execRecvModel slot s
  | .unpack cls => Sys2Proof.Machine.execUnpack cls s
  -- meta symbols (rule R118)
  | .mLen0 => Sys2Proof.Machine.execMLen0 s
  | .mLen1 => Sys2Proof.Machine.execMLen1 s
  | .mLen2 => Sys2Proof.Machine.execMLen2 s
  | .mLen3 => Sys2Proof.Machine.execMLen3 s
  | .mLen4 => Sys2Proof.Machine.execMLen4 s
  | .mLen5 => Sys2Proof.Machine.execMLen5 s
  | .mLen6 => Sys2Proof.Machine.execMLen6 s
  | .mLen7 => Sys2Proof.Machine.execMLen7 s
  | .mLen8 => Sys2Proof.Machine.execMLen8 s
  | .mLen9 => Sys2Proof.Machine.execMLen9 s
  | .mLen10 => Sys2Proof.Machine.execMLen10 s
  | .mLen11 => Sys2Proof.Machine.execMLen11 s
  | .mLen12 => Sys2Proof.Machine.execMLen12 s
  | .mLen13 => Sys2Proof.Machine.execMLen13 s
  | .mLen14 => Sys2Proof.Machine.execMLen14 s
  | .mLen15 => Sys2Proof.Machine.execMLen15 s
  | .mLen16 => Sys2Proof.Machine.execMLen16 s
  | .mZrunS e => Sys2Proof.Machine.execMZrunS e s
  | .mZrunL e => Sys2Proof.Machine.execMZrunL e s
  | .mRepS e => Sys2Proof.Machine.execMRepS e s
  | .mRepL e => Sys2Proof.Machine.execMRepL e s
  -- endpoint-reference codes (rule R123)
  | .refNew => Sys2Proof.Machine.execRefNew s
  | .refLeft => Sys2Proof.Machine.execRefLeft s
  | .refTop => Sys2Proof.Machine.execRefTop s
  | .refDiag => Sys2Proof.Machine.execRefDiag s

end Sys2Proof.Machine
end

