-- ==== Sys2Proof/Machine/Host.lean ====
section
/-! DEFINITION. What the outside does to an idle block: the host's bus accesses (rules R31, R57, R112), its stores and palettes
(rules R388, R390), the platform (rules R90, R386), the reset input (rule R380). -/

namespace Sys2Proof.Machine

/-- A word written to `CMD` (rules R113, R323, R324). -/
def commandStep (c : Word) (s : State) : Result :=
  match decode (.command c) with
  | .ok i => exec i s
  | .error _ => execIllegal s

/-- A bus write: of `CMD` (rule R112), or of another offset; one that is not aligned or not 32 bits wide is refused (rule
R57). -/
def busWrite (width off : Nat) (v : Word) (s : State) : Result :=
  if busAccessOk width off then
    if off = offCmd then commandStep v s else .next (s.writeReg off v)
  else .refused .badBusAccess

/-- A bus read (rule R57). -/
def busRead (width off : Nat) (s : State) : Result :=
  if busAccessOk width off then .next { s with readData := s.readReg off } else .refused .badBusAccess

/-- A byte stored into memory; inside the range of a started reader the reader takes note (rule R388). -/
def hostStore (addr : Word) (b : Byte) (s : State) : State :=
  { s with
    mem := s.mem.write addr.toNat b
    br := { s.br with touched := s.br.touched || s.storeTouches addr } }

/-- One action of the outside, with no command under way. -/
def hostAction (a : HostAction) (s : State) : Result :=
  match a with
  | .write width off v => busWrite width off v s
  | .read width off => busRead width off s
  | .store addr b => .next (hostStore addr b s)
  | .loadPalCE place p => .next { s with palCE := p, palPlaces := { s.palPlaces with ce := place } }
  | .loadPalCS place p => .next { s with palCS := p, palPlaces := { s.palPlaces with cs := place } }
  | .loadPalAE place p => .next { s with palAE := p, palPlaces := { s.palPlaces with ae := place } }
  | .loadPalAS place p => .next { s with palAS := p, palPlaces := { s.palPlaces with as := place } }
  | .platform holes registerBase => .next { s with holes := holes, registerBase := registerBase }
  | .hardReset => .next s.hardwareReset
  | .resetDuring c n => abandonCommand c n s

end Sys2Proof.Machine
end

