-- ==== Sys2Proof/Machine/Step.lean ====
section
/-! DEFINITION. The step. With no command under way the block waits for the host (rule R380) and does the host's next
action; a word written to `CMD` is decoded and run whole (rules R320, R324). Inside a command, which no run from
reset shows between steps (rule R320), one inner step runs, or a hardware reset abandons the command (rule R380; assumption log 19). -/

namespace Sys2Proof.Machine

/-- The first pending action is taken off the queue. -/
def State.popInput (s : State) : State := { s with inputs := s.inputs.tail }

def step (s : State) : Host.Outcome State Fault Refusal :=
  match s.activity with
  | .idle =>
    match s.inputs with
    | [] => .next s
    | a :: _ => hostAction a s.popInput
  | .receiving | .walking =>
    if s.resetPending then .next s.popInput.hardwareReset else innerStep s

/-- Places the instruction whose bits are `w` where `step` fetches its next instruction. -/
def State.withFetchWord (s : State) (nbits w : Nat) : State :=
  match codeOfTableWord nbits w with
  | some c => s.placeCode c
  | none => s

end Sys2Proof.Machine
end

