-- ==== Sys2Proof/Machine/Datapath.lean ====
section
/-! DEFINITION. CR1's shift-register datapath of the bit reader (rules R43, R159, R160). It is not part of `State`: rule R43
calls it not architectural, no command result depends on it (rule R162) and its refill policy is open (rule R161).
It is here so that the equivalence of rule R162 can be stated about rule R160's own text (assumption log 16). -/

namespace Sys2Proof.Machine

/-- `bit_buf`, left-justified, `bit_count`, `next` (rules R43, R159). -/
structure Datapath where
  bitBuf : BitVec 32
  bitCount : Nat
  next : Nat
  deriving DecidableEq, Repr

/-- The datapath when a reader starts (rule R156). -/
def Datapath.start (s : State) : Datapath := ⟨0, 0, s.br.base.toNat⟩

/-- The byte a refill places, and the fetch pointer after it: "substituting zero once `p == end`" (rule R160). -/
def State.refillByte (s : State) (next : Nat) : Except Refusal (Byte × Nat) :=
  if next = s.br.base.toNat + s.br.rangeLen then .ok (0, next)
  else if s.br.touched then .error .sourceChanged
  else
    match s.mem.read next with
    | none => .error .sourceNotBacked
    | some b => .ok (b, next + 1)

/-- `Refill(need)` (rule R160), at most `n` bytes. -/
def State.refill (s : State) (need : Nat) : Nat → Datapath → Except Refusal Datapath
  | 0, d => .ok d
  | n + 1, d =>
    if d.bitCount < need then
      match s.refillByte d.next with
      | .error r => .error r
      | .ok (c, next) =>
        s.refill need n ⟨d.bitBuf ||| (c.setWidth 32 <<< (24 - d.bitCount)), d.bitCount + 8, next⟩
    else .ok d

/-- The loop of `Refill` runs at most 3 times per call (rule R165). -/
def refillBound : Nat := 3

/-- Removes the top `n` bits (`Drop`, rule R160). -/
def Datapath.drop (d : Datapath) (n : Nat) : Datapath := ⟨d.bitBuf <<< n, d.bitCount - n, d.next⟩

/-- `Extract(n)`, `0 ≤ n ≤ 16` (rule R160). -/
def State.extract (s : State) (n : Nat) (d : Datapath) : Except Refusal (Nat × Datapath) :=
  match s.refill n refillBound d with
  | .error r => .error r
  | .ok e => .ok (if n = 0 then 0 else (e.bitBuf >>> (32 - n)).toNat, e.drop n)

/-- `get_bits(n)`, `0 ≤ n ≤ 32`, split above 16 (rule R160). -/
def State.datapathGetBits (s : State) (n : Nat) (d : Datapath) : Except Refusal (Nat × Datapath) :=
  if 16 < n then
    match s.extract (n - 16) d with
    | .error r => .error r
    | .ok (hi, e) =>
      match s.extract 16 e with
      | .error r => .error r
      | .ok (lo, g) => .ok (hi * 2 ^ 16 + lo, g)
  else s.extract n d

/-- `Peek16()` (rule R160). -/
def State.datapathPeek16 (s : State) (d : Datapath) : Except Refusal (Nat × Datapath) :=
  match s.refill 16 refillBound d with
  | .error r => .error r
  | .ok e => .ok ((e.bitBuf >>> 16).toNat, e)

/-- The invariant of rule R44 for a datapath whose reader stands at stream position `pos`. -/
def Datapath.tracks (d : Datapath) (s : State) (pos : Nat) : Prop :=
  ∃ fetched, 8 * fetched = pos + d.bitCount ∧ d.bitCount ≤ 32 ∧
    (∀ j < d.bitCount, s.streamBit (pos + j) = .ok (d.bitBuf.getMsbD j)) ∧
    (∀ j, d.bitCount ≤ j → d.bitBuf.getMsbD j = false) ∧
    d.next = s.br.base.toNat + min fetched s.br.rangeLen

end Sys2Proof.Machine
end

