-- ==== Sys2Proof/Machine/Stream.lean ====
section
/-! DEFINITION. Streams written out: the directives of rule R125 (`.bits`, `.sym`), and the bits of a meta-coded model in
the layout of rule R117. The block writes no stream; claims about reading one are stated in these terms. -/

namespace Sys2Proof.Machine

/-- `.bits n, v` (rule R125): the `n` bits of `v`, most significant first. -/
def fieldBits (n v : Nat) : List Bool := (List.range n).map fun j => v.testBit (n - 1 - j)

/-- `.sym` (rule R125): the codeword of a symbol, most significant bit first (rule R183). -/
def Model.codeword (m : Model) (symbol : Nat) : List Bool := fieldBits (m.lengthOf symbol) (m.code symbol)

/-- The stream holds these bits at the reader's position. -/
def State.streamHolds (s : State) (bits : List Bool) : Prop :=
  ∀ j b, bits[j]? = some b → s.streamBit (s.br.bitpos + j) = .ok b

/-- The vector `msz` of rule R233 from the code sizes in the order in which they are sent. -/
def metaVector (sizes : List Nat) : List Nat :=
  (metaOrder.zip sizes).foldl (fun v p => v.set p.1 p.2) (List.replicate metaSyms 0)

/-- Meta symbols, each with its extra bits (rule R118), coded by the meta model. -/
def metaSymbolBits (m : Model) (symbols : List (Nat × Nat)) : List Bool :=
  symbols.flatMap fun p => m.codeword p.1 ++ fieldBits (metaExtraBits p.1) p.2

/-- A meta-coded model in the stream (rule R117): alphabet size, number of code sizes, code sizes, meta symbols. -/
def modelBits (cfg : Config) (total : Nat) (sizes : List Nat) (symbols : List (Nat × Nat)) : List Bool :=
  fieldBits cfg.totalSymsBits total ++ fieldBits metaCountBits sizes.length ++ sizes.flatMap (fieldBits metaSizeBits)
    ++ metaSymbolBits ⟨metaVector sizes⟩ symbols

/-- The entries that a meta symbol adds after the entries `cl` (rules R236 to R241); `none` where it is an error. -/
def expandSymbol (cl : List Nat) (p : Nat × Nat) : Option (List Nat) :=
  let previous := cl.getLast?.getD 0
  if p.1 ≤ 16 then some (cl ++ [p.1])
  else if p.1 = 17 then some (cl ++ List.replicate (p.2 + 3) 0)
  else if p.1 = 18 then some (cl ++ List.replicate (p.2 + 11) 0)
  else if p.1 = 19 then if previous = 0 then none else some (cl ++ List.replicate (p.2 + 3) previous)
  else if p.1 = 20 then if previous = 0 then none else some (cl ++ List.replicate (p.2 + 7) previous)
  else none

/-- The vector that a sequence of meta symbols stands for. -/
def expandSymbols (symbols : List (Nat × Nat)) : Option (List Nat) := symbols.foldlM expandSymbol []

end Sys2Proof.Machine
end

