-- ==== Sys2Proof/Safety.lean ====
section
/-! DEFINITION. What a claim about the machine says in its own terms: the invariant of a block between commands, the
invariant of a walk under way, inner steps counted, and an outcome without a fault. -/

namespace Sys2Proof.Machine

/-- The sparse data are in their canonical form: keys strictly rising, no entry equal to what an unlisted key reads as. -/
def State.wf (s : State) : Prop :=
  Memory.wf s.mem ∧ (keysRise s.clv ∧ noneIs 0 s.clv) ∧ keysRise s.blockBuf ∧ noneIs BufEntry.reset s.blockBuf

/-- Every model in a slot is one that `Build` produced (rules R48, R181, R198). -/
def State.slotsBuilt (s : State) : Prop := ∀ k m, s.slot k = some m → buildModel m.cl = .ok m

/-- Every memory address listed is a 32-bit address (rules R80, R91). -/
def State.addresses32 (s : State) : Prop := ∀ c ∈ s.mem, c.1 < 2 ^ 32

/-- What holds of the block between commands, from reset on. -/
def State.Inv (s : State) : Prop := s.wf ∧ s.addresses32 ∧ s.slotsBuilt ∧ s.activity = .idle

/-- What holds inside a walk (rule R283): the position is in the padded grid; every index of the class is below its
palette's size, in the accumulators and in every valid entry of `block_buffer`; `blocks_written` counts the visible
blocks before the position. -/
def State.WalkInv (s : State) : Prop :=
  (s.walk.f < s.regs.faces.toNat ∧ s.walk.y < s.regs.hbp ∧ s.walk.x < s.regs.wbp) ∧
  (∀ ch ∈ s.walk.cls.channels, s.walk.index ch < s.regs.endpointCount ch) ∧
  (∀ x < s.regs.wbp, (bufEntry s.blockBuf x).valid = true →
    ∀ ch ∈ s.walk.cls.channels, (bufEntry s.blockBuf x).index ch < s.regs.endpointCount ch) ∧
  s.walk.blocksWritten = s.regs.visibleBefore s.walk.f s.walk.y s.walk.x

/-- `n` inner steps of the procedure under way; once the command has ended the state stays. -/
def innerSteps : Nat → State → Result
  | 0, s => .next s
  | n + 1, s =>
    match innerStep s with
    | .next t => innerSteps n t
    | .fault x => .fault x
    | .refused r => .refused r

/-- The outcome is not a fault. -/
def NoFault (o : Result) : Prop := ∀ x, o ≠ .fault x

/-- Every byte of the reader's range can be read: it has been written, and the host has not changed the range since the
reader was started (rules R386, R388). -/
def State.rangeReadable (s : State) : Prop :=
  s.br.touched = false ∧ ∀ j < s.br.rangeLen, s.mem.read (s.br.base.toNat + j) ≠ none

/-- `OVERRUN` says exactly that the position is past the end of the range (rule R42). -/
def State.overrunExact (s : State) : Prop := s.br.overrun = true ↔ 8 * s.br.rangeLen < s.br.bitpos

/-- Every source byte that an `UNPACK` may read has been written (rule R386). -/
def State.sourceWritten (s : State) : Prop :=
  ∀ j < s.regs.srcLen.toNat, s.mem.read (s.regs.srcBase.toNat + j) ≠ none

/-- The host's next action writes `c` to `CMD`, and no command is under way. -/
def State.commandPending (s : State) (c : Word) (rest : List HostAction) : Prop :=
  s.activity = .idle ∧ s.inputs = .write 4 offCmd c :: rest

/-- Checks 2 to 10 of the table of rule R263 for a class of rule R116, in their order: the condition that fails, and its
error. -/
def argumentChecks (r : Regs) (k : FormatClass) : List (Bool × Cause) :=
  let pitch := if r.rowPitch = 0 then k.bpb * r.wb.toNat else r.rowPitch.toNat
  [(r.wb = 0 || r.hb = 0, .badGeometry),
   (r.faces ≠ 1 && r.faces ≠ 6, .badFaces),
   (1024 < (r.wb.toNat + 1) / 2 * 2, .blockBuffer),
   (r.rowPitch ≠ 0 && (r.rowPitch.toNat % 4 ≠ 0 || r.rowPitch.toNat < k.bpb * r.wb.toNat), .badPitch),
   (r.dstSize.toNat < pitch * r.hb.toNat, .dstTooSmall),
   ((List.range r.faces.toNat).any fun f => r.dstBase.get f = 0, .nullDst),
   ((List.range r.faces.toNat).any fun f => (r.dstBase.get f).toNat % 4 ≠ 0, .misalignedDst),
   (((List.range r.faces.toNat).any fun f => 2 ^ 32 < (r.dstBase.get f).toNat + r.dstSize.toNat) ||
     2 ^ 32 < r.srcBase.toNat + r.srcLen.toNat, .badRange),
   (k.channels.any fun ch => r.endpointCount ch = 0 || r.selectorCount ch = 0, .zeroPalette)]

/-- The causes a walk can end with (rule R261). -/
def walkCauses : List Cause :=
  [.emptyModel, .noCode, .refSymbolRange, .reservedRefCode, .staleTop, .selectorRange, .streamOverrun]

/-- The causes an instruction can end with when every slot holds a built model: the table of rule R327 without its
starred, unreachable entries. -/
def causesOf : Instr → List Cause
  | .nop | .softReset | .clear _ | .brStop => []
  | .brStart => [.badRange]
  | .getBits _ => [.badNbits]
  | .build _ => [.badClvN, .emptyModel, .badLmax, .oversubscribed]
  | .decode _ => [.emptyModel, .noCode]
  | .recvModel _ =>
    [.badSlot, .badNumCodelengthCodes, .badLmax, .oversubscribed, .noCode, .repeatNoPrev, .runOvershoot,
     .streamOverrun]
  | .unpack _ =>
    [.badFmtClass, .badGeometry, .badFaces, .badPitch, .dstTooSmall, .nullDst, .misalignedDst, .badRange, .blockBuffer,
     .zeroPalette] ++ walkCauses
  | .mLen0 | .mLen1 | .mLen2 | .mLen3 | .mLen4 | .mLen5 | .mLen6 | .mLen7 | .mLen8 => []
  | .mLen9 | .mLen10 | .mLen11 | .mLen12 | .mLen13 | .mLen14 | .mLen15 | .mLen16 => []
  | .mZrunS _ | .mZrunL _ => [.runOvershoot]
  | .mRepS _ | .mRepL _ => [.repeatNoPrev, .runOvershoot]
  | .refNew => [.emptyModel, .noCode]
  | .refLeft => []
  | .refTop => [.staleTop]
  | .refDiag => [.reservedRefCode]

/-- The words `ws` stand little-endian in memory from address `a` on (rules R86, R301). -/
def Memory.holdsWords (m : Memory) (a : Nat) (ws : List Word) : Prop :=
  ∀ j w, ws[j]? = some w → ∀ b < 4, Memory.read m (a + 4 * j + b) = some (w.extractLsb' (8 * b) 8)

/-- Two words that are a colour endpoint and a colour selector of the palettes (rule R302). -/
def State.colorHalf (s : State) (ws : List Word) : Prop :=
  ∃ ce cs e q, ce < s.regs.numCE.toNat ∧ cs < s.regs.numCS.toNat ∧
    s.palCE[ce]? = some e ∧ s.palCS[cs]? = some q ∧ ws = [e, q]

/-- Two words that are an alpha endpoint and an alpha selector triple of the palettes (rule R303). -/
def State.alphaHalf (s : State) (ws : List Word) : Prop :=
  ∃ ae sel e s0 s1 s2, ae < s.regs.numAE.toNat ∧ sel < s.regs.numAS.toNat ∧ s.palAE[ae]? = some e ∧
    s.palAS[3 * sel]? = some s0 ∧ s.palAS[3 * sel + 1]? = some s1 ∧ s.palAS[3 * sel + 2]? = some s2 ∧
    ws = [pairWord e s0, pairWord s1 s2]

/-- Words that a block of a class may consist of (rules R302 to R306). -/
def State.classBlock (s : State) (k : FormatClass) (ws : List Word) : Prop :=
  match k with
  | .c => s.colorHalf ws
  | .ca => ∃ a c, s.alphaHalf a ∧ s.colorHalf c ∧ ws = a ++ c
  | .a => s.alphaHalf ws
  | .aa => ∃ a c, s.alphaHalf a ∧ s.alphaHalf c ∧ ws = a ++ c

/-- The place of the walker's position in the order of the walk (rule R120). -/
def State.walkRank (s : State) : Nat :=
  (s.walk.f * s.regs.hbp + s.walk.y) * s.regs.wbp + s.walk.x

/-- How many blocks an `UNPACK` decodes (rule R265). -/
def Regs.blockCount (r : Regs) : Nat := r.faces.toNat * r.hbp * r.wbp

end Sys2Proof.Machine
end

