-- ==== Sys2Proof/Certificates/Slice0/Obligations.lean ====
section
/-! DEFINITION. The statements for the provers. Each docstring names the rule of `spec/` it formalises; where a clause is the
model's own choice it says so and names the assumption log's entry. A result written as an equation `= .next { s with … }`
is also the frame: every field not named keeps its value. -/

open Sys2Proof Sys2Proof.Machine

/-! ### Encodings -/

/-- Decoding an encoded instruction gives it back, for every instruction and every operand value of its field, in all three
encoding spaces (rules R113, R118, R123). -/
def Obligations.DecodeOfEncodeGivesInstruction : Prop :=
  ∀ i : Instr, decode (encode i) = .ok i

/-- Every code that decodes is the encoding of what it decodes to: no bit of a code is ignored. -/
def Obligations.DecodedCodesAreEncodings : Prop :=
  ∀ (c : Code) (i : Instr), decode c = .ok i → encode i = c

/-- Words written out from the encoding tables of rules R113, R118 and R123 decode to the instructions they stand for. -/
def Obligations.SampleWordsDecode : Prop :=
  decode (.command 0x00000000#32) = .ok .nop ∧
  decode (.command 0x01000000#32) = .ok .softReset ∧
  decode (.command 0x11000020#32) = .ok (.getBits 32) ∧
  decode (.command 0x20000006#32) = .ok (.build .aux0) ∧
  decode (.command 0x30000001#32) = .ok (.recvModel .epd0) ∧
  decode (.command 0x40000003#32) = .ok (.unpack 3) ∧
  decode (.metaSymbol 16 0) = .ok .mLen16 ∧
  decode (.metaSymbol 18 127) = .ok (.mZrunL 127) ∧
  decode (.refCode 2) = .ok .refTop

/-! ### The step -/

/-- The step runs the decoded command: the host's write of `CMD` is taken off the queue and the command is executed whole
(rules R112, R320). -/
def Obligations.StepRunsTheDecodedCommand : Prop :=
  ∀ (s : State) (c : Word) (rest : List HostAction) (i : Instr),
    s.commandPending c rest → decode (.command c) = .ok i → step s = exec i { s with inputs := rest }

/-- The step runs the fetched meta symbol: `Decode(5)`, the symbol's extra bits, then the instruction, in the order of rules
R118 and R235. A failing `Decode(5)` raises its cause on slot 5 at position 0 and consumes nothing (rules R210, R211, R243),
a symbol above 20 raises `BAD_META_SYMBOL` (rule R235), and a refused read refuses the step. That one step is one meta
symbol, and where the fetch ends and the meaning begins, are the model's choices (log entries 8 and 22); rule R320 makes the
whole command one transition. The premise that no reset is pending is the model's choice of where a reset lands (log entry
19). -/
def Obligations.StepRunsTheFetchedMetaSymbol : Prop :=
  (∀ (s t u : State) (symbol extra : Nat) (i : Instr),
    s.activity = .receiving → s.inputs.head? ≠ some .hardReset → s.recv.cl.length < s.recv.total →
    s.decodeSymbol .metaCode = .ok symbol t → t.getBits (metaExtraBits symbol) = .ok extra u →
    decode (.metaSymbol symbol extra) = .ok i → step s = exec i u) ∧
  ∀ s : State, s.activity = .receiving → s.inputs.head? ≠ some .hardReset → s.recv.cl.length < s.recv.total →
    (∀ c n t, s.decodeSymbol .metaCode = .err c n t →
      step s = .next { s with
        ending := .raised c, anyErr := true, errinfo := packErrinfo 5 0 0 0, activity := .idle }) ∧
    (∀ symbol t, s.decodeSymbol .metaCode = .ok symbol t → 20 < symbol →
      step s = .next { t with
        ending := .raised .badMetaSymbol, anyErr := true, errinfo := packErrinfo 5 0 0 0, activity := .idle }) ∧
    (∀ r, s.decodeSymbol .metaCode = .refused r → step s = .refused r) ∧
    (∀ symbol t r, s.decodeSymbol .metaCode = .ok symbol t → t.getBits (metaExtraBits symbol) = .refused r →
      step s = .refused r)

/-- The step runs the fetched endpoint-reference code and then, if the code has not ended the command, the rest of the block
(rules R268 to R270, R121): in an even row the code comes from the reference byte, read at even columns, and the code of
the block below is stashed; in an odd row it is the stashed one. A failing `Decode(0)` and a reference symbol above 255
raise at the walker's position with slot 0, and run no code (rules R268, R278). That one step is one block of the walk,
with the fetch of its code cut off from the code's meaning, is the model's choice (log entries 8 and 22); so is the
premise that no reset is pending (log entry 19). -/
def Obligations.StepRunsTheFetchedReferenceCode : Prop :=
  (∀ (s : State) (i : Instr) (fetched : State),
    s.activity = .walking → s.inputs.head? ≠ some .hardReset →
    ((s.walk.y % 2 = 0 ∧ s.walk.x % 2 = 0 ∧ ∃ (v : Nat) (t : State), s.decodeSymbol .ref = .ok v t ∧ v ≤ 255 ∧
        decode (.refCode ((BitVec.ofNat 8 v).extractLsb' 0 2)) = .ok i ∧
        fetched = { t with
          walk := { t.walk with referenceGroup := BitVec.ofNat 8 v }
          blockBuf := setBufEntry t.blockBuf s.walk.x { bufEntry t.blockBuf s.walk.x with
            endpointReference := ((BitVec.ofNat 8 v).extractLsb' 2 2).setWidth 4 } }) ∨
     (s.walk.y % 2 = 0 ∧ s.walk.x % 2 = 1 ∧
        decode (.refCode (s.walk.referenceGroup.extractLsb' 4 2)) = .ok i ∧
        fetched = { s with
          blockBuf := setBufEntry s.blockBuf s.walk.x { bufEntry s.blockBuf s.walk.x with
            endpointReference := (s.walk.referenceGroup.extractLsb' 6 2).setWidth 4 } }) ∨
     (s.walk.y % 2 = 1 ∧
        decode (.refCode ((bufEntry s.blockBuf s.walk.x).endpointReference.extractLsb' 0 2)) = .ok i ∧ fetched = s)) →
    (∀ u, exec i fetched = .next u → u.activity = .walking → step s = restOfBlock u) ∧
    (∀ u, exec i fetched = .next u → u.activity ≠ .walking → step s = .next u) ∧
    (∀ r, exec i fetched = .refused r → step s = .refused r)) ∧
  ∀ s : State, s.activity = .walking → s.inputs.head? ≠ some .hardReset → s.walk.y % 2 = 0 → s.walk.x % 2 = 0 →
    (∀ c k t, s.decodeSymbol .ref = .err c k t →
      step s = .next { s with
        result := BitVec.ofNat 32 s.walk.blocksWritten, ending := .raised c, anyErr := true,
        errinfo := packErrinfo 0 s.walk.f s.walk.y s.walk.x, activity := .idle }) ∧
    (∀ v t, s.decodeSymbol .ref = .ok v t → 255 < v →
      step s = .next { t with
        result := BitVec.ofNat 32 s.walk.blocksWritten, ending := .raised .refSymbolRange, anyErr := true,
        errinfo := packErrinfo 0 s.walk.f s.walk.y s.walk.x, activity := .idle }) ∧
    (∀ r, s.decodeSymbol .ref = .refused r → step s = .refused r)

/-- Rule R323: a word that matches no row raises `ArgumentError(BAD_OPCODE)` and changes nothing else; the rule's two example
words are such words. -/
def Obligations.IllegalCommandWordRaisesBadOpcode : Prop :=
  (∀ (s : State) (c : Word) (rest : List HostAction),
    s.commandPending c rest → (∀ row ∈ commandRows, c &&& row.1 ≠ row.2) →
    step s = .next { s with inputs := rest, ending := .raised .badOpcode, anyErr := true, errinfo := 0 } ∧
    (s.br.overrun = false →
      State.status { s with inputs := rest, ending := .raised .badOpcode, anyErr := true, errinfo := 0 } = 0x000020D4)) ∧
  (∀ row ∈ commandRows, 0x11000100#32 &&& row.1 ≠ row.2) ∧
  (∀ row ∈ commandRows, 0x7F000000#32 &&& row.1 ≠ row.2)

/-- Rules R31, R32, R35, R57: what each offset of the register map reads, register by register; an aligned 32-bit write stores
the named fields of an `RW` register and is ignored elsewhere, and changes nothing else; `CMD` and offsets without a
register read 0; every other access is refused. `fieldMask` and `hasRegister` are the masks and the extent of the map of
rule R31. That an offset without a register reads 0 and ignores writes follows rules R31 and R57, where chapter 93 (U11)
lets a model refuse instead: log entry 10. -/
def Obligations.RegisterAccesses : Prop :=
  (∀ (s : State) (off : Nat) (v : Word) (rest : List HostAction),
    s.activity = .idle → s.inputs = .write 4 off v :: rest → off % 4 = 0 → off ≠ offCmd →
    ∃ t, step s = .next t ∧ t = { s with inputs := rest, regs := t.regs, clv := t.clv } ∧
      ∀ other, other % 4 = 0 → t.readReg other =
        if other = off then
          match fieldMask s.cfg off with
          | some m => v &&& m
          | none => s.readReg off
        else s.readReg other) ∧
  (∀ (s : State) (off : Nat) (rest : List HostAction),
    s.activity = .idle → s.inputs = .read 4 off :: rest → off % 4 = 0 →
    step s = .next { s with inputs := rest, readData := s.readReg off }) ∧
  (∀ (s : State) (off : Nat), off % 4 = 0 → off = offCmd ∨ hasRegister s.cfg off = false → s.readReg off = 0) ∧
  (∀ (s : State) (width off : Nat) (v : Word) (rest : List HostAction),
    s.activity = .idle → width ≠ 4 ∨ off % 4 ≠ 0 →
    s.inputs = .write width off v :: rest ∨ s.inputs = .read width off :: rest → step s = .refused .badBusAccess) ∧
  ∀ s : State,
    s.readReg 0x000 = 0 ∧ s.readReg 0x004 = s.status ∧ s.readReg 0x008 = s.result ∧ s.readReg 0x00C = s.errinfo ∧
    (s.br.bitpos < 2 ^ 64 → (s.readReg 0x014).toNat * 2 ^ 32 + (s.readReg 0x010).toNat = s.br.bitpos) ∧
    s.readReg 0x018 = s.regs.srcBase ∧ s.readReg 0x01C = s.regs.srcLen ∧
    s.readReg 0x020 = s.regs.clvN.setWidth 32 ∧ s.readReg 0x024 = s.regs.wb.setWidth 32 ∧
    s.readReg 0x028 = s.regs.hb.setWidth 32 ∧ s.readReg 0x02C = s.regs.faces.setWidth 32 ∧
    s.readReg 0x030 = s.regs.numCE.setWidth 32 ∧ s.readReg 0x034 = s.regs.numCS.setWidth 32 ∧
    s.readReg 0x038 = s.regs.numAE.setWidth 32 ∧ s.readReg 0x03C = s.regs.numAS.setWidth 32 ∧
    s.readReg 0x040 = s.regs.rowPitch ∧ s.readReg 0x044 = s.regs.dstSize ∧
    (∀ f < 6, s.readReg (0x048 + 4 * f) = s.regs.dstBase.get f) ∧
    (∀ i < 2 ^ s.cfg.totalSymsBits, s.readReg (0x10000 + 4 * i) = (s.clvAt i).setWidth 32)

/-- Rule R380: the idle block waits, and without an action of the host nothing changes. The host's own actions: a store into
memory (which marks the range of a started reader as changed, the model's choice for rule R388, log entry 9) and the
replacement of a palette between commands (rule R390), and the platform's map (rules R84, R90; that the host names these
places is the model's choice, log entries 4 and 13). -/
def Obligations.HostActionsOnAnIdleBlock : Prop :=
  (∀ s : State, s.activity = .idle → s.inputs = [] → step s = .next s) ∧
  ∀ (s : State) (rest : List HostAction), s.activity = .idle →
    (∀ (addr : Word) (b : Byte), s.inputs = .store addr b :: rest → ∃ t, step s = .next t ∧
      t = { s with inputs := rest, mem := t.mem, br := { s.br with touched := t.br.touched } } ∧
      (∀ a, Memory.read t.mem a = if a = addr.toNat then some b else Memory.read s.mem a) ∧
      (t.br.touched = true ↔ s.br.touched = true ∨
        (s.br.base.toNat ≤ addr.toNat ∧ addr.toNat < s.br.base.toNat + s.br.rangeLen))) ∧
    (∀ at_ p, s.inputs = .loadPalCE at_ p :: rest → step s = .next { s with
      inputs := rest, palCE := p, palPlaces := { s.palPlaces with ce := at_ } }) ∧
    (∀ at_ p, s.inputs = .loadPalCS at_ p :: rest → step s = .next { s with
      inputs := rest, palCS := p, palPlaces := { s.palPlaces with cs := at_ } }) ∧
    (∀ at_ p, s.inputs = .loadPalAE at_ p :: rest → step s = .next { s with
      inputs := rest, palAE := p, palPlaces := { s.palPlaces with ae := at_ } }) ∧
    (∀ at_ p, s.inputs = .loadPalAS at_ p :: rest → step s = .next { s with
      inputs := rest, palAS := p, palPlaces := { s.palPlaces with as := at_ } }) ∧
    (∀ h b, s.inputs = .platform h b :: rest → step s = .next { s with inputs := rest, holes := h, registerBase := b })

/-! ### Reset, status, errors -/

/-- Rules R56 and R380. The reset values that the spec states: every register of the map reads 0, the reader is not started,
every slot is `EMPTY`, no `block_buffer` entry is valid, the hidden datapath is empty. The reset input puts the block at
its reset values. A reset during a command abandons the command, and the destination bytes it had written stay written:
the reset leaves the first `n` words of the words that the command writes, in the order of rule R92, and no other byte;
`u` is what the command would have left without the reset. That palettes, configuration and the bytes outside the
destinations stay is read from rules R54 and R380 (log entry 20); the instants at which a reset lands are the model's
(log entry 19). Nothing is said of the values that rule R381 leaves unspecified (log entry 5). -/
def Obligations.ResetValuesAndHardwareReset : Prop :=
  (∀ (s : State) (rest : List HostAction),
    let atReset (t : State) (m : Memory) : Prop :=
      (∀ x, (bufEntry t.blockBuf x).valid = false) ∧
      t = { State.reset with
        cfg := s.cfg, mem := m, palCE := s.palCE, palCS := s.palCS, palAE := s.palAE, palAS := s.palAS,
        palPlaces := s.palPlaces, registerBase := s.registerBase, holes := s.holes, inputs := rest,
        readData := s.readData, recv := t.recv, walk := t.walk, blockBuf := t.blockBuf }
    (s.inputs = .hardReset :: rest → ∃ t, step s = .next t ∧ atReset t s.mem) ∧
    ∀ (c : Word) (n : Nat), s.activity = .idle → s.inputs = .resetDuring c n :: rest →
      ((∀ cls, decode (.command c) ≠ .ok (.unpack cls)) → ∃ t, step s = .next t ∧ atReset t s.mem) ∧
      ∀ cls u, decode (.command c) = .ok (.unpack cls) → exec (.unpack cls) { s with inputs := rest } = .next u →
        ∃ t, step s = .next t ∧ atReset t t.mem ∧
          (∀ k, FormatClass.ofCode cls = some k →
            ∀ f < s.regs.faces.toNat, ∀ y < s.regs.hb.toNat, ∀ x < s.regs.wb.toNat, ∀ i < k.words, ∀ b < 4,
              let a := s.regs.blockAddr k f y x + 4 * i + b
              Memory.read t.mem a =
                if ((f * s.regs.hb.toNat + y) * s.regs.wb.toNat + x) * k.words + i < n then Memory.read u.mem a
                else Memory.read s.mem a) ∧
          ∀ a, (∀ k, FormatClass.ofCode cls = some k →
              ∀ f < s.regs.faces.toNat, ∀ y < s.regs.hb.toNat, ∀ x < s.regs.wb.toNat,
                a < s.regs.blockAddr k f y x ∨ s.regs.blockAddr k f y x + k.bpb ≤ a) →
            Memory.read t.mem a = Memory.read s.mem a) ∧
  (∀ off, off % 4 = 0 → State.reset.readReg off = 0) ∧
  State.reset.br = { base := 0, len := 0, bitpos := 0, overrun := false, started := false, touched := false } ∧
  (∀ k, State.reset.slot k = none) ∧
  (∀ x, (bufEntry State.reset.blockBuf x).valid = false) ∧
  State.reset.busy = false ∧
  Datapath.start State.reset = ⟨0, 0, 0⟩

/-- `SOFT_RESET` (rule R322) has the reset's effect and ends as a successful command, `STATUS = 0x00000002`. That
memory, palettes and configuration stay is read from rule R54, not from rule R322's words (log entry 20). Nothing is said
of the values that rule R381 leaves unspecified (log entry 5). -/
def Obligations.SoftResetResult : Prop :=
  decode (.command 0x01000000#32) = .ok .softReset ∧
  ∀ s : State, ∃ t, exec .softReset s = .next t ∧
    t = { State.reset with
      ending := .done
      cfg := s.cfg, mem := s.mem, palCE := s.palCE, palCS := s.palCS, palAE := s.palAE, palAS := s.palAS,
      palPlaces := s.palPlaces, registerBase := s.registerBase, holes := s.holes, inputs := s.inputs,
      readData := s.readData, recv := t.recv, walk := t.walk, blockBuf := t.blockBuf } ∧
    (∀ x, (bufEntry t.blockBuf x).valid = false) ∧
    t.status = 0x00000002 ∧ t.result = 0 ∧ t.errinfo = 0 ∧ (∀ k, t.slot k = none) ∧
    t.br.started = false ∧ t.br.bitpos = 0 ∧ (∀ i, t.clvAt i = 0) ∧ t.regs = Regs.reset

/-- Rule R321: `NOP` changes no state but what every command does around its own rule; the rule's example of a `STATUS`
before and after. -/
def Obligations.NopResult : Prop :=
  decode (.command 0x00000000#32) = .ok .nop ∧
  ∀ s : State, exec .nop s = .next { s with ending := .done, activity := .idle } ∧
    (s.status = 0x00000CC4 → ∀ t, exec .nop s = .next t → t.status = 0x00000082)

/-- Rule R32: the fields of `STATUS`; rules R341 and R342: kind code and cause code of every cause, as the tables number
them. -/
def Obligations.StatusFieldsAndCodes : Prop :=
  (∀ s : State,
      s.status.getLsbD 0 = s.busy ∧ s.status.getLsbD 1 = s.ending.doneBit ∧ s.status.getLsbD 2 = s.ending.errBit ∧
      s.status.getLsbD 3 = s.br.overrun ∧ s.status.extractLsb' 4 3 = s.ending.kindField ∧
      s.status.getLsbD 7 = s.anyErr ∧ s.status.extractLsb' 8 8 = s.ending.causeField ∧
      s.status.extractLsb' 16 16 = 0) ∧
  ∀ row ∈ ([(.emptyModel, 4, 0x01), (.badLmax, 4, 0x02), (.oversubscribed, 4, 0x03), (.noCode, 4, 0x04),
      (.indexRange, 4, 0x05), (.badNumCodelengthCodes, 4, 0x06), (.repeatNoPrev, 4, 0x07), (.runOvershoot, 4, 0x08),
      (.badMetaSymbol, 4, 0x09), (.refSymbolRange, 4, 0x0A), (.reservedRefCode, 4, 0x0B), (.staleTop, 4, 0x0C),
      (.selectorRange, 4, 0x0D), (.streamOverrun, 4, 0x0E), (.badOpcode, 5, 0x20), (.badNbits, 5, 0x21),
      (.badSlot, 5, 0x22), (.nullDst, 5, 0x23), (.misalignedDst, 5, 0x24), (.badPitch, 5, 0x25),
      (.dstTooSmall, 5, 0x26), (.badGeometry, 5, 0x27), (.badFaces, 5, 0x28), (.badClvN, 5, 0x29),
      (.badRange, 5, 0x2A), (.badFmtClass, 3, 0x30), (.zeroPalette, 1, 0x40), (.blockBuffer, 6, 0x50)] :
      List (Cause × BitVec 3 × BitVec 8)),
    row.1.kind.code = row.2.1 ∧ row.1.code = row.2.2

/-- Rules R34 and R345: what `raise` leaves in `STATUS` and `ERRINFO`, and that nothing else is rolled back or changed. -/
def Obligations.RaiseRecordsCauseAndPosition : Prop :=
  ∀ (s : State) (c : Cause) (slot : BitVec 3) (f y x : Nat), f < 8 → y < 2048 → x < 2048 →
    let t := s.raise c slot f y x
    t = { s with ending := .raised c, anyErr := true, errinfo := t.errinfo, activity := .idle } ∧
    t.status.getLsbD 0 = false ∧ t.status.getLsbD 1 = false ∧ t.status.getLsbD 2 = true ∧
    t.status.getLsbD 7 = true ∧ t.status.extractLsb' 4 3 = c.kind.code ∧ t.status.extractLsb' 8 8 = c.code ∧
    (t.errinfo.extractLsb' 0 11).toNat = x ∧ (t.errinfo.extractLsb' 11 11).toNat = y ∧
    (t.errinfo.extractLsb' 22 3).toNat = f ∧ t.errinfo.extractLsb' 25 3 = slot ∧ t.errinfo.extractLsb' 28 4 = 0

/-- Rules R32, R33, R34, R324, R326: after any command the block is idle and has exactly one of `DONE` and `ERR`; a command
that succeeds keeps `ERRINFO` and `ANYERR`; one that fails sets `ANYERR` and, unless it is `UNPACK`, keeps `RESULT`.
`SOFT_RESET` is left out: its result is stated whole by `SoftResetResult`. -/
def Obligations.StatusAfterEveryCommand : Prop :=
  ∀ (i : Instr) (s t : State), i.isCommand = true → i ≠ .softReset → exec i s = .next t →
    t.activity = .idle ∧
    ((t.ending = .done ∧ t.errinfo = s.errinfo ∧ t.anyErr = s.anyErr) ∨
      ∃ c, t.ending = .raised c ∧ t.anyErr = true ∧ ((∃ cls, i = .unpack cls) ∨ t.result = s.result))

/-- Rules R327 and R215: an instruction ends only with the causes the table lists for it, and never with one the table marks
as unreachable, in every state whose slots hold built models. -/
def Obligations.InstructionsRaiseOnlyTheirCauses : Prop :=
  ∀ (i : Instr) (s t : State) (c : Cause), s.slotsBuilt → s.ending = .pending ∨ i.isCommand = true →
    exec i s = .next t → t.ending = .raised c → c ∈ causesOf i

/-! ### The bit reader -/

/-- Rule R150: `StreamBit` inside the range is bit `7 − (i mod 8)` of byte `i div 8`, and past the range it is 0 without a
memory read (the same whatever memory holds). That the bytes can be read is the host's duty (rule R386). -/
def Obligations.StreamBitsInAndPastTheRange : Prop :=
  ∀ (s : State) (i : Nat),
    (i / 8 < s.br.rangeLen → s.rangeReadable →
      ∃ b, Memory.read s.mem (s.br.base.toNat + i / 8) = some b ∧
        s.streamBit i = .ok (((b >>> (7 - i % 8)) &&& 1) = 1)) ∧
    (s.br.rangeLen ≤ i / 8 → ∀ m, State.streamBit { s with mem := m } i = .ok false)

/-- The model's choice for rules R386 and R388 (log entries 3 and 9): a bit inside the range whose byte nothing has written,
or whose range the host has changed, refuses the trace, and so does a `GET_BITS` that needs it first. -/
def Obligations.UnreadableSourceRefuses : Prop :=
  ∀ (s : State) (n : BitVec 6), 0 < n.toNat → n.toNat ≤ 32 → s.br.bitpos / 8 < s.br.rangeLen →
    (s.br.touched = true → exec (.getBits n) s = .refused .sourceChanged) ∧
    (s.br.touched = false → Memory.read s.mem (s.br.base.toNat + s.br.bitpos / 8) = none →
      exec (.getBits n) s = .refused .sourceNotBacked)

/-- Rule R151: `PeekBits(n)` is the weighted sum of the `n` bits at the position; that it changes no state is in its type. Rule
R153: `GetBits(n)` is `PeekBits(n)` and `Consume(n)`; for `17 ≤ n ≤ 32` it equals the split form, in value, position and
overrun, and it stops on the same reads; `GetBits(0)` returns 0 and changes nothing. -/
def Obligations.PeekBitsAndGetBits : Prop :=
  (∀ (s : State) (f : Nat → Bool) (n : Nat), (∀ i, s.streamBit i = .ok (f i)) → n ≤ 32 →
      s.peekBits n = .ok (∑ j ∈ Finset.range n, (f (s.br.bitpos + j)).toNat * 2 ^ (n - 1 - j)) ∧
      s.peekBits 0 = .ok 0) ∧
  ∀ (s : State),
    (∀ n v, n ≤ 32 → s.peekBits n = .ok v → s.getBits n = .ok v (s.consume n)) ∧
    (∀ n, 17 ≤ n → n ≤ 32 →
      s.getBits n = (s.getBits (n - 16)).andThen fun hi t => (t.getBits 16).andThen fun lo u =>
        .ok (hi * 2 ^ 16 + lo) u) ∧
    (s.overrunExact → s.getBits 0 = .ok 0 s)

/-- Rules R156, R264: `BR_START` on a range that stays below `2^32`; one that crosses it raises `BAD_RANGE`. A range at which
the platform has no memory refuses the trace (rule R386; the list `holes` is the model's, log entry 4). -/
def Obligations.BrStartResult : Prop :=
  ∀ s : State,
    (s.regs.srcBase.toNat + s.regs.srcLen.toNat ≤ 2 ^ 32 → s.inHole s.regs.srcRange = false →
      exec .brStart s = .next { s with
        br := { base := s.regs.srcBase, len := s.regs.srcLen, bitpos := 0, overrun := false, started := true,
                touched := false }
        ending := .done
        activity := .idle }) ∧
    (2 ^ 32 < s.regs.srcBase.toNat + s.regs.srcLen.toNat →
      exec .brStart s = .next { s with
        ending := .raised .badRange, anyErr := true, errinfo := 0, activity := .idle }) ∧
    (s.regs.srcBase.toNat + s.regs.srcLen.toNat ≤ 2 ^ 32 → s.inHole s.regs.srcRange = true →
      exec .brStart s = .refused .sourceNotBacked)

/-- Rule R157: `GET_BITS n` returns the `n`-bit field and advances; `n = 33 .. 63` is refused with nothing consumed. Rule R155:
at or past the end of the range, and for a reader never started, it succeeds with zeros, whatever memory holds. -/
def Obligations.GetBitsResult : Prop :=
  (∀ (s : State) (n : BitVec 6) (f : Nat → Bool), (∀ i, s.streamBit i = .ok (f i)) → n.toNat ≤ 32 →
    exec (.getBits n) s = .next { s with
      br := { s.br with
        bitpos := s.br.bitpos + n.toNat
        overrun := s.br.overrun || decide (8 * s.br.rangeLen < s.br.bitpos + n.toNat) }
      result := BitVec.ofNat 32
        (∑ j ∈ Finset.range n.toNat, (f (s.br.bitpos + j)).toNat * 2 ^ (n.toNat - 1 - j))
      ending := .done
      activity := .idle }) ∧
  (∀ (s : State) (n : BitVec 6), 32 < n.toNat →
    exec (.getBits n) s = .next { s with
      ending := .raised .badNbits, anyErr := true, errinfo := 0, activity := .idle }) ∧
  (∀ (s : State) (n : BitVec 6), n.toNat ≤ 32 → 8 * s.br.rangeLen ≤ s.br.bitpos ∨ s.br.started = false →
      ∃ t, exec (.getBits n) s = .next t ∧ t.ending = .done ∧ t.result = 0 ∧ t.br.bitpos = s.br.bitpos + n.toNat ∧
        (0 < n.toNat → 8 * s.br.rangeLen ≤ s.br.bitpos → t.br.overrun = true))

/-- Rule R158: `BR_STOP` returns `min(br.len, ⌈br.bitpos/8⌉)` and keeps the reader; 0 for a reader never started, the length of
the range after an overrun. -/
def Obligations.BrStopResult : Prop :=
  ∀ s : State,
    exec .brStop s = .next { s with
      result := BitVec.ofNat 32 (min s.br.rangeLen ((s.br.bitpos + 7) / 8)), ending := .done, activity := .idle } ∧
    (s.br.started = false → ∀ t, exec .brStop s = .next t → t.result = 0) ∧
    (s.br.started = true → s.overrunExact → s.br.overrun = true →
      ∀ t, exec .brStop s = .next t → t.result = s.br.len)

/-- Rule R162: each call on CR1's datapath (rule R160) answers what the architectural reader answers and keeps the invariant of
rule R44; a started reader's empty datapath satisfies it. -/
def Obligations.DatapathSimulatesReader : Prop :=
  ∀ (s : State) (d : Datapath), s.rangeReadable → d.tracks s s.br.bitpos →
    (∀ n, n ≤ 32 → ∃ v e, s.datapathGetBits n d = .ok (v, e) ∧ s.getBits n = .ok v (s.consume n) ∧
      e.tracks (s.consume n) (s.consume n).br.bitpos) ∧
    (∃ v e, s.datapathPeek16 d = .ok (v, e) ∧ s.peekBits 16 = .ok v ∧ e.tracks s s.br.bitpos ∧ 16 ≤ e.bitCount) ∧
    (∀ l, 1 ≤ l → l ≤ 16 → l ≤ d.bitCount → (d.drop l).tracks (s.consume l) (s.consume l).br.bitpos) ∧
    (Datapath.start s.startReader).tracks s.startReader s.startReader.br.bitpos

/-- Rule R42 over the machine: `OVERRUN` says exactly that the position is past the end of the range, and every step keeps
that. -/
def Obligations.EveryStepKeepsOverrunExact : Prop :=
  ∀ s t : State, s.overrunExact → step s = .next t → t.overrunExact

/-! ### The Huffman builder and decoder -/

/-- Rule R181 with rule R184: `Build` answers the first check's error, in the order of the table, and otherwise the model of
the vector. -/
def Obligations.BuildChecksInOrder : Prop :=
  ∀ cl : List Nat,
    (cl = [] → buildModel cl = .error .emptyModel) ∧
    (cl ≠ [] → (∃ l ∈ cl, 16 < l) → buildModel cl = .error .badLmax) ∧
    (cl ≠ [] → (∀ l ∈ cl, l = 0) → buildModel cl = .error .badLmax) ∧
    (cl ≠ [] → (∀ l ∈ cl, l ≤ 16) → (∃ l ∈ cl, l ≠ 0) → 2 ^ 16 < kraftSum cl →
      buildModel cl = .error .oversubscribed) ∧
    (cl ≠ [] → (∀ l ∈ cl, l ≤ 16) → (∃ l ∈ cl, l ≠ 0) → kraftSum cl ≤ 2 ^ 16 → buildModel cl = .ok ⟨cl⟩)

/-- Rule R184: `first[ℓ] + num[ℓ] = 2^ℓ · Σ_{j ≤ ℓ} num[j]·2^−j`, over-subscription is `first[ℓ] + num[ℓ] > 2^ℓ` at some used
length, which is a Kraft sum above one, and `Build` then fails with `OVERSUBSCRIBED`. -/
def Obligations.OversubscriptionIsKraftAboveOne : Prop :=
  ∀ m : Model, (∀ l ∈ m.cl, l ≤ 16) →
    (∀ l, 1 ≤ l → l ≤ 16 →
      m.first l + m.num l = ∑ j ∈ Finset.Icc 1 l, m.num j * 2 ^ (l - j)) ∧
    (m.oversubscribed = true ↔ ∃ l, 1 ≤ l ∧ l ≤ 16 ∧ 0 < m.num l ∧ 2 ^ l < m.first l + m.num l) ∧
    (m.oversubscribed = true ↔ 2 ^ 16 < kraftSum m.cl) ∧
    (m.cl ≠ [] → (∃ l ∈ m.cl, l ≠ 0) → m.oversubscribed = true → buildModel m.cl = .error .oversubscribed)

/-- Rule R186: `sorted` lists the used symbols by length and then by index; `sorted[base[cl[s]] + rank(s)] = s`, and
`sorted[base[ℓ] + j]` is the symbol whose code is `first[ℓ] + j`. -/
def Obligations.SortedSymbolOrder : Prop :=
  ∀ (cl : List Nat) (m : Model), buildModel cl = .ok m →
    m.sorted.length = m.totalUsed ∧
    (∀ s, s ∈ m.sorted ↔ s < m.alphabet ∧ 0 < m.lengthOf s) ∧
    m.sorted.Pairwise (fun a b => m.lengthOf a < m.lengthOf b ∨ (m.lengthOf a = m.lengthOf b ∧ a < b)) ∧
    (∀ s, s < m.alphabet → 0 < m.lengthOf s → m.sorted[m.base (m.lengthOf s) + m.rank s]? = some s) ∧
    (∀ l, 1 ≤ l → l ≤ 16 → ∀ j < m.num l,
      ∃ s, m.sorted[m.base l + j]? = some s ∧ m.lengthOf s = l ∧ m.code s = m.first l + j)

/-- Rule R195: the `max_codes` of the used lengths rise strictly and stay at most `0x10000`; a 16-bit number has a codeword of
a used length as its leading bits exactly in that length's interval, and then the codeword is that of the `sorted` symbol;
above the last interval it starts with no codeword; no two codewords lead the same number. -/
def Obligations.MaxCodesCutIntervals : Prop :=
  ∀ (cl : List Nat) (m : Model), buildModel cl = .ok m →
    (∀ a b, 1 ≤ a → a < b → b ≤ 16 → 0 < m.num a → 0 < m.num b → m.maxCode a < m.maxCode b) ∧
    (∀ a, 1 ≤ a → a ≤ 16 → m.maxCode a ≤ 0x10000 ∧ (0 < m.num a → 0 < m.maxCode a)) ∧
    (∀ l w, 1 ≤ l → l ≤ 16 → 0 < m.num l → w < 2 ^ 16 →
      (((∀ a, 1 ≤ a → a < l → 0 < m.num a → m.maxCode a ≤ w) ∧ w < m.maxCode l) ↔
        ∃ s, m.leads s w ∧ m.lengthOf s = l ∧ m.first l ≤ w / 2 ^ (16 - l) ∧
          m.sorted[m.base l + (w / 2 ^ (16 - l) - m.first l)]? = some s)) ∧
    (∀ w, w < 2 ^ 16 → (∀ a, 1 ≤ a → a ≤ 16 → 0 < m.num a → m.maxCode a ≤ w) → ∀ s, ¬ m.leads s w) ∧
    (∀ s s' w, w < 2 ^ 16 → m.leads s w → m.leads s' w → s = s')

/-- Rules R210, R211, R215: on a built model the decoder finds the symbol whose codeword leads the lookahead, and that symbol
alone; where no codeword leads it answers `NO_CODE`; it never answers `INDEX_RANGE`. -/
def Obligations.DecodeFindsTheLeadingCodeword : Prop :=
  ∀ (cl : List Nat) (m : Model) (w : Nat), buildModel cl = .ok m → w < 2 ^ 16 →
    (∀ s l, m.decodeBits w = .ok (s, l) ↔ m.leads s w ∧ l = m.lengthOf s) ∧
    (m.decodeBits w = .error .noCode ↔ ∀ s, ¬ m.leads s w) ∧
    m.decodeBits w ≠ .error .indexRange

/-- Rule R213: CR1's lookup and tail search (rule R212) give the reference decode's symbol, consumption and errors, for every
slot that holds a built model, every stream and every configuration. -/
def Obligations.FastDecodeEqualsReference : Prop :=
  ∀ (s : State) (k : SlotId), s.slotsBuilt → s.decodeSymbolFast k = s.decodeSymbol k

/-- Rule R218: where the stream holds the codeword of a used symbol of a built model, followed by anything, `Decode` returns
the symbol and consumes its codeword; so does the command `DECODE`, which changes nothing else (rule R214). -/
def Obligations.DecodeReturnsTheCodedSymbol : Prop :=
  ∀ (s : State) (k : SlotId) (m : Model) (symbol : Nat),
    s.slot k = some m → buildModel m.cl = .ok m → symbol < m.alphabet → 0 < m.lengthOf symbol →
    s.rangeReadable → s.streamHolds (m.codeword symbol) →
    s.decodeSymbol k = .ok symbol (s.consume (m.lengthOf symbol)) ∧
    exec (.decode k) s = .next { s with
      br := { s.br with
        bitpos := s.br.bitpos + m.lengthOf symbol
        overrun := s.br.overrun || decide (8 * s.br.rangeLen < s.br.bitpos + m.lengthOf symbol) }
      result := BitVec.ofNat 32 symbol
      ending := .done
      activity := .idle }

/-- Rules R210, R211, R214: `DECODE` on an `EMPTY` slot, or where the lookahead starts with no codeword, raises with the slot
and consumes nothing. -/
def Obligations.DecodeErrorsConsumeNothing : Prop :=
  ∀ (s : State) (k : SlotId),
    (s.slot k = none →
      exec (.decode k) s = .next { s with
        ending := .raised .emptyModel, anyErr := true, errinfo := packErrinfo k.num 0 0 0, activity := .idle }) ∧
    (∀ m w, s.slot k = some m → buildModel m.cl = .ok m → s.peekBits 16 = .ok w → (∀ v, ¬ m.leads v w) →
      exec (.decode k) s = .next { s with
        ending := .raised .noCode, anyErr := true, errinfo := packErrinfo k.num 0 0 0, activity := .idle })

/-- Rule R193: `BUILD` on `CLV[0..N−1]`. That `BAD_CLV_N` reports slot 0 is read from the rule's order (log entry 6). -/
def Obligations.BuildResult : Prop :=
  ∀ (s : State) (k : SlotId),
    let n := s.regs.clvN.toNat
    let vector := (List.range n).map fun i => (s.clvAt i).toNat
    (2 ^ s.cfg.totalSymsBits - 1 < n →
      exec (.build k) s = .next { s with
        ending := .raised .badClvN, anyErr := true, errinfo := 0, activity := .idle }) ∧
    (n ≤ 2 ^ s.cfg.totalSymsBits - 1 → ∀ m, buildModel vector = .ok m →
      exec (.build k) s = .next { s with
        slots := s.slots.set k (some m), result := BitVec.ofNat 32 n, ending := .done, activity := .idle }) ∧
    (n ≤ 2 ^ s.cfg.totalSymsBits - 1 → ∀ c, buildModel vector = .error c →
      exec (.build k) s = .next { s with
        slots := s.slots.set k none, ending := .raised c, anyErr := true, errinfo := packErrinfo k.num 0 0 0,
        activity := .idle })

/-- Rule R194: `CLEAR` empties its slot and nothing else; on an `EMPTY` slot it changes nothing; a later `DECODE` of the slot
raises `EMPTY_MODEL`. -/
def Obligations.ClearResult : Prop :=
  ∀ (s : State) (k : SlotId),
    decode (.command (0x21000000#32 ||| k.num.setWidth 32)) = .ok (.clear k) ∧
    ∃ t, exec (.clear k) s = .next t ∧
      t = { s with slots := t.slots, ending := .done, activity := .idle } ∧
      (∀ j, t.slot j = if j = k then none else s.slot j) ∧
      (s.slot k = none → t.slots = s.slots) ∧
      ∃ u, exec (.decode k) t = .next u ∧ u.ending = .raised .emptyModel

/-- Rule R198: a slot changes only by `BUILD`, `CLEAR`, `RECV_MODEL` naming it, slot 5 by any `RECV_MODEL`, by `SOFT_RESET` and
by reset. -/
def Obligations.SlotsChangeOnlyByTheirCommands : Prop :=
  ∀ (s t : State) (k : SlotId), s.activity = .idle → step s = .next t → t.slot k ≠ s.slot k →
    s.inputs.head? = some .hardReset ∨ (∃ c n, s.inputs.head? = some (.resetDuring c n)) ∨
    ∃ c rest i, s.inputs = .write 4 offCmd c :: rest ∧ decode (.command c) = .ok i ∧
      (i = .build k ∨ i = .clear k ∨ i = .recvModel k ∨ i = .softReset ∨
        (k = .metaCode ∧ ∃ j, i = .recvModel j))

/-! ### The meta-code decoder -/

/-- Rule R236: `M_LEN k` writes one length `k` at `ofs` and moves `ofs` by one, for the 17 of them. -/
def Obligations.LengthSymbolsAppendTheirLength : Prop :=
  ∀ s : State,
    let put (k : Nat) : Result := .next { s with recv := { s.recv with cl := s.recv.cl ++ [k] } }
    exec .mLen0 s = put 0 ∧ exec .mLen1 s = put 1 ∧ exec .mLen2 s = put 2 ∧ exec .mLen3 s = put 3 ∧
    exec .mLen4 s = put 4 ∧ exec .mLen5 s = put 5 ∧ exec .mLen6 s = put 6 ∧ exec .mLen7 s = put 7 ∧
    exec .mLen8 s = put 8 ∧ exec .mLen9 s = put 9 ∧ exec .mLen10 s = put 10 ∧ exec .mLen11 s = put 11 ∧
    exec .mLen12 s = put 12 ∧ exec .mLen13 s = put 13 ∧ exec .mLen14 s = put 14 ∧ exec .mLen15 s = put 15 ∧
    exec .mLen16 s = put 16

/-- Rules R237, R238: a zero run of `3 + e` or `11 + e` entries, and `RUN_OVERSHOOT` (reported on slot 5) where it exceeds the
remaining count. Rules R239 to R241: a repeat of `3 + e` or `7 + e` copies of the entry before; `REPEAT_NO_PREV` first,
then `RUN_OVERSHOOT`. -/
def Obligations.RunSymbolsFillOrRaise : Prop :=
  (∀ s : State,
      let run (i : Instr) (n : Nat) : Prop :=
        (s.recv.cl.length + n ≤ s.recv.total →
          exec i s = .next { s with recv := { s.recv with cl := s.recv.cl ++ List.replicate n 0 } }) ∧
        (s.recv.total < s.recv.cl.length + n →
          exec i s = .next { s with
            ending := .raised .runOvershoot, anyErr := true, errinfo := packErrinfo 5 0 0 0, activity := .idle })
      (∀ e : BitVec 3, run (.mZrunS e) (e.toNat + 3)) ∧ (∀ e : BitVec 7, run (.mZrunL e) (e.toNat + 11))) ∧
  ∀ s : State,
    let fail (c : Cause) : Result := .next { s with
      ending := .raised c, anyErr := true, errinfo := packErrinfo 5 0 0 0, activity := .idle }
    let rep (i : Instr) (n : Nat) : Prop :=
      (s.recv.cl = [] ∨ s.recv.cl.getLast? = some 0 → exec i s = fail .repeatNoPrev) ∧
      (∀ p, s.recv.cl.getLast? = some p → p ≠ 0 →
        (s.recv.cl.length + n ≤ s.recv.total →
          exec i s = .next { s with recv := { s.recv with cl := s.recv.cl ++ List.replicate n p } }) ∧
        (s.recv.total < s.recv.cl.length + n → exec i s = fail .runOvershoot))
    (∀ e : BitVec 2, rep (.mRepS e) (e.toNat + 3)) ∧ (∀ e : BitVec 6, rep (.mRepL e) (e.toNat + 7))

/-- Rules R242, R245: a step of the fill loop raises or moves `ofs` forward, never past `total`, and fills in lengths of at
most 16. -/
def Obligations.FillLoopAdvancesWithinTotal : Prop :=
  ∀ s t : State, s.activity = .receiving → s.recv.cl.length < s.recv.total → (∀ l ∈ s.recv.cl, l ≤ 16) →
    innerStep s = .next t →
    (t.activity = .idle ∧ ∃ c, t.ending = .raised c) ∨
    (t.activity = .receiving ∧ t.recv.target = s.recv.target ∧ t.recv.total = s.recv.total ∧
      s.recv.cl.length < t.recv.cl.length ∧ t.recv.cl.length ≤ s.recv.total ∧
      s.recv.cl <+: t.recv.cl ∧ ∀ l ∈ t.recv.cl, l ≤ 16)

/-- Rules R230 to R243: where the stream holds a meta-coded model in the layout of rule R117, within the range, `RECV_MODEL`
receives it: the vector that the meta symbols stand for is built into the target slot, the meta model is in slot 5,
`RESULT` is the alphabet size, and the reader stands behind the model's last bit. -/
def Obligations.ReceiveInstallsTheSentModel : Prop :=
  ∀ (s : State) (k : SlotId) (total : Nat) (sizes : List Nat) (symbols : List (Nat × Nat)) (cl : List Nat)
      (meta_ m : Model),
    k ≠ .metaCode → s.rangeReadable → s.br.overrun = false →
    0 < total → total < 2 ^ s.cfg.totalSymsBits →
    1 ≤ sizes.length → sizes.length ≤ 21 → (∀ z ∈ sizes, z < 8) → buildModel (metaVector sizes) = .ok meta_ →
    (∀ p ∈ symbols, 0 < meta_.lengthOf p.1 ∧ p.2 < 2 ^ metaExtraBits p.1) →
    expandSymbols symbols = some cl → cl.length = total → buildModel cl = .ok m →
    s.streamHolds (modelBits s.cfg total sizes symbols) →
    s.br.bitpos + (modelBits s.cfg total sizes symbols).length ≤ 8 * s.br.rangeLen →
    exec (.recvModel k) s = .next { s with
      slots := (s.slots.set .metaCode (some meta_)).set k (some m)
      recv := { target := k, total := total, cl := cl }
      br := { s.br with bitpos := s.br.bitpos + (modelBits s.cfg total sizes symbols).length }
      result := BitVec.ofNat 32 total
      ending := .done
      activity := .idle }

/-- Rule R243: `RECV_MODEL 5` raises `BAD_SLOT` and nothing else changes (slot 0 in `ERRINFO`: log entry 6). Rule R231: a
`total_used_syms` of 0 is the empty model: the target slot is `EMPTY`, slot 5 untouched, `RESULT` 0; but a field read
past the end of the range raises `STREAM_OVERRUN` (on slot 5: log entry 21). Rule R232: a count of meta code sizes of 0 or
22 to 31 raises `BAD_NUM_CODELENGTH_CODES` after the 5-bit field. Rule R234: code sizes that `Build` refuses raise its
error on slot 5, which is `EMPTY` then. Rule R242: behind the last meta symbol the overrun check and then the final build
raise on the target slot, which stays `EMPTY`, with the meta model in slot 5 (rule R244). -/
def Obligations.ReceiveHeaderOutcomes : Prop :=
  (∀ s : State, exec (.recvModel .metaCode) s = .next { s with
      ending := .raised .badSlot, anyErr := true, errinfo := 0, activity := .idle }) ∧
  (∀ (s : State) (k : SlotId), k ≠ .metaCode → s.streamHolds (fieldBits s.cfg.totalSymsBits 0) →
      let after : State := { s with
        slots := s.slots.set k none
        br := { s.br with
          bitpos := s.br.bitpos + s.cfg.totalSymsBits
          overrun := s.br.overrun || decide (8 * s.br.rangeLen < s.br.bitpos + s.cfg.totalSymsBits) } }
      (after.br.overrun = false →
        exec (.recvModel k) s = .next { after with result := 0, ending := .done, activity := .idle }) ∧
      (after.br.overrun = true →
        exec (.recvModel k) s = .next { after with
          ending := .raised .streamOverrun, anyErr := true, errinfo := packErrinfo 5 0 0 0, activity := .idle })) ∧
  (∀ (s : State) (k : SlotId) (total count : Nat), k ≠ .metaCode → 0 < total → total < 2 ^ s.cfg.totalSymsBits →
    count = 0 ∨ (22 ≤ count ∧ count ≤ 31) →
    s.streamHolds (fieldBits s.cfg.totalSymsBits total ++ fieldBits 5 count) →
    ∃ t, exec (.recvModel k) s = .next t ∧
      t = { s with
        slots := s.slots.set k none
        br := { s.br with bitpos := s.br.bitpos + s.cfg.totalSymsBits + 5, overrun := t.br.overrun }
        ending := .raised .badNumCodelengthCodes
        anyErr := true
        errinfo := packErrinfo 5 0 0 0
        activity := .idle }) ∧
  ∀ (s : State) (k : SlotId) (total : Nat) (sizes : List Nat), k ≠ .metaCode →
    0 < total → total < 2 ^ s.cfg.totalSymsBits → 1 ≤ sizes.length → sizes.length ≤ 21 → (∀ z ∈ sizes, z < 8) →
    let readerAfter (bits : List Bool) : Reader := { s.br with
      bitpos := s.br.bitpos + bits.length
      overrun := s.br.overrun || decide (8 * s.br.rangeLen < s.br.bitpos + bits.length) }
    (∀ c,
      let bits := fieldBits s.cfg.totalSymsBits total ++ fieldBits 5 sizes.length ++ sizes.flatMap (fieldBits 3)
      buildModel (metaVector sizes) = .error c → s.streamHolds bits →
      exec (.recvModel k) s = .next { s with
        slots := (s.slots.set k none).set .metaCode none, br := readerAfter bits, ending := .raised c, anyErr := true,
        errinfo := packErrinfo 5 0 0 0, activity := .idle }) ∧
    (∀ (symbols : List (Nat × Nat)) (cl : List Nat) (meta_ : Model),
      let bits := modelBits s.cfg total sizes symbols
      let fail (c : Cause) : Result := .next { s with
        slots := (s.slots.set .metaCode (some meta_)).set k none, recv := { target := k, total := total, cl := cl },
        br := readerAfter bits, ending := .raised c, anyErr := true, errinfo := packErrinfo k.num 0 0 0,
        activity := .idle }
      s.rangeReadable → buildModel (metaVector sizes) = .ok meta_ →
      (∀ p ∈ symbols, 0 < meta_.lengthOf p.1 ∧ p.2 < 2 ^ metaExtraBits p.1) →
      expandSymbols symbols = some cl → cl.length = total → s.streamHolds bits →
      ((readerAfter bits).overrun = true → exec (.recvModel k) s = fail .streamOverrun) ∧
      ((readerAfter bits).overrun = false → ∀ c, buildModel cl = .error c → exec (.recvModel k) s = fail c))

/-- Rules R243, R244, R346: what `RECV_MODEL` may change, whether it succeeds or fails. A failed one leaves its target `EMPTY`
and `RESULT` as it was; slot 5 is untouched, `EMPTY`, or holds a model of 21 code sizes below 8. -/
def Obligations.ReceiveFrame : Prop :=
  ∀ (s t : State) (k : SlotId), k ≠ .metaCode → exec (.recvModel k) s = .next t →
    t = { s with
      slots := t.slots, recv := t.recv, result := t.result, errinfo := t.errinfo, ending := t.ending, anyErr := t.anyErr,
      activity := .idle, br := { s.br with bitpos := t.br.bitpos, overrun := t.br.overrun } } ∧
    s.br.bitpos ≤ t.br.bitpos ∧
    (∀ j, j ≠ k → j ≠ .metaCode → t.slot j = s.slot j) ∧
    (t.slot .metaCode = s.slot .metaCode ∨ t.slot .metaCode = none ∨
      ∃ m, t.slot .metaCode = some m ∧ buildModel m.cl = .ok m ∧ m.cl.length = 21 ∧ ∀ l ∈ m.cl, l < 8) ∧
    (∀ c, t.ending = .raised c → t.slot k = none ∧ t.result = s.result)

/-! ### The block walker -/

/-- Rule R263: the argument checks in their order. The first that fails raises with `RESULT` 0, position and slot 0 (slot 0:
log entry 6), and nothing else of the block changes but the walker's private block count; where none fails the class is
accepted. That an argument error wins over the refusal of a trace that breaks the host's duties is the model's reading
(log entry 11). With the arguments accepted, a source range, a destination range or a palette array at addresses without
memory (rule R386, U10; the holes and the places: log entries 4 and 13), a destination range that shares an address with another one, the source
range, a palette array or the block's registers (rule R389; their places: log entry 13), and a `NUM_*` register that is
not its palette's length (rule R390; log entry 12), refuse the trace. -/
def Obligations.UnpackChecksArgumentsInOrder : Prop :=
  ∀ (s : State) (cls : BitVec 4),
    let fail (c : Cause) : Result := .next { s with
      walk := { s.walk with blocksWritten := 0 }, result := 0, ending := .raised c, anyErr := true, errinfo := 0,
      activity := .idle }
    (4 ≤ cls.toNat ↔ FormatClass.ofCode cls = none) ∧
    (FormatClass.ofCode cls = none → exec (.unpack cls) s = fail .badFmtClass) ∧
    ∀ k, FormatClass.ofCode cls = some k →
      (∀ c, (argumentChecks s.regs k).find? (fun p => p.1) = some (true, c) → exec (.unpack cls) s = fail c) ∧
      ((argumentChecks s.regs k).find? (fun p => p.1) = none ↔ argChecks s.regs cls = .ok k) ∧
      (argChecks s.regs cls = .ok k →
        (∀ f < s.regs.faces.toNat, ∀ other ∈ [s.regs.srcRange] ++ s.paletteRanges ++ s.registerRanges ++
            ((List.range s.regs.faces.toNat).filter (fun g => decide (g ≠ f))).map s.regs.dstRange,
          ∀ a, (s.regs.dstRange f).1 ≤ a → a < (s.regs.dstRange f).1 + (s.regs.dstRange f).2 →
            other.1 ≤ a → a < other.1 + other.2 → ∃ r, exec (.unpack cls) s = .refused r) ∧
        (s.inHole s.regs.srcRange = true → ∃ r, exec (.unpack cls) s = .refused r) ∧
        (∀ f < s.regs.faces.toNat, s.inHole (s.regs.dstRange f) = true → ∃ r, exec (.unpack cls) s = .refused r) ∧
        (∀ r ∈ s.paletteRanges, s.inHole r = true ∨ 2 ^ 32 < r.1 + r.2 → ∃ r, exec (.unpack cls) s = .refused r) ∧
        (s.palCE.length ≠ s.regs.numCE.toNat ∨ s.palCS.length ≠ s.regs.numCS.toNat ∨
            s.palAE.length ≠ s.regs.numAE.toNat ∨ s.palAS.length ≠ 3 * s.regs.numAS.toNat →
          ∃ r, exec (.unpack cls) s = .refused r))

/-- Rules R260, R263, R279, R280, R261, with the host's duties of rules R386, R389 and R390 met: `UNPACK` ends as a command,
either with `DONE`, `RESULT = FACES · WB · HB` and no overrun, or with one of the walk's causes. -/
def Obligations.UnpackEndsDoneOrWithAWalkCause : Prop :=
  ∀ (s : State) (cls : BitVec 4) (k : FormatClass), argChecks s.regs cls = .ok k → s.hostDuties = none →
    s.sourceWritten → s.slotsBuilt →
    ∃ t, exec (.unpack cls) s = .next t ∧ t.activity = .idle ∧
      ((t.ending = .done ∧ t.br.overrun = false ∧
          t.result = BitVec.ofNat 32 (s.regs.faces.toNat * s.regs.wb.toNat * s.regs.hb.toNat)) ∨
        ∃ c ∈ walkCauses, t.ending = .raised c)

/-- A level that every block of reads as symbol 0 (one-symbol models, a source of zero bytes long enough) unpacks: for every
geometry and class that passes the checks, `UNPACK` ends with `DONE`, `RESULT = FACES · WB · HB`, the reader behind the
last block, and every visible block holds the words of the first palette entries (rules R261, R265, R271, R275,
R279, R301 to R306). -/
def Obligations.UniformLevelUnpacks : Prop :=
  ∀ (s : State) (cls : BitVec 4) (k : FormatClass), argChecks s.regs cls = .ok k → s.hostDuties = none →
    s.slot .ref = some ⟨[1]⟩ →
    (∀ ch ∈ k.channels, s.slot ch.deltaSlot = some ⟨[1]⟩ ∧ s.slot ch.selectorSlot = some ⟨[1]⟩) →
    (∀ j < s.regs.srcLen.toNat, Memory.read s.mem (s.regs.srcBase.toNat + j) = some 0) →
    let bits := s.regs.blockCount / 4 + s.regs.blockCount * (2 * k.channels.length)
    bits ≤ 8 * s.regs.srcLen.toNat →
    ∃ t, exec (.unpack cls) s = .next t ∧ t.activity = .idle ∧ t.ending = .done ∧
      t.result = BitVec.ofNat 32 (s.regs.faces.toNat * s.regs.wb.toNat * s.regs.hb.toNat) ∧
      t.br = { base := s.regs.srcBase, len := s.regs.srcLen, bitpos := bits, overrun := false, started := true,
               touched := false } ∧
      ∀ ws, State.blockWords { s with walk := { Walker.reset with cls := k } } {} = .ok ws →
        ∀ f < s.regs.faces.toNat, ∀ y < s.regs.hb.toNat, ∀ x < s.regs.wb.toNat,
          Memory.holdsWords t.mem (s.regs.blockAddr k f y x) ws

/-- Rules R307, R310, R311: a successful `UNPACK` leaves in every visible block the words of its class, each made of palette
entries below the palettes' counts, little-endian at the block's address. -/
def Obligations.VisibleBlocksHoldPaletteWords : Prop :=
  ∀ (s t : State) (cls : BitVec 4) (k : FormatClass), FormatClass.ofCode cls = some k →
    exec (.unpack cls) s = .next t → t.ending = .done →
    ∀ f < s.regs.faces.toNat, ∀ y < s.regs.hb.toNat, ∀ x < s.regs.wb.toNat,
      ∃ ws, s.classBlock k ws ∧ ws.length = k.words ∧ Memory.holdsWords t.mem (s.regs.blockAddr k f y x) ws

/-- Rules R260, R280, R346: `UNPACK` changes no slot, no host-written register, no `CLV` entry, no palette. Rules R85, R310: it
changes no byte outside the visible blocks of the faces it walks, whether it succeeds or fails; `blockAddr` is the
address of rule R301 that the emission uses. Rule R280: a failed walk leaves untouched also the visible blocks that it did
not reach, which are those from number `RESULT` on in the order of the walk (rules R277, R279). -/
def Obligations.UnpackFrame : Prop :=
  (∀ (s t : State) (cls : BitVec 4), exec (.unpack cls) s = .next t →
      t = { s with
        result := t.result, errinfo := t.errinfo, ending := t.ending, anyErr := t.anyErr, activity := .idle, br := t.br,
        walk := t.walk, blockBuf := t.blockBuf, mem := t.mem }) ∧
  ∀ (s t : State) (cls : BitVec 4), exec (.unpack cls) s = .next t →
    (FormatClass.ofCode cls = none → t.mem = s.mem) ∧
    ∀ k, FormatClass.ofCode cls = some k → ∀ a,
      (∀ f < s.regs.faces.toNat, ∀ y < s.regs.hb.toNat, ∀ x < s.regs.wb.toNat,
        a < s.regs.blockAddr k f y x ∨ s.regs.blockAddr k f y x + k.bpb ≤ a ∨
          t.result.toNat ≤ (f * s.regs.hb.toNat + y) * s.regs.wb.toNat + x) →
      Memory.read t.mem a = Memory.read s.mem a

/-- Rule R291: `UNPACK` depends on nothing that ran before: two states with the same registers, slots, palettes and bytes give
the same bytes, `RESULT`, ending and reader, and the same `ERRINFO` where an error is raised (on success `ERRINFO` keeps
its old value, rule R34). `STATUS.ANYERR` is sticky and left out. -/
def Obligations.UnpackIsRepeatable : Prop :=
  ∀ (s s' t : State) (cls : BitVec 4),
    s'.regs = s.regs → s'.slots = s.slots → s'.mem = s.mem → s'.holes = s.holes →
    s'.palCE = s.palCE → s'.palCS = s.palCS → s'.palAE = s.palAE → s'.palAS = s.palAS →
    s'.palPlaces = s.palPlaces → s'.registerBase = s.registerBase → s'.cfg = s.cfg →
    exec (.unpack cls) s = .next t →
    ∃ t', exec (.unpack cls) s' = .next t' ∧ t'.mem = t.mem ∧ t'.result = t.result ∧ t'.ending = t.ending ∧
      ((∃ c, argChecks s.regs cls = .error c) ∨ t'.br = t.br) ∧
      (∀ c, t.ending = .raised c → t'.errinfo = t.errinfo)

/-- Rule R290: a level that needs its last source byte fails with an `EntropyError` when the range is one byte shorter. -/
def Obligations.TruncatedLevelFails : Prop :=
  ∀ (s t : State) (cls : BitVec 4), s.slotsBuilt → 0 < s.regs.srcLen.toNat → exec (.unpack cls) s = .next t →
    t.ending = .done → 8 * (s.regs.srcLen.toNat - 1) < t.br.bitpos →
    ∃ t' c, exec (.unpack cls) { s with regs := { s.regs with srcLen := s.regs.srcLen - 1 } } = .next t' ∧
      t'.ending = .raised c ∧ c.kind = .entropyError

/-- Rule R283: the walk's invariant holds at its start and every block that does not raise keeps it; a walk that ends with
`DONE` has written `FACES · WB · HB` blocks (rule R279). -/
def Obligations.WalkInvariantHolds : Prop :=
  (∀ (s : State) (cls : BitVec 4) (k : FormatClass), argChecks s.regs cls = .ok k →
    (s.clearWritten.startWalk k).WalkInv) ∧
  (∀ s t : State, s.activity = .walking → s.WalkInv → innerStep s = .next t →
    (t.activity = .walking → t.WalkInv) ∧
    (t.activity = .idle → t.ending = .done →
      t.result = BitVec.ofNat 32 (s.regs.faces.toNat * s.regs.wb.toNat * s.regs.hb.toNat)))

/-- Rule R271: `REF_NEW` decodes one delta per accumulator of the class, in order, adds it modulo the palette size, stores the
sum into the accumulator and into `block_buffer[x]`, and marks the entry valid; a failing `Decode` ends the command with
its slot. One-accumulator classes first, then the two-accumulator classes. -/
def Obligations.RefNewAddsDeltas : Prop :=
  ∀ (s : State),
    let walkAfter (w : Walker) (u : State) : Prop :=
      u.walk = { w with
        colorEndpointIndex := u.walk.colorEndpointIndex, alpha0EndpointIndex := u.walk.alpha0EndpointIndex,
        alpha1EndpointIndex := u.walk.alpha1EndpointIndex }
    (∀ a d t, s.walk.cls.channels = [a] → s.decodeSymbol a.deltaSlot = .ok d t →
      ∃ u, exec .refNew s = .next u ∧ u = { t with walk := u.walk, blockBuf := u.blockBuf } ∧ walkAfter s.walk u ∧
        (∀ ch, u.walk.index ch =
          if ch = a then (s.walk.index a + d) % s.regs.endpointCount a else s.walk.index ch) ∧
        (∀ x, bufEntry u.blockBuf x = if x = s.walk.x then
          { (bufEntry s.blockBuf x).setIndex a (u.walk.index a) with valid := true } else bufEntry s.blockBuf x)) ∧
    (∀ a b d e t v, s.walk.cls.channels = [a, b] → s.decodeSymbol a.deltaSlot = .ok d t →
      t.decodeSymbol b.deltaSlot = .ok e v →
      ∃ u, exec .refNew s = .next u ∧ u = { v with walk := u.walk, blockBuf := u.blockBuf } ∧ walkAfter s.walk u ∧
        (∀ ch, u.walk.index ch =
          if ch = a then (s.walk.index a + d) % s.regs.endpointCount a
          else if ch = b then (s.walk.index b + e) % s.regs.endpointCount b
          else s.walk.index ch) ∧
        (∀ x, bufEntry u.blockBuf x = if x = s.walk.x then
          { ((bufEntry s.blockBuf x).setIndex a (u.walk.index a)).setIndex b (u.walk.index b) with valid := true }
          else bufEntry s.blockBuf x)) ∧
    (∀ a b d c k t v, s.walk.cls.channels = [a, b] → s.decodeSymbol a.deltaSlot = .ok d t →
      t.decodeSymbol b.deltaSlot = .err c k v →
      ∃ u, exec .refNew s = .next u ∧ u.ending = .raised c ∧ u.activity = .idle ∧ u.br = v.br ∧
        u.result = BitVec.ofNat 32 s.walk.blocksWritten ∧
        u.errinfo = packErrinfo k s.walk.f s.walk.y s.walk.x) ∧
    (∀ a chs c k t, s.walk.cls.channels = a :: chs → s.decodeSymbol a.deltaSlot = .err c k t →
      exec .refNew s = .next { t with
        result := BitVec.ofNat 32 s.walk.blocksWritten, ending := .raised c, anyErr := true,
        errinfo := packErrinfo k s.walk.f s.walk.y s.walk.x, activity := .idle })

/-- Rule R272: `REF_LEFT` stores the running accumulators of the class into `block_buffer[x]` and marks the entry valid; it
changes nothing else. Rule R273: `REF_TOP` loads the accumulators of the class from a valid `block_buffer[x]`, which it
does not write; an entry that is not valid raises `STALE_TOP` at the walker's position, slot 0, with
`RESULT = blocks_written`. -/
def Obligations.RefLeftStoresAndRefTopLoads : Prop :=
  (∀ s : State, ∃ u, exec .refLeft s = .next u ∧ u = { s with blockBuf := u.blockBuf } ∧
      (∀ x, x ≠ s.walk.x → bufEntry u.blockBuf x = bufEntry s.blockBuf x) ∧
      (bufEntry u.blockBuf s.walk.x).valid = true ∧
      (bufEntry u.blockBuf s.walk.x).endpointReference = (bufEntry s.blockBuf s.walk.x).endpointReference ∧
      ∀ ch, (bufEntry u.blockBuf s.walk.x).index ch =
        if ch ∈ s.walk.cls.channels then s.walk.index ch else (bufEntry s.blockBuf s.walk.x).index ch) ∧
  ∀ s : State,
    ((bufEntry s.blockBuf s.walk.x).valid = true →
      ∃ u, exec .refTop s = .next u ∧
        u = { s with walk := { s.walk with
          colorEndpointIndex := u.walk.colorEndpointIndex, alpha0EndpointIndex := u.walk.alpha0EndpointIndex,
          alpha1EndpointIndex := u.walk.alpha1EndpointIndex } } ∧
        ∀ ch, u.walk.index ch =
          if ch ∈ s.walk.cls.channels then (bufEntry s.blockBuf s.walk.x).index ch else s.walk.index ch) ∧
    ((bufEntry s.blockBuf s.walk.x).valid = false →
      exec .refTop s = .next { s with
        result := BitVec.ofNat 32 s.walk.blocksWritten, ending := .raised .staleTop, anyErr := true,
        errinfo := packErrinfo 0 s.walk.f s.walk.y s.walk.x, activity := .idle })

/-- Rule R274: `REF_DIAG` raises `RESERVED_REF_CODE` in every class of the block, always. -/
def Obligations.RefDiagRaisesReserved : Prop :=
  ∀ s : State, exec .refDiag s = .next { s with
    result := BitVec.ofNat 32 s.walk.blocksWritten, ending := .raised .reservedRefCode, anyErr := true,
    errinfo := packErrinfo 0 s.walk.f s.walk.y s.walk.x, activity := .idle }

/-- Rules R275 to R277: after the reference code, the selectors of the class are read as absolute indices and checked, then the
overrun flag, and only then a visible block is written (at the address of rule R301) and counted; a padded block writes
nothing. Rules R275, R278: a selector's `Decode` that fails raises with that selector's slot, and consumes nothing. -/
def Obligations.RestOfBlockChecksThenWrites : Prop :=
  ∀ (s : State),
    (∀ a chs c n t, s.walk.cls.channels = a :: chs → s.decodeSymbol a.selectorSlot = .err c n t →
      restOfBlock s = .next { s with
        result := BitVec.ofNat 32 s.walk.blocksWritten, ending := .raised c, anyErr := true,
        errinfo := packErrinfo a.selectorSlot.num s.walk.f s.walk.y s.walk.x, activity := .idle }) ∧
    (∀ a b v u c n t, s.walk.cls.channels = [a, b] → s.decodeSymbol a.selectorSlot = .ok v u →
      v < s.regs.selectorCount a → u.decodeSymbol b.selectorSlot = .err c n t →
      restOfBlock s = .next { u with
        result := BitVec.ofNat 32 s.walk.blocksWritten, ending := .raised c, anyErr := true,
        errinfo := packErrinfo b.selectorSlot.num s.walk.f s.walk.y s.walk.x, activity := .idle }) ∧
    (∀ a chs v t, s.walk.cls.channels = a :: chs → s.decodeSymbol a.selectorSlot = .ok v t →
      s.regs.selectorCount a ≤ v →
      restOfBlock s = .next { t with
        result := BitVec.ofNat 32 s.walk.blocksWritten, ending := .raised .selectorRange, anyErr := true,
        errinfo := packErrinfo a.selectorSlot.num s.walk.f s.walk.y s.walk.x, activity := .idle }) ∧
    (∀ a b v w u t, s.walk.cls.channels = [a, b] → s.decodeSymbol a.selectorSlot = .ok v u →
      v < s.regs.selectorCount a → u.decodeSymbol b.selectorSlot = .ok w t → s.regs.selectorCount b ≤ w →
      restOfBlock s = .next { t with
        result := BitVec.ofNat 32 s.walk.blocksWritten, ending := .raised .selectorRange, anyErr := true,
        errinfo := packErrinfo b.selectorSlot.num s.walk.f s.walk.y s.walk.x, activity := .idle }) ∧
    (∀ q t,
      ((∃ a v, s.walk.cls.channels = [a] ∧ s.decodeSymbol a.selectorSlot = .ok v t ∧ v < s.regs.selectorCount a ∧
          q = Selectors.set {} a v) ∨
        (∃ a b v w u, s.walk.cls.channels = [a, b] ∧ s.decodeSymbol a.selectorSlot = .ok v u ∧
          v < s.regs.selectorCount a ∧ u.decodeSymbol b.selectorSlot = .ok w t ∧ w < s.regs.selectorCount b ∧
          q = (Selectors.set {} a v).set b w)) →
      (t.br.overrun = true →
        restOfBlock s = .next { t with
          result := BitVec.ofNat 32 s.walk.blocksWritten, ending := .raised .streamOverrun, anyErr := true,
          errinfo := packErrinfo 0 s.walk.f s.walk.y s.walk.x, activity := .idle }) ∧
      (t.br.overrun = false → s.walk.x < s.regs.wb.toNat → s.walk.y < s.regs.hb.toNat →
        (∀ ws, t.blockWords q = .ok ws →
          restOfBlock s = .next (State.advance { t with
            mem := Memory.writeWords t.mem (s.regs.blockAddr s.walk.cls s.walk.f s.walk.y s.walk.x) ws
            walk := { t.walk with blocksWritten := t.walk.blocksWritten + 1 } })) ∧
        (∀ r, t.blockWords q = .error r → restOfBlock s = .refused r)) ∧
      (t.br.overrun = false → s.regs.wb.toNat ≤ s.walk.x ∨ s.regs.hb.toNat ≤ s.walk.y →
        restOfBlock s = .next t.advance))

/-- Rules R120, R261, R267: the walk goes through columns, rows and faces in that nesting, one place at a time; a new face
resets the accumulators and the `valid` bits; after the last block the command ends with `RESULT = blocks_written`. -/
def Obligations.WalkFollowsRasterOrder : Prop :=
  ∀ s : State, s.activity = .walking →
    s.walk.f < s.regs.faces.toNat → s.walk.y < s.regs.hbp → s.walk.x < s.regs.wbp →
    (s.walkRank + 1 < s.regs.blockCount →
      s.advance.activity = .walking ∧ s.advance.walkRank = s.walkRank + 1 ∧
      s.advance.walk.f < s.regs.faces.toNat ∧ s.advance.walk.y < s.regs.hbp ∧ s.advance.walk.x < s.regs.wbp ∧
      s.advance = { s with walk := s.advance.walk, blockBuf := s.advance.blockBuf } ∧
      (s.advance.walk.f = s.walk.f →
        s.advance.walk = { s.walk with y := s.advance.walk.y, x := s.advance.walk.x } ∧
        s.advance.blockBuf = s.blockBuf) ∧
      (s.advance.walk.f ≠ s.walk.f →
        s.advance.walk = { s.walk with
          f := s.walk.f + 1, y := 0, x := 0,
          colorEndpointIndex := 0, alpha0EndpointIndex := 0, alpha1EndpointIndex := 0 } ∧
        ∀ x, bufEntry s.advance.blockBuf x =
          if x < s.regs.wbp then { bufEntry s.blockBuf x with valid := false } else bufEntry s.blockBuf x)) ∧
    (s.walkRank + 1 = s.regs.blockCount →
      s.advance = { s with
        result := BitVec.ofNat 32 s.walk.blocksWritten, ending := .done, activity := .idle })

/-- Rules R302 to R306: the words of a visible block of each class, from the running accumulators and the selectors just
decoded, with only the palette reads that the class makes. Rules R86, R301: words are written little-endian, word `j` at
`addr + 4·j`, and no other byte changes. -/
def Obligations.BlockWordsAndByteOrder : Prop :=
  (∀ (s : State) (q : Selectors),
      let color (w0 w1 : Word) : Prop :=
        s.palCE[s.walk.colorEndpointIndex]? = some w0 ∧ s.palCS[q.cs]? = some w1
      let alpha (ae sel : Nat) (e s0 s1 s2 : BitVec 16) : Prop :=
        s.palAE[ae]? = some e ∧ s.palAS[3 * sel]? = some s0 ∧ s.palAS[3 * sel + 1]? = some s1 ∧
        s.palAS[3 * sel + 2]? = some s2
      (∀ w0 w1, s.walk.cls = .c → color w0 w1 → s.blockWords q = .ok [w0, w1]) ∧
      (∀ e s0 s1 s2 w0 w1, s.walk.cls = .ca → alpha s.walk.alpha0EndpointIndex q.as0 e s0 s1 s2 → color w0 w1 →
        s.blockWords q = .ok [s0 ++ e, s2 ++ s1, w0, w1]) ∧
      (∀ e s0 s1 s2, s.walk.cls = .a → alpha s.walk.alpha0EndpointIndex q.as0 e s0 s1 s2 →
        s.blockWords q = .ok [s0 ++ e, s2 ++ s1]) ∧
      (∀ e s0 s1 s2 g r0 r1 r2, s.walk.cls = .aa → alpha s.walk.alpha0EndpointIndex q.as0 e s0 s1 s2 →
        alpha s.walk.alpha1EndpointIndex q.as1 g r0 r1 r2 →
        s.blockWords q = .ok [s0 ++ e, s2 ++ s1, r0 ++ g, r2 ++ r1])) ∧
  ∀ (m : Memory) (a : Nat) (ws : List Word),
    Memory.holdsWords (Memory.writeWords m a ws) a ws ∧
    ∀ b, b < a ∨ a + 4 * ws.length ≤ b → Memory.read (Memory.writeWords m a ws) b = Memory.read m b

/-! ### The whole machine -/

/-- A command is its inner steps run to the end, for `RECV_MODEL` from the state its header leaves, for `UNPACK` from the start
of the walk. Inner steps, and a command as their run, are the model's choice (log entry 8); rule R320 says that a command
is one transition and ends. -/
def Obligations.CommandsAreTheirInnerSteps : Prop :=
  (∀ (s h t : State) (k : SlotId) (n : Nat), k ≠ .metaCode → receiveHeader k s.startCommand = .ok () h →
    innerSteps n h = .next t → t.activity = .idle → exec (.recvModel k) s = .next t) ∧
  (∀ (s t : State) (cls : BitVec 4) (k : FormatClass) (n : Nat), argChecks s.regs cls = .ok k → s.hostDuties = none →
    innerSteps n (s.startCommand.clearWritten.startWalk k) = .next t → t.activity = .idle →
    exec (.unpack cls) s = .next t)

/-- Rule R320: every command ends; no instruction and no step stops with a fault, in any state. -/
def Obligations.NothingFaults : Prop :=
  (∀ (i : Instr) (s : State), NoFault (exec i s)) ∧ ∀ s : State, NoFault (step s)

/-- The block's invariant between commands (canonical sparse data, 32-bit addresses, built models, no command under way) is
kept by every step, from every state that has it (rules R48, R91, R198, R301, R320). -/
def Obligations.EveryStepKeepsInvariant : Prop :=
  ∀ s t : State, s.Inv → step s = .next t → t.Inv

/-- The block's invariant and the reader's hold after reset. -/
def Obligations.InvariantsHoldAtReset : Prop :=
  State.reset.Inv ∧ State.reset.overrunExact

/-- Rules R54, R331: only `UNPACK` writes memory; no instruction changes a palette, the configuration, or the host's side; only
`SOFT_RESET` changes a host-written register or `CLV`. -/
def Obligations.InstructionsKeepWhatTheyDoNotWrite : Prop :=
  ∀ (i : Instr) (s t : State), exec i s = .next t →
    t.cfg = s.cfg ∧ t.palCE = s.palCE ∧ t.palCS = s.palCS ∧ t.palAE = s.palAE ∧ t.palAS = s.palAS ∧
    t.palPlaces = s.palPlaces ∧ t.registerBase = s.registerBase ∧ t.holes = s.holes ∧ t.inputs = s.inputs ∧ t.readData = s.readData ∧
    (i ≠ .softReset → t.regs = s.regs ∧ t.clv = s.clv) ∧
    ((∀ cls, i ≠ .unpack cls) → t.mem = s.mem)
end

