-- ==== Sys2Proof/Laws/Sparse.lean ====
section
/-! SUPPORT. Laws of sparse data by key: read after write, and the canonical form that every operation keeps. -/

namespace Sys2Proof.Machine

variable {α : Type}

theorem lookupCell_putCell (m : List (Nat × α)) (a b : Nat) (v : α) :
    lookupCell (putCell m a v) b = if b = a then some v else lookupCell m b := by
  induction m with
  | nil => simp [putCell, lookupCell]
  | cons c m ih =>
    obtain ⟨k, w⟩ := c
    simp only [putCell]
    split
    · simp [lookupCell]
    · split
      · subst_vars
        simp only [lookupCell]
        split <;> rfl
      · simp only [lookupCell, ih]
        split
        · subst_vars
          rw [if_neg (by omega)]
        · rfl

theorem lookupCell_dropCell (m : List (Nat × α)) (a b : Nat) :
    lookupCell (dropCell m a) b = if b = a then none else lookupCell m b := by
  induction m with
  | nil => simp [dropCell, lookupCell]
  | cons c m ih =>
    obtain ⟨k, w⟩ := c
    simp only [dropCell]
    split
    · subst_vars
      simp only [ih, lookupCell]
      split <;> rfl
    · simp only [lookupCell, ih]
      split
      · subst_vars
        rw [if_neg (by omega)]
      · rfl

theorem lookupOr_putOr [DecidableEq α] (d : α) (m : List (Nat × α)) (a b : Nat) (v : α) :
    lookupOr d (putOr d m a v) b = if b = a then v else lookupOr d m b := by
  unfold lookupOr putOr
  split
  · subst_vars
    rw [lookupCell_dropCell]
    split <;> rfl
  · rw [lookupCell_putCell]
    split <;> rfl

theorem mem_putCell {m : List (Nat × α)} {a : Nat} {v : α} {c : Nat × α} (h : c ∈ putCell m a v) :
    c = (a, v) ∨ c ∈ m := by
  induction m with
  | nil => simp_all [putCell]
  | cons d m ih =>
    obtain ⟨k, w⟩ := d
    simp only [putCell] at h
    split at h
    · simpa using h
    · split at h
      · simp only [List.mem_cons] at h ⊢
        rcases h with h | h
        · exact .inl h
        · exact .inr (.inr h)
      · simp only [List.mem_cons] at h ⊢
        rcases h with h | h
        · exact .inr (.inl h)
        · exact (ih h).imp id .inr

theorem mem_dropCell {m : List (Nat × α)} {a : Nat} {c : Nat × α} (h : c ∈ dropCell m a) : c ∈ m := by
  induction m with
  | nil => simp [dropCell] at h
  | cons d m ih =>
    obtain ⟨k, w⟩ := d
    simp only [dropCell] at h
    split at h
    · exact List.mem_cons_of_mem _ (ih h)
    · simp only [List.mem_cons] at h ⊢
      exact h.imp id ih

theorem keysRise_putCell {m : List (Nat × α)} (h : keysRise m) (a : Nat) (v : α) : keysRise (putCell m a v) := by
  induction m with
  | nil => simp [putCell]
  | cons d m ih =>
    obtain ⟨k, w⟩ := d
    obtain ⟨hk, hm⟩ := List.pairwise_cons.1 h
    simp only [putCell]
    split
    · refine List.pairwise_cons.2 ⟨fun c hc => ?_, h⟩
      rcases List.mem_cons.1 hc with rfl | hc
      · assumption
      · exact lt_trans (by assumption) (hk c hc)
    · split
      · subst_vars
        exact List.pairwise_cons.2 ⟨hk, hm⟩
      · refine List.pairwise_cons.2 ⟨fun c hc => ?_, ih hm⟩
        rcases mem_putCell hc with rfl | hc
        · simp only
          omega
        · exact hk c hc

theorem keysRise_dropCell {m : List (Nat × α)} (h : keysRise m) (a : Nat) : keysRise (dropCell m a) := by
  induction m with
  | nil => simp [dropCell]
  | cons d m ih =>
    obtain ⟨k, w⟩ := d
    obtain ⟨hk, hm⟩ := List.pairwise_cons.1 h
    simp only [dropCell]
    split
    · exact ih hm
    · exact List.pairwise_cons.2 ⟨fun c hc => hk c (mem_dropCell hc), ih hm⟩

theorem keysRise_putOr [DecidableEq α] (d : α) {m : List (Nat × α)} (h : keysRise m) (a : Nat) (v : α) :
    keysRise (putOr d m a v) := by
  unfold putOr
  split
  · exact keysRise_dropCell h a
  · exact keysRise_putCell h a v

theorem noneIs_putOr [DecidableEq α] {d : α} {m : List (Nat × α)} (h : noneIs d m) (a : Nat) (v : α) :
    noneIs d (putOr d m a v) := by
  intro c hc
  unfold putOr at hc
  split at hc
  · exact h c (mem_dropCell hc)
  · rcases mem_putCell hc with rfl | hc
    · assumption
    · exact h c hc

end Sys2Proof.Machine
end

