-- ==== Sys2Proof/Laws/Memory.lean ====
section
/-! SUPPORT. Laws of memory, slots and `block_buffer`: a read after a write gives the value written, a write leaves every
other place alone, and every memory operation keeps the canonical form. -/

namespace Sys2Proof.Machine

theorem Memory.read_write (m : Memory) (a b : Nat) (v : Byte) :
    Memory.read (Memory.write m a v) b = if b = a then some v else Memory.read m b :=
  lookupCell_putCell m a b v

theorem Memory.wf_write {m : Memory} (h : Memory.wf m) (a : Nat) (v : Byte) : Memory.wf (Memory.write m a v) :=
  keysRise_putCell h a v

/-- What a word write leaves at every address (rule R86). -/
theorem Memory.read_writeWord (m : Memory) (a b : Nat) (w : Word) :
    Memory.read (Memory.writeWord m a w) b =
      if a ≤ b ∧ b < a + 4 then some (w.extractLsb' (8 * (b - a)) 8) else Memory.read m b := by
  unfold Memory.writeWord
  simp only [Memory.read_write]
  by_cases h3 : b = a + 3
  · subst h3; simp
  by_cases h2 : b = a + 2
  · subst h2; simp
  by_cases h1 : b = a + 1
  · subst h1; simp
  by_cases h0 : b = a
  · subst h0; simp
  simp only [h3, h2, h1, h0, if_false]
  rw [if_neg (by omega)]

theorem Memory.wf_writeWord {m : Memory} (h : Memory.wf m) (a : Nat) (w : Word) :
    Memory.wf (Memory.writeWord m a w) := by
  unfold Memory.writeWord
  exact Memory.wf_write (Memory.wf_write (Memory.wf_write (Memory.wf_write h _ _) _ _) _ _) _ _

/-- Writing words changes only the bytes of those words. -/
theorem Memory.read_writeWords_outside (ws : List Word) (m : Memory) (a b : Nat)
    (h : b < a ∨ a + 4 * ws.length ≤ b) : Memory.read (Memory.writeWords m a ws) b = Memory.read m b := by
  induction ws generalizing m a with
  | nil => rfl
  | cons w ws ih =>
    simp only [List.length_cons] at h
    simp only [Memory.writeWords]
    rw [ih _ _ (by omega), Memory.read_writeWord, if_neg (by omega)]

theorem Memory.wf_writeWords (ws : List Word) {m : Memory} (h : Memory.wf m) (a : Nat) :
    Memory.wf (Memory.writeWords m a ws) := by
  induction ws generalizing m a with
  | nil => exact h
  | cons w ws ih => exact ih (Memory.wf_writeWord h a w) (a + 4)

theorem Memory.wf_reset : Memory.wf State.reset.mem := List.Pairwise.nil

theorem Slots.get_set (t : Slots) (k j : SlotId) (m : Option Model) :
    (t.set k m).get j = if j = k then m else t.get j := by
  cases k <;> cases j <;> rfl

@[simp] theorem Slots.get_set_self (t : Slots) (k : SlotId) (m : Option Model) : (t.set k m).get k = m := by
  cases k <;> rfl

theorem bufEntry_setBufEntry (b : List (Nat × BufEntry)) (x y : Nat) (e : BufEntry) :
    bufEntry (setBufEntry b x e) y = if y = x then e else bufEntry b y :=
  lookupOr_putOr _ b x y e

theorem bufEntry_clearValid (n : Nat) (b : List (Nat × BufEntry)) (x : Nat) :
    bufEntry (clearValid n b) x = if x < n then { bufEntry b x with valid := false } else bufEntry b x := by
  induction n generalizing b with
  | zero => simp [clearValid]
  | succ n ih =>
    simp only [clearValid, ih, bufEntry_setBufEntry]
    by_cases hx : x = n
    · subst hx; simp
    · by_cases hlt : x < n
      · simp only [hlt, hx, if_true, if_false, if_pos (Nat.lt_succ_of_lt hlt)]
      · simp only [hlt, hx, if_false]
        rw [if_neg (by omega)]

theorem keysRise_setBufEntry {b : List (Nat × BufEntry)} (h : keysRise b) (x : Nat) (e : BufEntry) :
    keysRise (setBufEntry b x e) := keysRise_putOr _ h x e

theorem noneIs_setBufEntry {b : List (Nat × BufEntry)} (h : noneIs BufEntry.reset b) (x : Nat) (e : BufEntry) :
    noneIs BufEntry.reset (setBufEntry b x e) := noneIs_putOr h x e

theorem keysRise_clearValid {b : List (Nat × BufEntry)} (h : keysRise b) (n : Nat) : keysRise (clearValid n b) := by
  induction n generalizing b with
  | zero => exact h
  | succ n ih => exact ih (keysRise_setBufEntry h _ _)

theorem noneIs_clearValid {b : List (Nat × BufEntry)} (h : noneIs BufEntry.reset b) (n : Nat) :
    noneIs BufEntry.reset (clearValid n b) := by
  induction n generalizing b with
  | zero => exact h
  | succ n ih => exact ih (noneIs_setBufEntry h _ _)

theorem Walker.index_setIndex (w : Walker) (c d : Channel) (v : Nat) :
    (w.setIndex c v).index d = if d = c then v else w.index d := by
  cases c <;> cases d <;> rfl

theorem BufEntry.index_setIndex (e : BufEntry) (c d : Channel) (v : Nat) :
    (e.setIndex c v).index d = if d = c then v else e.index d := by
  cases c <;> cases d <;> rfl

@[simp] theorem BufEntry.valid_setIndex (e : BufEntry) (c : Channel) (v : Nat) : (e.setIndex c v).valid = e.valid := by
  cases c <;> rfl

@[simp] theorem BufEntry.endpointReference_setIndex (e : BufEntry) (c : Channel) (v : Nat) :
    (e.setIndex c v).endpointReference = e.endpointReference := by
  cases c <;> rfl

end Sys2Proof.Machine
end

