-- ==== Sys2Proof/Laws/State.lean ====
section
/-! SUPPORT. One lemma per field per update of `State`: what an update leaves alone, and what it writes. -/

namespace Sys2Proof.Machine

/-! ### `State.startCommand` -/

@[simp] theorem State.startCommand_cfg (s : State) : (s.startCommand).cfg = s.cfg := rfl
@[simp] theorem State.startCommand_regs (s : State) : (s.startCommand).regs = s.regs := rfl
@[simp] theorem State.startCommand_result (s : State) : (s.startCommand).result = s.result := rfl
@[simp] theorem State.startCommand_errinfo (s : State) : (s.startCommand).errinfo = s.errinfo := rfl
@[simp] theorem State.startCommand_ending (s : State) : (s.startCommand).ending = .pending := rfl
@[simp] theorem State.startCommand_anyErr (s : State) : (s.startCommand).anyErr = s.anyErr := rfl
@[simp] theorem State.startCommand_clv (s : State) : (s.startCommand).clv = s.clv := rfl
@[simp] theorem State.startCommand_br (s : State) : (s.startCommand).br = s.br := rfl
@[simp] theorem State.startCommand_slots (s : State) : (s.startCommand).slots = s.slots := rfl
@[simp] theorem State.startCommand_activity (s : State) : (s.startCommand).activity = s.activity := rfl
@[simp] theorem State.startCommand_recv (s : State) : (s.startCommand).recv = s.recv := rfl
@[simp] theorem State.startCommand_walk (s : State) : (s.startCommand).walk = s.walk := rfl
@[simp] theorem State.startCommand_blockBuf (s : State) : (s.startCommand).blockBuf = s.blockBuf := rfl
@[simp] theorem State.startCommand_mem (s : State) : (s.startCommand).mem = s.mem := rfl
@[simp] theorem State.startCommand_palCE (s : State) : (s.startCommand).palCE = s.palCE := rfl
@[simp] theorem State.startCommand_palCS (s : State) : (s.startCommand).palCS = s.palCS := rfl
@[simp] theorem State.startCommand_palAE (s : State) : (s.startCommand).palAE = s.palAE := rfl
@[simp] theorem State.startCommand_palAS (s : State) : (s.startCommand).palAS = s.palAS := rfl
@[simp] theorem State.startCommand_palPlaces (s : State) : (s.startCommand).palPlaces = s.palPlaces := rfl
@[simp] theorem State.startCommand_registerBase (s : State) : (s.startCommand).registerBase = s.registerBase := rfl
@[simp] theorem State.startCommand_holes (s : State) : (s.startCommand).holes = s.holes := rfl
@[simp] theorem State.startCommand_inputs (s : State) : (s.startCommand).inputs = s.inputs := rfl
@[simp] theorem State.startCommand_readData (s : State) : (s.startCommand).readData = s.readData := rfl

/-! ### `State.finishCommand` -/

@[simp] theorem State.finishCommand_cfg (s : State) : (s.finishCommand).cfg = s.cfg := rfl
@[simp] theorem State.finishCommand_regs (s : State) : (s.finishCommand).regs = s.regs := rfl
@[simp] theorem State.finishCommand_result (s : State) : (s.finishCommand).result = s.result := rfl
@[simp] theorem State.finishCommand_errinfo (s : State) : (s.finishCommand).errinfo = s.errinfo := rfl
@[simp] theorem State.finishCommand_ending (s : State) : (s.finishCommand).ending = .done := rfl
@[simp] theorem State.finishCommand_anyErr (s : State) : (s.finishCommand).anyErr = s.anyErr := rfl
@[simp] theorem State.finishCommand_clv (s : State) : (s.finishCommand).clv = s.clv := rfl
@[simp] theorem State.finishCommand_br (s : State) : (s.finishCommand).br = s.br := rfl
@[simp] theorem State.finishCommand_slots (s : State) : (s.finishCommand).slots = s.slots := rfl
@[simp] theorem State.finishCommand_activity (s : State) : (s.finishCommand).activity = .idle := rfl
@[simp] theorem State.finishCommand_recv (s : State) : (s.finishCommand).recv = s.recv := rfl
@[simp] theorem State.finishCommand_walk (s : State) : (s.finishCommand).walk = s.walk := rfl
@[simp] theorem State.finishCommand_blockBuf (s : State) : (s.finishCommand).blockBuf = s.blockBuf := rfl
@[simp] theorem State.finishCommand_mem (s : State) : (s.finishCommand).mem = s.mem := rfl
@[simp] theorem State.finishCommand_palCE (s : State) : (s.finishCommand).palCE = s.palCE := rfl
@[simp] theorem State.finishCommand_palCS (s : State) : (s.finishCommand).palCS = s.palCS := rfl
@[simp] theorem State.finishCommand_palAE (s : State) : (s.finishCommand).palAE = s.palAE := rfl
@[simp] theorem State.finishCommand_palAS (s : State) : (s.finishCommand).palAS = s.palAS := rfl
@[simp] theorem State.finishCommand_palPlaces (s : State) : (s.finishCommand).palPlaces = s.palPlaces := rfl
@[simp] theorem State.finishCommand_registerBase (s : State) : (s.finishCommand).registerBase = s.registerBase := rfl
@[simp] theorem State.finishCommand_holes (s : State) : (s.finishCommand).holes = s.holes := rfl
@[simp] theorem State.finishCommand_inputs (s : State) : (s.finishCommand).inputs = s.inputs := rfl
@[simp] theorem State.finishCommand_readData (s : State) : (s.finishCommand).readData = s.readData := rfl

/-! ### `State.raise` -/

@[simp] theorem State.raise_cfg (s : State) (c : Cause) (k : BitVec 3) (f y x : Nat) :
    (s.raise c k f y x).cfg = s.cfg :=
  rfl
@[simp] theorem State.raise_regs (s : State) (c : Cause) (k : BitVec 3) (f y x : Nat) :
    (s.raise c k f y x).regs = s.regs :=
  rfl
@[simp] theorem State.raise_result (s : State) (c : Cause) (k : BitVec 3) (f y x : Nat) :
    (s.raise c k f y x).result = s.result :=
  rfl
@[simp] theorem State.raise_errinfo (s : State) (c : Cause) (k : BitVec 3) (f y x : Nat) :
    (s.raise c k f y x).errinfo = packErrinfo k f y x :=
  rfl
@[simp] theorem State.raise_ending (s : State) (c : Cause) (k : BitVec 3) (f y x : Nat) :
    (s.raise c k f y x).ending = .raised c :=
  rfl
@[simp] theorem State.raise_anyErr (s : State) (c : Cause) (k : BitVec 3) (f y x : Nat) :
    (s.raise c k f y x).anyErr = true :=
  rfl
@[simp] theorem State.raise_clv (s : State) (c : Cause) (k : BitVec 3) (f y x : Nat) :
    (s.raise c k f y x).clv = s.clv :=
  rfl
@[simp] theorem State.raise_br (s : State) (c : Cause) (k : BitVec 3) (f y x : Nat) :
    (s.raise c k f y x).br = s.br :=
  rfl
@[simp] theorem State.raise_slots (s : State) (c : Cause) (k : BitVec 3) (f y x : Nat) :
    (s.raise c k f y x).slots = s.slots :=
  rfl
@[simp] theorem State.raise_activity (s : State) (c : Cause) (k : BitVec 3) (f y x : Nat) :
    (s.raise c k f y x).activity = .idle :=
  rfl
@[simp] theorem State.raise_recv (s : State) (c : Cause) (k : BitVec 3) (f y x : Nat) :
    (s.raise c k f y x).recv = s.recv :=
  rfl
@[simp] theorem State.raise_walk (s : State) (c : Cause) (k : BitVec 3) (f y x : Nat) :
    (s.raise c k f y x).walk = s.walk :=
  rfl
@[simp] theorem State.raise_blockBuf (s : State) (c : Cause) (k : BitVec 3) (f y x : Nat) :
    (s.raise c k f y x).blockBuf = s.blockBuf :=
  rfl
@[simp] theorem State.raise_mem (s : State) (c : Cause) (k : BitVec 3) (f y x : Nat) :
    (s.raise c k f y x).mem = s.mem :=
  rfl
@[simp] theorem State.raise_palCE (s : State) (c : Cause) (k : BitVec 3) (f y x : Nat) :
    (s.raise c k f y x).palCE = s.palCE :=
  rfl
@[simp] theorem State.raise_palCS (s : State) (c : Cause) (k : BitVec 3) (f y x : Nat) :
    (s.raise c k f y x).palCS = s.palCS :=
  rfl
@[simp] theorem State.raise_palAE (s : State) (c : Cause) (k : BitVec 3) (f y x : Nat) :
    (s.raise c k f y x).palAE = s.palAE :=
  rfl
@[simp] theorem State.raise_palAS (s : State) (c : Cause) (k : BitVec 3) (f y x : Nat) :
    (s.raise c k f y x).palAS = s.palAS :=
  rfl
@[simp] theorem State.raise_palPlaces (s : State) (c : Cause) (k : BitVec 3) (f y x : Nat) :
    (s.raise c k f y x).palPlaces = s.palPlaces :=
  rfl
@[simp] theorem State.raise_registerBase (s : State) (c : Cause) (k : BitVec 3) (f y x : Nat) :
    (s.raise c k f y x).registerBase = s.registerBase :=
  rfl
@[simp] theorem State.raise_holes (s : State) (c : Cause) (k : BitVec 3) (f y x : Nat) :
    (s.raise c k f y x).holes = s.holes :=
  rfl
@[simp] theorem State.raise_inputs (s : State) (c : Cause) (k : BitVec 3) (f y x : Nat) :
    (s.raise c k f y x).inputs = s.inputs :=
  rfl
@[simp] theorem State.raise_readData (s : State) (c : Cause) (k : BitVec 3) (f y x : Nat) :
    (s.raise c k f y x).readData = s.readData :=
  rfl

/-! ### `State.raiseAt0` -/

@[simp] theorem State.raiseAt0_cfg (s : State) (c : Cause) (k : BitVec 3) : (s.raiseAt0 c k).cfg = s.cfg := rfl
@[simp] theorem State.raiseAt0_regs (s : State) (c : Cause) (k : BitVec 3) : (s.raiseAt0 c k).regs = s.regs := rfl
@[simp] theorem State.raiseAt0_result (s : State) (c : Cause) (k : BitVec 3) :
    (s.raiseAt0 c k).result = s.result :=
  rfl
@[simp] theorem State.raiseAt0_errinfo (s : State) (c : Cause) (k : BitVec 3) :
    (s.raiseAt0 c k).errinfo = packErrinfo k 0 0 0 :=
  rfl
@[simp] theorem State.raiseAt0_ending (s : State) (c : Cause) (k : BitVec 3) :
    (s.raiseAt0 c k).ending = .raised c :=
  rfl
@[simp] theorem State.raiseAt0_anyErr (s : State) (c : Cause) (k : BitVec 3) : (s.raiseAt0 c k).anyErr = true := rfl
@[simp] theorem State.raiseAt0_clv (s : State) (c : Cause) (k : BitVec 3) : (s.raiseAt0 c k).clv = s.clv := rfl
@[simp] theorem State.raiseAt0_br (s : State) (c : Cause) (k : BitVec 3) : (s.raiseAt0 c k).br = s.br := rfl
@[simp] theorem State.raiseAt0_slots (s : State) (c : Cause) (k : BitVec 3) :
    (s.raiseAt0 c k).slots = s.slots :=
  rfl
@[simp] theorem State.raiseAt0_activity (s : State) (c : Cause) (k : BitVec 3) :
    (s.raiseAt0 c k).activity = .idle :=
  rfl
@[simp] theorem State.raiseAt0_recv (s : State) (c : Cause) (k : BitVec 3) : (s.raiseAt0 c k).recv = s.recv := rfl
@[simp] theorem State.raiseAt0_walk (s : State) (c : Cause) (k : BitVec 3) : (s.raiseAt0 c k).walk = s.walk := rfl
@[simp] theorem State.raiseAt0_blockBuf (s : State) (c : Cause) (k : BitVec 3) :
    (s.raiseAt0 c k).blockBuf = s.blockBuf :=
  rfl
@[simp] theorem State.raiseAt0_mem (s : State) (c : Cause) (k : BitVec 3) : (s.raiseAt0 c k).mem = s.mem := rfl
@[simp] theorem State.raiseAt0_palCE (s : State) (c : Cause) (k : BitVec 3) :
    (s.raiseAt0 c k).palCE = s.palCE :=
  rfl
@[simp] theorem State.raiseAt0_palCS (s : State) (c : Cause) (k : BitVec 3) :
    (s.raiseAt0 c k).palCS = s.palCS :=
  rfl
@[simp] theorem State.raiseAt0_palAE (s : State) (c : Cause) (k : BitVec 3) :
    (s.raiseAt0 c k).palAE = s.palAE :=
  rfl
@[simp] theorem State.raiseAt0_palAS (s : State) (c : Cause) (k : BitVec 3) :
    (s.raiseAt0 c k).palAS = s.palAS :=
  rfl
@[simp] theorem State.raiseAt0_palPlaces (s : State) (c : Cause) (k : BitVec 3) :
    (s.raiseAt0 c k).palPlaces = s.palPlaces :=
  rfl
@[simp] theorem State.raiseAt0_registerBase (s : State) (c : Cause) (k : BitVec 3) :
    (s.raiseAt0 c k).registerBase = s.registerBase :=
  rfl
@[simp] theorem State.raiseAt0_holes (s : State) (c : Cause) (k : BitVec 3) :
    (s.raiseAt0 c k).holes = s.holes :=
  rfl
@[simp] theorem State.raiseAt0_inputs (s : State) (c : Cause) (k : BitVec 3) :
    (s.raiseAt0 c k).inputs = s.inputs :=
  rfl
@[simp] theorem State.raiseAt0_readData (s : State) (c : Cause) (k : BitVec 3) :
    (s.raiseAt0 c k).readData = s.readData :=
  rfl

/-! ### `State.setResult` -/

@[simp] theorem State.setResult_cfg (s : State) (v : Word) : (s.setResult v).cfg = s.cfg := rfl
@[simp] theorem State.setResult_regs (s : State) (v : Word) : (s.setResult v).regs = s.regs := rfl
@[simp] theorem State.setResult_result (s : State) (v : Word) : (s.setResult v).result = v := rfl
@[simp] theorem State.setResult_errinfo (s : State) (v : Word) : (s.setResult v).errinfo = s.errinfo := rfl
@[simp] theorem State.setResult_ending (s : State) (v : Word) : (s.setResult v).ending = s.ending := rfl
@[simp] theorem State.setResult_anyErr (s : State) (v : Word) : (s.setResult v).anyErr = s.anyErr := rfl
@[simp] theorem State.setResult_clv (s : State) (v : Word) : (s.setResult v).clv = s.clv := rfl
@[simp] theorem State.setResult_br (s : State) (v : Word) : (s.setResult v).br = s.br := rfl
@[simp] theorem State.setResult_slots (s : State) (v : Word) : (s.setResult v).slots = s.slots := rfl
@[simp] theorem State.setResult_activity (s : State) (v : Word) : (s.setResult v).activity = s.activity := rfl
@[simp] theorem State.setResult_recv (s : State) (v : Word) : (s.setResult v).recv = s.recv := rfl
@[simp] theorem State.setResult_walk (s : State) (v : Word) : (s.setResult v).walk = s.walk := rfl
@[simp] theorem State.setResult_blockBuf (s : State) (v : Word) : (s.setResult v).blockBuf = s.blockBuf := rfl
@[simp] theorem State.setResult_mem (s : State) (v : Word) : (s.setResult v).mem = s.mem := rfl
@[simp] theorem State.setResult_palCE (s : State) (v : Word) : (s.setResult v).palCE = s.palCE := rfl
@[simp] theorem State.setResult_palCS (s : State) (v : Word) : (s.setResult v).palCS = s.palCS := rfl
@[simp] theorem State.setResult_palAE (s : State) (v : Word) : (s.setResult v).palAE = s.palAE := rfl
@[simp] theorem State.setResult_palAS (s : State) (v : Word) : (s.setResult v).palAS = s.palAS := rfl
@[simp] theorem State.setResult_palPlaces (s : State) (v : Word) : (s.setResult v).palPlaces = s.palPlaces := rfl
@[simp] theorem State.setResult_registerBase (s : State) (v : Word) : (s.setResult v).registerBase = s.registerBase := rfl
@[simp] theorem State.setResult_holes (s : State) (v : Word) : (s.setResult v).holes = s.holes := rfl
@[simp] theorem State.setResult_inputs (s : State) (v : Word) : (s.setResult v).inputs = s.inputs := rfl
@[simp] theorem State.setResult_readData (s : State) (v : Word) : (s.setResult v).readData = s.readData := rfl

/-! ### `State.raiseInWalk` -/

@[simp] theorem State.raiseInWalk_cfg (s : State) (c : Cause) (k : BitVec 3) :
    (s.raiseInWalk c k).cfg = s.cfg :=
  rfl
@[simp] theorem State.raiseInWalk_regs (s : State) (c : Cause) (k : BitVec 3) :
    (s.raiseInWalk c k).regs = s.regs :=
  rfl
@[simp] theorem State.raiseInWalk_result (s : State) (c : Cause) (k : BitVec 3) :
    (s.raiseInWalk c k).result = BitVec.ofNat 32 s.walk.blocksWritten :=
  rfl
@[simp] theorem State.raiseInWalk_errinfo (s : State) (c : Cause) (k : BitVec 3) :
    (s.raiseInWalk c k).errinfo = packErrinfo k s.walk.f s.walk.y s.walk.x :=
  rfl
@[simp] theorem State.raiseInWalk_ending (s : State) (c : Cause) (k : BitVec 3) :
    (s.raiseInWalk c k).ending = .raised c :=
  rfl
@[simp] theorem State.raiseInWalk_anyErr (s : State) (c : Cause) (k : BitVec 3) :
    (s.raiseInWalk c k).anyErr = true :=
  rfl
@[simp] theorem State.raiseInWalk_clv (s : State) (c : Cause) (k : BitVec 3) :
    (s.raiseInWalk c k).clv = s.clv :=
  rfl
@[simp] theorem State.raiseInWalk_br (s : State) (c : Cause) (k : BitVec 3) : (s.raiseInWalk c k).br = s.br := rfl
@[simp] theorem State.raiseInWalk_slots (s : State) (c : Cause) (k : BitVec 3) :
    (s.raiseInWalk c k).slots = s.slots :=
  rfl
@[simp] theorem State.raiseInWalk_activity (s : State) (c : Cause) (k : BitVec 3) :
    (s.raiseInWalk c k).activity = .idle :=
  rfl
@[simp] theorem State.raiseInWalk_recv (s : State) (c : Cause) (k : BitVec 3) :
    (s.raiseInWalk c k).recv = s.recv :=
  rfl
@[simp] theorem State.raiseInWalk_walk (s : State) (c : Cause) (k : BitVec 3) :
    (s.raiseInWalk c k).walk = s.walk :=
  rfl
@[simp] theorem State.raiseInWalk_blockBuf (s : State) (c : Cause) (k : BitVec 3) :
    (s.raiseInWalk c k).blockBuf = s.blockBuf :=
  rfl
@[simp] theorem State.raiseInWalk_mem (s : State) (c : Cause) (k : BitVec 3) :
    (s.raiseInWalk c k).mem = s.mem :=
  rfl
@[simp] theorem State.raiseInWalk_palCE (s : State) (c : Cause) (k : BitVec 3) :
    (s.raiseInWalk c k).palCE = s.palCE :=
  rfl
@[simp] theorem State.raiseInWalk_palCS (s : State) (c : Cause) (k : BitVec 3) :
    (s.raiseInWalk c k).palCS = s.palCS :=
  rfl
@[simp] theorem State.raiseInWalk_palAE (s : State) (c : Cause) (k : BitVec 3) :
    (s.raiseInWalk c k).palAE = s.palAE :=
  rfl
@[simp] theorem State.raiseInWalk_palAS (s : State) (c : Cause) (k : BitVec 3) :
    (s.raiseInWalk c k).palAS = s.palAS :=
  rfl
@[simp] theorem State.raiseInWalk_palPlaces (s : State) (c : Cause) (k : BitVec 3) :
    (s.raiseInWalk c k).palPlaces = s.palPlaces :=
  rfl
@[simp] theorem State.raiseInWalk_registerBase (s : State) (c : Cause) (k : BitVec 3) :
    (s.raiseInWalk c k).registerBase = s.registerBase :=
  rfl
@[simp] theorem State.raiseInWalk_holes (s : State) (c : Cause) (k : BitVec 3) :
    (s.raiseInWalk c k).holes = s.holes :=
  rfl
@[simp] theorem State.raiseInWalk_inputs (s : State) (c : Cause) (k : BitVec 3) :
    (s.raiseInWalk c k).inputs = s.inputs :=
  rfl
@[simp] theorem State.raiseInWalk_readData (s : State) (c : Cause) (k : BitVec 3) :
    (s.raiseInWalk c k).readData = s.readData :=
  rfl

/-! ### `State.setSlot` -/

@[simp] theorem State.setSlot_cfg (s : State) (k : SlotId) (m : Option Model) : (s.setSlot k m).cfg = s.cfg := rfl
@[simp] theorem State.setSlot_regs (s : State) (k : SlotId) (m : Option Model) :
    (s.setSlot k m).regs = s.regs :=
  rfl
@[simp] theorem State.setSlot_result (s : State) (k : SlotId) (m : Option Model) :
    (s.setSlot k m).result = s.result :=
  rfl
@[simp] theorem State.setSlot_errinfo (s : State) (k : SlotId) (m : Option Model) :
    (s.setSlot k m).errinfo = s.errinfo :=
  rfl
@[simp] theorem State.setSlot_ending (s : State) (k : SlotId) (m : Option Model) :
    (s.setSlot k m).ending = s.ending :=
  rfl
@[simp] theorem State.setSlot_anyErr (s : State) (k : SlotId) (m : Option Model) :
    (s.setSlot k m).anyErr = s.anyErr :=
  rfl
@[simp] theorem State.setSlot_clv (s : State) (k : SlotId) (m : Option Model) : (s.setSlot k m).clv = s.clv := rfl
@[simp] theorem State.setSlot_br (s : State) (k : SlotId) (m : Option Model) : (s.setSlot k m).br = s.br := rfl
@[simp] theorem State.setSlot_slots (s : State) (k : SlotId) (m : Option Model) :
    (s.setSlot k m).slots = s.slots.set k m :=
  rfl
@[simp] theorem State.setSlot_activity (s : State) (k : SlotId) (m : Option Model) :
    (s.setSlot k m).activity = s.activity :=
  rfl
@[simp] theorem State.setSlot_recv (s : State) (k : SlotId) (m : Option Model) :
    (s.setSlot k m).recv = s.recv :=
  rfl
@[simp] theorem State.setSlot_walk (s : State) (k : SlotId) (m : Option Model) :
    (s.setSlot k m).walk = s.walk :=
  rfl
@[simp] theorem State.setSlot_blockBuf (s : State) (k : SlotId) (m : Option Model) :
    (s.setSlot k m).blockBuf = s.blockBuf :=
  rfl
@[simp] theorem State.setSlot_mem (s : State) (k : SlotId) (m : Option Model) : (s.setSlot k m).mem = s.mem := rfl
@[simp] theorem State.setSlot_palCE (s : State) (k : SlotId) (m : Option Model) :
    (s.setSlot k m).palCE = s.palCE :=
  rfl
@[simp] theorem State.setSlot_palCS (s : State) (k : SlotId) (m : Option Model) :
    (s.setSlot k m).palCS = s.palCS :=
  rfl
@[simp] theorem State.setSlot_palAE (s : State) (k : SlotId) (m : Option Model) :
    (s.setSlot k m).palAE = s.palAE :=
  rfl
@[simp] theorem State.setSlot_palAS (s : State) (k : SlotId) (m : Option Model) :
    (s.setSlot k m).palAS = s.palAS :=
  rfl
@[simp] theorem State.setSlot_palPlaces (s : State) (k : SlotId) (m : Option Model) :
    (s.setSlot k m).palPlaces = s.palPlaces :=
  rfl
@[simp] theorem State.setSlot_registerBase (s : State) (k : SlotId) (m : Option Model) :
    (s.setSlot k m).registerBase = s.registerBase :=
  rfl
@[simp] theorem State.setSlot_holes (s : State) (k : SlotId) (m : Option Model) :
    (s.setSlot k m).holes = s.holes :=
  rfl
@[simp] theorem State.setSlot_inputs (s : State) (k : SlotId) (m : Option Model) :
    (s.setSlot k m).inputs = s.inputs :=
  rfl
@[simp] theorem State.setSlot_readData (s : State) (k : SlotId) (m : Option Model) :
    (s.setSlot k m).readData = s.readData :=
  rfl

/-! ### `State.consume` -/

@[simp] theorem State.consume_cfg (s : State) (n : Nat) : (s.consume n).cfg = s.cfg := rfl
@[simp] theorem State.consume_regs (s : State) (n : Nat) : (s.consume n).regs = s.regs := rfl
@[simp] theorem State.consume_result (s : State) (n : Nat) : (s.consume n).result = s.result := rfl
@[simp] theorem State.consume_errinfo (s : State) (n : Nat) : (s.consume n).errinfo = s.errinfo := rfl
@[simp] theorem State.consume_ending (s : State) (n : Nat) : (s.consume n).ending = s.ending := rfl
@[simp] theorem State.consume_anyErr (s : State) (n : Nat) : (s.consume n).anyErr = s.anyErr := rfl
@[simp] theorem State.consume_clv (s : State) (n : Nat) : (s.consume n).clv = s.clv := rfl
@[simp] theorem State.consume_slots (s : State) (n : Nat) : (s.consume n).slots = s.slots := rfl
@[simp] theorem State.consume_activity (s : State) (n : Nat) : (s.consume n).activity = s.activity := rfl
@[simp] theorem State.consume_recv (s : State) (n : Nat) : (s.consume n).recv = s.recv := rfl
@[simp] theorem State.consume_walk (s : State) (n : Nat) : (s.consume n).walk = s.walk := rfl
@[simp] theorem State.consume_blockBuf (s : State) (n : Nat) : (s.consume n).blockBuf = s.blockBuf := rfl
@[simp] theorem State.consume_mem (s : State) (n : Nat) : (s.consume n).mem = s.mem := rfl
@[simp] theorem State.consume_palCE (s : State) (n : Nat) : (s.consume n).palCE = s.palCE := rfl
@[simp] theorem State.consume_palCS (s : State) (n : Nat) : (s.consume n).palCS = s.palCS := rfl
@[simp] theorem State.consume_palAE (s : State) (n : Nat) : (s.consume n).palAE = s.palAE := rfl
@[simp] theorem State.consume_palAS (s : State) (n : Nat) : (s.consume n).palAS = s.palAS := rfl
@[simp] theorem State.consume_palPlaces (s : State) (n : Nat) : (s.consume n).palPlaces = s.palPlaces := rfl
@[simp] theorem State.consume_registerBase (s : State) (n : Nat) : (s.consume n).registerBase = s.registerBase := rfl
@[simp] theorem State.consume_holes (s : State) (n : Nat) : (s.consume n).holes = s.holes := rfl
@[simp] theorem State.consume_inputs (s : State) (n : Nat) : (s.consume n).inputs = s.inputs := rfl
@[simp] theorem State.consume_readData (s : State) (n : Nat) : (s.consume n).readData = s.readData := rfl

/-! ### `State.startReader` -/

@[simp] theorem State.startReader_cfg (s : State) : (s.startReader).cfg = s.cfg := rfl
@[simp] theorem State.startReader_regs (s : State) : (s.startReader).regs = s.regs := rfl
@[simp] theorem State.startReader_result (s : State) : (s.startReader).result = s.result := rfl
@[simp] theorem State.startReader_errinfo (s : State) : (s.startReader).errinfo = s.errinfo := rfl
@[simp] theorem State.startReader_ending (s : State) : (s.startReader).ending = s.ending := rfl
@[simp] theorem State.startReader_anyErr (s : State) : (s.startReader).anyErr = s.anyErr := rfl
@[simp] theorem State.startReader_clv (s : State) : (s.startReader).clv = s.clv := rfl
@[simp] theorem State.startReader_br (s : State) :
    (s.startReader).br =
      { base := s.regs.srcBase, len := s.regs.srcLen, bitpos := 0,
        overrun := false, started := true, touched := false } :=
  rfl
@[simp] theorem State.startReader_slots (s : State) : (s.startReader).slots = s.slots := rfl
@[simp] theorem State.startReader_activity (s : State) : (s.startReader).activity = s.activity := rfl
@[simp] theorem State.startReader_recv (s : State) : (s.startReader).recv = s.recv := rfl
@[simp] theorem State.startReader_walk (s : State) : (s.startReader).walk = s.walk := rfl
@[simp] theorem State.startReader_blockBuf (s : State) : (s.startReader).blockBuf = s.blockBuf := rfl
@[simp] theorem State.startReader_mem (s : State) : (s.startReader).mem = s.mem := rfl
@[simp] theorem State.startReader_palCE (s : State) : (s.startReader).palCE = s.palCE := rfl
@[simp] theorem State.startReader_palCS (s : State) : (s.startReader).palCS = s.palCS := rfl
@[simp] theorem State.startReader_palAE (s : State) : (s.startReader).palAE = s.palAE := rfl
@[simp] theorem State.startReader_palAS (s : State) : (s.startReader).palAS = s.palAS := rfl
@[simp] theorem State.startReader_palPlaces (s : State) : (s.startReader).palPlaces = s.palPlaces := rfl
@[simp] theorem State.startReader_registerBase (s : State) : (s.startReader).registerBase = s.registerBase := rfl
@[simp] theorem State.startReader_holes (s : State) : (s.startReader).holes = s.holes := rfl
@[simp] theorem State.startReader_inputs (s : State) : (s.startReader).inputs = s.inputs := rfl
@[simp] theorem State.startReader_readData (s : State) : (s.startReader).readData = s.readData := rfl

/-! ### `State.appendLengths` -/

@[simp] theorem State.appendLengths_cfg (s : State) (ls : List Nat) : (s.appendLengths ls).cfg = s.cfg := rfl
@[simp] theorem State.appendLengths_regs (s : State) (ls : List Nat) : (s.appendLengths ls).regs = s.regs := rfl
@[simp] theorem State.appendLengths_result (s : State) (ls : List Nat) :
    (s.appendLengths ls).result = s.result :=
  rfl
@[simp] theorem State.appendLengths_errinfo (s : State) (ls : List Nat) :
    (s.appendLengths ls).errinfo = s.errinfo :=
  rfl
@[simp] theorem State.appendLengths_ending (s : State) (ls : List Nat) :
    (s.appendLengths ls).ending = s.ending :=
  rfl
@[simp] theorem State.appendLengths_anyErr (s : State) (ls : List Nat) :
    (s.appendLengths ls).anyErr = s.anyErr :=
  rfl
@[simp] theorem State.appendLengths_clv (s : State) (ls : List Nat) : (s.appendLengths ls).clv = s.clv := rfl
@[simp] theorem State.appendLengths_br (s : State) (ls : List Nat) : (s.appendLengths ls).br = s.br := rfl
@[simp] theorem State.appendLengths_slots (s : State) (ls : List Nat) : (s.appendLengths ls).slots = s.slots := rfl
@[simp] theorem State.appendLengths_activity (s : State) (ls : List Nat) :
    (s.appendLengths ls).activity = s.activity :=
  rfl
@[simp] theorem State.appendLengths_walk (s : State) (ls : List Nat) : (s.appendLengths ls).walk = s.walk := rfl
@[simp] theorem State.appendLengths_blockBuf (s : State) (ls : List Nat) :
    (s.appendLengths ls).blockBuf = s.blockBuf :=
  rfl
@[simp] theorem State.appendLengths_mem (s : State) (ls : List Nat) : (s.appendLengths ls).mem = s.mem := rfl
@[simp] theorem State.appendLengths_palCE (s : State) (ls : List Nat) : (s.appendLengths ls).palCE = s.palCE := rfl
@[simp] theorem State.appendLengths_palCS (s : State) (ls : List Nat) : (s.appendLengths ls).palCS = s.palCS := rfl
@[simp] theorem State.appendLengths_palAE (s : State) (ls : List Nat) : (s.appendLengths ls).palAE = s.palAE := rfl
@[simp] theorem State.appendLengths_palAS (s : State) (ls : List Nat) : (s.appendLengths ls).palAS = s.palAS := rfl
@[simp] theorem State.appendLengths_palPlaces (s : State) (ls : List Nat) : (s.appendLengths ls).palPlaces = s.palPlaces := rfl
@[simp] theorem State.appendLengths_registerBase (s : State) (ls : List Nat) : (s.appendLengths ls).registerBase = s.registerBase := rfl
@[simp] theorem State.appendLengths_holes (s : State) (ls : List Nat) : (s.appendLengths ls).holes = s.holes := rfl
@[simp] theorem State.appendLengths_inputs (s : State) (ls : List Nat) :
    (s.appendLengths ls).inputs = s.inputs :=
  rfl
@[simp] theorem State.appendLengths_readData (s : State) (ls : List Nat) :
    (s.appendLengths ls).readData = s.readData :=
  rfl

/-! ### `State.setEntry` -/

@[simp] theorem State.setEntry_cfg (s : State) (e : BufEntry) : (s.setEntry e).cfg = s.cfg := rfl
@[simp] theorem State.setEntry_regs (s : State) (e : BufEntry) : (s.setEntry e).regs = s.regs := rfl
@[simp] theorem State.setEntry_result (s : State) (e : BufEntry) : (s.setEntry e).result = s.result := rfl
@[simp] theorem State.setEntry_errinfo (s : State) (e : BufEntry) : (s.setEntry e).errinfo = s.errinfo := rfl
@[simp] theorem State.setEntry_ending (s : State) (e : BufEntry) : (s.setEntry e).ending = s.ending := rfl
@[simp] theorem State.setEntry_anyErr (s : State) (e : BufEntry) : (s.setEntry e).anyErr = s.anyErr := rfl
@[simp] theorem State.setEntry_clv (s : State) (e : BufEntry) : (s.setEntry e).clv = s.clv := rfl
@[simp] theorem State.setEntry_br (s : State) (e : BufEntry) : (s.setEntry e).br = s.br := rfl
@[simp] theorem State.setEntry_slots (s : State) (e : BufEntry) : (s.setEntry e).slots = s.slots := rfl
@[simp] theorem State.setEntry_activity (s : State) (e : BufEntry) : (s.setEntry e).activity = s.activity := rfl
@[simp] theorem State.setEntry_recv (s : State) (e : BufEntry) : (s.setEntry e).recv = s.recv := rfl
@[simp] theorem State.setEntry_walk (s : State) (e : BufEntry) : (s.setEntry e).walk = s.walk := rfl
@[simp] theorem State.setEntry_blockBuf (s : State) (e : BufEntry) :
    (s.setEntry e).blockBuf = setBufEntry s.blockBuf s.walk.x e :=
  rfl
@[simp] theorem State.setEntry_mem (s : State) (e : BufEntry) : (s.setEntry e).mem = s.mem := rfl
@[simp] theorem State.setEntry_palCE (s : State) (e : BufEntry) : (s.setEntry e).palCE = s.palCE := rfl
@[simp] theorem State.setEntry_palCS (s : State) (e : BufEntry) : (s.setEntry e).palCS = s.palCS := rfl
@[simp] theorem State.setEntry_palAE (s : State) (e : BufEntry) : (s.setEntry e).palAE = s.palAE := rfl
@[simp] theorem State.setEntry_palAS (s : State) (e : BufEntry) : (s.setEntry e).palAS = s.palAS := rfl
@[simp] theorem State.setEntry_palPlaces (s : State) (e : BufEntry) : (s.setEntry e).palPlaces = s.palPlaces := rfl
@[simp] theorem State.setEntry_registerBase (s : State) (e : BufEntry) : (s.setEntry e).registerBase = s.registerBase := rfl
@[simp] theorem State.setEntry_holes (s : State) (e : BufEntry) : (s.setEntry e).holes = s.holes := rfl
@[simp] theorem State.setEntry_inputs (s : State) (e : BufEntry) : (s.setEntry e).inputs = s.inputs := rfl
@[simp] theorem State.setEntry_readData (s : State) (e : BufEntry) : (s.setEntry e).readData = s.readData := rfl

/-! ### `State.setAccumulator` -/

@[simp] theorem State.setAccumulator_cfg (s : State) (ch : Channel) (v : Nat) :
    (s.setAccumulator ch v).cfg = s.cfg :=
  rfl
@[simp] theorem State.setAccumulator_regs (s : State) (ch : Channel) (v : Nat) :
    (s.setAccumulator ch v).regs = s.regs :=
  rfl
@[simp] theorem State.setAccumulator_result (s : State) (ch : Channel) (v : Nat) :
    (s.setAccumulator ch v).result = s.result :=
  rfl
@[simp] theorem State.setAccumulator_errinfo (s : State) (ch : Channel) (v : Nat) :
    (s.setAccumulator ch v).errinfo = s.errinfo :=
  rfl
@[simp] theorem State.setAccumulator_ending (s : State) (ch : Channel) (v : Nat) :
    (s.setAccumulator ch v).ending = s.ending :=
  rfl
@[simp] theorem State.setAccumulator_anyErr (s : State) (ch : Channel) (v : Nat) :
    (s.setAccumulator ch v).anyErr = s.anyErr :=
  rfl
@[simp] theorem State.setAccumulator_clv (s : State) (ch : Channel) (v : Nat) :
    (s.setAccumulator ch v).clv = s.clv :=
  rfl
@[simp] theorem State.setAccumulator_br (s : State) (ch : Channel) (v : Nat) :
    (s.setAccumulator ch v).br = s.br :=
  rfl
@[simp] theorem State.setAccumulator_slots (s : State) (ch : Channel) (v : Nat) :
    (s.setAccumulator ch v).slots = s.slots :=
  rfl
@[simp] theorem State.setAccumulator_activity (s : State) (ch : Channel) (v : Nat) :
    (s.setAccumulator ch v).activity = s.activity :=
  rfl
@[simp] theorem State.setAccumulator_recv (s : State) (ch : Channel) (v : Nat) :
    (s.setAccumulator ch v).recv = s.recv :=
  rfl
@[simp] theorem State.setAccumulator_walk (s : State) (ch : Channel) (v : Nat) :
    (s.setAccumulator ch v).walk = s.walk.setIndex ch v :=
  rfl
@[simp] theorem State.setAccumulator_blockBuf (s : State) (ch : Channel) (v : Nat) :
    (s.setAccumulator ch v).blockBuf = s.blockBuf :=
  rfl
@[simp] theorem State.setAccumulator_mem (s : State) (ch : Channel) (v : Nat) :
    (s.setAccumulator ch v).mem = s.mem :=
  rfl
@[simp] theorem State.setAccumulator_palCE (s : State) (ch : Channel) (v : Nat) :
    (s.setAccumulator ch v).palCE = s.palCE :=
  rfl
@[simp] theorem State.setAccumulator_palCS (s : State) (ch : Channel) (v : Nat) :
    (s.setAccumulator ch v).palCS = s.palCS :=
  rfl
@[simp] theorem State.setAccumulator_palAE (s : State) (ch : Channel) (v : Nat) :
    (s.setAccumulator ch v).palAE = s.palAE :=
  rfl
@[simp] theorem State.setAccumulator_palAS (s : State) (ch : Channel) (v : Nat) :
    (s.setAccumulator ch v).palAS = s.palAS :=
  rfl
@[simp] theorem State.setAccumulator_palPlaces (s : State) (ch : Channel) (v : Nat) :
    (s.setAccumulator ch v).palPlaces = s.palPlaces :=
  rfl
@[simp] theorem State.setAccumulator_registerBase (s : State) (ch : Channel) (v : Nat) :
    (s.setAccumulator ch v).registerBase = s.registerBase :=
  rfl
@[simp] theorem State.setAccumulator_holes (s : State) (ch : Channel) (v : Nat) :
    (s.setAccumulator ch v).holes = s.holes :=
  rfl
@[simp] theorem State.setAccumulator_inputs (s : State) (ch : Channel) (v : Nat) :
    (s.setAccumulator ch v).inputs = s.inputs :=
  rfl
@[simp] theorem State.setAccumulator_readData (s : State) (ch : Channel) (v : Nat) :
    (s.setAccumulator ch v).readData = s.readData :=
  rfl

/-! ### `State.storeIndex` -/

@[simp] theorem State.storeIndex_cfg (s : State) (ch : Channel) : (s.storeIndex ch).cfg = s.cfg := rfl
@[simp] theorem State.storeIndex_regs (s : State) (ch : Channel) : (s.storeIndex ch).regs = s.regs := rfl
@[simp] theorem State.storeIndex_result (s : State) (ch : Channel) : (s.storeIndex ch).result = s.result := rfl
@[simp] theorem State.storeIndex_errinfo (s : State) (ch : Channel) : (s.storeIndex ch).errinfo = s.errinfo := rfl
@[simp] theorem State.storeIndex_ending (s : State) (ch : Channel) : (s.storeIndex ch).ending = s.ending := rfl
@[simp] theorem State.storeIndex_anyErr (s : State) (ch : Channel) : (s.storeIndex ch).anyErr = s.anyErr := rfl
@[simp] theorem State.storeIndex_clv (s : State) (ch : Channel) : (s.storeIndex ch).clv = s.clv := rfl
@[simp] theorem State.storeIndex_br (s : State) (ch : Channel) : (s.storeIndex ch).br = s.br := rfl
@[simp] theorem State.storeIndex_slots (s : State) (ch : Channel) : (s.storeIndex ch).slots = s.slots := rfl
@[simp] theorem State.storeIndex_activity (s : State) (ch : Channel) :
    (s.storeIndex ch).activity = s.activity :=
  rfl
@[simp] theorem State.storeIndex_recv (s : State) (ch : Channel) : (s.storeIndex ch).recv = s.recv := rfl
@[simp] theorem State.storeIndex_walk (s : State) (ch : Channel) : (s.storeIndex ch).walk = s.walk := rfl
@[simp] theorem State.storeIndex_mem (s : State) (ch : Channel) : (s.storeIndex ch).mem = s.mem := rfl
@[simp] theorem State.storeIndex_palCE (s : State) (ch : Channel) : (s.storeIndex ch).palCE = s.palCE := rfl
@[simp] theorem State.storeIndex_palCS (s : State) (ch : Channel) : (s.storeIndex ch).palCS = s.palCS := rfl
@[simp] theorem State.storeIndex_palAE (s : State) (ch : Channel) : (s.storeIndex ch).palAE = s.palAE := rfl
@[simp] theorem State.storeIndex_palAS (s : State) (ch : Channel) : (s.storeIndex ch).palAS = s.palAS := rfl
@[simp] theorem State.storeIndex_palPlaces (s : State) (ch : Channel) : (s.storeIndex ch).palPlaces = s.palPlaces := rfl
@[simp] theorem State.storeIndex_registerBase (s : State) (ch : Channel) : (s.storeIndex ch).registerBase = s.registerBase := rfl
@[simp] theorem State.storeIndex_holes (s : State) (ch : Channel) : (s.storeIndex ch).holes = s.holes := rfl
@[simp] theorem State.storeIndex_inputs (s : State) (ch : Channel) : (s.storeIndex ch).inputs = s.inputs := rfl
@[simp] theorem State.storeIndex_readData (s : State) (ch : Channel) :
    (s.storeIndex ch).readData = s.readData :=
  rfl

/-! ### `State.markValid` -/

@[simp] theorem State.markValid_cfg (s : State) : (s.markValid).cfg = s.cfg := rfl
@[simp] theorem State.markValid_regs (s : State) : (s.markValid).regs = s.regs := rfl
@[simp] theorem State.markValid_result (s : State) : (s.markValid).result = s.result := rfl
@[simp] theorem State.markValid_errinfo (s : State) : (s.markValid).errinfo = s.errinfo := rfl
@[simp] theorem State.markValid_ending (s : State) : (s.markValid).ending = s.ending := rfl
@[simp] theorem State.markValid_anyErr (s : State) : (s.markValid).anyErr = s.anyErr := rfl
@[simp] theorem State.markValid_clv (s : State) : (s.markValid).clv = s.clv := rfl
@[simp] theorem State.markValid_br (s : State) : (s.markValid).br = s.br := rfl
@[simp] theorem State.markValid_slots (s : State) : (s.markValid).slots = s.slots := rfl
@[simp] theorem State.markValid_activity (s : State) : (s.markValid).activity = s.activity := rfl
@[simp] theorem State.markValid_recv (s : State) : (s.markValid).recv = s.recv := rfl
@[simp] theorem State.markValid_walk (s : State) : (s.markValid).walk = s.walk := rfl
@[simp] theorem State.markValid_mem (s : State) : (s.markValid).mem = s.mem := rfl
@[simp] theorem State.markValid_palCE (s : State) : (s.markValid).palCE = s.palCE := rfl
@[simp] theorem State.markValid_palCS (s : State) : (s.markValid).palCS = s.palCS := rfl
@[simp] theorem State.markValid_palAE (s : State) : (s.markValid).palAE = s.palAE := rfl
@[simp] theorem State.markValid_palAS (s : State) : (s.markValid).palAS = s.palAS := rfl
@[simp] theorem State.markValid_palPlaces (s : State) : (s.markValid).palPlaces = s.palPlaces := rfl
@[simp] theorem State.markValid_registerBase (s : State) : (s.markValid).registerBase = s.registerBase := rfl
@[simp] theorem State.markValid_holes (s : State) : (s.markValid).holes = s.holes := rfl
@[simp] theorem State.markValid_inputs (s : State) : (s.markValid).inputs = s.inputs := rfl
@[simp] theorem State.markValid_readData (s : State) : (s.markValid).readData = s.readData := rfl

/-! ### `State.loadIndex` -/

@[simp] theorem State.loadIndex_cfg (s : State) (ch : Channel) : (s.loadIndex ch).cfg = s.cfg := rfl
@[simp] theorem State.loadIndex_regs (s : State) (ch : Channel) : (s.loadIndex ch).regs = s.regs := rfl
@[simp] theorem State.loadIndex_result (s : State) (ch : Channel) : (s.loadIndex ch).result = s.result := rfl
@[simp] theorem State.loadIndex_errinfo (s : State) (ch : Channel) : (s.loadIndex ch).errinfo = s.errinfo := rfl
@[simp] theorem State.loadIndex_ending (s : State) (ch : Channel) : (s.loadIndex ch).ending = s.ending := rfl
@[simp] theorem State.loadIndex_anyErr (s : State) (ch : Channel) : (s.loadIndex ch).anyErr = s.anyErr := rfl
@[simp] theorem State.loadIndex_clv (s : State) (ch : Channel) : (s.loadIndex ch).clv = s.clv := rfl
@[simp] theorem State.loadIndex_br (s : State) (ch : Channel) : (s.loadIndex ch).br = s.br := rfl
@[simp] theorem State.loadIndex_slots (s : State) (ch : Channel) : (s.loadIndex ch).slots = s.slots := rfl
@[simp] theorem State.loadIndex_activity (s : State) (ch : Channel) : (s.loadIndex ch).activity = s.activity := rfl
@[simp] theorem State.loadIndex_recv (s : State) (ch : Channel) : (s.loadIndex ch).recv = s.recv := rfl
@[simp] theorem State.loadIndex_blockBuf (s : State) (ch : Channel) : (s.loadIndex ch).blockBuf = s.blockBuf := rfl
@[simp] theorem State.loadIndex_mem (s : State) (ch : Channel) : (s.loadIndex ch).mem = s.mem := rfl
@[simp] theorem State.loadIndex_palCE (s : State) (ch : Channel) : (s.loadIndex ch).palCE = s.palCE := rfl
@[simp] theorem State.loadIndex_palCS (s : State) (ch : Channel) : (s.loadIndex ch).palCS = s.palCS := rfl
@[simp] theorem State.loadIndex_palAE (s : State) (ch : Channel) : (s.loadIndex ch).palAE = s.palAE := rfl
@[simp] theorem State.loadIndex_palAS (s : State) (ch : Channel) : (s.loadIndex ch).palAS = s.palAS := rfl
@[simp] theorem State.loadIndex_palPlaces (s : State) (ch : Channel) : (s.loadIndex ch).palPlaces = s.palPlaces := rfl
@[simp] theorem State.loadIndex_registerBase (s : State) (ch : Channel) : (s.loadIndex ch).registerBase = s.registerBase := rfl
@[simp] theorem State.loadIndex_holes (s : State) (ch : Channel) : (s.loadIndex ch).holes = s.holes := rfl
@[simp] theorem State.loadIndex_inputs (s : State) (ch : Channel) : (s.loadIndex ch).inputs = s.inputs := rfl
@[simp] theorem State.loadIndex_readData (s : State) (ch : Channel) : (s.loadIndex ch).readData = s.readData := rfl

/-! ### `State.faceReset` -/

@[simp] theorem State.faceReset_cfg (s : State) : (s.faceReset).cfg = s.cfg := rfl
@[simp] theorem State.faceReset_regs (s : State) : (s.faceReset).regs = s.regs := rfl
@[simp] theorem State.faceReset_result (s : State) : (s.faceReset).result = s.result := rfl
@[simp] theorem State.faceReset_errinfo (s : State) : (s.faceReset).errinfo = s.errinfo := rfl
@[simp] theorem State.faceReset_ending (s : State) : (s.faceReset).ending = s.ending := rfl
@[simp] theorem State.faceReset_anyErr (s : State) : (s.faceReset).anyErr = s.anyErr := rfl
@[simp] theorem State.faceReset_clv (s : State) : (s.faceReset).clv = s.clv := rfl
@[simp] theorem State.faceReset_br (s : State) : (s.faceReset).br = s.br := rfl
@[simp] theorem State.faceReset_slots (s : State) : (s.faceReset).slots = s.slots := rfl
@[simp] theorem State.faceReset_activity (s : State) : (s.faceReset).activity = s.activity := rfl
@[simp] theorem State.faceReset_recv (s : State) : (s.faceReset).recv = s.recv := rfl
@[simp] theorem State.faceReset_mem (s : State) : (s.faceReset).mem = s.mem := rfl
@[simp] theorem State.faceReset_palCE (s : State) : (s.faceReset).palCE = s.palCE := rfl
@[simp] theorem State.faceReset_palCS (s : State) : (s.faceReset).palCS = s.palCS := rfl
@[simp] theorem State.faceReset_palAE (s : State) : (s.faceReset).palAE = s.palAE := rfl
@[simp] theorem State.faceReset_palAS (s : State) : (s.faceReset).palAS = s.palAS := rfl
@[simp] theorem State.faceReset_palPlaces (s : State) : (s.faceReset).palPlaces = s.palPlaces := rfl
@[simp] theorem State.faceReset_registerBase (s : State) : (s.faceReset).registerBase = s.registerBase := rfl
@[simp] theorem State.faceReset_holes (s : State) : (s.faceReset).holes = s.holes := rfl
@[simp] theorem State.faceReset_inputs (s : State) : (s.faceReset).inputs = s.inputs := rfl
@[simp] theorem State.faceReset_readData (s : State) : (s.faceReset).readData = s.readData := rfl

/-! ### `State.clearWritten` -/

@[simp] theorem State.clearWritten_cfg (s : State) : (s.clearWritten).cfg = s.cfg := rfl
@[simp] theorem State.clearWritten_regs (s : State) : (s.clearWritten).regs = s.regs := rfl
@[simp] theorem State.clearWritten_result (s : State) : (s.clearWritten).result = s.result := rfl
@[simp] theorem State.clearWritten_errinfo (s : State) : (s.clearWritten).errinfo = s.errinfo := rfl
@[simp] theorem State.clearWritten_ending (s : State) : (s.clearWritten).ending = s.ending := rfl
@[simp] theorem State.clearWritten_anyErr (s : State) : (s.clearWritten).anyErr = s.anyErr := rfl
@[simp] theorem State.clearWritten_clv (s : State) : (s.clearWritten).clv = s.clv := rfl
@[simp] theorem State.clearWritten_br (s : State) : (s.clearWritten).br = s.br := rfl
@[simp] theorem State.clearWritten_slots (s : State) : (s.clearWritten).slots = s.slots := rfl
@[simp] theorem State.clearWritten_activity (s : State) : (s.clearWritten).activity = s.activity := rfl
@[simp] theorem State.clearWritten_recv (s : State) : (s.clearWritten).recv = s.recv := rfl
@[simp] theorem State.clearWritten_blockBuf (s : State) : (s.clearWritten).blockBuf = s.blockBuf := rfl
@[simp] theorem State.clearWritten_mem (s : State) : (s.clearWritten).mem = s.mem := rfl
@[simp] theorem State.clearWritten_palCE (s : State) : (s.clearWritten).palCE = s.palCE := rfl
@[simp] theorem State.clearWritten_palCS (s : State) : (s.clearWritten).palCS = s.palCS := rfl
@[simp] theorem State.clearWritten_palAE (s : State) : (s.clearWritten).palAE = s.palAE := rfl
@[simp] theorem State.clearWritten_palAS (s : State) : (s.clearWritten).palAS = s.palAS := rfl
@[simp] theorem State.clearWritten_palPlaces (s : State) : (s.clearWritten).palPlaces = s.palPlaces := rfl
@[simp] theorem State.clearWritten_registerBase (s : State) : (s.clearWritten).registerBase = s.registerBase := rfl
@[simp] theorem State.clearWritten_holes (s : State) : (s.clearWritten).holes = s.holes := rfl
@[simp] theorem State.clearWritten_inputs (s : State) : (s.clearWritten).inputs = s.inputs := rfl
@[simp] theorem State.clearWritten_readData (s : State) : (s.clearWritten).readData = s.readData := rfl

/-! ### `State.raiseArgs` -/

@[simp] theorem State.raiseArgs_cfg (s : State) (c : Cause) : (s.raiseArgs c).cfg = s.cfg := rfl
@[simp] theorem State.raiseArgs_regs (s : State) (c : Cause) : (s.raiseArgs c).regs = s.regs := rfl
@[simp] theorem State.raiseArgs_result (s : State) (c : Cause) :
    (s.raiseArgs c).result = BitVec.ofNat 32 s.walk.blocksWritten :=
  rfl
@[simp] theorem State.raiseArgs_errinfo (s : State) (c : Cause) :
    (s.raiseArgs c).errinfo = packErrinfo 0 0 0 0 :=
  rfl
@[simp] theorem State.raiseArgs_ending (s : State) (c : Cause) : (s.raiseArgs c).ending = .raised c := rfl
@[simp] theorem State.raiseArgs_anyErr (s : State) (c : Cause) : (s.raiseArgs c).anyErr = true := rfl
@[simp] theorem State.raiseArgs_clv (s : State) (c : Cause) : (s.raiseArgs c).clv = s.clv := rfl
@[simp] theorem State.raiseArgs_br (s : State) (c : Cause) : (s.raiseArgs c).br = s.br := rfl
@[simp] theorem State.raiseArgs_slots (s : State) (c : Cause) : (s.raiseArgs c).slots = s.slots := rfl
@[simp] theorem State.raiseArgs_activity (s : State) (c : Cause) : (s.raiseArgs c).activity = .idle := rfl
@[simp] theorem State.raiseArgs_recv (s : State) (c : Cause) : (s.raiseArgs c).recv = s.recv := rfl
@[simp] theorem State.raiseArgs_walk (s : State) (c : Cause) : (s.raiseArgs c).walk = s.walk := rfl
@[simp] theorem State.raiseArgs_blockBuf (s : State) (c : Cause) : (s.raiseArgs c).blockBuf = s.blockBuf := rfl
@[simp] theorem State.raiseArgs_mem (s : State) (c : Cause) : (s.raiseArgs c).mem = s.mem := rfl
@[simp] theorem State.raiseArgs_palCE (s : State) (c : Cause) : (s.raiseArgs c).palCE = s.palCE := rfl
@[simp] theorem State.raiseArgs_palCS (s : State) (c : Cause) : (s.raiseArgs c).palCS = s.palCS := rfl
@[simp] theorem State.raiseArgs_palAE (s : State) (c : Cause) : (s.raiseArgs c).palAE = s.palAE := rfl
@[simp] theorem State.raiseArgs_palAS (s : State) (c : Cause) : (s.raiseArgs c).palAS = s.palAS := rfl
@[simp] theorem State.raiseArgs_palPlaces (s : State) (c : Cause) : (s.raiseArgs c).palPlaces = s.palPlaces := rfl
@[simp] theorem State.raiseArgs_registerBase (s : State) (c : Cause) : (s.raiseArgs c).registerBase = s.registerBase := rfl
@[simp] theorem State.raiseArgs_holes (s : State) (c : Cause) : (s.raiseArgs c).holes = s.holes := rfl
@[simp] theorem State.raiseArgs_inputs (s : State) (c : Cause) : (s.raiseArgs c).inputs = s.inputs := rfl
@[simp] theorem State.raiseArgs_readData (s : State) (c : Cause) : (s.raiseArgs c).readData = s.readData := rfl

/-! ### `State.startWalk` -/

@[simp] theorem State.startWalk_cfg (s : State) (k : FormatClass) : (s.startWalk k).cfg = s.cfg := rfl
@[simp] theorem State.startWalk_regs (s : State) (k : FormatClass) : (s.startWalk k).regs = s.regs := rfl
@[simp] theorem State.startWalk_result (s : State) (k : FormatClass) : (s.startWalk k).result = s.result := rfl
@[simp] theorem State.startWalk_errinfo (s : State) (k : FormatClass) : (s.startWalk k).errinfo = s.errinfo := rfl
@[simp] theorem State.startWalk_ending (s : State) (k : FormatClass) : (s.startWalk k).ending = s.ending := rfl
@[simp] theorem State.startWalk_anyErr (s : State) (k : FormatClass) : (s.startWalk k).anyErr = s.anyErr := rfl
@[simp] theorem State.startWalk_clv (s : State) (k : FormatClass) : (s.startWalk k).clv = s.clv := rfl
@[simp] theorem State.startWalk_br (s : State) (k : FormatClass) :
    (s.startWalk k).br =
      { base := s.regs.srcBase, len := s.regs.srcLen, bitpos := 0,
        overrun := false, started := true, touched := false } :=
  rfl
@[simp] theorem State.startWalk_slots (s : State) (k : FormatClass) : (s.startWalk k).slots = s.slots := rfl
@[simp] theorem State.startWalk_activity (s : State) (k : FormatClass) : (s.startWalk k).activity = .walking := rfl
@[simp] theorem State.startWalk_recv (s : State) (k : FormatClass) : (s.startWalk k).recv = s.recv := rfl
@[simp] theorem State.startWalk_mem (s : State) (k : FormatClass) : (s.startWalk k).mem = s.mem := rfl
@[simp] theorem State.startWalk_palCE (s : State) (k : FormatClass) : (s.startWalk k).palCE = s.palCE := rfl
@[simp] theorem State.startWalk_palCS (s : State) (k : FormatClass) : (s.startWalk k).palCS = s.palCS := rfl
@[simp] theorem State.startWalk_palAE (s : State) (k : FormatClass) : (s.startWalk k).palAE = s.palAE := rfl
@[simp] theorem State.startWalk_palAS (s : State) (k : FormatClass) : (s.startWalk k).palAS = s.palAS := rfl
@[simp] theorem State.startWalk_palPlaces (s : State) (k : FormatClass) : (s.startWalk k).palPlaces = s.palPlaces := rfl
@[simp] theorem State.startWalk_registerBase (s : State) (k : FormatClass) : (s.startWalk k).registerBase = s.registerBase := rfl
@[simp] theorem State.startWalk_holes (s : State) (k : FormatClass) : (s.startWalk k).holes = s.holes := rfl
@[simp] theorem State.startWalk_inputs (s : State) (k : FormatClass) : (s.startWalk k).inputs = s.inputs := rfl
@[simp] theorem State.startWalk_readData (s : State) (k : FormatClass) :
    (s.startWalk k).readData = s.readData :=
  rfl

/-! ### `State.popInput` -/

@[simp] theorem State.popInput_cfg (s : State) : (s.popInput).cfg = s.cfg := rfl
@[simp] theorem State.popInput_regs (s : State) : (s.popInput).regs = s.regs := rfl
@[simp] theorem State.popInput_result (s : State) : (s.popInput).result = s.result := rfl
@[simp] theorem State.popInput_errinfo (s : State) : (s.popInput).errinfo = s.errinfo := rfl
@[simp] theorem State.popInput_ending (s : State) : (s.popInput).ending = s.ending := rfl
@[simp] theorem State.popInput_anyErr (s : State) : (s.popInput).anyErr = s.anyErr := rfl
@[simp] theorem State.popInput_clv (s : State) : (s.popInput).clv = s.clv := rfl
@[simp] theorem State.popInput_br (s : State) : (s.popInput).br = s.br := rfl
@[simp] theorem State.popInput_slots (s : State) : (s.popInput).slots = s.slots := rfl
@[simp] theorem State.popInput_activity (s : State) : (s.popInput).activity = s.activity := rfl
@[simp] theorem State.popInput_recv (s : State) : (s.popInput).recv = s.recv := rfl
@[simp] theorem State.popInput_walk (s : State) : (s.popInput).walk = s.walk := rfl
@[simp] theorem State.popInput_blockBuf (s : State) : (s.popInput).blockBuf = s.blockBuf := rfl
@[simp] theorem State.popInput_mem (s : State) : (s.popInput).mem = s.mem := rfl
@[simp] theorem State.popInput_palCE (s : State) : (s.popInput).palCE = s.palCE := rfl
@[simp] theorem State.popInput_palCS (s : State) : (s.popInput).palCS = s.palCS := rfl
@[simp] theorem State.popInput_palAE (s : State) : (s.popInput).palAE = s.palAE := rfl
@[simp] theorem State.popInput_palAS (s : State) : (s.popInput).palAS = s.palAS := rfl
@[simp] theorem State.popInput_palPlaces (s : State) : (s.popInput).palPlaces = s.palPlaces := rfl
@[simp] theorem State.popInput_registerBase (s : State) : (s.popInput).registerBase = s.registerBase := rfl
@[simp] theorem State.popInput_holes (s : State) : (s.popInput).holes = s.holes := rfl
@[simp] theorem State.popInput_inputs (s : State) : (s.popInput).inputs = s.inputs.tail := rfl
@[simp] theorem State.popInput_readData (s : State) : (s.popInput).readData = s.readData := rfl

/-! ### `hostStore` -/

@[simp] theorem hostStore_cfg (a : Word) (b : Byte) (s : State) : (hostStore a b s).cfg = s.cfg := rfl
@[simp] theorem hostStore_regs (a : Word) (b : Byte) (s : State) : (hostStore a b s).regs = s.regs := rfl
@[simp] theorem hostStore_result (a : Word) (b : Byte) (s : State) : (hostStore a b s).result = s.result := rfl
@[simp] theorem hostStore_errinfo (a : Word) (b : Byte) (s : State) : (hostStore a b s).errinfo = s.errinfo := rfl
@[simp] theorem hostStore_ending (a : Word) (b : Byte) (s : State) : (hostStore a b s).ending = s.ending := rfl
@[simp] theorem hostStore_anyErr (a : Word) (b : Byte) (s : State) : (hostStore a b s).anyErr = s.anyErr := rfl
@[simp] theorem hostStore_clv (a : Word) (b : Byte) (s : State) : (hostStore a b s).clv = s.clv := rfl
@[simp] theorem hostStore_slots (a : Word) (b : Byte) (s : State) : (hostStore a b s).slots = s.slots := rfl
@[simp] theorem hostStore_activity (a : Word) (b : Byte) (s : State) : (hostStore a b s).activity = s.activity := rfl
@[simp] theorem hostStore_recv (a : Word) (b : Byte) (s : State) : (hostStore a b s).recv = s.recv := rfl
@[simp] theorem hostStore_walk (a : Word) (b : Byte) (s : State) : (hostStore a b s).walk = s.walk := rfl
@[simp] theorem hostStore_blockBuf (a : Word) (b : Byte) (s : State) : (hostStore a b s).blockBuf = s.blockBuf := rfl
@[simp] theorem hostStore_palCE (a : Word) (b : Byte) (s : State) : (hostStore a b s).palCE = s.palCE := rfl
@[simp] theorem hostStore_palCS (a : Word) (b : Byte) (s : State) : (hostStore a b s).palCS = s.palCS := rfl
@[simp] theorem hostStore_palAE (a : Word) (b : Byte) (s : State) : (hostStore a b s).palAE = s.palAE := rfl
@[simp] theorem hostStore_palAS (a : Word) (b : Byte) (s : State) : (hostStore a b s).palAS = s.palAS := rfl
@[simp] theorem hostStore_palPlaces (a : Word) (b : Byte) (s : State) : (hostStore a b s).palPlaces = s.palPlaces := rfl
@[simp] theorem hostStore_registerBase (a : Word) (b : Byte) (s : State) : (hostStore a b s).registerBase = s.registerBase := rfl
@[simp] theorem hostStore_holes (a : Word) (b : Byte) (s : State) : (hostStore a b s).holes = s.holes := rfl
@[simp] theorem hostStore_inputs (a : Word) (b : Byte) (s : State) : (hostStore a b s).inputs = s.inputs := rfl
@[simp] theorem hostStore_readData (a : Word) (b : Byte) (s : State) : (hostStore a b s).readData = s.readData := rfl
@[simp] theorem hostStore_mem (a : Word) (b : Byte) (s : State) :
    (hostStore a b s).mem = s.mem.write a.toNat b :=
  rfl
@[simp] theorem hostStore_br (a : Word) (b : Byte) (s : State) :
    (hostStore a b s).br = { s.br with touched := s.br.touched || s.storeTouches a } :=
  rfl

/-! ### `State.blockReset` -/

@[simp] theorem State.blockReset_cfg (s : State) : s.blockReset.cfg = s.cfg := rfl
@[simp] theorem State.blockReset_regs (s : State) : s.blockReset.regs = State.reset.regs := rfl
@[simp] theorem State.blockReset_result (s : State) : s.blockReset.result = State.reset.result := rfl
@[simp] theorem State.blockReset_errinfo (s : State) : s.blockReset.errinfo = State.reset.errinfo := rfl
@[simp] theorem State.blockReset_ending (s : State) : s.blockReset.ending = State.reset.ending := rfl
@[simp] theorem State.blockReset_anyErr (s : State) : s.blockReset.anyErr = State.reset.anyErr := rfl
@[simp] theorem State.blockReset_clv (s : State) : s.blockReset.clv = State.reset.clv := rfl
@[simp] theorem State.blockReset_br (s : State) : s.blockReset.br = State.reset.br := rfl
@[simp] theorem State.blockReset_slots (s : State) : s.blockReset.slots = State.reset.slots := rfl
@[simp] theorem State.blockReset_activity (s : State) : s.blockReset.activity = State.reset.activity := rfl
@[simp] theorem State.blockReset_recv (s : State) : s.blockReset.recv = State.reset.recv := rfl
@[simp] theorem State.blockReset_walk (s : State) : s.blockReset.walk = State.reset.walk := rfl
@[simp] theorem State.blockReset_blockBuf (s : State) : s.blockReset.blockBuf = State.reset.blockBuf := rfl
@[simp] theorem State.blockReset_mem (s : State) : s.blockReset.mem = s.mem := rfl
@[simp] theorem State.blockReset_palCE (s : State) : s.blockReset.palCE = s.palCE := rfl
@[simp] theorem State.blockReset_palCS (s : State) : s.blockReset.palCS = s.palCS := rfl
@[simp] theorem State.blockReset_palAE (s : State) : s.blockReset.palAE = s.palAE := rfl
@[simp] theorem State.blockReset_palAS (s : State) : s.blockReset.palAS = s.palAS := rfl
@[simp] theorem State.blockReset_palPlaces (s : State) : s.blockReset.palPlaces = s.palPlaces := rfl
@[simp] theorem State.blockReset_registerBase (s : State) : s.blockReset.registerBase = s.registerBase := rfl
@[simp] theorem State.blockReset_holes (s : State) : s.blockReset.holes = s.holes := rfl
@[simp] theorem State.blockReset_inputs (s : State) : s.blockReset.inputs = s.inputs := rfl
@[simp] theorem State.blockReset_readData (s : State) : s.blockReset.readData = s.readData := rfl

/-! ### `State.writeReg` -/

@[simp] theorem State.writeReg_cfg (s : State) (off : Nat) (v : Word) : (s.writeReg off v).cfg = s.cfg := by
  unfold State.writeReg
  split <;> rfl
@[simp] theorem State.writeReg_result (s : State) (off : Nat) (v : Word) : (s.writeReg off v).result = s.result := by
  unfold State.writeReg
  split <;> rfl
@[simp] theorem State.writeReg_errinfo (s : State) (off : Nat) (v : Word) : (s.writeReg off v).errinfo = s.errinfo := by
  unfold State.writeReg
  split <;> rfl
@[simp] theorem State.writeReg_ending (s : State) (off : Nat) (v : Word) : (s.writeReg off v).ending = s.ending := by
  unfold State.writeReg
  split <;> rfl
@[simp] theorem State.writeReg_anyErr (s : State) (off : Nat) (v : Word) : (s.writeReg off v).anyErr = s.anyErr := by
  unfold State.writeReg
  split <;> rfl
@[simp] theorem State.writeReg_br (s : State) (off : Nat) (v : Word) : (s.writeReg off v).br = s.br := by
  unfold State.writeReg
  split <;> rfl
@[simp] theorem State.writeReg_slots (s : State) (off : Nat) (v : Word) : (s.writeReg off v).slots = s.slots := by
  unfold State.writeReg
  split <;> rfl
@[simp] theorem State.writeReg_activity (s : State) (off : Nat) (v : Word) : (s.writeReg off v).activity = s.activity := by
  unfold State.writeReg
  split <;> rfl
@[simp] theorem State.writeReg_recv (s : State) (off : Nat) (v : Word) : (s.writeReg off v).recv = s.recv := by
  unfold State.writeReg
  split <;> rfl
@[simp] theorem State.writeReg_walk (s : State) (off : Nat) (v : Word) : (s.writeReg off v).walk = s.walk := by
  unfold State.writeReg
  split <;> rfl
@[simp] theorem State.writeReg_blockBuf (s : State) (off : Nat) (v : Word) : (s.writeReg off v).blockBuf = s.blockBuf := by
  unfold State.writeReg
  split <;> rfl
@[simp] theorem State.writeReg_mem (s : State) (off : Nat) (v : Word) : (s.writeReg off v).mem = s.mem := by
  unfold State.writeReg
  split <;> rfl
@[simp] theorem State.writeReg_palCE (s : State) (off : Nat) (v : Word) : (s.writeReg off v).palCE = s.palCE := by
  unfold State.writeReg
  split <;> rfl
@[simp] theorem State.writeReg_palCS (s : State) (off : Nat) (v : Word) : (s.writeReg off v).palCS = s.palCS := by
  unfold State.writeReg
  split <;> rfl
@[simp] theorem State.writeReg_palAE (s : State) (off : Nat) (v : Word) : (s.writeReg off v).palAE = s.palAE := by
  unfold State.writeReg
  split <;> rfl
@[simp] theorem State.writeReg_palAS (s : State) (off : Nat) (v : Word) : (s.writeReg off v).palAS = s.palAS := by
  unfold State.writeReg
  split <;> rfl
@[simp] theorem State.writeReg_palPlaces (s : State) (off : Nat) (v : Word) : (s.writeReg off v).palPlaces = s.palPlaces := by
  unfold State.writeReg
  split <;> rfl
@[simp] theorem State.writeReg_registerBase (s : State) (off : Nat) (v : Word) : (s.writeReg off v).registerBase = s.registerBase := by
  unfold State.writeReg
  split <;> rfl
@[simp] theorem State.writeReg_holes (s : State) (off : Nat) (v : Word) : (s.writeReg off v).holes = s.holes := by
  unfold State.writeReg
  split <;> rfl
@[simp] theorem State.writeReg_inputs (s : State) (off : Nat) (v : Word) : (s.writeReg off v).inputs = s.inputs := by
  unfold State.writeReg
  split <;> rfl
@[simp] theorem State.writeReg_readData (s : State) (off : Nat) (v : Word) : (s.writeReg off v).readData = s.readData := by
  unfold State.writeReg
  split <;> rfl

/-! ### Reading through the updates -/

/-- A bit of the stream depends on the memory and on the reader's range alone. -/
theorem State.streamBit_congr {s t : State} (hm : t.mem = s.mem) (hb : t.br.base = s.br.base)
    (hl : t.br.rangeLen = s.br.rangeLen) (ht : t.br.touched = s.br.touched) (i : Nat) :
    t.streamBit i = s.streamBit i := by
  simp only [State.streamBit, hm, hb, hl, ht]

@[simp] theorem State.consume_rangeLen (s : State) (n : Nat) : (s.consume n).br.rangeLen = s.br.rangeLen := rfl

@[simp] theorem State.streamBit_consume (s : State) (n i : Nat) : (s.consume n).streamBit i = s.streamBit i := rfl

@[simp] theorem State.slot_setSlot (s : State) (k j : SlotId) (m : Option Model) :
    (s.setSlot k m).slot j = if j = k then m else s.slot j := by
  cases k <;> cases j <;> rfl

end Sys2Proof.Machine
end

