-- ==== Sys2Proof/Laws/Ops.lean ====
section
/-! SUPPORT. For each shared operation one lemma that says everything it can answer; the provers cite these and do not unfold
the operations. -/

namespace Sys2Proof.Machine

/-! ### Sequencing -/

@[simp] theorem Res.ok_andThen {α β : Type} (a : α) (s : State) (f : α → State → Res β) :
    (Res.ok a s).andThen f = f a s := rfl

@[simp] theorem Res.err_andThen {α β : Type} (c : Cause) (k : BitVec 3) (s : State) (f : α → State → Res β) :
    (Res.err c k s : Res α).andThen f = .err c k s := rfl

@[simp] theorem Res.refused_andThen {α β : Type} (r : Refusal) (f : α → State → Res β) :
    (Res.refused r : Res α).andThen f = .refused r := rfl

theorem Res.andThen_eq_ok {α β : Type} {r : Res α} {f : α → State → Res β} {b : β} {t : State} :
    r.andThen f = .ok b t ↔ ∃ a s, r = .ok a s ∧ f a s = .ok b t := by
  cases r <;> simp [Res.andThen]

theorem Res.andThen_eq_err {α β : Type} {r : Res α} {f : α → State → Res β} {c : Cause} {k : BitVec 3} {t : State} :
    r.andThen f = .err c k t ↔ r = .err c k t ∨ ∃ a s, r = .ok a s ∧ f a s = .err c k t := by
  cases r <;> simp [Res.andThen]

theorem Res.andThen_eq_refused {α β : Type} {r : Res α} {f : α → State → Res β} {x : Refusal} :
    r.andThen f = .refused x ↔ r = .refused x ∨ ∃ a s, r = .ok a s ∧ f a s = .refused x := by
  cases r <;> simp [Res.andThen]

/-! ### Commands (rule R324) -/

/-- A command ends with a success or with a raise, at position 0. -/
theorem runCommand_eq_next {body : State → Res Unit} {s t : State} :
    runCommand body s = .next t ↔
      (∃ u, body s.startCommand = .ok () u ∧ t = u.finishCommand) ∨
      ∃ c k u, body s.startCommand = .err c k u ∧ t = u.raiseAt0 c k := by
  unfold runCommand
  cases body s.startCommand <;> simp [eq_comm]

theorem runCommand_noFault (body : State → Res Unit) (s : State) (x : Fault) : runCommand body s ≠ .fault x := by
  unfold runCommand
  cases body s.startCommand <;> simp

/-- A raise inside the walk ends the command there; a success goes on. -/
theorem endInWalk_eq_next {α : Type} {r : Res α} {k : α → State → Result} {t : State} :
    endInWalk r k = .next t ↔
      (∃ a s, r = .ok a s ∧ k a s = .next t) ∨ ∃ c n s, r = .err c n s ∧ t = s.raiseInWalk c n := by
  cases r <;> simp [endInWalk, eq_comm]

/-! ### The bit reader -/

/-- `GetBits` never raises; where it answers, it has peeked and consumed (rule R153). -/
theorem State.getBits_eq_ok {s t : State} {n v : Nat} :
    s.getBits n = .ok v t ↔ s.peekBits n = .ok v ∧ t = s.consume n := by
  unfold State.getBits
  cases s.peekBits n <;> simp [eq_comm]

theorem State.getBits_ne_err (s t : State) (n : Nat) (c : Cause) (k : BitVec 3) : s.getBits n ≠ .err c k t := by
  unfold State.getBits
  cases s.peekBits n <;> simp

/-- The bits read are a number of that many bits. -/
theorem State.bitsAt_lt {s : State} {pos n v : Nat} (h : s.bitsAt pos n = .ok v) : v < 2 ^ n := by
  induction n generalizing v with
  | zero => simp [State.bitsAt] at h; omega
  | succ n ih =>
    simp only [State.bitsAt] at h
    split at h
    · cases h
    · rename_i w hw
      split at h
      · cases h
      · rename_i b hb
        have := ih hw
        cases h
        have hb1 : b.toNat ≤ 1 := by cases b <;> simp
        rw [Nat.pow_succ]
        omega

theorem State.peekBits_lt {s : State} {n v : Nat} (h : s.peekBits n = .ok v) : v < 2 ^ n := State.bitsAt_lt h

/-- With every byte of the range readable, every stream bit has a value (rules R150, R155). -/
theorem State.streamBit_of_readable {s : State} (h : s.rangeReadable) (i : Nat) : ∃ b, s.streamBit i = .ok b := by
  unfold State.streamBit
  split
  · rename_i hi
    rw [h.1]
    obtain ⟨b, hb⟩ := Option.ne_none_iff_exists'.1 (h.2 _ hi)
    exact ⟨_, by simp [hb]; rfl⟩
  · exact ⟨_, rfl⟩

/-- The bits of a readable stream, as one function. -/
theorem State.bits_of_readable {s : State} (h : s.rangeReadable) : ∃ f : Nat → Bool, ∀ i, s.streamBit i = .ok (f i) :=
  Classical.axiom_of_choice fun i => State.streamBit_of_readable h i

/-! ### Decoding and building -/

/-- Everything `Decode` can answer (rules R210, R211): the slot is `EMPTY`, the stream cannot be read, no symbol is found (and
nothing is consumed), or a symbol is returned and its length consumed. -/
theorem State.decodeWith_cases (s : State) (k : SlotId) (find : Model → Nat → Except Cause (Nat × Nat)) :
    (s.slot k = none ∧ s.decodeWith k find = .err .emptyModel k.num s) ∨
    (∃ m r, s.slot k = some m ∧ s.peekBits 16 = .error r ∧ s.decodeWith k find = .refused r) ∨
    (∃ m w c, s.slot k = some m ∧ s.peekBits 16 = .ok w ∧ find m w = .error c ∧
      s.decodeWith k find = .err c k.num s) ∨
    (∃ m w e, s.slot k = some m ∧ s.peekBits 16 = .ok w ∧ find m w = .ok e ∧
      s.decodeWith k find = .ok e.1 (s.consume e.2)) := by
  unfold State.decodeWith
  cases hs : s.slot k with
  | none => simp
  | some m =>
    cases hp : s.peekBits 16 with
    | error r => simp
    | ok w =>
      cases hf : find m w with
      | error c => simp [hf]
      | ok e => exact .inr (.inr (.inr ⟨m, w, e, rfl, rfl, hf, by simp [hf]⟩))

theorem State.decodeSymbol_eq_ok {s t : State} {k : SlotId} {v : Nat} :
    s.decodeSymbol k = .ok v t ↔
      ∃ m w l, s.slot k = some m ∧ s.peekBits 16 = .ok w ∧ m.decodeBits w = .ok (v, l) ∧ t = s.consume l := by
  unfold State.decodeSymbol State.decodeWith
  cases hs : s.slot k with
  | none => simp
  | some m =>
    cases hp : s.peekBits 16 with
    | error r => simp
    | ok w =>
      cases hf : m.decodeBits w with
      | error c => simp [hf]
      | ok e =>
        obtain ⟨a, l⟩ := e
        simp only [hf, Res.ok.injEq, Option.some.injEq, Except.ok.injEq]
        constructor
        · rintro ⟨rfl, rfl⟩
          exact ⟨m, w, l, rfl, rfl, hf, rfl⟩
        · rintro ⟨m', w', l', rfl, rfl, h, rfl⟩
          rw [hf] at h
          simp only [Except.ok.injEq, Prod.mk.injEq] at h
          exact ⟨h.1, by rw [h.2]⟩

/-- A failing `Decode` changes nothing and reports its slot. -/
theorem State.decodeSymbol_err {s t : State} {k : SlotId} {c : Cause} {n : BitVec 3}
    (h : s.decodeSymbol k = .err c n t) : t = s ∧ n = k.num := by
  rcases s.decodeWith_cases k Model.decodeBits with ⟨_, h'⟩ | ⟨_, _, _, _, h'⟩ | ⟨_, _, _, _, _, _, h'⟩ | ⟨_, _, _, _, _, _, h'⟩ <;>
    rw [State.decodeSymbol, h'] at h <;> cases h <;> exact ⟨rfl, rfl⟩

/-- `Build` answers the vector itself, or one of three causes (rule R181). -/
theorem buildModel_cases (cl : List Nat) :
    buildModel cl = .ok ⟨cl⟩ ∨ ∃ c ∈ [Cause.emptyModel, .badLmax, .oversubscribed], buildModel cl = .error c := by
  unfold buildModel
  split
  · simp
  · split
    · simp
    · split
      · simp
      · split <;> simp

theorem buildModel_eq_ok {cl : List Nat} {m : Model} (h : buildModel cl = .ok m) : m = ⟨cl⟩ := by
  rcases buildModel_cases cl with h' | ⟨c, _, h'⟩ <;> rw [h'] at h <;> cases h
  rfl

/-- What a built model's vector satisfies (rule R181). -/
theorem buildModel_checks {cl : List Nat} {m : Model} (h : buildModel cl = .ok m) :
    cl ≠ [] ∧ (∀ l ∈ cl, l ≤ 16) ∧ (∃ l ∈ cl, l ≠ 0) ∧ Model.oversubscribed ⟨cl⟩ = false := by
  unfold buildModel at h
  split at h
  · cases h
  · rename_i h0
    split at h
    · cases h
    · rename_i h1
      split at h
      · cases h
      · rename_i h2
        split at h
        · cases h
        · rename_i h3
          refine ⟨by rintro rfl; exact h0 rfl, ?_, ?_, by simpa using h3⟩
          · intro l hl
            by_contra hc
            exact h1 (List.any_eq_true.2 ⟨l, hl, by simp only [maxCodeSize]; exact decide_eq_true (by omega)⟩)
          · by_contra hc
            push Not at hc
            exact h2 (List.all_eq_true.2 fun l hl => by simp [hc l hl])

/-- Installing a vector fills the slot or leaves it `EMPTY` (rules R193, R234, R242). -/
theorem State.installModel_cases (s : State) (k : SlotId) (cl : List Nat) :
    (buildModel cl = .ok ⟨cl⟩ ∧ s.installModel k cl = .ok () (s.setSlot k (some ⟨cl⟩))) ∨
    ∃ c, buildModel cl = .error c ∧ s.installModel k cl = .err c k.num (s.setSlot k none) := by
  unfold State.installModel
  rcases buildModel_cases cl with h | ⟨c, _, h⟩
  · simp [h]
  · simp [h]

/-! ### Emission and running -/

/-- `Emit` writes the block's words at its address and counts it, and changes nothing else (rules R277, R300, R301). -/
theorem State.emit_eq_ok {s t : State} {q : Selectors} :
    s.emit q = .ok t ↔ ∃ ws, s.blockWords q = .ok ws ∧
      t = { s with
        mem := s.mem.writeWords s.walkAddr ws
        walk := { s.walk with blocksWritten := s.walk.blocksWritten + 1 } } := by
  unfold State.emit
  cases s.blockWords q <;> simp [eq_comm]

/-- Running to idle is some number of inner steps, and ends idle. -/
theorem runToIdle_eq_next {n : Nat} {s t : State} (h : runToIdle n s = .next t) :
    t.activity = .idle ∧ ∃ k ≤ n, innerSteps k s = .next t := by
  induction n generalizing s with
  | zero =>
    simp only [runToIdle] at h
    split at h
    · cases h
      exact ⟨by assumption, 0, le_rfl, rfl⟩
    · cases h
  | succ n ih =>
    simp only [runToIdle] at h
    split at h
    · cases h
      exact ⟨by assumption, 0, Nat.zero_le _, rfl⟩
    · split at h
      · rename_i u hu
        obtain ⟨hi, k, hk, hs⟩ := ih h
        exact ⟨hi, k + 1, by omega, by simp only [innerSteps, hu, hs]⟩
      · cases h
      · cases h

theorem runToIdle_of_idle {n : Nat} {s : State} (h : s.activity = .idle) : runToIdle n s = .next s := by
  cases n <;> simp [runToIdle, h]

/-- Every step of `runToIdle` unfolds to one inner step. -/
theorem runToIdle_succ {n : Nat} {s t : State} (h : s.activity ≠ .idle) (hs : innerStep s = .next t) :
    runToIdle (n + 1) s = runToIdle n t := by
  simp [runToIdle, h, hs]

/-! ### The host's duties, and a command abandoned -/

/-- `UNPACK` starts its walk only where memory stands behind its ranges and placed palettes, no destination meets another range the host must keep
apart from it, and the palettes have the lengths that `NUM_*` say (rules R386, R389, R390). -/
theorem State.hostDuties_eq_none {s : State} :
    s.hostDuties = none ↔
      s.inHole s.regs.srcRange = false ∧ (∀ f < s.regs.faces.toNat, s.inHole (s.regs.dstRange f) = false) ∧
      (∀ r ∈ s.paletteRanges, s.inHole r = false ∧ crosses32 r = false) ∧
      someMeet (s.regs.srcRange :: (List.range s.regs.faces.toNat).map s.regs.dstRange) = false ∧
      (∀ f < s.regs.faces.toNat, ∀ r ∈ s.paletteRanges ++ s.registerRanges, rangesMeet (s.regs.dstRange f) r = false) ∧
      s.palettesMatch = true := by
  have refuses : ∀ (c : Prop) [Decidable c] (r : Refusal) (o : Option Refusal),
      (if c then some r else o) = none ↔ ¬c ∧ o = none := by
    intro c _ r o
    split <;> simp [*]
  simp only [State.hostDuties, refuses]
  simp [State.paletteInHole, or_imp, forall_and]

theorem State.palettesMatch_eq_true {s : State} :
    s.palettesMatch = true ↔ s.palCE.length = s.regs.numCE.toNat ∧ s.palCS.length = s.regs.numCS.toNat ∧
      s.palAE.length = s.regs.numAE.toNat ∧ s.palAS.length = 3 * s.regs.numAS.toNat := by
  simp [State.palettesMatch, and_assoc]

/-- An abandoned command leaves the reset of a state that it reached, or of its start (rule R380). -/
theorem abandonCommand_eq_next {c : Word} {n : Nat} {s t : State} (h : abandonCommand c n s = .next t) :
    ∃ u, t = u.hardwareReset ∧ (u = s ∨ ∃ i, decode (.command c) = .ok i ∧ commandUntil i n s = .next u) := by
  unfold abandonCommand at h
  split at h
  · rename_i i hi
    cases hu : commandUntil i n s with
    | next u =>
      rw [hu] at h
      cases h
      exact ⟨u, rfl, .inr ⟨i, hi, hu⟩⟩
    | fault x => rw [hu] at h; cases h
    | refused r => rw [hu] at h; cases h
  · cases h
    exact ⟨_, rfl, .inl rfl⟩

/-- A walk run until it has written some words stands at an instant between two inner steps, or inside the block after it. -/
theorem walkUntil_eq_next {fuel n : Nat} {s t : State} (h : walkUntil fuel n s = .next t) :
    ∃ k ≤ fuel, ∃ u, innerSteps k s = .next u ∧ (t = u ∨ ∃ m ≤ n, walkStepWith (writeFirstWords m) u = .next t) := by
  induction fuel generalizing n s with
  | zero =>
    cases h
    exact ⟨0, le_rfl, _, rfl, .inl rfl⟩
  | succ fuel ih =>
    simp only [walkUntil] at h
    split at h
    · cases h
      exact ⟨0, Nat.zero_le _, _, rfl, .inl rfl⟩
    · split at h
      · rename_i u hu
        split at h
        · obtain ⟨k, hk, v, hv, ho⟩ := ih h
          refine ⟨k + 1, by omega, v, by simp only [innerSteps, hu, hv], ho.imp id ?_⟩
          rintro ⟨m, hm, hw⟩
          exact ⟨m, by omega, hw⟩
        · exact ⟨0, Nat.zero_le _, s, rfl, .inr ⟨n, le_rfl, h⟩⟩
      · cases h
      · cases h

/-- What `RECV_MODEL` and `UNPACK` run in the stream is what `exec` gives the instruction. -/
theorem execStream_eq_exec {i : Instr} (h : i.isCommand = false) (s : State) : execStream i s = exec i s := by
  cases i <;> first | rfl | simp [Instr.isCommand] at h

end Sys2Proof.Machine
end

