-- ==== Sys2Proof/Laws/PerInstr.lean ====
section
/-! SUPPORT. One statement about every instruction as syntax, with one lemma per constructor: an instruction's encoding lies in
the encoding space the spec gives it (rules R2, R113, R118, R123). -/

namespace Sys2Proof.Laws.EncodedSpace

/-- A command's word matches one of the rows of rule R113 under the row's mask; a meta symbol's value is at most 20 and its
extra field fits the symbol's width; an endpoint-reference code is one of the four. -/
def Statement (i : Instr) : Prop :=
  match encode i with
  | .command c => i.isCommand = true ∧ ∃ row ∈ commandRows, c &&& row.1 = row.2
  | .metaSymbol symbol extra => i.isCommand = false ∧ symbol ≤ 20 ∧ extra < 2 ^ metaExtraBits symbol
  | .refCode _ => i.isCommand = false

theorem nop : Statement .nop := ⟨rfl, commandRows[0], by decide, by decide⟩
theorem softReset : Statement .softReset := ⟨rfl, commandRows[1], by decide, by decide⟩
theorem brStart : Statement .brStart := ⟨rfl, commandRows[2], by decide, by decide⟩
theorem getBits (n : BitVec 6) : Statement (.getBits n) :=
  ⟨rfl, commandRows[3], by decide, by revert n; decide⟩
theorem brStop : Statement .brStop := ⟨rfl, commandRows[4], by decide, by decide⟩
theorem build (slot : SlotId) : Statement (.build slot) :=
  ⟨rfl, commandRows[5], by decide, by cases slot <;> decide⟩
theorem clear (slot : SlotId) : Statement (.clear slot) :=
  ⟨rfl, commandRows[6], by decide, by cases slot <;> decide⟩
theorem decode (slot : SlotId) : Statement (.decode slot) :=
  ⟨rfl, commandRows[7], by decide, by cases slot <;> decide⟩
theorem recvModel (slot : SlotId) : Statement (.recvModel slot) :=
  ⟨rfl, commandRows[8], by decide, by cases slot <;> decide⟩
theorem unpack (cls : BitVec 4) : Statement (.unpack cls) :=
  ⟨rfl, commandRows[9], by decide, by revert cls; decide⟩
theorem mLen0 : Statement .mLen0 := ⟨rfl, by decide, by decide⟩
theorem mLen1 : Statement .mLen1 := ⟨rfl, by decide, by decide⟩
theorem mLen2 : Statement .mLen2 := ⟨rfl, by decide, by decide⟩
theorem mLen3 : Statement .mLen3 := ⟨rfl, by decide, by decide⟩
theorem mLen4 : Statement .mLen4 := ⟨rfl, by decide, by decide⟩
theorem mLen5 : Statement .mLen5 := ⟨rfl, by decide, by decide⟩
theorem mLen6 : Statement .mLen6 := ⟨rfl, by decide, by decide⟩
theorem mLen7 : Statement .mLen7 := ⟨rfl, by decide, by decide⟩
theorem mLen8 : Statement .mLen8 := ⟨rfl, by decide, by decide⟩
theorem mLen9 : Statement .mLen9 := ⟨rfl, by decide, by decide⟩
theorem mLen10 : Statement .mLen10 := ⟨rfl, by decide, by decide⟩
theorem mLen11 : Statement .mLen11 := ⟨rfl, by decide, by decide⟩
theorem mLen12 : Statement .mLen12 := ⟨rfl, by decide, by decide⟩
theorem mLen13 : Statement .mLen13 := ⟨rfl, by decide, by decide⟩
theorem mLen14 : Statement .mLen14 := ⟨rfl, by decide, by decide⟩
theorem mLen15 : Statement .mLen15 := ⟨rfl, by decide, by decide⟩
theorem mLen16 : Statement .mLen16 := ⟨rfl, by decide, by decide⟩
theorem mZrunS (e : BitVec 3) : Statement (.mZrunS e) := ⟨rfl, by decide, e.isLt⟩
theorem mZrunL (e : BitVec 7) : Statement (.mZrunL e) := ⟨rfl, by decide, e.isLt⟩
theorem mRepS (e : BitVec 2) : Statement (.mRepS e) := ⟨rfl, by decide, e.isLt⟩
theorem mRepL (e : BitVec 6) : Statement (.mRepL e) := ⟨rfl, by decide, e.isLt⟩
theorem refNew : Statement .refNew := rfl
theorem refLeft : Statement .refLeft := rfl
theorem refTop : Statement .refTop := rfl
theorem refDiag : Statement .refDiag := rfl

end Sys2Proof.Laws.EncodedSpace
end

