-- ==== Sys2Proof/Tests/Slice0.lean ====
section
/-! SUPPORT. The author's own tests: words decoded, ill-formed terms refused, one step per instruction on a small state. Expected
values are those of chapter 95 of the spec (the vector is named) or a hand calculation from the rule named. -/

-- One theorem after the other: checked at once, they ask for more threads than the check's memory limit gives.
set_option Elab.async false

namespace Sys2Proof.Tests

open Sys2Proof.Machine

/-! ### Helpers -/

/-- The outcome is a next state with this property. -/
def after (r : Result) (p : State → Bool) : Bool :=
  match r with
  | .next t => p t
  | .fault _ | .refused _ => false

theorem next_of_after {r : Result} {p : State → Bool} (h : after r p = true) : ∃ t, r = .next t ∧ p t = true := by
  cases r with
  | next t => exact ⟨t, rfl, h⟩
  | fault x => cases h
  | refused x => cases h

/-- One step in which the host writes a word to `CMD`. -/
def command (c : Word) (s : State) : Result := step { s with inputs := [.write 4 offCmd c] }

/-- Bytes from an address on. -/
def bytesAt (a : Nat) : List Byte → Memory
  | [] => []
  | b :: bs => (a, b) :: bytesAt (a + 1) bs

/-- A block with a reader started on these bytes at address 0x1000. -/
def reading (bs : List Byte) : State :=
  { State.reset with
    mem := bytesAt 0x1000 bs
    br := { base := 0x1000, len := BitVec.ofNat 32 bs.length, bitpos := 0, overrun := false, started := true,
            touched := false } }

/-- The bytes at an address. -/
def bytesFrom (m : Memory) (a n : Nat) : List (Option Byte) := (List.range n).map fun j => m.read (a + j)

/-- Registers of a level of `w` by `h` blocks at 0x2000, one face, source of `n` bytes at 0x1000, palettes of two. -/
def levelRegs (w h n size : Nat) : Regs :=
  { Regs.reset with
    srcBase := 0x1000, srcLen := BitVec.ofNat 32 n, wb := BitVec.ofNat 11 w, hb := BitVec.ofNat 11 h, faces := 1,
    numCE := 2, numCS := 2, numAE := 2, numAS := 1, dstSize := BitVec.ofNat 32 size,
    dstBase := { DstBases.reset with base0 := 0x2000 } }

/-- Slots with the one-symbol model wherever a walk reads. -/
def oneSymbolSlots : Slots :=
  { Slots.reset with
    ref := some ⟨[1]⟩, epd0 := some ⟨[1]⟩, epd1 := some ⟨[1]⟩, seld0 := some ⟨[1]⟩, seld1 := some ⟨[1]⟩ }

/-- A level ready to unpack. -/
def level (w h size : Nat) (bs : List Byte) : State :=
  { State.reset with
    regs := levelRegs w h bs.length size
    mem := bytesAt 0x1000 bs
    slots := oneSymbolSlots
    palCE := [0xC0, 0xC1], palCS := [0x50, 0x51], palAE := [0xFFFF, 0x0102], palAS := [1, 2, 3] }

/-- A walk of a class under way at a position of a level of 2 by 2 blocks over the bytes given. -/
def walkingAt (k : FormatClass) (y x : Nat) (bs : List Byte) : State :=
  { level 2 2 64 bs with
    activity := .walking
    br := { base := 0x1000, len := BitVec.ofNat 32 bs.length, bitpos := 0, overrun := false, started := true,
            touched := false }
    walk := { Walker.reset with cls := k, y := y, x := x } }

/-- A receive under way into slot 6, with entries filled and a total. -/
def receiving (cl : List Nat) (total : Nat) : State :=
  { State.reset with activity := .receiving, recv := { target := .aux0, total := total, cl := cl } }

/-! ### Decoding: every row, its word written out from the encoding tables of chapter 30 -/

theorem test_decode_nop : decode (.command 0b00000000000000000000000000000000#32) = .ok .nop := by decide
theorem test_decode_softReset : decode (.command 0b00000001000000000000000000000000#32) = .ok .softReset := by decide
theorem test_decode_brStart : decode (.command 0b00010000000000000000000000000000#32) = .ok .brStart := by decide
theorem test_decode_getBits :
    decode (.command 0b00010001000000000000000000000011#32) = .ok (.getBits 3) := by decide
theorem test_decode_brStop : decode (.command 0b00010010000000000000000000000000#32) = .ok .brStop := by decide
theorem test_decode_build :
    decode (.command 0b00100000000000000000000000000110#32) = .ok (.build .aux0) := by decide
theorem test_decode_clear :
    decode (.command 0b00100001000000000000000000000011#32) = .ok (.clear .seld0) := by decide
theorem test_decode_decode :
    decode (.command 0b00100010000000000000000000000111#32) = .ok (.decode .aux1) := by decide
theorem test_decode_recvModel :
    decode (.command 0b00110000000000000000000000000101#32) = .ok (.recvModel .metaCode) := by decide
theorem test_decode_unpack :
    decode (.command 0b01000000000000000000000000001111#32) = .ok (.unpack 15) := by decide
theorem test_decode_mLen0_to_mLen16 :
    (List.range 17).map (fun k => decode (.metaSymbol k 0)) =
      [.ok .mLen0, .ok .mLen1, .ok .mLen2, .ok .mLen3, .ok .mLen4, .ok .mLen5, .ok .mLen6, .ok .mLen7, .ok .mLen8,
       .ok .mLen9, .ok .mLen10, .ok .mLen11, .ok .mLen12, .ok .mLen13, .ok .mLen14, .ok .mLen15, .ok .mLen16] := by
  decide
theorem test_decode_mZrunS : decode (.metaSymbol 17 0b010) = .ok (.mZrunS 2) := by decide
theorem test_decode_mZrunL : decode (.metaSymbol 18 0b1000001) = .ok (.mZrunL 65) := by decide
theorem test_decode_mRepS : decode (.metaSymbol 19 0b11) = .ok (.mRepS 3) := by decide
theorem test_decode_mRepL : decode (.metaSymbol 20 0b100001) = .ok (.mRepL 33) := by decide
theorem test_decode_references :
    [0b00#2, 0b01#2, 0b10#2, 0b11#2].map (fun c => decode (.refCode c)) =
      [.ok .refNew, .ok .refLeft, .ok .refTop, .ok .refDiag] := by decide

/-- Vectors Y4 to Y6, and codes that are no meta symbol. -/
theorem test_decode_refuses :
    [0x00000001#32, 0x12000001#32, 0x11000040#32, 0x11000100#32, 0x20000008#32, 0x40000010#32].map
        (fun c => decode (.command c)) = List.replicate 6 (.error .reservedBits) ∧
    [0x02000000#32, 0x13000000#32, 0x7F000000#32, 0xFFFFFFFF#32].map (fun c => decode (.command c)) =
        List.replicate 4 (.error .unknownOpcode) ∧
    decode (.metaSymbol 21 0) = .error .badMetaSymbol ∧ decode (.metaSymbol 19 4) = .error .extraTooWide := by
  decide

/-! ### Well-formedness: an ill-formed term for each check, and its neighbour -/

theorem test_wf_getBits : (Instr.getBits 33).wellFormed = false ∧ (Instr.getBits 32).wellFormed = true := by decide
theorem test_wf_recvModel :
    (Instr.recvModel .metaCode).wellFormed = false ∧ (Instr.recvModel .aux0).wellFormed = true := by decide
theorem test_wf_unpack : (Instr.unpack 4).wellFormed = false ∧ (Instr.unpack 3).wellFormed = true := by decide

/-! ### Table words -/

theorem test_table_words :
    decodeTableWord 32 0x22000007 = some (.decode .aux1) ∧ decodeTableWord 8 16 = some .mLen16 ∧
    decodeTableWord 8 (17 * 8 + 2) = some (.mZrunS 2) ∧ decodeTableWord 16 (18 * 128 + 65) = some (.mZrunL 65) ∧
    decodeTableWord 8 (19 * 4 + 3) = some (.mRepS 3) ∧ decodeTableWord 16 (20 * 64 + 33) = some (.mRepL 33) ∧
    decodeTableWord 2 3 = some .refDiag ∧ decodeTableWord 32 0x7F000000 = none := by decide

theorem test_fetch_word_command :
    after (step (State.reset.withFetchWord 32 0x01000000)) (fun t => t.status = 0x00000002) = true := by
  decide +kernel
theorem test_fetch_word_meta :
    after (step (State.reset.withFetchWord 8 (17 * 8 + 2))) (fun t => t.recv.cl = [1, 0, 0, 0, 0, 0]) = true := by
  decide +kernel
theorem test_fetch_word_reference :
    after (step (State.reset.withFetchWord 2 3)) (fun t => t.ending = .raised .reservedRefCode) = true := by
  decide +kernel

/-! ### Commands -/

/-- Vectors Y1, Y2. -/
theorem test_nop : after (command 0x00000000 State.reset) (fun t => t.status = 0x00000002) = true := by decide +kernel
theorem test_nop_after_error :
    after (command 0x00000000 { State.reset with ending := .raised .staleTop, anyErr := true })
      (fun t => t.status = 0x00000082) = true := by decide +kernel
/-- Vector Y3. -/
theorem test_softReset :
    after (command 0x01000000 { level 2 2 32 [0] with anyErr := true, result := 5 })
      (fun t => t.status = 0x00000002 && t.slot .ref = none && t.regs.wb = 0 && t.result = 0) = true := by
  decide +kernel
/-- Vector Y6. -/
theorem test_illegal_word :
    after (command 0x7F000000 State.reset) (fun t => t.status = 0x000020D4 && t.errinfo = 0) = true := by
  decide +kernel
/-- The example of rule R156, and vector BR-8. -/
theorem test_brStart :
    after (command 0x10000000 { State.reset with regs := { Regs.reset with srcBase := 0x1000, srcLen := 2 } })
      (fun t => t.br.base = 0x1000 && t.br.len = 2 && t.br.bitpos = 0 && t.status = 0x00000002) = true := by
  decide +kernel
theorem test_brStart_range :
    after (command 0x10000000 { State.reset with regs := { Regs.reset with srcBase := 0xFFFFFFFF, srcLen := 2 } })
      (fun t => t.status = 0x00002AD4 && !t.br.started) = true := by decide +kernel
/-- Vector BR-2, second read, and BR-6. -/
theorem test_getBits :
    after (command 0x11000020 ((reading [0x12, 0x34, 0x56, 0x78, 0x9A]).consume 4))
      (fun t => t.result = 0x23456789 && t.br.bitpos = 36 && t.status = 0x00000002) = true := by decide +kernel
theorem test_getBits_33 :
    after (command 0x11000021 (reading [0xFF])) (fun t => t.status = 0x000021D4 && t.br.bitpos = 0) = true := by
  decide +kernel
/-- Vector BR-7 at positions 9 and 40. -/
theorem test_brStop :
    after (command 0x12000000 ((reading [0, 0, 0, 0]).consume 9)) (fun t => t.result = 2) = true := by decide +kernel
theorem test_brStop_after_overrun :
    after (command 0x12000000 ((reading [0, 0, 0, 0]).consume 40))
      (fun t => t.result = 4 && t.status = 0x0000000A) = true := by decide +kernel

/-- `CLV` of the vector `[2, 1, 3, 3]`. -/
def withVector : State :=
  { State.reset with clv := [(0, 2), (1, 1), (2, 3), (3, 3)], regs := { Regs.reset with clvN := 4 } }

/-- Vector H1. -/
theorem test_build :
    after (command 0x20000006 withVector) (fun t => t.result = 4 && t.slot .aux0 = some ⟨[2, 1, 3, 3]⟩) = true := by
  decide +kernel
/-- Rule R181, check 1. -/
theorem test_build_empty :
    after (command 0x20000006 { withVector with regs := Regs.reset })
      (fun t => t.status = 0x000001C4 && t.slot .aux0 = none && t.errinfo = 0x0C000000) = true := by decide +kernel
/-- Vector H1's table fields. -/
theorem test_build_tables :
    let m : Model := ⟨[2, 1, 3, 3]⟩
    m.sorted = [1, 0, 2, 3] ∧ [1, 2, 3].map m.maxCode = [0x8000, 0xC000, 0x10000] ∧
    [1, 2, 3].map m.valPtr = [0, -1, -4] ∧ m.tableBits {} = 3 ∧ m.decodeStart {} = 17 ∧
    (List.range 8).map (m.lookup {}) =
      [some (1, 1), some (1, 1), some (1, 1), some (1, 1), some (0, 2), some (0, 2), some (2, 3), some (3, 3)] := by
  decide +kernel
/-- The example of rule R194. -/
theorem test_clear :
    after (command 0x21000003 { State.reset with slots := oneSymbolSlots })
      (fun t => t.slot .seld0 = none && t.slot .ref = some ⟨[1]⟩) = true := by decide +kernel

/-- Model H1 in slot 6 over the bytes of vector D1, at bit 3. -/
def decoding : State :=
  { (reading [0x5B, 0x80]).consume 3 with slots := { Slots.reset with aux0 := some ⟨[2, 1, 3, 3]⟩ } }

/-- Vector D1, third decode, and D4. -/
theorem test_decode_symbol :
    after (command 0x22000006 decoding) (fun t => t.result = 2 && t.br.bitpos = 6) = true := by decide +kernel
theorem test_decode_empty :
    after (command 0x22000000 State.reset) (fun t => t.status = 0x000001C4 && t.br.bitpos = 0) = true := by
  decide +kernel
/-- Vectors H2 (third decode) and H3 (tail search), both ways of decoding. -/
theorem test_decode_bits :
    (Model.decodeBits ⟨[16, 16]⟩ 2) = .error .noCode ∧ Model.decodeBitsFast ⟨[16, 16]⟩ {} 1 = .ok (1, 16) ∧
    Model.decodeBitsFast ⟨[1, 2, 3, 4, 5, 6, 7, 8, 9, 10, 11, 12, 12]⟩ {} 0xFFEF = .ok (11, 12) := by decide +kernel

/-- Vector M1: the stream of rule R247. -/
def sent : State :=
  reading [0x00, 0xEB, 0xDB, 0x6D, 0x80, 0x00, 0x01, 0x06, 0x70, 0x28, 0x07, 0x88, 0x90]

theorem test_recvModel :
    after (command 0x30000006 sent) (fun t => t.result = 29 && t.br.bitpos = 101 && t.slot .aux0 =
      some ⟨[4, 4, 4, 4, 4, 4, 4, 4, 0, 0, 0, 0, 0, 0, 0, 0, 0, 0, 0, 3, 3, 3, 3, 0, 0, 0, 0, 0, 0]⟩) = true := by
  decide +kernel
/-- Rule R243: slot 5 is refused. -/
theorem test_recvModel_slot5 :
    after (command 0x30000005 sent) (fun t => t.status = 0x000022D4 && t.br.bitpos = 0) = true := by decide +kernel

/-- Program P1's shape (2 by 2 blocks, 9 bits), and vector A10. -/
theorem test_unpack :
    after (command 0x40000000 (level 2 2 32 [0, 0])) (fun t => t.result = 4 && t.br.bitpos = 9 &&
      t.status = 0x00000002 && bytesFrom t.mem 0x2018 9 =
        [some 0xC0, some 0, some 0, some 0, some 0x50, some 0, some 0, some 0, none]) = true := by decide +kernel
theorem test_unpack_class4 :
    after (command 0x40000004 (level 0 2 32 [0, 0])) (fun t => t.status = 0x000030B4 && t.result = 0) = true := by
  decide +kernel

/-! ### Meta symbols: rules R236 to R241 -/

theorem test_mLen :
    [Instr.mLen0, .mLen1, .mLen2, .mLen3, .mLen4, .mLen5, .mLen6, .mLen7, .mLen8, .mLen9, .mLen10, .mLen11, .mLen12,
      .mLen13, .mLen14, .mLen15, .mLen16].map
        (fun i => after (exec i (receiving [7] 9)) (fun t => t.recv.cl.length = 2 && t.recv.cl.head? = some 7)) =
      List.replicate 17 true ∧
    after (exec .mLen16 (receiving [7] 9)) (fun t => t.recv.cl = [7, 16]) = true := by decide +kernel
/-- The example of rule R237, and its overshoot by one. -/
theorem test_mZrunS :
    after (exec (.mZrunS 2) (receiving (List.replicate 23 1) 29)) (fun t => t.recv.ofs = 28) = true := by
  decide +kernel
theorem test_mZrunS_overshoot :
    after (exec (.mZrunS 2) (receiving (List.replicate 25 1) 29))
      (fun t => t.status = 0x000008C4 && t.errinfo = 0x0A000000) = true := by decide +kernel
theorem test_mZrunL :
    after (exec (.mZrunL 0) (receiving (List.replicate 8 1) 19)) (fun t => t.recv.cl.drop 8 = List.replicate 11 0) =
      true := by decide +kernel
theorem test_mRepS :
    after (exec (.mRepS 0) (receiving [4, 3] 5)) (fun t => t.recv.cl = [4, 3, 3, 3, 3]) = true := by decide +kernel
/-- Rule R239: the previous-length check comes first. -/
theorem test_mRepS_no_previous :
    after (exec (.mRepS 3) (receiving [4, 0] 3)) (fun t => t.ending = .raised .repeatNoPrev) = true := by
  decide +kernel
theorem test_mRepL :
    after (exec (.mRepL 0) (receiving [4] 29)) (fun t => t.recv.cl = List.replicate 8 4) = true := by decide +kernel
theorem test_mRepL_overshoot :
    after (exec (.mRepL 63) (receiving [4] 70)) (fun t => t.ending = .raised .runOvershoot) = true := by
  decide +kernel

/-! ### Endpoint-reference codes: rules R271 to R274 -/

/-- Vector W5, first delta: 3 modulo a palette of 2. -/
theorem test_refNew :
    after (exec .refNew { walkingAt .c 0 0 [0xC0] with
        slots := { oneSymbolSlots with epd0 := some ⟨[2, 2, 2, 2]⟩ } })
      (fun t => t.walk.colorEndpointIndex = 1 && t.br.bitpos = 2 && (bufEntry t.blockBuf 0).valid &&
        (bufEntry t.blockBuf 0).colorEndpointIndex = 1) = true := by decide +kernel
/-- Class `AA`: two deltas from slot 2, alpha-0 first. -/
theorem test_refNew_two_deltas :
    after (exec .refNew { walkingAt .aa 0 0 [0x40] with
        slots := { oneSymbolSlots with epd1 := some ⟨[1, 1]⟩ } })
      (fun t => t.walk.alpha0EndpointIndex = 0 && t.walk.alpha1EndpointIndex = 1 && t.br.bitpos = 2) = true := by
  decide +kernel
/-- The example of rule R272. -/
theorem test_refLeft :
    after (exec .refLeft { walkingAt .a 0 1 [] with
        walk := { Walker.reset with cls := .a, x := 1, alpha0EndpointIndex := 3 } })
      (fun t => (bufEntry t.blockBuf 1).alpha0EndpointIndex = 3 && (bufEntry t.blockBuf 1).valid &&
        t.walk.alpha0EndpointIndex = 3) = true := by decide +kernel
/-- The example of rule R273, and vector W1. -/
theorem test_refTop :
    after (exec .refTop { walkingAt .a 1 1 [] with blockBuf := [(1, ⟨0, 9, 3, 9, true⟩)] })
      (fun t => t.walk.alpha0EndpointIndex = 3 && t.walk.colorEndpointIndex = 0) = true := by decide +kernel
theorem test_refTop_stale :
    after (exec .refTop (walkingAt .c 0 1 [])) (fun t => t.status = 0x00000CC4 && t.errinfo = 1) = true := by
  decide +kernel
/-- Vector W4's position. -/
theorem test_refDiag :
    after (exec .refDiag { walkingAt .c 1 0 [] with walk := { Walker.reset with y := 1, blocksWritten := 2 } })
      (fun t => t.status = 0x00000BC4 && t.errinfo = 0x00000800 && t.result = 2) = true := by decide +kernel

/-! ### The host's side -/

theorem test_register_write :
    after (step { State.reset with inputs := [.write 4 0x020 0xFFFFFFFF] })
      (fun t => t.readReg 0x020 = 0x3FFF && t.readReg 0x024 = 0) = true := by decide +kernel
theorem test_clv_write :
    after (step { State.reset with inputs := [.write 4 0x10008 0xFF] })
      (fun t => t.clv = [(2, 31)] && t.readReg 0x10008 = 31) = true := by decide +kernel
theorem test_hard_reset :
    after (step { walkingAt .c 0 0 [1] with inputs := [.hardReset] })
      (fun t => t.activity = .idle && t.slot .ref = none && t.mem = [(0x1000, 1)]) = true := by decide +kernel

/-- Rule R380: a reset after three words of an `UNPACK` from reset on leaves the first block and the first word of the second. -/
theorem test_reset_during_unpack :
    after (step { level 2 2 32 [0, 0] with inputs := [.resetDuring 0x40000000 3] }) (fun t =>
      t.activity = .idle && t.ending = .pending && t.slot .ref = none &&
      bytesFrom t.mem 0x2000 14 = [some 0xC0, some 0, some 0, some 0, some 0x50, some 0, some 0, some 0,
        some 0xC0, some 0, some 0, some 0, none, none]) = true := by decide +kernel

/-- Rules R386, R389, R390: a destination over a palette in memory, a palette over a hole and past the last address, a
destination over the registers, a `NUM_*` that is not the length. -/
theorem test_host_duties :
    (level 2 2 32 [0, 0]).hostDuties = none ∧
    State.hostDuties { level 2 2 32 [0, 0] with palPlaces := { PalettePlaces.reset with cs := some 0x201C } } =
      some .overlappingRanges ∧
    State.hostDuties { level 2 2 32 [0, 0] with palPlaces := { PalettePlaces.reset with cs := some 0x2020 } } = none ∧
    State.hostDuties { level 2 2 32 [0, 0] with
      palPlaces := { PalettePlaces.reset with cs := some 0x3000 }, holes := [(0x3007, 1)] } = some .paletteNotBacked ∧
    State.hostDuties { level 2 2 32 [0, 0] with
      palPlaces := { PalettePlaces.reset with cs := some 0x3000 }, holes := [(0x3008, 1)] } = none ∧
    State.hostDuties { level 2 2 32 [0, 0] with palPlaces := { PalettePlaces.reset with as := some 0xFFFFFFFB } } =
      some .paletteNotBacked ∧
    State.hostDuties { level 2 2 32 [0, 0] with registerBase := some 0 } = some .overlappingRanges ∧
    State.hostDuties { level 2 2 32 [0, 0] with palCE := [0] } = some .paletteMismatch ∧
    State.hostDuties { level 2 2 32 [0, 0] with palAS := [] } = some .paletteMismatch := by decide +kernel

/-! ### Witnesses: for each statement with hypotheses a state and operands that meet them together -/

/-- An idle block whose host does these things next. -/
def pending (acts : List HostAction) : State := { reading [0xA5, 0x3C] with inputs := acts }

theorem readable_reading_two : (reading [0xA5, 0x3C]).rangeReadable := ⟨rfl, by decide +kernel⟩

theorem streamHolds_of_all {s : State} {bits : List Bool}
    (h : ∀ j < bits.length, s.streamBit (s.br.bitpos + j) = .ok (bits.getD j false)) : s.streamHolds bits := by
  intro j b hb
  obtain ⟨hj, rfl⟩ := List.getElem?_eq_some_iff.1 hb
  rw [h j hj, List.getD_eq_getElem _ _ hj]

theorem slotsBuilt_of_all {s : State}
    (h : ([SlotId.ref, .epd0, .epd1, .seld0, .seld1, .metaCode, .aux0, .aux1].all fun k =>
      match s.slot k with
      | none => true
      | some m => decide (buildModel m.cl = .ok m)) = true) : s.slotsBuilt := by
  intro k m hk
  have hm : k ∈ [SlotId.ref, .epd0, .epd1, .seld0, .seld1, .metaCode, .aux0, .aux1] := by cases k <;> decide
  have := List.all_eq_true.1 h k hm
  simpa [hk] using this

theorem witness_DecodedCodesAreEncodings : decode (.command 0x11000020#32) = .ok (.getBits 32) := by decide

theorem witness_StepRunsTheDecodedCommand :
    (pending [.write 4 offCmd 0x11000003]).commandPending 0x11000003 [] ∧
    decode (.command 0x11000003#32) = .ok (.getBits 3) := ⟨⟨rfl, rfl⟩, by decide⟩

/-- A receive under way whose next symbol is `M_REP_S` with extra bits `11`. -/
def metaNext : State := State.reset.placeMeta 19 3

theorem witness_StepRunsTheFetchedMetaSymbol :
    metaNext.activity = .receiving ∧ metaNext.inputs.head? ≠ some .hardReset ∧
    metaNext.recv.cl.length < metaNext.recv.total ∧ metaNext.decodeSymbol .metaCode = .ok 19 (metaNext.consume 1) ∧
    (metaNext.consume 1).getBits (metaExtraBits 19) = .ok 3 ((metaNext.consume 1).consume 2) ∧
    decode (.metaSymbol 19 3) = .ok (.mRepS 3) := by decide +kernel

/-- An `EMPTY` slot 5; the incomplete meta code of vector M13 at its bad codeword `11`; meta symbol 21; a source byte that
nothing has written, under the codeword and under the extra bits behind it. -/
theorem witness_StepRunsTheFetchedMetaSymbol_fails :
    (let s := receiving [1] 9
     s.activity = .receiving ∧ s.inputs.head? ≠ some .hardReset ∧ s.recv.cl.length < s.recv.total ∧
       s.decodeSymbol .metaCode = .err .emptyModel 5 s) ∧
    (let s := { metaNext with
       slots := { Slots.reset with metaCode := some ⟨[2, 2] ++ List.replicate 19 0⟩ }, mem := [(0, 0xC0)] }
     s.decodeSymbol .metaCode = .err .noCode 5 s) ∧
    (let s := { metaNext with
       slots := { Slots.reset with metaCode := some ⟨List.replicate 21 0 ++ [1]⟩ }, mem := [(0, 0)] }
     s.decodeSymbol .metaCode = .ok 21 (s.consume 1)) ∧
    State.decodeSymbol { metaNext with mem := [] } .metaCode = .refused .sourceNotBacked ∧
    (let s := { metaNext with
       slots := { Slots.reset with metaCode := some ⟨(List.replicate 21 0).set 18 12⟩ }
       br := { metaNext.br with len := 3 }, mem := [(0, 0), (1, 0)] }
     s.decodeSymbol .metaCode = .ok 18 (s.consume 12) ∧
       (s.consume 12).getBits (metaExtraBits 18) = .refused .sourceNotBacked) := by decide +kernel

theorem witness_StepRunsTheFetchedReferenceCode_even :
    (walkingAt .c 0 0 [0]).activity = .walking ∧ (walkingAt .c 0 0 [0]).inputs.head? ≠ some .hardReset ∧
    (walkingAt .c 0 0 [0]).walk.y % 2 = 0 ∧ (walkingAt .c 0 0 [0]).walk.x % 2 = 0 ∧
    (walkingAt .c 0 0 [0]).decodeSymbol .ref = .ok 0 ((walkingAt .c 0 0 [0]).consume 1) ∧
    decode (.refCode ((BitVec.ofNat 8 0).extractLsb' 0 2)) = .ok .refNew := by decide +kernel

/-- At an even place: an `EMPTY` reference model, a reference symbol of 256, a source byte that nothing has written. -/
theorem witness_StepRunsTheFetchedReferenceCode_fails :
    (let s := { walkingAt .c 0 0 [] with slots := Slots.reset }
     s.decodeSymbol .ref = .err .emptyModel 0 s) ∧
    (let s := { walkingAt .c 0 0 [0] with slots := { Slots.reset with ref := some ⟨List.replicate 256 0 ++ [1]⟩ } }
     s.decodeSymbol .ref = .ok 256 (s.consume 1)) ∧
    State.decodeSymbol { walkingAt .c 0 0 [0] with mem := [] } .ref = .refused .sourceNotBacked := by decide +kernel

/-- A walk at an odd column of an even row, with a reference byte read before. -/
def oddColumn : State :=
  { walkingAt .c 0 1 [0] with walk := { Walker.reset with x := 1, referenceGroup := 0xD0 } }

theorem witness_StepRunsTheFetchedReferenceCode_odd_column :
    oddColumn.walk.y % 2 = 0 ∧ oddColumn.walk.x % 2 = 1 ∧
    decode (.refCode (oddColumn.walk.referenceGroup.extractLsb' 4 2)) = .ok .refLeft := by decide

theorem witness_StepRunsTheFetchedReferenceCode_odd_row :
    (walkingAt .c 1 0 [0]).walk.y % 2 = 1 ∧
    decode (.refCode ((bufEntry (walkingAt .c 1 0 [0]).blockBuf 0).endpointReference.extractLsb' 0 2)) =
      .ok .refNew := by decide

theorem witness_IllegalCommandWordRaisesBadOpcode :
    (pending [.write 4 offCmd 0x12000001]).commandPending 0x12000001 [] ∧
    (∀ row ∈ commandRows, 0x12000001#32 &&& row.1 ≠ row.2) ∧
    (pending [.write 4 offCmd 0x12000001]).br.overrun = false := ⟨⟨rfl, rfl⟩, by simp [commandRows, maskN, maskB, maskS, maskU], rfl⟩

/-- An `RW` register, the first and last entries of `CLV`, a read-only register, an offset past the map. -/
theorem witness_RegisterAccesses_write :
    [0x05C, 0x10000, 0x17FFC].map (fieldMask {}) = [some 0xFFFFFFFF, some 0x1F, some 0x1F] ∧
    [0x004, 0x060, 0x18000].map (fieldMask {}) = [none, none, none] ∧
    (pending [.write 4 0x05C 1]).activity = .idle ∧ (pending [.write 4 0x05C 1]).inputs = [.write 4 0x05C 1] := by
  decide +kernel

theorem witness_RegisterAccesses_read :
    (pending [.read 4 0x004]).activity = .idle ∧ (pending [.read 4 0x004]).inputs = [.read 4 0x004] ∧
    hasRegister {} 0x060 = false ∧ hasRegister {} 0xFFFC = false ∧ hasRegister {} 0x18000 = false := by
  decide +kernel

theorem witness_RegisterAccesses_refused :
    (pending [.write 2 0x018 1]).activity = .idle ∧ (2 ≠ 4 ∨ 0x018 % 4 ≠ 0) ∧
    (pending [.write 2 0x018 1]).inputs = [.write 2 0x018 1] ∧
    (pending [.read 4 0x01A]).inputs = [.read 4 0x01A] ∧ 0x01A % 4 ≠ 0 := by decide

theorem witness_HostActionsOnAnIdleBlock :
    (pending []).activity = .idle ∧ (pending []).inputs = [] ∧
    (pending [.store 0x1001 7]).activity = .idle ∧ (pending [.store 0x1001 7]).inputs = [.store 0x1001 7] ∧
    (pending [.loadPalCE none [1]]).inputs = [.loadPalCE none [1]] ∧
    (pending [.loadPalCS none [1]]).inputs = [.loadPalCS none [1]] ∧
    (pending [.loadPalAE none [1]]).inputs = [.loadPalAE none [1]] ∧
    (pending [.loadPalAS none [1]]).inputs = [.loadPalAS none [1]] ∧
    (pending [.platform [(0, 4)] (some 64)]).inputs = [.platform [(0, 4)] (some 64)] := by decide

theorem witness_ResetValuesAndHardwareReset :
    ({ metaNext with inputs := [.hardReset] } : State).inputs = [.hardReset] ∧ 0x17FFC % 4 = 0 :=
  ⟨rfl, rfl⟩

/-- A reset during a `GET_BITS`, and one during an `UNPACK` that would end with `DONE`. -/
theorem witness_ResetValuesAndHardwareReset_during :
    (pending [.resetDuring 0x11000003 0]).activity = .idle ∧ decode (.command 0x11000003) = .ok (.getBits 3) ∧
    ({ level 2 2 32 [0, 0] with inputs := [.resetDuring 0x40000000 3] } : State).activity = .idle ∧
    decode (.command 0x40000000) = .ok (.unpack 0) ∧ FormatClass.ofCode 0 = some .c ∧
    ∃ u, exec (.unpack 0) (level 2 2 32 [0, 0]) = .next u ∧ decide (u.ending = .done) = true :=
  ⟨rfl, by decide, rfl, by decide, rfl, next_of_after (p := fun u => decide (u.ending = .done)) (by decide +kernel)⟩

theorem witness_SoftResetResult : ∃ t, exec .softReset (level 2 2 32 [0]) = .next t := ⟨_, rfl⟩

theorem witness_NopResult :
    State.status { State.reset with ending := .raised .staleTop, anyErr := true } = 0x00000CC4 ∧
    ∃ t, exec .nop { State.reset with ending := .raised .staleTop, anyErr := true } = .next t := ⟨by decide, _, rfl⟩

theorem witness_RaiseRecordsCauseAndPosition : 5 < 8 ∧ 2047 < 2048 ∧ 0 < 2048 := by decide

theorem witness_StatusAfterEveryCommand_done :
    Instr.brStart.isCommand = true ∧ Instr.brStart ≠ .softReset ∧ ∃ t, exec .brStart State.reset = .next t :=
  ⟨rfl, by decide, _, rfl⟩

theorem witness_StatusAfterEveryCommand_raised :
    ∃ t, exec (.getBits 33) State.reset = .next t ∧ decide (t.ending = .raised .badNbits) = true :=
  next_of_after (p := fun t => decide (t.ending = .raised .badNbits)) (by decide +kernel)

theorem witness_InstructionsRaiseOnlyTheirCauses_command :
    State.reset.slotsBuilt ∧ (State.reset.ending = .pending ∨ (Instr.decode .ref).isCommand = true) ∧
    ∃ t, exec (.decode .ref) State.reset = .next t ∧ decide (t.ending = .raised .emptyModel) = true :=
  ⟨slotsBuilt_of_all (by decide), .inl rfl,
    next_of_after (p := fun t => decide (t.ending = .raised .emptyModel)) (by decide +kernel)⟩

theorem witness_InstructionsRaiseOnlyTheirCauses_stream :
    (walkingAt .c 0 0 []).slotsBuilt ∧ (walkingAt .c 0 0 []).ending = .pending ∧
    ∃ t, exec .refTop (walkingAt .c 0 0 []) = .next t ∧ decide (t.ending = .raised .staleTop) = true :=
  ⟨slotsBuilt_of_all (by decide +kernel), rfl,
    next_of_after (p := fun t => decide (t.ending = .raised .staleTop)) (by decide +kernel)⟩

/-- The last bit of the range, and the first past it. -/
theorem witness_StreamBitsInAndPastTheRange :
    15 / 8 < (reading [0xA5, 0x3C]).br.rangeLen ∧ (reading [0xA5, 0x3C]).rangeReadable ∧
    (reading [0xA5, 0x3C]).br.rangeLen ≤ 16 / 8 := ⟨by decide, readable_reading_two, by decide⟩

theorem witness_UnreadableSourceRefuses :
    0 < (1#6).toNat ∧ (1#6).toNat ≤ 32 ∧
    ({ reading [0xA5] with br := { (reading [0xA5]).br with touched := true } } : State).br.bitpos / 8 <
      ({ reading [0xA5] with br := { (reading [0xA5]).br with touched := true } } : State).br.rangeLen ∧
    (reading [0xA5]).br.touched = false ∧
    Memory.read ({ reading [0xA5] with mem := [] } : State).mem ((reading [0xA5]).br.base.toNat + 0) = none := by
  decide

theorem witness_PeekBitsAndGetBits :
    (∃ f : Nat → Bool, ∀ i, (reading [0xA5, 0x3C]).streamBit i = .ok (f i)) ∧
    (∃ v, (reading [0xA5, 0x3C]).peekBits 32 = .ok v) ∧ (reading [0xA5, 0x3C]).overrunExact :=
  ⟨State.bits_of_readable readable_reading_two, ⟨0xA53C0000, by decide +kernel⟩, by
    simp [State.overrunExact, reading]⟩

theorem witness_BrStartResult :
    (let r := ({ Regs.reset with srcBase := 0xFFFFFFFE, srcLen := 2 } : Regs)
     r.srcBase.toNat + r.srcLen.toNat ≤ 2 ^ 32 ∧ State.inHole State.reset r.srcRange = false ∧
     State.inHole { State.reset with holes := [(0xFFFFFFFF, 1)] } r.srcRange = true) ∧
    (let r := ({ Regs.reset with srcBase := 0xFFFFFFFF, srcLen := 2 } : Regs)
     2 ^ 32 < r.srcBase.toNat + r.srcLen.toNat) := by decide +kernel

theorem witness_GetBitsResult :
    (∃ f : Nat → Bool, ∀ i, (reading [0xA5, 0x3C]).streamBit i = .ok (f i)) ∧ (32#6).toNat ≤ 32 ∧ 32 < (33#6).toNat ∧
    8 * ((reading [0xA5, 0x3C]).consume 16).br.rangeLen ≤ ((reading [0xA5, 0x3C]).consume 16).br.bitpos ∧
    State.reset.br.started = false :=
  ⟨State.bits_of_readable readable_reading_two, by decide, by decide, by decide, rfl⟩

theorem witness_BrStopResult :
    State.reset.br.started = false ∧ ((reading [0xA5]).consume 9).br.started = true ∧
    ((reading [0xA5]).consume 9).overrunExact ∧ ((reading [0xA5]).consume 9).br.overrun = true ∧
    ∃ t, exec .brStop ((reading [0xA5]).consume 9) = .next t :=
  ⟨rfl, rfl, by unfold State.overrunExact; decide, by decide, _, rfl⟩

/-- The datapath of `reading [0xA5, 0x3C]` with the first byte in the register. -/
def oneByteIn : Datapath := ⟨0xA5000000, 8, 0x1001⟩

theorem witness_DatapathSimulatesReader :
    (reading [0xA5, 0x3C]).rangeReadable ∧ oneByteIn.tracks (reading [0xA5, 0x3C]) 0 ∧ 8 ≤ oneByteIn.bitCount := by
  refine ⟨readable_reading_two, ⟨1, rfl, by decide, by decide +kernel, ?_, by decide⟩, by decide⟩
  intro j hj
  by_cases h : j < 32
  · have : ∀ j < 32, 8 ≤ j → oneByteIn.bitBuf.getMsbD j = false := by decide +kernel
    exact this j h hj
  · simp [BitVec.getMsbD, h]

theorem witness_EveryStepKeepsOverrunExact :
    (pending [.write 4 offCmd 0x11000020]).overrunExact ∧
    ∃ t, step (pending [.write 4 offCmd 0x11000020]) = .next t ∧ t.br.overrun = true :=
  ⟨by simp [State.overrunExact, pending, reading], next_of_after (p := fun t => t.br.overrun) (by decide +kernel)⟩

theorem witness_BuildChecksInOrder :
    (([] : List Nat) = []) ∧ ([17, 0] ≠ [] ∧ ∃ l ∈ [17, 0], 16 < l) ∧ ([0, 0] ≠ [] ∧ ∀ l ∈ [0, 0], l = 0) ∧
    ([1, 1, 16] ≠ [] ∧ (∀ l ∈ [1, 1, 16], l ≤ 16) ∧ (∃ l ∈ [1, 1, 16], l ≠ 0) ∧ 2 ^ 16 < kraftSum [1, 1, 16]) ∧
    ([1, 1] ≠ [] ∧ (∀ l ∈ [1, 1], l ≤ 16) ∧ (∃ l ∈ [1, 1], l ≠ 0) ∧ kraftSum [1, 1] ≤ 2 ^ 16) := by decide

theorem witness_OversubscriptionIsKraftAboveOne : ∀ l ∈ (⟨[1, 0, 16]⟩ : Model).cl, l ≤ 16 := by decide

/-- The built model of rule R197: symbol 2, the codeword `110`, leads `0xDC00`; no codeword of `[2, 2]` leads `0xFFFF`. -/
theorem witness_models :
    buildModel [2, 1, 3, 3] = .ok ⟨[2, 1, 3, 3]⟩ ∧ (⟨[2, 1, 3, 3]⟩ : Model).leads 2 0xDC00 ∧
    0 < (⟨[2, 1, 3, 3]⟩ : Model).num 3 ∧ buildModel [2, 2] = .ok ⟨[2, 2]⟩ ∧
    (∀ a, 1 ≤ a → a ≤ 16 → 0 < (⟨[2, 2]⟩ : Model).num a → (⟨[2, 2]⟩ : Model).maxCode a ≤ 0xFFFF) := by
  refine ⟨by decide +kernel, ⟨by decide, by decide, by decide +kernel⟩, by decide, by decide +kernel, ?_⟩
  intro a h1 h2
  have : ∀ a < 17, 1 ≤ a → 0 < (⟨[2, 2]⟩ : Model).num a → (⟨[2, 2]⟩ : Model).maxCode a ≤ 0xFFFF := by decide +kernel
  exact this a (by omega) h1

theorem witness_FastDecodeEqualsReference : decoding.slotsBuilt := slotsBuilt_of_all (by decide +kernel)

theorem witness_DecodeReturnsTheCodedSymbol :
    decoding.slot .aux0 = some ⟨[2, 1, 3, 3]⟩ ∧ buildModel [2, 1, 3, 3] = .ok ⟨[2, 1, 3, 3]⟩ ∧
    2 < (⟨[2, 1, 3, 3]⟩ : Model).alphabet ∧ 0 < (⟨[2, 1, 3, 3]⟩ : Model).lengthOf 2 ∧ decoding.rangeReadable ∧
    decoding.streamHolds ((⟨[2, 1, 3, 3]⟩ : Model).codeword 2) :=
  ⟨rfl, by decide +kernel, by decide, by decide, ⟨rfl, by decide +kernel⟩, streamHolds_of_all (by decide +kernel)⟩

/-- Model H2's shape: no codeword of `[2, 2]` leads the bytes `FF FF`. -/
def noCodeNext : State := { reading [0xFF, 0xFF] with slots := { Slots.reset with aux0 := some ⟨[2, 2]⟩ } }

theorem witness_DecodeErrorsConsumeNothing :
    State.reset.slot .aux0 = none ∧ noCodeNext.slot .aux0 = some ⟨[2, 2]⟩ ∧ buildModel [2, 2] = .ok ⟨[2, 2]⟩ ∧
    noCodeNext.peekBits 16 = .ok 0xFFFF ∧ ∀ v, ¬ (⟨[2, 2]⟩ : Model).leads v 0xFFFF := by
  refine ⟨rfl, rfl, by decide +kernel, by decide +kernel, ?_⟩
  rintro v ⟨hv, h⟩
  have : ∀ v < 2, ¬ (0 < (⟨[2, 2]⟩ : Model).lengthOf v ∧
      0xFFFF / 2 ^ (16 - (⟨[2, 2]⟩ : Model).lengthOf v) = (⟨[2, 2]⟩ : Model).code v) := by decide +kernel
  exact this v hv h

theorem witness_BuildResult :
    2 ^ State.reset.cfg.totalSymsBits - 1 < (8192#14).toNat ∧
    withVector.regs.clvN.toNat ≤ 2 ^ withVector.cfg.totalSymsBits - 1 ∧
    buildModel ((List.range withVector.regs.clvN.toNat).map fun i => (withVector.clvAt i).toNat) =
      .ok ⟨[2, 1, 3, 3]⟩ ∧
    buildModel ((List.range State.reset.regs.clvN.toNat).map fun i => (State.reset.clvAt i).toNat) =
      .error .emptyModel := by decide +kernel

theorem witness_ClearResult : State.reset.slot .seld0 = none := rfl

theorem witness_SlotsChangeOnlyByTheirCommands :
    ({ level 2 2 32 [0] with inputs := [.write 4 offCmd 0x21000000] } : State).activity = .idle ∧
    ∃ t, step { level 2 2 32 [0] with inputs := [.write 4 offCmd 0x21000000] } = .next t ∧
      decide (t.slot .ref ≠ (level 2 2 32 [0]).slot .ref) = true :=
  ⟨rfl, next_of_after (p := fun t => decide (t.slot .ref ≠ (level 2 2 32 [0]).slot .ref)) (by decide +kernel)⟩

/-- A run that fills exactly, a run too long by one, a repeat with and without a length before. -/
theorem witness_RunSymbolsFillOrRaise :
    (receiving [1] 139).recv.cl.length + (127 + 11) ≤ (receiving [1] 139).recv.total ∧
    (receiving [1] 138).recv.total < (receiving [1] 138).recv.cl.length + (127 + 11) ∧
    (receiving [] 9).recv.cl = [] ∧ (receiving [4, 0] 9).recv.cl.getLast? = some 0 ∧
    (receiving [4] 71).recv.cl.getLast? = some 4 ∧ (receiving [4] 71).recv.cl.length + (63 + 7) ≤ 71 ∧
    (receiving [4] 70).recv.total < (receiving [4] 70).recv.cl.length + (63 + 7) := by decide

theorem witness_FillLoopAdvancesWithinTotal :
    metaNext.activity = .receiving ∧ metaNext.recv.cl.length < metaNext.recv.total ∧ (∀ l ∈ metaNext.recv.cl, l ≤ 16) ∧
    ∃ t, innerStep metaNext = .next t ∧ decide (t.recv.cl = [1, 1, 1, 1, 1, 1, 1]) = true :=
  ⟨rfl, by decide, by decide,
    next_of_after (p := fun t => decide (t.recv.cl = [1, 1, 1, 1, 1, 1, 1])) (by decide +kernel)⟩

/-- The model of rule R247: code sizes and meta symbols. -/
def sentSizes : List Nat := [3, 3, 3, 3, 3, 0, 0, 0, 0, 0, 0, 0, 2, 0, 3]
def sentSymbols : List (Nat × Nat) := [(4, 0), (20, 0), (18, 0), (3, 0), (19, 0), (17, 2), (0, 0)]
def sentVector : List Nat :=
  [4, 4, 4, 4, 4, 4, 4, 4, 0, 0, 0, 0, 0, 0, 0, 0, 0, 0, 0, 3, 3, 3, 3, 0, 0, 0, 0, 0, 0]

theorem witness_ReceiveInstallsTheSentModel :
    SlotId.aux0 ≠ .metaCode ∧ sent.rangeReadable ∧ sent.br.overrun = false ∧ 29 < 2 ^ sent.cfg.totalSymsBits ∧
    1 ≤ sentSizes.length ∧ sentSizes.length ≤ 21 ∧ (∀ z ∈ sentSizes, z < 8) ∧
    buildModel (metaVector sentSizes) = .ok ⟨metaVector sentSizes⟩ ∧
    (∀ p ∈ sentSymbols, 0 < (⟨metaVector sentSizes⟩ : Model).lengthOf p.1 ∧ p.2 < 2 ^ metaExtraBits p.1) ∧
    expandSymbols sentSymbols = some sentVector ∧ sentVector.length = 29 ∧ buildModel sentVector = .ok ⟨sentVector⟩ ∧
    sent.streamHolds (modelBits sent.cfg 29 sentSizes sentSymbols) ∧
    sent.br.bitpos + (modelBits sent.cfg 29 sentSizes sentSymbols).length ≤ 8 * sent.br.rangeLen :=
  ⟨by decide, ⟨rfl, by decide +kernel⟩, rfl, by decide, by decide, by decide, by decide, by decide +kernel,
    by decide +kernel, by decide +kernel, rfl, by decide +kernel, streamHolds_of_all (by decide +kernel),
    by decide +kernel⟩

/-- An empty model at the end of the range, and one that is read past it. -/
theorem witness_ReceiveHeaderOutcomes_empty :
    (reading [0, 0]).streamHolds (fieldBits (reading [0, 0]).cfg.totalSymsBits 0) ∧
    (((reading [0, 0]).br.overrun || decide (8 * (reading [0, 0]).br.rangeLen < 0 + 13)) = false) ∧
    (reading [0]).streamHolds (fieldBits (reading [0]).cfg.totalSymsBits 0) ∧
    (((reading [0]).br.overrun || decide (8 * (reading [0]).br.rangeLen < 0 + 13)) = true) :=
  ⟨streamHolds_of_all (by decide +kernel), by decide, streamHolds_of_all (by decide +kernel), by decide⟩

/-- Counts 0, 22 and 31 after an alphabet size of 29. -/
theorem witness_ReceiveHeaderOutcomes_counts :
    29 < 2 ^ (reading []).cfg.totalSymsBits ∧
    (reading [0x00, 0xE8, 0x00]).streamHolds (fieldBits 13 29 ++ fieldBits 5 0) ∧
    (reading [0x00, 0xED, 0x80]).streamHolds (fieldBits 13 29 ++ fieldBits 5 22) ∧
    (reading [0x00, 0xEF, 0xC0]).streamHolds (fieldBits 13 29 ++ fieldBits 5 31) :=
  ⟨by decide, streamHolds_of_all (by decide +kernel), streamHolds_of_all (by decide +kernel),
    streamHolds_of_all (by decide +kernel)⟩

/-- Code sizes that are all 0; a one-symbol meta model (symbol 17) with a run of 3 zero lengths, within the range and past
it. -/
theorem witness_ReceiveHeaderOutcomes_builds :
    (buildModel (metaVector [0]) = .error .badLmax ∧
      (reading [0x00, 0x18, 0x40]).streamHolds (fieldBits 13 3 ++ fieldBits 5 1 ++ [0].flatMap (fieldBits 3))) ∧
    buildModel (metaVector [1]) = .ok ⟨metaVector [1]⟩ ∧
    (∀ p ∈ [(17, 0)], 0 < (⟨metaVector [1]⟩ : Model).lengthOf p.1 ∧ p.2 < 2 ^ metaExtraBits p.1) ∧
    expandSymbols [(17, 0)] = some [0, 0, 0] ∧ buildModel [0, 0, 0] = .error .badLmax ∧
    (reading [0x00, 0x18, 0x48, 0x00]).rangeReadable ∧
    (reading [0x00, 0x18, 0x48, 0x00]).streamHolds (modelBits {} 3 [1] [(17, 0)]) ∧
    (modelBits {} 3 [1] [(17, 0)]).length ≤ 8 * 4 ∧
    (reading [0x00, 0x18, 0x48]).rangeReadable ∧
    (reading [0x00, 0x18, 0x48]).streamHolds (modelBits {} 3 [1] [(17, 0)]) ∧
    8 * 3 < (modelBits {} 3 [1] [(17, 0)]).length :=
  ⟨⟨by decide +kernel, streamHolds_of_all (by decide +kernel)⟩, by decide +kernel, by decide +kernel, by decide +kernel,
    by decide +kernel, ⟨rfl, by decide +kernel⟩, streamHolds_of_all (by decide +kernel), by decide +kernel,
    ⟨rfl, by decide +kernel⟩, streamHolds_of_all (by decide +kernel), by decide +kernel⟩

theorem witness_ReceiveFrame :
    SlotId.aux0 ≠ .metaCode ∧
    (∃ t, exec (.recvModel .aux0) sent = .next t ∧ decide (t.ending = .done) = true) ∧
    ∃ t, exec (.recvModel .aux0) (reading [0]) = .next t ∧ decide (t.ending = .raised .streamOverrun) = true :=
  ⟨by decide, next_of_after (p := fun t => decide (t.ending = .done)) (by decide +kernel),
    next_of_after (p := fun t => decide (t.ending = .raised .streamOverrun)) (by decide +kernel)⟩

/-- One state per check of rule R263 (vectors A2 to A9, W9b), and one that passes all. -/
theorem witness_UnpackChecksArgumentsInOrder :
    FormatClass.ofCode 4 = none ∧ FormatClass.ofCode 0 = some .c ∧
    (let r := levelRegs 2 2 2 32
     [{ r with wb := 0 }, { r with faces := 2 }, { r with wb := 1025 }, { r with rowPitch := 12 },
       { r with dstSize := 31 }, { r with dstBase := DstBases.reset },
       { r with dstBase := { DstBases.reset with base0 := 0x2002 } },
       { r with dstBase := { DstBases.reset with base0 := 0xFFFFFFF0 } }, { r with numCE := 0 }, r].map
         (fun r => (argumentChecks r .c).find? (fun p => p.1)) =
       [some (true, .badGeometry), some (true, .badFaces), some (true, .blockBuffer), some (true, .badPitch),
         some (true, .dstTooSmall), some (true, .nullDst), some (true, .misalignedDst), some (true, .badRange),
         some (true, .zeroPalette), none]) := by decide +kernel

/-- Arguments accepted, and the destination over a palette array at its last bytes; a palette array, the source and the
destination with a hole at their last byte; a palette shorter than its count. -/
theorem witness_UnpackChecksArgumentsInOrder_duties :
    (let s := { level 2 2 32 [0, 0] with palPlaces := { PalettePlaces.reset with cs := some 0x201C } }
     argChecks s.regs 0 = .ok .c ∧ (0x201C, 8) ∈ s.paletteRanges ∧ (s.regs.dstRange 0).1 ≤ 0x201F ∧
       0x201F < (s.regs.dstRange 0).1 + (s.regs.dstRange 0).2) ∧
    (let s := { level 2 2 32 [0, 0] with
       palPlaces := { PalettePlaces.reset with cs := some 0x3000 }, holes := [(0x3007, 1)] }
     argChecks s.regs 0 = .ok .c ∧ (0x3000, 8) ∈ s.paletteRanges ∧ s.inHole (0x3000, 8) = true) ∧
    (let s := { level 2 2 32 [0, 0] with holes := [(0x1001, 1)] }
     argChecks s.regs 0 = .ok .c ∧ s.inHole s.regs.srcRange = true) ∧
    (let s := { level 2 2 32 [0, 0] with holes := [(0x201F, 1)] }
     argChecks s.regs 0 = .ok .c ∧ s.inHole (s.regs.dstRange 0) = true ∧ 0 < s.regs.faces.toNat) ∧
    (let s := { level 2 2 32 [0, 0] with palAS := [] }
     argChecks s.regs 0 = .ok .c ∧ s.palAS.length ≠ 3 * s.regs.numAS.toNat) := by decide +kernel

/-- Program P1's shape meets what a full walk asks. -/
theorem witness_UnpackEndsDoneOrWithAWalkCause :
    argChecks (level 2 2 32 [0, 0]).regs 0 = .ok .c ∧ (level 2 2 32 [0, 0]).hostDuties = none ∧
    (level 2 2 32 [0, 0]).sourceWritten ∧ (level 2 2 32 [0, 0]).slotsBuilt :=
  ⟨by decide +kernel, by decide +kernel, by unfold State.sourceWritten; decide +kernel, slotsBuilt_of_all (by decide +kernel)⟩

theorem witness_UniformLevelUnpacks :
    argChecks (level 2 2 32 [0, 0]).regs 0 = .ok .c ∧ (level 2 2 32 [0, 0]).hostDuties = none ∧
    (level 2 2 32 [0, 0]).slot .ref = some ⟨[1]⟩ ∧
    (∀ ch ∈ FormatClass.c.channels, (level 2 2 32 [0, 0]).slot ch.deltaSlot = some ⟨[1]⟩ ∧
      (level 2 2 32 [0, 0]).slot ch.selectorSlot = some ⟨[1]⟩) ∧
    (∀ j < (level 2 2 32 [0, 0]).regs.srcLen.toNat,
      Memory.read (level 2 2 32 [0, 0]).mem ((level 2 2 32 [0, 0]).regs.srcBase.toNat + j) = some 0) ∧
    (level 2 2 32 [0, 0]).regs.blockCount / 4 + (level 2 2 32 [0, 0]).regs.blockCount * (2 * 1) ≤ 8 * 2 ∧
    State.blockWords { level 2 2 32 [0, 0] with walk := { Walker.reset with cls := .c } } {} = .ok [0xC0, 0x50] :=
  ⟨by decide +kernel, by decide +kernel, rfl, by decide, by decide +kernel, by decide +kernel, by decide +kernel⟩

/-- Serves the statements about a successful `UNPACK`: the words of the visible blocks, the frame, the repetition, and the
truncated level (9 bits used of 2 bytes). -/
theorem witness_successful_unpack :
    FormatClass.ofCode 0 = some .c ∧ (level 2 2 32 [0, 0]).slotsBuilt ∧
    0 < (level 2 2 32 [0, 0]).regs.srcLen.toNat ∧
    ∃ t, exec (.unpack 0) (level 2 2 32 [0, 0]) = .next t ∧
      decide (t.ending = .done ∧ 8 * ((level 2 2 32 [0, 0]).regs.srcLen.toNat - 1) < t.br.bitpos) = true :=
  ⟨rfl, slotsBuilt_of_all (by decide +kernel), by decide,
    next_of_after (p := fun t => decide (t.ending = .done ∧
      8 * ((level 2 2 32 [0, 0]).regs.srcLen.toNat - 1) < t.br.bitpos)) (by decide +kernel)⟩

/-- A failed one (vector W9e), for the frame. -/
theorem witness_UnpackFrame_failed :
    ∃ t, exec (.unpack 0) { level 2 2 32 [0, 0] with slots := Slots.reset } = .next t ∧
      decide (t.ending = .raised .emptyModel) = true :=
  next_of_after (p := fun t => decide (t.ending = .raised .emptyModel)) (by decide +kernel)

/-- Another history before the same `UNPACK`. -/
theorem witness_UnpackIsRepeatable :
    let s := level 2 2 32 [0, 0]
    let s' := { s with errinfo := 7, walk := { Walker.reset with colorEndpointIndex := 9 }, blockBuf := [(0, ⟨1, 2, 3, 4, true⟩)] }
    s'.regs = s.regs ∧ s'.slots = s.slots ∧ s'.mem = s.mem ∧ s'.holes = s.holes ∧ s'.palCE = s.palCE ∧
    s'.palCS = s.palCS ∧ s'.palAE = s.palAE ∧ s'.palAS = s.palAS ∧ s'.palPlaces = s.palPlaces ∧
    s'.registerBase = s.registerBase ∧ s'.cfg = s.cfg ∧ s' ≠ s := by decide +kernel

theorem witness_WalkInvariantHolds :
    (walkingAt .c 0 0 [0]).activity = .walking ∧ (walkingAt .c 0 0 [0]).WalkInv ∧
    ∃ t, innerStep (walkingAt .c 0 0 [0]) = .next t ∧ decide (t.activity = .walking) = true :=
  ⟨rfl, ⟨by decide, by decide, by decide, by decide⟩,
    next_of_after (p := fun t => decide (t.activity = .walking)) (by decide +kernel)⟩

/-- The last block of the walk, with three visible blocks written. -/
def lastBlock : State :=
  { walkingAt .c 1 1 [0] with walk := { Walker.reset with y := 1, x := 1, blocksWritten := 3 } }

theorem witness_WalkInvariantHolds_last :
    lastBlock.activity = .walking ∧ lastBlock.WalkInv ∧
    ∃ t, innerStep lastBlock = .next t ∧ decide (t.activity = .idle ∧ t.ending = .done) = true :=
  ⟨rfl, ⟨by decide, by decide, by decide, by decide⟩,
    next_of_after (p := fun t => decide (t.activity = .idle ∧ t.ending = .done)) (by decide +kernel)⟩

/-- One accumulator, two accumulators, a failing second and a failing first `Decode`. -/
theorem witness_RefNewAddsDeltas :
    ((walkingAt .a 0 0 [0]).walk.cls.channels = [.alpha0] ∧
      (walkingAt .a 0 0 [0]).decodeSymbol Channel.alpha0.deltaSlot = .ok 0 ((walkingAt .a 0 0 [0]).consume 1)) ∧
    ((walkingAt .ca 0 0 [0]).walk.cls.channels = [.color, .alpha0] ∧
      (walkingAt .ca 0 0 [0]).decodeSymbol Channel.color.deltaSlot = .ok 0 ((walkingAt .ca 0 0 [0]).consume 1) ∧
      ((walkingAt .ca 0 0 [0]).consume 1).decodeSymbol Channel.alpha0.deltaSlot =
        .ok 0 (((walkingAt .ca 0 0 [0]).consume 1).consume 1)) ∧
    (((walkingAt .ca 0 0 [0x40]).consume 1).decodeSymbol Channel.alpha0.deltaSlot =
        .err .noCode 2 ((walkingAt .ca 0 0 [0x40]).consume 1)) ∧
    (walkingAt .ca 0 0 [0x80]).decodeSymbol Channel.color.deltaSlot =
      .err .noCode 1 (walkingAt .ca 0 0 [0x80]) := by decide +kernel

theorem witness_RefLeftStoresAndRefTopLoads :
    (bufEntry ({ walkingAt .c 1 0 [0] with blockBuf := [(0, ⟨0, 1, 0, 0, true⟩)] } : State).blockBuf 0).valid = true ∧
    (bufEntry (walkingAt .c 0 0 [0]).blockBuf 0).valid = false := by decide

/-- Selectors out of range (first, second), in range with and without overrun, visible and padded. -/
theorem witness_RestOfBlockChecksThenWrites_range :
    (let s := { walkingAt .c 0 0 [0xC0] with slots := { oneSymbolSlots with seld0 := some ⟨[2, 2, 2, 2]⟩ } }
     s.walk.cls.channels = [.color] ∧ s.decodeSymbol Channel.color.selectorSlot = .ok 3 (s.consume 2) ∧
       s.regs.selectorCount .color ≤ 3) ∧
    (let s := { walkingAt .ca 0 0 [0x40] with slots := { oneSymbolSlots with seld1 := some ⟨[1, 1]⟩ } }
     s.walk.cls.channels = [.color, .alpha0] ∧ s.decodeSymbol Channel.color.selectorSlot = .ok 0 (s.consume 1) ∧
       0 < s.regs.selectorCount .color ∧
       (s.consume 1).decodeSymbol Channel.alpha0.selectorSlot = .ok 1 ((s.consume 1).consume 1) ∧
       s.regs.selectorCount .alpha0 ≤ 1) := by decide +kernel

/-- An `EMPTY` first selector model, and a second one in which no codeword leads. -/
theorem witness_RestOfBlockChecksThenWrites_fails :
    (let s := { walkingAt .c 0 0 [] with slots := Slots.reset }
     s.decodeSymbol Channel.color.selectorSlot = .err .emptyModel 3 s) ∧
    (let s := walkingAt .ca 0 0 [0x40]
     s.decodeSymbol Channel.color.selectorSlot = .ok 0 (s.consume 1) ∧ 0 < s.regs.selectorCount .color ∧
       (s.consume 1).decodeSymbol Channel.alpha0.selectorSlot = .err .noCode 4 (s.consume 1)) := by decide +kernel

theorem witness_RestOfBlockChecksThenWrites_end :
    (let s := walkingAt .c 0 0 []
     s.decodeSymbol Channel.color.selectorSlot = .ok 0 (s.consume 1) ∧ 0 < s.regs.selectorCount .color ∧
       (s.consume 1).br.overrun = true) ∧
    (let s := walkingAt .aa 1 1 [0]
     s.walk.cls.channels = [.alpha0, .alpha1] ∧
       s.decodeSymbol Channel.alpha0.selectorSlot = .ok 0 (s.consume 1) ∧ 0 < s.regs.selectorCount .alpha0 ∧
       (s.consume 1).decodeSymbol Channel.alpha1.selectorSlot = .ok 0 ((s.consume 1).consume 1) ∧
       0 < s.regs.selectorCount .alpha1 ∧ ((s.consume 1).consume 1).br.overrun = false ∧
       s.walk.x < s.regs.wb.toNat ∧ s.walk.y < s.regs.hb.toNat ∧
       ((s.consume 1).consume 1).blockWords {} = .ok [0x0001FFFF, 0x00030002, 0x0001FFFF, 0x00030002] ∧
       State.blockWords { s with palAE := [] } {} = .error .paletteNotBacked) ∧
    (let s := { walkingAt .c 0 1 [0] with regs := levelRegs 1 1 1 8 }
     s.regs.wb.toNat ≤ s.walk.x ∧ (s.consume 1).br.overrun = false) := by decide +kernel

/-- The first block, and the last. -/
theorem witness_WalkFollowsRasterOrder :
    (walkingAt .c 0 0 [0]).walkRank + 1 < (walkingAt .c 0 0 [0]).regs.blockCount ∧
    (walkingAt .c 0 0 [0]).walk.f < (walkingAt .c 0 0 [0]).regs.faces.toNat ∧
    (walkingAt .c 0 0 [0]).walk.y < (walkingAt .c 0 0 [0]).regs.hbp ∧
    (walkingAt .c 0 0 [0]).walk.x < (walkingAt .c 0 0 [0]).regs.wbp ∧
    lastBlock.activity = .walking ∧ lastBlock.walkRank + 1 = lastBlock.regs.blockCount ∧
    lastBlock.walk.y < lastBlock.regs.hbp ∧ lastBlock.walk.x < lastBlock.regs.wbp := by decide

/-- Class `C` without alpha palettes, class `A` without colour palettes. -/
theorem witness_BlockWordsAndByteOrder :
    (let s : State := { walkingAt .c 0 0 [] with palAE := [], palAS := [] }
     s.walk.cls = .c ∧ s.palCE[s.walk.colorEndpointIndex]? = some 0xC0 ∧ s.palCS[0]? = some 0x50) ∧
    (let s : State := { walkingAt .aa 0 0 [] with palCE := [], palCS := [] }
     s.walk.cls = .aa ∧ s.palAE[s.walk.alpha0EndpointIndex]? = some 0xFFFF ∧ s.palAS[3 * 0]? = some 1 ∧
       s.palAS[3 * 0 + 1]? = some 2 ∧ s.palAS[3 * 0 + 2]? = some 3 ∧
       s.palAE[s.walk.alpha1EndpointIndex]? = some 0xFFFF) ∧
    (0x1FFF < 0x2000 ∨ 0x2000 + 4 * [(7 : Word)].length ≤ 0x1FFF) := by decide

/-- The receive's inner state is placed by its header; a walk of one inner step and its start. -/
theorem witness_CommandsAreTheirInnerSteps :
    (∃ h, receiveHeader .aux0 sent.startCommand = .ok () h ∧ after (innerSteps 8 h) (fun t => t.activity = .idle) = true) ∧
    argChecks (level 2 2 32 [0, 0]).regs 0 = .ok .c ∧ (level 2 2 32 [0, 0]).hostDuties = none ∧
    after (innerSteps 4 ((level 2 2 32 [0, 0]).startCommand.clearWritten.startWalk .c))
      (fun t => t.activity = .idle) = true := by
  refine ⟨?_, by decide +kernel, by decide +kernel, by decide +kernel⟩
  have h : (match receiveHeader .aux0 sent.startCommand with
      | .ok _ h => after (innerSteps 8 h) (fun t => t.activity = .idle)
      | .err _ _ _ | .refused _ => false) = true := by decide +kernel
  cases hr : receiveHeader .aux0 sent.startCommand with
  | ok a h' => rw [hr] at h; exact ⟨h', rfl, h⟩
  | err c k s => rw [hr] at h; cases h
  | refused r => rw [hr] at h; cases h

theorem witness_EveryStepKeepsInvariant :
    (pending [.write 4 offCmd 0x11000003]).Inv ∧ ∃ t, step (pending [.write 4 offCmd 0x11000003]) = .next t ∧ (t.result = 5) := by
  refine ⟨⟨⟨by decide, ⟨by decide, by decide⟩, by decide, by decide⟩, by unfold State.addresses32; decide,
    slotsBuilt_of_all (by decide), rfl⟩, ?_⟩
  obtain ⟨t, ht, hp⟩ := next_of_after (r := step (pending [.write 4 offCmd 0x11000003]))
    (p := fun t => decide (t.result = 5)) (by decide +kernel)
  exact ⟨t, ht, of_decide_eq_true hp⟩

theorem witness_InstructionsKeepWhatTheyDoNotWrite :
    Instr.mLen3 ≠ .softReset ∧ (∀ cls, Instr.mLen3 ≠ .unpack cls) ∧ ∃ t, exec .mLen3 (receiving [] 9) = .next t :=
  ⟨by decide, (fun _ h => by cases h), _, rfl⟩

end Sys2Proof.Tests
end

