-- ==== Sys2Proof/Proofs/BlockWords.lean ====
section
/-! O55: the words of a block of each class (rules R302 to R306), and their bytes in memory (rules R86, R301). -/

namespace Sys2Proof.Machine

/-! ### Words read back -/

/-- Words written from an address on stand there little-endian (rules R86, R301). -/
theorem Memory.holdsWords_writeWords (m : Memory) (a : Nat) (ws : List Word) :
    Memory.holdsWords (Memory.writeWords m a ws) a ws := by
  induction ws generalizing m a with
  | nil => intro j w hj; simp at hj
  | cons v ws ih =>
    intro j w hj b hb
    cases j with
    | zero =>
      obtain rfl : v = w := by simpa using hj
      -- the words after the first lie above it, so they leave its bytes alone
      rw [Memory.writeWords, Memory.read_writeWords_outside _ _ _ _ (.inl (by omega)),
        Memory.read_writeWord, if_pos (by omega)]
      congr 3
      omega
    | succ j =>
      have htail := ih (m.writeWord a v) (a + 4) j w (by simpa using hj) b hb
      rwa [show a + 4 + 4 * j + b = a + 4 * (j + 1) + b by omega] at htail

/-! ### Palette reads and the halves of a block -/

theorem paletteRead_eq_ok {w : Nat} {p : List (BitVec w)} {i : Nat} {v : BitVec w} (h : p[i]? = some v) :
    paletteRead p i = .ok v := by
  simp only [paletteRead, h]

/-- The two half-words of an output word, the low one first, are their concatenation (rule R303). -/
theorem pairWord_eq_append (lo hi : BitVec 16) : pairWord lo hi = hi ++ lo := by
  rw [pairWord, BitVec.or_comm, ← BitVec.setWidth_append_eq_shiftLeft_setWidth_or, BitVec.setWidth_eq]

theorem State.colorWords_eq_ok {s : State} {ce cs : Nat} {w0 w1 : Word}
    (he : s.palCE[ce]? = some w0) (hs : s.palCS[cs]? = some w1) : s.colorWords ce cs = .ok [w0, w1] := by
  rw [State.colorWords, paletteRead_eq_ok he, paletteRead_eq_ok hs]
  rfl

theorem State.alphaWords_eq_ok {s : State} {ae sel : Nat} {e s0 s1 s2 : BitVec 16}
    (he : s.palAE[ae]? = some e) (h0 : s.palAS[3 * sel]? = some s0) (h1 : s.palAS[3 * sel + 1]? = some s1)
    (h2 : s.palAS[3 * sel + 2]? = some s2) : s.alphaWords ae sel = .ok [s0 ++ e, s2 ++ s1] := by
  rw [State.alphaWords, paletteRead_eq_ok he, paletteRead_eq_ok h0, paletteRead_eq_ok h1, paletteRead_eq_ok h2,
    ← pairWord_eq_append, ← pairWord_eq_append]
  rfl

/-! ### A block of each class -/

theorem State.blockWords_c {s : State} (q : Selectors) (h : s.walk.cls = .c) :
    s.blockWords q = s.colorWords s.walk.colorEndpointIndex q.cs := by
  simp only [State.blockWords, h]

theorem State.blockWords_a {s : State} (q : Selectors) (h : s.walk.cls = .a) :
    s.blockWords q = s.alphaWords s.walk.alpha0EndpointIndex q.as0 := by
  simp only [State.blockWords, h]

/-- Class `CA`: the alpha half, then the colour half (rule R304). -/
theorem State.blockWords_ca {s : State} {q : Selectors} {lo hi : List Word} (h : s.walk.cls = .ca)
    (hlo : s.alphaWords s.walk.alpha0EndpointIndex q.as0 = .ok lo)
    (hhi : s.colorWords s.walk.colorEndpointIndex q.cs = .ok hi) : s.blockWords q = .ok (lo ++ hi) := by
  simp only [State.blockWords, h, hlo, hhi]
  rfl

/-- Class `AA`: the block of the first alpha channel, then that of the second (rule R306). -/
theorem State.blockWords_aa {s : State} {q : Selectors} {lo hi : List Word} (h : s.walk.cls = .aa)
    (hlo : s.alphaWords s.walk.alpha0EndpointIndex q.as0 = .ok lo)
    (hhi : s.alphaWords s.walk.alpha1EndpointIndex q.as1 = .ok hi) : s.blockWords q = .ok (lo ++ hi) := by
  simp only [State.blockWords, h, hlo, hhi]
  rfl

/-- Settles O55: the words class by class from the halves' words, the bytes by induction on the words written. -/
theorem blockWordsAndByteOrder : Obligations.BlockWordsAndByteOrder := by
  refine ⟨fun s q => ⟨?classC, ?classCA, ?classA, ?classAA⟩, fun m a ws =>
    ⟨Memory.holdsWords_writeWords m a ws, fun b hb => Memory.read_writeWords_outside ws m a b hb⟩⟩
  case classC =>
    rintro w0 w1 hc ⟨he, hs⟩
    rw [State.blockWords_c q hc, State.colorWords_eq_ok he hs]
  case classCA =>
    rintro e s0 s1 s2 w0 w1 hc ⟨hae, h0, h1, h2⟩ ⟨he, hs⟩
    exact State.blockWords_ca hc (State.alphaWords_eq_ok hae h0 h1 h2) (State.colorWords_eq_ok he hs)
  case classA =>
    rintro e s0 s1 s2 hc ⟨hae, h0, h1, h2⟩
    rw [State.blockWords_a q hc, State.alphaWords_eq_ok hae h0 h1 h2]
  case classAA =>
    rintro e s0 s1 s2 g r0 r1 r2 hc ⟨hae, h0, h1, h2⟩ ⟨hag, g0, g1, g2⟩
    exact State.blockWords_aa hc (State.alphaWords_eq_ok hae h0 h1 h2) (State.alphaWords_eq_ok hag g0 g1 g2)

end Sys2Proof.Machine
end

