-- ==== Sys2Proof/Proofs/BitReader.lean ====
section
/-! O17 and O19: the stream's bits (rule R150), `PeekBits` as their weighted sum (rule R151), and `GetBits` read in two parts
(rule R153). -/

namespace Sys2Proof.Machine

/-! ### One stream bit -/

/-- A tested bit, and the shift and mask by which rule R150 writes it. -/
theorem getLsbD_eq_decide_shift_and_one {w : Nat} (b : BitVec (w + 1)) (k : Nat) :
    b.getLsbD k = decide ((b >>> k) &&& 1 = 1) := by
  rw [BitVec.ofNat_eq_ofNat, BitVec.and_one_eq_setWidth_ofBool_getLsbD, BitVec.getLsbD_ushiftRight]
  cases b.getLsbD k <;> simp

/-- Inside an unchanged range, a stream bit is the bit of its byte (rule R150). -/
theorem State.streamBit_of_read {s : State} {i : Nat} {b : BitVec 8} (hi : i / 8 < s.br.rangeLen)
    (ht : s.br.touched = false) (hb : s.mem.read (s.br.base.toNat + i / 8) = some b) :
    s.streamBit i = .ok (b.getLsbD (7 - i % 8)) := by
  simp [State.streamBit, hi, ht, hb]

/-- Past the range a stream bit is 0 (rule R150). -/
theorem State.streamBit_past {s : State} {i : Nat} (hi : s.br.rangeLen ≤ i / 8) : s.streamBit i = .ok false :=
  if_neg (Nat.not_lt.2 hi)

/-- Settles O17: the byte exists because the range is readable; past the range the memory is not asked. -/
theorem streamBitsInAndPastTheRange : Obligations.StreamBitsInAndPastTheRange := by
  refine fun s i => ⟨?inside, fun hi m => State.streamBit_past hi⟩
  case inside =>
    rintro hi ⟨ht, hread⟩
    obtain ⟨b, hb⟩ := Option.ne_none_iff_exists'.1 (hread _ hi)
    exact ⟨b, hb, by rw [State.streamBit_of_read hi ht hb, getLsbD_eq_decide_shift_and_one]⟩

/-! ### The bits from a position -/

@[simp] theorem State.bitsAt_zero (s : State) (pos : Nat) : s.bitsAt pos 0 = .ok 0 := rfl

theorem State.bitsAt_succ (s : State) (pos n : Nat) :
    s.bitsAt pos (n + 1) = (do
      let v ← s.bitsAt pos n
      let b ← s.streamBit (pos + n)
      return 2 * v + b.toNat) := by
  simp only [State.bitsAt]
  cases s.bitsAt pos n with
  | error r => rfl
  | ok v => cases s.streamBit (pos + n) <;> rfl

/-- The bits of two neighbouring stretches, read one after the other. -/
theorem State.bitsAt_add (s : State) (pos m n : Nat) :
    s.bitsAt pos (m + n) = (do
      let hi ← s.bitsAt pos m
      let lo ← s.bitsAt (pos + m) n
      return hi * 2 ^ n + lo) := by
  induction n with
  | zero =>
    cases s.bitsAt pos m with
    | error r => rfl
    | ok hi => exact congrArg Except.ok (by simp)
  | succ n ih =>
    rw [← Nat.add_assoc, State.bitsAt_succ, ih]
    simp only [State.bitsAt_succ, bind_assoc, pure_bind, Nat.add_assoc]
    have weights (hi lo b : Nat) : 2 * (hi * 2 ^ n + lo) + b = hi * 2 ^ (n + 1) + (2 * lo + b) := by ring
    simp only [weights]

/-- Where every stream bit has a value, the number read is the sum of the bits by weight (rule R151). -/
theorem State.bitsAt_eq_sum {s : State} {f : Nat → Bool} (hf : ∀ i, s.streamBit i = .ok (f i)) (pos n : Nat) :
    s.bitsAt pos n = .ok (∑ j ∈ Finset.range n, (f (pos + j)).toNat * 2 ^ (n - 1 - j)) := by
  induction n with
  | zero => rfl
  | succ n ih =>
    have doubled : ∀ j ∈ Finset.range n,
        (f (pos + j)).toNat * 2 ^ (n + 1 - 1 - j) = 2 * ((f (pos + j)).toNat * 2 ^ (n - 1 - j)) := by
      intro j hj
      have hlt : j < n := Finset.mem_range.1 hj
      rw [show n + 1 - 1 - j = n - 1 - j + 1 by omega, Nat.pow_succ]
      ring
    rw [State.bitsAt_succ, ih, hf, Finset.sum_range_succ, Finset.sum_congr rfl doubled, ← Finset.mul_sum]
    exact congrArg Except.ok (by simp)

/-! ### Moving the position -/

@[simp] theorem State.bitsAt_consume (s : State) (m pos n : Nat) : (s.consume m).bitsAt pos n = s.bitsAt pos n := by
  induction n with
  | zero => rfl
  | succ n ih => simp only [State.bitsAt_succ, ih, State.streamBit_consume]

@[simp] theorem State.peekBits_consume (s : State) (m n : Nat) :
    (s.consume m).peekBits n = s.bitsAt (s.br.bitpos + m) n := State.bitsAt_consume ..

/-- Two moves are one move by their sum: `OVERRUN` is sticky and the position only grows (rules R42, R152). -/
theorem State.consume_consume (s : State) (m n : Nat) : (s.consume m).consume n = s.consume (m + n) := by
  have past : 8 * s.br.rangeLen < s.br.bitpos + m → 8 * s.br.rangeLen < s.br.bitpos + (m + n) := by omega
  simp only [State.consume, Reader.rangeLen, Nat.add_assoc, Bool.or_assoc] at past ⊢
  grind

/-- A move by nothing changes nothing where `OVERRUN` is exact (rule R42). -/
theorem State.consume_zero {s : State} (h : s.overrunExact) : s.consume 0 = s := by
  have sticky : (s.br.overrun || decide (8 * s.br.rangeLen < s.br.bitpos)) = s.br.overrun := by
    simpa [Bool.or_eq_left_iff_imp] using h.2
  simp [State.consume, sticky]

/-! ### `GetBits` -/

/-- `PeekBits` of a sum peeks the high part, then the low part behind it (rule R151). -/
theorem State.peekBits_add (s : State) (m n : Nat) :
    s.peekBits (m + n) = (do
      let hi ← s.peekBits m
      let lo ← (s.consume m).peekBits n
      return hi * 2 ^ n + lo) := by
  simp only [State.peekBits_consume]
  exact State.bitsAt_add s s.br.bitpos m n

/-- `GetBits` of a sum reads the high part, then the low part, and stops where either stops (rule R153). -/
theorem State.getBits_add (s : State) (m n : Nat) :
    s.getBits (m + n) = (s.getBits m).andThen fun hi t => (t.getBits n).andThen fun lo u =>
      .ok (hi * 2 ^ n + lo) u := by
  unfold State.getBits
  rw [State.peekBits_add]
  cases s.peekBits m with
  | error r => rfl
  | ok hi =>
    rw [Res.ok_andThen, ← State.consume_consume]
    cases (s.consume m).peekBits n <;> rfl

theorem State.getBits_zero {s : State} (h : s.overrunExact) : s.getBits 0 = .ok 0 s :=
  State.getBits_eq_ok.2 ⟨rfl, (State.consume_zero h).symm⟩

/-- Settles O19: the sum by induction on the width, the split form from the bits of two neighbouring stretches. -/
theorem peekBitsAndGetBits : Obligations.PeekBitsAndGetBits := by
  refine ⟨fun s f n hf _ => ⟨State.bitsAt_eq_sum hf _ n, rfl⟩, fun s => ⟨?peekThenConsume, ?split, State.getBits_zero⟩⟩
  case peekThenConsume => exact fun n v _ hv => State.getBits_eq_ok.2 ⟨hv, rfl⟩
  case split =>
    intro n h17 _
    have hn : n = (n - 16) + 16 := by omega
    calc s.getBits n = s.getBits ((n - 16) + 16) := by rw [← hn]
      _ = _ := State.getBits_add s (n - 16) 16

end Sys2Proof.Machine
end

