-- ==== Sys2Proof/Proofs/SlotChanges.lean ====
section
/-! O35 and O34: which slots the procedures, the instructions and the outside's actions write (rules R194, R198). -/

namespace Sys2Proof.Machine

/-! ### What holds wherever a procedure stops -/

/-- Wherever the procedure stops, at its end or at a `raise`, its state satisfies `P`. -/
def Res.Leaves {α : Type} (P : State → Prop) : Res α → Prop
  | .ok _ t => P t
  | .err _ _ t => P t
  | .refused _ => True

/-- The next state, if there is one, satisfies `P`. -/
def NextIs (P : State → Prop) (o : Result) : Prop := ∀ t, o = .next t → P t

theorem Res.Leaves.andThen {α β : Type} {P Q : State → Prop} {r : Res α} {f : α → State → Res β} (hr : r.Leaves P)
    (herr : ∀ t, P t → Q t) (hf : ∀ a t, P t → (f a t).Leaves Q) : (r.andThen f).Leaves Q := by
  cases r with
  | ok a t => exact hf a t hr
  | err c n t => exact herr t hr
  | refused x => trivial

theorem nextIs_next {P : State → Prop} {t : State} (h : P t) : NextIs P (.next t) := by
  rintro u ⟨⟩
  exact h

theorem nextIs_refused {P : State → Prop} (x : Refusal) : NextIs P (.refused x) := by
  intro t ht
  cases ht

theorem nextIs_fault {P : State → Prop} (x : Fault) : NextIs P (.fault x) := by
  intro t ht
  cases ht

theorem getBits_leaves {P : State → Prop} {s : State} {n : Nat} (h : P (s.consume n)) : (s.getBits n).Leaves P := by
  unfold State.getBits
  cases s.peekBits n with
  | error r => trivial
  | ok v => exact h

theorem decodeSymbol_leaves {P : State → Prop} {s : State} (k : SlotId) (h : P s) (hc : ∀ n, P (s.consume n)) :
    (s.decodeSymbol k).Leaves P := by
  unfold State.decodeSymbol
  rcases s.decodeWith_cases k Model.decodeBits with
    ⟨_, e⟩ | ⟨_, _, _, _, e⟩ | ⟨_, _, _, _, _, _, e⟩ | ⟨_, _, _, _, _, _, e⟩ <;> rw [e]
  case inl | inr.inr.inl => exact h
  case inr.inl => trivial
  case inr.inr.inr => exact hc _

/-! ### A state in which one slot is safe -/

/-- Slot `k` holds `v`, and no receive under way will build into it. -/
def State.Spares (k : SlotId) (v : Option Model) (s : State) : Prop :=
  s.slot k = v ∧ (s.activity = .receiving → s.recv.target ≠ k)

section
variable {k : SlotId} {v : Option Model} {s : State}

namespace State.Spares

theorem of_idle (h : s.activity = .idle) : s.Spares k (s.slot k) := ⟨rfl, by simp [h]⟩

theorem startCommand (h : s.Spares k v) : s.startCommand.Spares k v := h
theorem finishCommand (h : s.Spares k v) : s.finishCommand.Spares k v := ⟨h.1, nofun⟩
theorem raise (h : s.Spares k v) (c : Cause) (n : BitVec 3) (f y x : Nat) : (s.raise c n f y x).Spares k v :=
  ⟨h.1, nofun⟩
theorem raiseAt0 (h : s.Spares k v) (c : Cause) (n : BitVec 3) : (s.raiseAt0 c n).Spares k v := h.raise ..
theorem setResult (h : s.Spares k v) (w : Word) : (s.setResult w).Spares k v := h
theorem raiseInWalk (h : s.Spares k v) (c : Cause) (n : BitVec 3) : (s.raiseInWalk c n).Spares k v :=
  (h.setResult _).raise ..
theorem consume (h : s.Spares k v) (n : Nat) : (s.consume n).Spares k v := h
theorem appendLengths (h : s.Spares k v) (ls : List Nat) : (s.appendLengths ls).Spares k v := h
theorem setEntry (h : s.Spares k v) (e : BufEntry) : (s.setEntry e).Spares k v := h
theorem setAccumulator (h : s.Spares k v) (ch : Channel) (n : Nat) : (s.setAccumulator ch n).Spares k v := h
theorem storeIndex (h : s.Spares k v) (ch : Channel) : (s.storeIndex ch).Spares k v := h.setEntry _
theorem loadIndex (h : s.Spares k v) (ch : Channel) : (s.loadIndex ch).Spares k v := h.setAccumulator ..
theorem markValid (h : s.Spares k v) : s.markValid.Spares k v := h.setEntry _

/-- Writing another slot. -/
theorem setSlot (h : s.Spares k v) {j : SlotId} (hj : j ≠ k) (m : Option Model) : (s.setSlot j m).Spares k v :=
  ⟨by rw [State.slot_setSlot, if_neg hj.symm, h.1], h.2⟩

theorem getBits (h : s.Spares k v) (n : Nat) : (s.getBits n).Leaves (State.Spares k v) := getBits_leaves (h.consume n)

theorem decodeSymbol (h : s.Spares k v) (j : SlotId) : (s.decodeSymbol j).Leaves (State.Spares k v) :=
  decodeSymbol_leaves j h h.consume

theorem installModel (h : s.Spares k v) {j : SlotId} (hj : j ≠ k) (cl : List Nat) :
    (s.installModel j cl).Leaves (State.Spares k v) := by
  rcases s.installModel_cases j cl with ⟨_, e⟩ | ⟨_, _, e⟩ <;> rw [e] <;> exact h.setSlot hj _

end State.Spares

theorem Res.Leaves.andThen_spares {α β : Type} {r : Res α} {f : α → State → Res β}
    (hr : r.Leaves (State.Spares k v)) (hf : ∀ a t, t.Spares k v → (f a t).Leaves (State.Spares k v)) :
    (r.andThen f).Leaves (State.Spares k v) := hr.andThen (fun _ h => h) hf

/-- A command spares what its rule spares: beginning, end and raise touch no slot (rule R324). -/
theorem runCommand_spares {body : State → Res Unit} (h : (body s.startCommand).Leaves (State.Spares k v)) :
    NextIs (State.Spares k v) (runCommand body s) := by
  intro t ht
  rcases runCommand_eq_next.1 ht with ⟨u, hu, rfl⟩ | ⟨c, n, u, hu, rfl⟩ <;> rw [hu] at h
  · exact State.Spares.finishCommand h
  · exact State.Spares.raiseAt0 h c n

theorem endInWalk_spares {α : Type} {r : Res α} {f : α → State → Result} (hr : r.Leaves (State.Spares k v))
    (hf : ∀ a t, t.Spares k v → NextIs (State.Spares k v) (f a t)) :
    NextIs (State.Spares k v) (endInWalk r f) := by
  cases r with
  | ok a t => exact hf a t hr
  | err c n t => exact nextIs_next (State.Spares.raiseInWalk hr c n)
  | refused x => exact nextIs_refused x

/-! ### The instructions of the stream -/

theorem metaZeroRun_spares (h : s.Spares k v) (n : Nat) : NextIs (State.Spares k v) (metaZeroRun n s) := by
  unfold metaZeroRun
  split
  · exact nextIs_next (h.raiseAt0 ..)
  · exact nextIs_next (h.appendLengths _)

theorem metaRepeat_spares (h : s.Spares k v) (n : Nat) : NextIs (State.Spares k v) (metaRepeat n s) := by
  unfold metaRepeat
  split
  · exact nextIs_next (h.raiseAt0 ..)
  · split
    · exact nextIs_next (h.raiseAt0 ..)
    · exact nextIs_next (h.appendLengths _)

theorem newIndices_spares (chs : List Channel) (h : s.Spares k v) : (newIndices chs s).Leaves (State.Spares k v) := by
  induction chs generalizing s with
  | nil => exact h
  | cons ch chs ih =>
    exact (h.decodeSymbol _).andThen_spares fun _ _ ht => ih ((ht.setAccumulator ..).storeIndex ch)

theorem execRefNew_spares (h : s.Spares k v) : NextIs (State.Spares k v) (execRefNew s) :=
  endInWalk_spares (newIndices_spares _ h) fun _ _ ht => nextIs_next ht.markValid

theorem execRefLeft_spares (h : s.Spares k v) : NextIs (State.Spares k v) (execRefLeft s) :=
  nextIs_next (List.foldlRecOn s.walk.cls.channels _ h fun _ ht ch _ => ht.storeIndex ch).markValid

theorem execRefTop_spares (h : s.Spares k v) : NextIs (State.Spares k v) (execRefTop s) := by
  unfold execRefTop
  split
  · exact nextIs_next (List.foldlRecOn s.walk.cls.channels _ h fun _ ht ch _ => ht.loadIndex ch)
  · exact nextIs_next (h.raiseInWalk ..)

/-- No instruction of the stream writes a slot. -/
theorem execStream_spares (i : Instr) (h : s.Spares k v) : NextIs (State.Spares k v) (execStream i s) := by
  cases i with
  | mZrunS e | mZrunL e => exact metaZeroRun_spares h _
  | mRepS e | mRepL e => exact metaRepeat_spares h _
  | refNew => exact execRefNew_spares h
  | refLeft => exact execRefLeft_spares h
  | refTop => exact execRefTop_spares h
  | refDiag => exact nextIs_next (h.raiseInWalk ..)
  | mLen0 | mLen1 | mLen2 | mLen3 | mLen4 | mLen5 | mLen6 | mLen7 | mLen8 | mLen9 | mLen10 | mLen11 | mLen12
  | mLen13 | mLen14 | mLen15 | mLen16 => exact nextIs_next (h.appendLengths _)
  | nop | softReset | brStart | getBits n | brStop | build j | clear j | decode j | recvModel j | unpack cls =>
    exact nextIs_next h

/-! ### The inner steps -/

theorem fetchMeta_spares (h : s.Spares k v) : (fetchMeta s).Leaves (State.Spares k v) := by
  refine (h.decodeSymbol .metaCode).andThen_spares fun symbol t ht => ?_
  split
  · exact ht
  · refine (ht.getBits _).andThen_spares fun extra u hu => ?_
    split <;> exact hu

/-- The completion of a receive writes its target slot alone (rule R242). -/
theorem finishReceive_spares (h : s.Spares k v) (ha : s.activity = .receiving) :
    NextIs (State.Spares k v) (finishReceive s) := by
  unfold finishReceive
  split
  · exact nextIs_next (h.raiseAt0 ..)
  · have built := h.installModel (h.2 ha) s.recv.cl
    cases hr : s.installModel s.recv.target s.recv.cl with
    | ok a t =>
      rw [hr] at built
      exact nextIs_next (State.Spares.setResult built _).finishCommand
    | err c n t =>
      rw [hr] at built
      exact nextIs_next (State.Spares.raiseAt0 built c n)
    | refused r => exact nextIs_refused r

theorem receiveStep_spares (h : s.Spares k v) (ha : s.activity = .receiving) :
    NextIs (State.Spares k v) (receiveStep s) := by
  unfold receiveStep
  split
  · have fetched := fetchMeta_spares h
    cases hr : fetchMeta s with
    | ok i t =>
      rw [hr] at fetched
      exact execStream_spares i fetched
    | err c n t =>
      rw [hr] at fetched
      exact nextIs_next (State.Spares.raiseAt0 fetched c n)
    | refused r => exact nextIs_refused r
  · exact finishReceive_spares h ha

theorem evenRowCode_spares (h : s.Spares k v) : s.evenRowCode.2.Spares k v := by
  unfold State.evenRowCode
  split <;> exact h.setEntry _

theorem readReferenceByte_spares (h : s.Spares k v) : (readReferenceByte s).Leaves (State.Spares k v) := by
  refine (h.decodeSymbol .ref).andThen_spares fun n t ht => ?_
  split <;> exact ht

theorem fetchRef_spares (h : s.Spares k v) : (fetchRef s).Leaves (State.Spares k v) := by
  unfold fetchRef
  split
  · split
    · exact (readReferenceByte_spares h).andThen_spares fun _ _ ht => evenRowCode_spares ht
    · exact evenRowCode_spares h
  · exact h

theorem readSelectors_spares (chs : List Channel) (q : Selectors) (h : s.Spares k v) :
    (readSelectors chs q s).Leaves (State.Spares k v) := by
  induction chs generalizing q s with
  | nil => exact h
  | cons ch chs ih =>
    refine (h.decodeSymbol _).andThen_spares fun n t ht => ?_
    split
    · exact ht
    · exact ih _ ht

theorem advance_spares (h : s.Spares k v) : s.advance.Spares k v := by
  unfold State.advance
  split
  · exact h
  · split
    · exact h
    · split
      · exact h
      · exact (h.setResult _).finishCommand

theorem endBlock_spares (q : Selectors) (h : s.Spares k v) : NextIs (State.Spares k v) (endBlock q s) := by
  unfold endBlock
  split
  · exact nextIs_next (h.raiseInWalk ..)
  · split
    · cases hq : s.emit q with
      | error r => exact nextIs_refused r
      | ok t =>
        obtain ⟨ws, _, rfl⟩ := State.emit_eq_ok.1 hq
        exact nextIs_next (advance_spares h)
    · exact nextIs_next (advance_spares h)

/-- What a block does with its selectors decides what the rest of the block spares. -/
theorem walkStepWith_spares {last : Selectors → State → Result} (h : s.Spares k v)
    (hlast : ∀ q t, t.Spares k v → NextIs (State.Spares k v) (last q t)) :
    NextIs (State.Spares k v) (walkStepWith last s) := by
  refine endInWalk_spares (fetchRef_spares h) fun i t ht => ?_
  have run := execStream_spares i ht
  cases hr : execStream i t with
  | next u =>
    have hu := run u hr
    dsimp only
    unfold afterRefWith
    split
    · exact endInWalk_spares (readSelectors_spares _ _ hu) hlast
    · exact nextIs_next hu
  | fault x => exact nextIs_fault x
  | refused r => exact nextIs_refused r

/-- An inner step keeps a slot safe that the receive under way, if there is one, does not target. -/
theorem innerStep_spares (h : s.Spares k v) : NextIs (State.Spares k v) (innerStep s) := by
  unfold innerStep
  split
  · exact nextIs_next h
  case _ ha => exact receiveStep_spares h ha
  · exact walkStepWith_spares h fun q _ ht => endBlock_spares q ht

theorem innerSteps_spares (n : Nat) (h : s.Spares k v) : NextIs (State.Spares k v) (innerSteps n s) := by
  induction n generalizing s with
  | zero => exact nextIs_next h
  | succ n ih =>
    have one := innerStep_spares h
    unfold innerSteps
    cases hs : innerStep s with
    | next t => exact ih (one t hs)
    | fault x => exact nextIs_fault x
    | refused r => exact nextIs_refused r

theorem runToIdle_spares (n : Nat) (h : s.Spares k v) : NextIs (State.Spares k v) (runToIdle n s) := by
  intro t ht
  obtain ⟨_, m, _, hm⟩ := runToIdle_eq_next ht
  exact innerSteps_spares m h t hm

/-! ### The commands -/

theorem readMetaSizes_spares (order msz : List Nat) (h : s.Spares k v) :
    (readMetaSizes order msz s).Leaves (State.Spares k v) := by
  induction order generalizing msz s with
  | nil => exact h
  | cons symbol order ih => exact (h.getBits _).andThen_spares fun _ _ ht => ih _ ht

/-- The header of a receive writes slot 5 and leaves the target to the completion (rules R232 to R234). -/
theorem receiveMetaModel_spares {target : SlotId} (total : Nat) (h : s.Spares k v) (ht : target ≠ k)
    (hm : SlotId.metaCode ≠ k) : (receiveMetaModel target total s).Leaves (State.Spares k v) := by
  refine (h.getBits _).andThen_spares fun ncodes t h1 => ?_
  split
  · exact h1
  · refine (readMetaSizes_spares _ _ h1).andThen_spares fun msz u h2 => ?_
    exact (h2.installModel hm msz).andThen_spares fun _ w h3 => ⟨h3.1, fun _ => ht⟩

theorem receiveHeader_spares {target : SlotId} (h : s.Spares k v) (ht : target ≠ k) (hm : SlotId.metaCode ≠ k) :
    (receiveHeader target s).Leaves (State.Spares k v) := by
  refine ((h.setSlot ht none).getBits _).andThen_spares fun total t h1 => ?_
  split
  · split
    · exact h1
    · exact (h1.setResult 0).finishCommand
  · exact receiveMetaModel_spares total h1 ht hm

/-- `RECV_MODEL` writes its slot and slot 5 at most (rules R230 to R243). -/
theorem execRecvModel_spares {target : SlotId} (h : s.Spares k v) (ht : target ≠ k) (hm : SlotId.metaCode ≠ k) :
    NextIs (State.Spares k v) (execRecvModel target s) := by
  unfold execRecvModel
  split
  · exact nextIs_next (h.startCommand.raiseAt0 ..)
  · have header := receiveHeader_spares h.startCommand ht hm
    cases hr : receiveHeader target s.startCommand with
    | ok a t =>
      rw [hr] at header
      exact runToIdle_spares _ header
    | err c n t =>
      rw [hr] at header
      exact nextIs_next (State.Spares.raiseAt0 header c n)
    | refused r => exact nextIs_refused r

/-- `UNPACK` writes no slot: its walk begins with no receive under way. -/
theorem execUnpack_spares (cls : BitVec 4) (h : s.Spares k v) : NextIs (State.Spares k v) (execUnpack cls s) := by
  unfold execUnpack
  cases argChecks s.regs cls with
  | error e => exact nextIs_next ⟨h.1, nofun⟩
  | ok cls =>
    cases s.hostDuties with
    | some r => exact nextIs_refused r
    | none => exact runToIdle_spares _ ⟨h.1, nofun⟩

theorem execNop_spares (h : s.Spares k v) : NextIs (State.Spares k v) (execNop s) :=
  runCommand_spares h.startCommand

theorem execBrStop_spares (h : s.Spares k v) : NextIs (State.Spares k v) (execBrStop s) :=
  runCommand_spares (h.startCommand.setResult _)

theorem execClear_spares {j : SlotId} (h : s.Spares k v) (hj : j ≠ k) : NextIs (State.Spares k v) (execClear j s) :=
  runCommand_spares (h.startCommand.setSlot hj none)

theorem execBuild_spares {j : SlotId} (h : s.Spares k v) (hj : j ≠ k) :
    NextIs (State.Spares k v) (execBuild j s) := by
  refine runCommand_spares ?_
  unfold buildBody
  split
  · exact h
  · exact (h.startCommand.installModel hj _).andThen_spares fun _ _ ht => ht.setResult _

theorem execBrStart_spares (h : s.Spares k v) : NextIs (State.Spares k v) (execBrStart s) := by
  refine runCommand_spares ?_
  unfold brStartBody
  split
  · exact h
  · split
    · trivial
    · exact h

theorem execGetBits_spares (n : BitVec 6) (h : s.Spares k v) : NextIs (State.Spares k v) (execGetBits n s) := by
  refine runCommand_spares ?_
  unfold getBitsBody
  split
  · exact h
  · exact (h.startCommand.getBits _).andThen_spares fun _ _ ht => ht.setResult _

theorem execDecode_spares (j : SlotId) (h : s.Spares k v) : NextIs (State.Spares k v) (execDecode j s) :=
  runCommand_spares ((h.startCommand.decodeSymbol j).andThen_spares fun _ _ ht => ht.setResult _)

/-- The instructions that may write slot `k` (rule R198). -/
def MayWriteSlot (k : SlotId) (i : Instr) : Prop :=
  i = .build k ∨ i = .clear k ∨ i = .recvModel k ∨ i = .softReset ∨ (k = .metaCode ∧ ∃ j, i = .recvModel j)

/-- An instruction that rule R198 does not name for the slot spares it. -/
theorem exec_spares {i : Instr} (hi : ¬ MayWriteSlot k i) (h : s.Spares k v) : NextIs (State.Spares k v) (exec i s) := by
  unfold MayWriteSlot at hi
  cases i with
  | nop => exact execNop_spares h
  | softReset => simp at hi
  | brStart => exact execBrStart_spares h
  | getBits n => exact execGetBits_spares n h
  | brStop => exact execBrStop_spares h
  | build j => exact execBuild_spares h (by simpa using hi)
  | clear j => exact execClear_spares h (by simpa using hi)
  | decode j => exact execDecode_spares j h
  | recvModel j =>
    obtain ⟨hj, hk⟩ : j ≠ k ∧ k ≠ .metaCode := by simpa using hi
    exact execRecvModel_spares h hj hk.symm
  | unpack cls => exact execUnpack_spares cls h
  | _ =>
    rw [← execStream_eq_exec rfl]
    exact execStream_spares _ h

/-! ### The outside's actions -/

/-- The actions of the outside that may change slot `k` of an idle block (rule R198). -/
def HostAction.mayWrite (k : SlotId) : HostAction → Prop
  | .hardReset | .resetDuring _ _ => True
  | .write width off c => width = 4 ∧ off = offCmd ∧ ∃ i, decode (.command c) = .ok i ∧ MayWriteSlot k i
  | _ => False

theorem busWrite_spares {width off : Nat} {c : Word} (hi : ¬ (HostAction.write width off c).mayWrite k)
    (h : s.Spares k v) : NextIs (State.Spares k v) (busWrite width off c s) := by
  unfold busWrite
  split
  case isFalse => exact nextIs_refused _
  case isTrue hok =>
    split
    case isFalse => exact nextIs_next (by simpa [State.Spares, State.slot] using h)
    case isTrue hoff =>
      have hwidth : width = 4 := by
        simp only [busAccessOk, Bool.and_eq_true, decide_eq_true_eq] at hok
        exact hok.1
      unfold commandStep
      cases hd : decode (.command c) with
      | ok i => exact exec_spares (fun hw => hi ⟨hwidth, hoff, i, hd, hw⟩) h
      | error e => exact runCommand_spares h

theorem busRead_spares (width off : Nat) (h : s.Spares k v) : NextIs (State.Spares k v) (busRead width off s) := by
  unfold busRead
  split
  · exact nextIs_next h
  · exact nextIs_refused _

theorem hostAction_spares {a : HostAction} (ha : ¬ a.mayWrite k) (h : s.Spares k v) :
    NextIs (State.Spares k v) (hostAction a s) := by
  cases a with
  | write width off c => exact busWrite_spares ha h
  | read width off => exact busRead_spares width off h
  | store | loadPalCE | loadPalCS | loadPalAE | loadPalAS | platform => exact nextIs_next h
  | hardReset | resetDuring => exact absurd trivial ha

end

/-- Settles O35: every action that the rule does not name spares the slot. -/
theorem slotsChangeOnlyByTheirCommands : Obligations.SlotsChangeOnlyByTheirCommands := by
  intro s t k hidle hstep hchanged
  unfold step at hstep
  rw [hidle] at hstep
  cases hin : s.inputs with
  | nil =>
    rw [hin] at hstep
    cases hstep
    exact absurd rfl hchanged
  | cons a rest =>
    rw [hin] at hstep
    have named : a.mayWrite k := by
      by_contra ha
      exact hchanged (hostAction_spares ha (State.Spares.of_idle (s := s.popInput) hidle) t hstep).1
    cases a with
    | write width off c =>
      obtain ⟨rfl, rfl, i, hi, hw⟩ := named
      exact .inr (.inr ⟨c, rest, i, rfl, hi, hw⟩)
    | hardReset => exact .inl rfl
    | resetDuring c n => exact .inr (.inl ⟨c, n, rfl⟩)
    | read | store | loadPalCE | loadPalCS | loadPalAE | loadPalAS | platform => exact named.elim

/-! ### `CLEAR` -/

theorem decodeSymbol_of_empty {s : State} {k : SlotId} (h : s.slot k = none) :
    s.decodeSymbol k = .err .emptyModel k.num s := by
  simp only [State.decodeSymbol, State.decodeWith, h]

/-- `DECODE` of an `EMPTY` slot (rule R214). -/
theorem exec_decode_of_empty {s : State} {k : SlotId} (h : s.slot k = none) :
    exec (.decode k) s = .next (s.startCommand.raiseAt0 .emptyModel k.num) := by
  have empty : s.startCommand.decodeSymbol k = .err .emptyModel k.num s.startCommand := decodeSymbol_of_empty h
  simp only [exec, execDecode, runCommand, empty, Res.err_andThen]

theorem Slots.set_get_self (t : Slots) (k : SlotId) : t.set k (t.get k) = t := by cases k <;> rfl

theorem exec_clear (k : SlotId) (s : State) :
    exec (.clear k) s = .next (s.startCommand.setSlot k none).finishCommand := rfl

/-- Settles O34: the write of an empty slot, with the slot's later `DECODE`. -/
theorem clearResult : Obligations.ClearResult := by
  intro s k
  refine ⟨by cases k <;> decide, _, exec_clear k s, rfl, fun j => State.slot_setSlot s k j none, ?onEmpty, ?later⟩
  case onEmpty =>
    intro h
    have same := Slots.set_get_self s.slots k
    rwa [show s.slots.get k = none from h] at same
  case later => exact ⟨_, exec_decode_of_empty (by simp [State.slot, State.setSlot, State.finishCommand]), rfl⟩

end Sys2Proof.Machine
end

