-- ==== Sys2Proof/Proofs/KraftSum.lean ====
section
/-! O25 and O26: the first codewords in terms of the counts, over-subscription as a Kraft sum above one, and the checks of
`Build` in their order (rules R181 to R184). -/

namespace Sys2Proof.Machine

/-! ### The code lengths, the counts and the first codewords -/

theorem codeLengths_eq_range' : codeLengths = List.range' 1 16 := rfl

/-- The lengths below one, itself, and the lengths above it. -/
theorem codeLengths_split {l : Nat} (h1 : 1 ≤ l) (h16 : l ≤ 16) :
    codeLengths = List.range' 1 (l - 1) ++ l :: List.range' (l + 1) (16 - l) := by
  interval_cases l <;> rfl

theorem mem_codeLengths {l : Nat} : l ∈ codeLengths ↔ 1 ≤ l ∧ l ≤ 16 := by
  rw [codeLengths_eq_range', List.mem_range'_1]
  omega

namespace Model
variable (m : Model)

theorem first_one : m.first 1 = 0 := rfl

/-- The recurrence of rule R183. -/
theorem first_succ {l : Nat} (hl : 1 ≤ l) : m.first (l + 1) = 2 * (m.first l + m.num l) := by
  rw [first, if_neg (by omega), Nat.mul_comm]

/-- The first codeword of a length behind all codewords of that length (rule R184). -/
theorem first_add_num_eq_sum {l : Nat} (hl : 1 ≤ l) :
    m.first l + m.num l = ∑ j ∈ Finset.Icc 1 l, m.num j * 2 ^ (l - j) := by
  induction l, hl using Nat.le_induction with
  | base => simp [first_one]
  | succ l hl ih =>
    have doubled : ∀ j ∈ Finset.Icc 1 l, m.num j * 2 ^ (l + 1 - j) = 2 * (m.num j * 2 ^ (l - j)) := by
      intro j hj
      rw [Nat.succ_sub (Finset.mem_Icc.1 hj).2, Nat.pow_succ]
      ring
    rw [Finset.sum_Icc_succ_top (by omega), Finset.sum_congr rfl doubled, ← Finset.mul_sum, ← ih, first_succ m hl]
    simp

/-- Once the codewords of a length overflow it, those of every longer length do. -/
theorem overflow_of_le {a l : Nat} (ha : 1 ≤ a) (hal : a ≤ l) (h : 2 ^ a < m.first a + m.num a) :
    2 ^ l < m.first l + m.num l := by
  induction l, hal using Nat.le_induction with
  | base => exact h
  | succ l hl ih =>
    rw [first_succ m (ha.trans hl), Nat.pow_succ]
    omega

/-- Where no used length overflows, no length does: the codewords of an unused length are twice those of the length
before. -/
theorem first_add_num_le {l : Nat} (hl : 1 ≤ l)
    (h : ∀ a, 1 ≤ a → a ≤ l → 0 < m.num a → m.first a + m.num a ≤ 2 ^ a) : m.first l + m.num l ≤ 2 ^ l := by
  by_cases used : 0 < m.num l
  · exact h l hl le_rfl used
  · induction l, hl using Nat.le_induction with
    | base =>
      rw [first_one]
      omega
    | succ l hl ih =>
      have before : m.first l + m.num l ≤ 2 ^ l := by
        by_cases hu : 0 < m.num l
        · exact h l hl (by omega) hu
        · exact ih (fun a h1 h2 => h a h1 (by omega)) hu
      rw [first_succ m hl, Nat.pow_succ]
      omega

/-! ### Over-subscription -/

theorem oversubscribed_iff :
    m.oversubscribed = true ↔ ∃ l, 1 ≤ l ∧ l ≤ 16 ∧ 0 < m.num l ∧ 2 ^ l < m.first l + m.num l := by
  simp only [oversubscribed, List.any_eq_true, mem_codeLengths, Bool.and_eq_true, decide_eq_true_eq, and_assoc]

/-- The length 16 shows every overflow. -/
theorem oversubscribed_iff_overflow : m.oversubscribed = true ↔ 2 ^ 16 < m.first 16 + m.num 16 := by
  rw [oversubscribed_iff]
  constructor
  · rintro ⟨l, h1, h16, _, h⟩
    exact m.overflow_of_le h1 h16 h
  · intro h
    by_contra none
    push Not at none
    exact absurd (m.first_add_num_le (by omega) none) (by omega)

end Model

/-- The Kraft sum grouped by length (rule R184). -/
theorem kraftSum_eq_sum {cl : List Nat} (h : ∀ l ∈ cl, l ≤ 16) :
    kraftSum cl = ∑ j ∈ Finset.Icc 1 16, cl.count j * 2 ^ (16 - j) := by
  induction cl with
  | nil => simp [kraftSum]
  | cons a cl ih =>
    have ha : a ≤ 16 := h a List.mem_cons_self
    have head : ∑ j ∈ Finset.Icc 1 16, (if a = j then 1 else 0) * 2 ^ (16 - j) = if a = 0 then 0 else 2 ^ (16 - a) := by
      rcases Nat.eq_zero_or_pos a with rfl | hpos
      · simp
      · simp [ha, Nat.succ_le_of_lt hpos, hpos.ne']
    calc kraftSum (a :: cl)
        = (if a = 0 then 0 else 2 ^ (16 - a)) + kraftSum cl := by simp [kraftSum]
      _ = ∑ j ∈ Finset.Icc 1 16, ((if a = j then 1 else 0) * 2 ^ (16 - j) + cl.count j * 2 ^ (16 - j)) := by
        rw [Finset.sum_add_distrib, head, ih fun l hl => h l (List.mem_cons_of_mem _ hl)]
      _ = _ := Finset.sum_congr rfl fun j _ => by
        rw [List.count_cons, ← Nat.add_mul, Nat.add_comm]
        simp only [beq_iff_eq]

theorem Model.oversubscribed_iff_kraftSum (m : Model) (h : ∀ l ∈ m.cl, l ≤ 16) :
    m.oversubscribed = true ↔ 2 ^ 16 < kraftSum m.cl := by
  rw [m.oversubscribed_iff_overflow, m.first_add_num_eq_sum (by omega), kraftSum_eq_sum h]
  rfl

/-! ### The checks of `Build` -/

section
variable {cl : List Nat}

theorem any_long_iff : (cl.any fun l => decide (maxCodeSize < l)) = true ↔ ∃ l ∈ cl, 16 < l := by
  simp only [List.any_eq_true, decide_eq_true_eq]
  rfl

theorem buildModel_of_long (hne : cl ≠ []) (h : ∃ l ∈ cl, 16 < l) : buildModel cl = .error .badLmax := by
  rw [buildModel, if_neg (by simpa using hne), if_pos (any_long_iff.2 h)]

theorem buildModel_of_zeros (hne : cl ≠ []) (h : ∀ l ∈ cl, l = 0) : buildModel cl = .error .badLmax := by
  have zeros : (cl.all fun l => decide (l = 0)) = true := by simpa using h
  rw [buildModel, if_neg (by simpa using hne), if_pos zeros, ite_self]

/-- Behind the checks on the lengths, over-subscription decides (rule R181). -/
theorem buildModel_of_lengths (hne : cl ≠ []) (h16 : ∀ l ∈ cl, l ≤ 16) (hused : ∃ l ∈ cl, l ≠ 0) :
    buildModel cl = if Model.oversubscribed ⟨cl⟩ then .error .oversubscribed else .ok ⟨cl⟩ := by
  have short : ¬ (cl.any fun l => decide (maxCodeSize < l)) = true := fun long =>
    let ⟨l, hl, hlong⟩ := any_long_iff.1 long
    absurd (h16 l hl) (Nat.not_le.2 hlong)
  have used : ¬ (cl.all fun l => decide (l = 0)) = true := by simpa using hused
  rw [buildModel, if_neg (by simpa using hne), if_neg short, if_neg used]

end

/-- Settles O26: the sum up to a length by induction on the length, the Kraft sum by grouping the vector by length. -/
theorem oversubscriptionIsKraftAboveOne : Obligations.OversubscriptionIsKraftAboveOne := by
  intro m h16
  refine ⟨fun l hl _ => m.first_add_num_eq_sum hl, m.oversubscribed_iff, m.oversubscribed_iff_kraftSum h16, ?_⟩
  intro hne hused hover
  rw [buildModel_of_lengths hne h16 hused, if_pos hover]

/-- Settles O25: each check's condition decides its `if`, the last one by the Kraft sum. -/
theorem buildChecksInOrder : Obligations.BuildChecksInOrder := by
  refine fun cl => ⟨fun h => by rw [h]; rfl, buildModel_of_long, buildModel_of_zeros, ?oversubscribed, ?built⟩
  case oversubscribed =>
    intro hne h16 hused hk
    rw [buildModel_of_lengths hne h16 hused, if_pos ((Model.oversubscribed_iff_kraftSum ⟨cl⟩ h16).2 hk)]
  case built =>
    intro hne h16 hused hk
    rw [buildModel_of_lengths hne h16 hused,
      if_neg fun hover => absurd ((Model.oversubscribed_iff_kraftSum ⟨cl⟩ h16).1 hover) (Nat.not_lt.2 hk)]

end Sys2Proof.Machine
end

