-- ==== Sys2Proof/Proofs/SortedOrder.lean ====
section
/-! O27: the symbols in the order of their lengths, and where each of them stands (rules R183, R185, R186). -/

namespace Sys2Proof.Machine

namespace Model
variable (m : Model)

/-! ### The symbols of one length -/

theorem mem_symbolsOf {l s : Nat} : s ∈ m.symbolsOf l ↔ s < m.alphabet ∧ m.lengthOf s = l := by
  simp [symbolsOf]

/-- In ascending order. -/
theorem symbolsOf_sorted (l : Nat) : (m.symbolsOf l).Pairwise (· < ·) := List.pairwise_lt_range.filter _

/-- As many symbols below `n` have a length as the length stands before place `n` (rules R182, R183). -/
theorem length_filter_range (l : Nat) {n : Nat} (hn : n ≤ m.alphabet) :
    ((List.range n).filter fun i => m.lengthOf i = l).length = (m.cl.take n).count l := by
  induction n with
  | zero => rfl
  | succ n ih =>
    have hlt : n < m.cl.length := hn
    have here : m.lengthOf n = m.cl[n] := List.getD_eq_getElem _ _ hlt
    rw [List.range_succ, List.filter_append, List.length_append, ih (by omega), List.take_add_one,
      List.getElem?_eq_getElem hlt, List.count_append, ← here]
    by_cases h : m.lengthOf n = l <;> simp [h]

theorem length_symbolsOf (l : Nat) : (m.symbolsOf l).length = m.num l := by
  rw [symbolsOf, m.length_filter_range l le_rfl, alphabet, List.take_length, num]

/-- Among the symbols of its length a symbol stands at its rank (rule R183). -/
theorem symbolsOf_rank {s : Nat} (hs : s < m.alphabet) : (m.symbolsOf (m.lengthOf s))[m.rank s]? = some s := by
  obtain ⟨d, hd⟩ : ∃ d, m.alphabet = s + (d + 1) := ⟨m.alphabet - s - 1, by omega⟩
  rw [symbolsOf, hd, List.range_add, List.filter_append, rank, ← m.length_filter_range _ hs.le,
    List.getElem?_append_right le_rfl, Nat.sub_self, List.range_succ_eq_map]
  simp

theorem rank_lt_num {s : Nat} (hs : s < m.alphabet) : m.rank s < m.num (m.lengthOf s) := by
  rw [← m.length_symbolsOf]
  exact (List.getElem?_eq_some_iff.1 (m.symbolsOf_rank hs)).1

/-- The place among the symbols of its length is the rank. -/
theorem rank_of_symbolsOf {l j s : Nat} (h : (m.symbolsOf l)[j]? = some s) :
    s < m.alphabet ∧ m.lengthOf s = l ∧ m.rank s = j := by
  obtain ⟨hs, rfl⟩ := m.mem_symbolsOf.1 (List.mem_of_getElem? h)
  have nodup : (m.symbolsOf (m.lengthOf s)).Nodup := (m.symbolsOf_sorted _).imp fun hab => Nat.ne_of_lt hab
  have hj := (List.getElem?_eq_some_iff.1 h).1
  exact ⟨hs, rfl, ((List.getElem?_inj hj nodup).1 (h.trans (m.symbolsOf_rank hs).symm)).symm⟩

/-! ### All symbols -/

/-- The recurrence of rule R185. -/
theorem base_succ {l : Nat} (hl : 1 ≤ l) : m.base (l + 1) = m.base l + m.num l := by
  rw [base, if_neg (by omega)]

/-- The symbols shorter than `ℓ` fill the places before `base[ℓ]` (rule R185). -/
theorem length_shorter (n : Nat) : ((List.range' 1 n).flatMap m.symbolsOf).length = m.base (n + 1) := by
  induction n with
  | zero => rfl
  | succ n ih =>
    rw [List.range'_concat, List.flatMap_append, List.length_append, ih, m.base_succ (Nat.le_add_left 1 n)]
    simp [length_symbolsOf, Nat.add_comm 1 n]

/-- The symbols of a length stand together from `base[ℓ]` on (rules R185, R186). -/
theorem sorted_base_add {l j : Nat} (h1 : 1 ≤ l) (h16 : l ≤ 16) (hj : j < m.num l) :
    m.sorted[m.base l + j]? = (m.symbolsOf l)[j]? := by
  have before : ((List.range' 1 (l - 1)).flatMap m.symbolsOf).length = m.base l := by
    rw [m.length_shorter, Nat.sub_add_cancel h1]
  rw [sorted, codeLengths_split h1 h16, List.flatMap_append, List.flatMap_cons,
    List.getElem?_append_right (by omega), before, Nat.add_sub_cancel_left,
    List.getElem?_append_left (by rwa [m.length_symbolsOf])]

theorem length_sorted : m.sorted.length = m.totalUsed := by
  simp [sorted, totalUsed, List.length_flatMap, length_symbolsOf]

theorem lengthOf_le (h16 : ∀ l ∈ m.cl, l ≤ 16) (s : Nat) : m.lengthOf s ≤ 16 := by
  by_cases hs : s < m.cl.length
  · rw [lengthOf, List.getD_eq_getElem _ _ hs]
    exact h16 _ (List.getElem_mem hs)
  · rw [lengthOf, List.getD_eq_default _ _ (by omega)]
    omega

theorem mem_sorted (h16 : ∀ l ∈ m.cl, l ≤ 16) {s : Nat} : s ∈ m.sorted ↔ s < m.alphabet ∧ 0 < m.lengthOf s := by
  simp only [sorted, List.mem_flatMap, mem_codeLengths, mem_symbolsOf]
  constructor
  · rintro ⟨l, ⟨h1, _⟩, hs, rfl⟩
    exact ⟨hs, h1⟩
  · rintro ⟨hs, hpos⟩
    exact ⟨_, ⟨hpos, m.lengthOf_le h16 s⟩, hs, rfl⟩

theorem sorted_pairwise :
    m.sorted.Pairwise fun a b => m.lengthOf a < m.lengthOf b ∨ (m.lengthOf a = m.lengthOf b ∧ a < b) := by
  rw [sorted, List.pairwise_flatMap]
  refine ⟨fun l _ => ?sameLength, ?rising⟩
  case sameLength =>
    refine (m.symbolsOf_sorted l).imp_of_mem fun ha hb hab => .inr ⟨?_, hab⟩
    rw [(m.mem_symbolsOf.1 ha).2, (m.mem_symbolsOf.1 hb).2]
  case rising =>
    refine (show codeLengths.Pairwise (· < ·) by decide).imp fun hab x hx y hy => .inl ?_
    rwa [(m.mem_symbolsOf.1 hx).2, (m.mem_symbolsOf.1 hy).2]

/-- Place `base[ℓ] + j` holds the symbol of length `ℓ` and rank `j` (rule R186). -/
theorem sorted_base_add_eq_some {l j s : Nat} (h1 : 1 ≤ l) (h16 : l ≤ 16) (hj : j < m.num l) :
    m.sorted[m.base l + j]? = some s ↔ s < m.alphabet ∧ m.lengthOf s = l ∧ m.rank s = j := by
  rw [m.sorted_base_add h1 h16 hj]
  constructor
  · exact m.rank_of_symbolsOf
  · rintro ⟨hs, rfl, rfl⟩
    exact m.symbolsOf_rank hs

/-- Every place of a length holds a symbol. -/
theorem exists_sorted_base_add {l j : Nat} (h1 : 1 ≤ l) (h16 : l ≤ 16) (hj : j < m.num l) :
    ∃ s, m.sorted[m.base l + j]? = some s := by
  rw [m.sorted_base_add h1 h16 hj]
  exact ⟨_, List.getElem?_eq_getElem (by rwa [m.length_symbolsOf])⟩

end Model

/-- Settles O27: places by the symbols before a length and the rank within it. -/
theorem sortedSymbolOrder : Obligations.SortedSymbolOrder := by
  intro cl m hm
  obtain rfl := buildModel_eq_ok hm
  obtain ⟨_, h16, _, _⟩ := buildModel_checks hm
  refine ⟨Model.length_sorted _, fun s => Model.mem_sorted _ h16, Model.sorted_pairwise _, ?bySymbol, ?byPlace⟩
  case bySymbol =>
    intro s hs hpos
    exact (Model.sorted_base_add_eq_some _ hpos (Model.lengthOf_le _ h16 s) (Model.rank_lt_num _ hs)).2 ⟨hs, rfl, rfl⟩
  case byPlace =>
    intro l h1 hl16 j hj
    obtain ⟨s, hs⟩ := Model.exists_sorted_base_add ⟨cl⟩ h1 hl16 hj
    obtain ⟨_, rfl, rfl⟩ := (Model.sorted_base_add_eq_some _ h1 hl16 hj).1 hs
    exact ⟨s, hs, rfl, rfl⟩

end Sys2Proof.Machine
end

