-- ==== Sys2Proof/Proofs/CodeIntervals.lean ====
section
/-! O28: the 16-bit numbers that start with a codeword of a length are one interval, and these intervals follow one another
in the order of the lengths (rules R187, R195). -/

namespace Sys2Proof.Machine

namespace Model
variable (m : Model)

/-! ### Where the interval of a length begins and ends -/

/-- The first 16-bit number whose leading `ℓ` bits are `first[ℓ]`: the interval of a used length begins there. -/
def minCode (l : Nat) : Nat := m.first l * 2 ^ (16 - l)

theorem minCode_one : m.minCode 1 = 0 := by rw [minCode, first_one, Nat.zero_mul]

theorem minCode_succ {l : Nat} (h1 : 1 ≤ l) (h16 : l < 16) :
    m.minCode (l + 1) = (m.first l + m.num l) * 2 ^ (16 - l) := by
  rw [minCode, m.first_succ h1, show 16 - l = 16 - (l + 1) + 1 by omega, Nat.pow_succ]
  ring

theorem maxCode_of_used {l : Nat} (hu : 0 < m.num l) : m.maxCode l = (m.first l + m.num l) * 2 ^ (16 - l) :=
  if_neg (by omega)

/-- The interval of a used length ends where that of the next one begins; an unused length moves nothing. -/
theorem minCode_succ_of_used {l : Nat} (h1 : 1 ≤ l) (h16 : l < 16) (hu : 0 < m.num l) :
    m.minCode (l + 1) = m.maxCode l := by
  rw [m.minCode_succ h1 h16, m.maxCode_of_used hu]

theorem minCode_succ_of_unused {l : Nat} (h1 : 1 ≤ l) (h16 : l < 16) (hu : m.num l = 0) :
    m.minCode (l + 1) = m.minCode l := by
  rw [m.minCode_succ h1 h16, hu, Nat.add_zero, minCode]

theorem minCode_lt_maxCode {l : Nat} (hu : 0 < m.num l) : m.minCode l < m.maxCode l := by
  rw [m.maxCode_of_used hu, minCode]
  exact Nat.mul_lt_mul_of_pos_right (by omega) (by positivity)

/-- A number is past the intervals of all shorter used lengths exactly when it is not before the length's own. -/
theorem maxCode_le_iff_minCode_le {l w : Nat} (h1 : 1 ≤ l) (h16 : l ≤ 16) :
    (∀ a, 1 ≤ a → a < l → 0 < m.num a → m.maxCode a ≤ w) ↔ m.minCode l ≤ w := by
  induction l, h1 using Nat.le_induction with
  | base =>
    rw [m.minCode_one]
    exact ⟨fun _ => Nat.zero_le _, fun _ a ha hlt => by omega⟩
  | succ l h1 ih =>
    have shorter := ih (by omega)
    have last : (∀ a, 1 ≤ a → a < l + 1 → 0 < m.num a → m.maxCode a ≤ w) ↔
        (∀ a, 1 ≤ a → a < l → 0 < m.num a → m.maxCode a ≤ w) ∧ (0 < m.num l → m.maxCode l ≤ w) := by
      grind
    rw [last, shorter]
    rcases Nat.eq_zero_or_pos (m.num l) with hu | hu
    · rw [m.minCode_succ_of_unused h1 h16 hu]
      simp [hu]
    · rw [m.minCode_succ_of_used h1 h16 hu]
      have := m.minCode_lt_maxCode hu
      omega

theorem maxCode_lt_maxCode {a b : Nat} (ha : 1 ≤ a) (hab : a < b) (hb : b ≤ 16) (hua : 0 < m.num a)
    (hub : 0 < m.num b) : m.maxCode a < m.maxCode b :=
  ((m.maxCode_le_iff_minCode_le (by omega) hb).2 le_rfl a ha hab hua).trans_lt (m.minCode_lt_maxCode hub)

/-- Without over-subscription the intervals stay within the 16-bit numbers. -/
theorem maxCode_le (hover : m.oversubscribed = false) {l : Nat} (h1 : 1 ≤ l) (h16 : l ≤ 16) :
    m.maxCode l ≤ 0x10000 := by
  rcases Nat.eq_zero_or_pos (m.num l) with hu | hu
  · rw [maxCode, if_pos hu]
    omega
  · have fits : m.first l + m.num l ≤ 2 ^ l := by
      by_contra h
      have : m.oversubscribed = true := m.oversubscribed_iff.2 ⟨l, h1, h16, hu, by omega⟩
      simp [hover] at this
    calc m.maxCode l = (m.first l + m.num l) * 2 ^ (16 - l) := m.maxCode_of_used hu
      _ ≤ 2 ^ l * 2 ^ (16 - l) := Nat.mul_le_mul_right _ fits
      _ = 0x10000 := by rw [← Nat.pow_add, Nat.add_sub_cancel' h16]

/-! ### Codewords and intervals -/

/-- A number lies in the interval of a used length exactly when its leading bits are one of that length's codewords. -/
theorem mem_interval_iff {l w : Nat} (hu : 0 < m.num l) :
    m.minCode l ≤ w ∧ w < m.maxCode l ↔ ∃ j < m.num l, w / 2 ^ (16 - l) = m.first l + j := by
  have hpos : 0 < 2 ^ (16 - l) := by positivity
  rw [m.maxCode_of_used hu, minCode, ← Nat.le_div_iff_mul_le hpos, ← Nat.div_lt_iff_lt_mul hpos]
  constructor
  · rintro ⟨hlo, hhi⟩
    exact ⟨w / 2 ^ (16 - l) - m.first l, by omega, by omega⟩
  · rintro ⟨j, hj, hw⟩
    omega

/-- The symbol of a leading codeword stands at the place of the codeword (rule R186). -/
theorem leads_iff (h16 : ∀ l ∈ m.cl, l ≤ 16) {s w l : Nat} :
    m.leads s w ∧ m.lengthOf s = l ↔ (1 ≤ l ∧ l ≤ 16) ∧ ∃ j < m.num l,
      w / 2 ^ (16 - l) = m.first l + j ∧ m.sorted[m.base l + j]? = some s := by
  constructor
  · rintro ⟨⟨hs, hpos, hw⟩, rfl⟩
    have hl := m.lengthOf_le h16 s
    have hj := m.rank_lt_num hs
    exact ⟨⟨hpos, hl⟩, m.rank s, hj, hw, (m.sorted_base_add_eq_some hpos hl hj).2 ⟨hs, rfl, rfl⟩⟩
  · rintro ⟨⟨h1, hl⟩, j, hj, hw, hsorted⟩
    obtain ⟨hs, rfl, rfl⟩ := (m.sorted_base_add_eq_some h1 hl hj).1 hsorted
    exact ⟨⟨hs, h1, hw⟩, rfl⟩

/-- A number that starts with a symbol's codeword lies in the interval of the symbol's length, which is used. -/
theorem leads_interval (h16 : ∀ l ∈ m.cl, l ≤ 16) {s w : Nat} (h : m.leads s w) :
    (1 ≤ m.lengthOf s ∧ m.lengthOf s ≤ 16) ∧ 0 < m.num (m.lengthOf s) ∧
      m.minCode (m.lengthOf s) ≤ w ∧ w < m.maxCode (m.lengthOf s) := by
  obtain ⟨hl, j, hj, hw, _⟩ := (m.leads_iff h16).1 ⟨h, rfl⟩
  exact ⟨hl, by omega, (m.mem_interval_iff (by omega)).2 ⟨j, hj, hw⟩⟩

/-- The interval of a used length, by the symbol at the place of the codeword (rule R195). -/
theorem mem_interval_iff_leads (h16 : ∀ l ∈ m.cl, l ≤ 16) {l w : Nat} (h1 : 1 ≤ l) (hl : l ≤ 16) (hu : 0 < m.num l) :
    m.minCode l ≤ w ∧ w < m.maxCode l ↔
      ∃ s, m.leads s w ∧ m.lengthOf s = l ∧ m.first l ≤ w / 2 ^ (16 - l) ∧
        m.sorted[m.base l + (w / 2 ^ (16 - l) - m.first l)]? = some s := by
  rw [m.mem_interval_iff hu]
  constructor
  · rintro ⟨j, hj, hw⟩
    obtain ⟨s, hs⟩ := m.exists_sorted_base_add h1 hl hj
    obtain ⟨hleads, hlen⟩ := (m.leads_iff h16).2 ⟨⟨h1, hl⟩, j, hj, hw, hs⟩
    exact ⟨s, hleads, hlen, by omega, by rwa [hw, Nat.add_sub_cancel_left]⟩
  · rintro ⟨s, hleads, hlen, _⟩
    obtain ⟨_, j, hj, hw, _⟩ := (m.leads_iff h16).1 ⟨hleads, hlen⟩
    exact ⟨j, hj, hw⟩

/-- The length of a leading codeword is not longer than another's, whose interval would lie behind. -/
theorem leads_lengthOf_le (h16 : ∀ l ∈ m.cl, l ≤ 16) {s s' w : Nat} (h : m.leads s w) (h' : m.leads s' w) :
    m.lengthOf s ≤ m.lengthOf s' := by
  obtain ⟨⟨h1, hl⟩, _, hlo, _⟩ := m.leads_interval h16 h
  obtain ⟨⟨h1', _⟩, hu', _, hhi'⟩ := m.leads_interval h16 h'
  by_contra longer
  have := (m.maxCode_le_iff_minCode_le h1 hl).2 hlo _ h1' (by omega) hu'
  omega

/-- At most one codeword leads a number (rule R195). -/
theorem leads_unique (h16 : ∀ l ∈ m.cl, l ≤ 16) {s s' w : Nat} (h : m.leads s w) (h' : m.leads s' w) : s = s' := by
  have same : m.lengthOf s' = m.lengthOf s :=
    le_antisymm (m.leads_lengthOf_le h16 h' h) (m.leads_lengthOf_le h16 h h')
  obtain ⟨_, j, _, hw, hs⟩ := (m.leads_iff h16).1 ⟨h, rfl⟩
  obtain ⟨_, j', _, hw', hs'⟩ := (m.leads_iff h16).1 ⟨h', same⟩
  obtain rfl : j = j' := by omega
  exact Option.some.inj (hs.symm.trans hs')

end Model

/-- Settles O28: the interval of a length runs from its first codeword to its last one, and the next begins there. -/
theorem maxCodesCutIntervals : Obligations.MaxCodesCutIntervals := by
  intro cl m hm
  obtain rfl := buildModel_eq_ok hm
  obtain ⟨_, h16, _, hover⟩ := buildModel_checks hm
  refine ⟨fun a b => Model.maxCode_lt_maxCode ⟨cl⟩, fun a h1 ha => ⟨Model.maxCode_le _ hover h1 ha, fun hu => ?positive⟩,
    ?intervals, ?above, fun s s' w _ => Model.leads_unique ⟨cl⟩ h16⟩
  case positive => exact Nat.zero_lt_of_lt (Model.minCode_lt_maxCode _ hu)
  case intervals =>
    intro l w h1 hl hu _
    rw [Model.maxCode_le_iff_minCode_le _ h1 hl, Model.mem_interval_iff_leads _ h16 h1 hl hu]
  case above =>
    intro w _ past s hleads
    obtain ⟨⟨h1, hl⟩, hu, _, hhi⟩ := Model.leads_interval _ h16 hleads
    exact absurd (past _ h1 hl hu) (Nat.not_le.2 hhi)

end Sys2Proof.Machine
end

