-- ==== Sys2Proof/Proofs/HuffmanDecode.lean ====
section
/-! O31: bits written as a field or as a codeword, read back by the bit reader (rules R125, R151), and the symbol that rule R210
finds for a leading codeword (rule R218). -/

namespace Sys2Proof.Machine

/-! ### Reading a field that the stream holds -/

@[simp] theorem length_fieldBits (n v : Nat) : (fieldBits n v).length = n := by simp [fieldBits]

/-- The last bit of a field is its lowest one; the bits before it are half of the number. -/
theorem fieldBits_succ (n v : Nat) : fieldBits (n + 1) v = fieldBits n (v / 2) ++ [v.testBit 0] := by
  rw [fieldBits, List.range_succ, List.map_append, fieldBits]
  congr 1
  · refine List.map_congr_left fun j hj => ?_
    have hlt : j < n := List.mem_range.1 hj
    rw [← Nat.testBit_add_one, show n - 1 - j + 1 = n + 1 - 1 - j by omega]
  · simp

theorem State.consume_bitpos (s : State) (n : Nat) : (s.consume n).br.bitpos = s.br.bitpos + n := rfl

/-- A stream holds two stretches exactly when it holds the second one behind the first. -/
theorem State.streamHolds_append {s : State} {a b : List Bool} :
    s.streamHolds (a ++ b) ↔ s.streamHolds a ∧ (s.consume a.length).streamHolds b := by
  simp only [State.streamHolds, State.streamBit_consume, State.consume_bitpos, Nat.add_assoc]
  constructor
  · refine fun h => ⟨fun j x hj => h j x ?_, fun j x hj => h (a.length + j) x ?_⟩
    · rwa [List.getElem?_append_left (List.getElem?_eq_some_iff.1 hj).1]
    · rwa [List.getElem?_append_right (by omega), Nat.add_sub_cancel_left]
  · rintro ⟨ha, hb⟩ j x hj
    rcases Nat.lt_or_ge j a.length with hlt | hge
    · exact ha j x (by rwa [List.getElem?_append_left hlt] at hj)
    · have behind := hb (j - a.length) x (by rwa [List.getElem?_append_right hge] at hj)
      rwa [Nat.add_sub_cancel' hge] at behind

/-- `PeekBits` reads back the number that a field holds (rules R125, R151). -/
theorem State.peekBits_of_field {s : State} {n v : Nat} (h : s.streamHolds (fieldBits n v)) (hv : v < 2 ^ n) :
    s.peekBits n = .ok v := by
  induction n generalizing v with
  | zero =>
    obtain rfl : v = 0 := by omega
    rfl
  | succ n ih =>
    rw [fieldBits_succ, State.streamHolds_append, length_fieldBits] at h
    obtain ⟨high, low⟩ := h
    have hi : s.bitsAt s.br.bitpos n = .ok (v / 2) := ih high (by omega)
    have lo : s.streamBit (s.br.bitpos + n) = .ok (v.testBit 0) := low 0 _ rfl
    have whole : 2 * (v / 2) + (v.testBit 0).toNat = v := by
      rw [Nat.toNat_testBit, Nat.pow_zero, Nat.div_one]
      omega
    rw [State.peekBits, State.bitsAt_succ, hi, lo]
    exact congrArg Except.ok whole

/-- In a readable stream every `PeekBits` answers (rules R151, R155). -/
theorem State.peekBits_of_readable {s : State} (h : s.rangeReadable) (n : Nat) : ∃ v, s.peekBits n = .ok v := by
  obtain ⟨f, hf⟩ := State.bits_of_readable h
  exact ⟨_, State.bitsAt_eq_sum hf _ n⟩

namespace Model
variable (m : Model)

/-! ### Codewords at the reader's position -/

/-- Without over-subscription a codeword fits its length (rules R183, R184). -/
theorem code_lt (hover : m.oversubscribed = false) {s : Nat} (hs : s < m.alphabet) (hpos : 0 < m.lengthOf s)
    (h16 : m.lengthOf s ≤ 16) : m.code s < 2 ^ m.lengthOf s := by
  have hrank := m.rank_lt_num hs
  by_contra h
  rw [code] at h
  have overflow : m.oversubscribed = true := m.oversubscribed_iff.2 ⟨_, hpos, h16, by omega, by omega⟩
  simp [hover] at overflow

/-- Where the stream holds a codeword, followed by anything readable, the codeword leads the lookahead. -/
theorem leads_peekBits {s : State} {symbol : Nat} (hover : m.oversubscribed = false) (h16 : m.lengthOf symbol ≤ 16)
    (hs : symbol < m.alphabet) (hpos : 0 < m.lengthOf symbol) (hread : s.rangeReadable)
    (hold : s.streamHolds (m.codeword symbol)) : ∃ w, s.peekBits 16 = .ok w ∧ m.leads symbol w := by
  have code : s.peekBits (m.lengthOf symbol) = .ok (m.code symbol) :=
    State.peekBits_of_field hold (m.code_lt hover hs hpos h16)
  obtain ⟨rest, hrest⟩ :=
    State.peekBits_of_readable (s := s.consume (m.lengthOf symbol)) hread (16 - m.lengthOf symbol)
  refine ⟨m.code symbol * 2 ^ (16 - m.lengthOf symbol) + rest, ?peek, hs, hpos, ?leading⟩
  case peek =>
    calc s.peekBits 16 = s.peekBits (m.lengthOf symbol + (16 - m.lengthOf symbol)) := by rw [Nat.add_sub_cancel' h16]
      _ = _ := by rw [State.peekBits_add, code, hrest]; rfl
  case leading =>
    rw [Nat.mul_comm, Nat.mul_add_div (by positivity), Nat.div_eq_of_lt (State.peekBits_lt hrest), Nat.add_zero]

/-! ### The symbol that rule R210 finds -/

/-- The smallest length whose `max_codes` is above the number is that of the leading codeword (rules R195, R210). -/
theorem matchLength_of_leads (h16 : ∀ l ∈ m.cl, l ≤ 16) {s w : Nat} (h : m.leads s w) :
    m.matchLength w = some (m.lengthOf s) := by
  obtain ⟨⟨h1, hl⟩, _, hlo, hhi⟩ := m.leads_interval h16 h
  have shorter := (m.maxCode_le_iff_minCode_le h1 hl).2 hlo
  rw [matchLength, List.find?_eq_some_iff_append]
  refine ⟨decide_eq_true hhi, _, _, codeLengths_split h1 hl, fun a ha => ?_⟩
  rw [List.mem_range'_1] at ha
  have past : m.maxCode a ≤ w := by
    rcases Nat.eq_zero_or_pos (m.num a) with unused | used
    · rw [maxCode, if_pos unused]
      exact Nat.zero_le w
    · exact shorter a ha.1 (by omega) used
  simpa using Nat.lt_succ_of_le past

/-- The index of rule R210 is the place of the leading codeword's symbol in `sorted` (rules R186, R188). -/
theorem symbolIndex_of_leads {s w : Nat} (h : m.leads s w) :
    m.symbolIndex (m.lengthOf s) w = ((m.base (m.lengthOf s) + m.rank s : Nat) : Int) := by
  obtain ⟨_, _, hw⟩ := h
  rw [symbolIndex, valPtr, hw, code]
  omega

/-- `sorted` lists symbols of the alphabet, each at most once. -/
theorem length_sorted_le_alphabet (h16 : ∀ l ∈ m.cl, l ≤ 16) : m.sorted.length ≤ m.alphabet := by
  have nodup : m.sorted.Nodup := m.sorted_pairwise.imp fun hab => by rintro rfl; omega
  have symbols : m.sorted ⊆ List.range m.alphabet := fun s hs => List.mem_range.2 ((m.mem_sorted h16).1 hs).1
  simpa using (nodup.subperm symbols).length_le

/-- The reference decode finds the symbol whose codeword leads the lookahead (rule R210). -/
theorem decodeBits_of_leads (h16 : ∀ l ∈ m.cl, l ≤ 16) {s w : Nat} (h : m.leads s w) :
    m.decodeBits w = .ok (s, m.lengthOf s) := by
  have place : m.sorted[m.base (m.lengthOf s) + m.rank s]? = some s :=
    (m.sorted_base_add_eq_some h.2.1 (m.lengthOf_le h16 s) (m.rank_lt_num h.1)).2 ⟨h.1, rfl, rfl⟩
  have inRange : m.base (m.lengthOf s) + m.rank s < m.alphabet :=
    (List.getElem?_eq_some_iff.1 place).1.trans_le (m.length_sorted_le_alphabet h16)
  simp only [decodeBits, m.matchLength_of_leads h16 h, m.symbolIndex_of_leads h]
  rw [if_neg (by omega), Int.toNat_natCast, List.getD_eq_getElem?_getD, place, Option.getD_some]

end Model

/-! ### `Decode` and `DECODE` -/

/-- `Decode` of a built model, where the stream holds the codeword of a used symbol (rule R218). -/
theorem State.decodeSymbol_of_codeword {s : State} {k : SlotId} {m : Model} {symbol : Nat} (hk : s.slot k = some m)
    (built : buildModel m.cl = .ok m) (hs : symbol < m.alphabet) (hpos : 0 < m.lengthOf symbol)
    (hread : s.rangeReadable) (hold : s.streamHolds (m.codeword symbol)) :
    s.decodeSymbol k = .ok symbol (s.consume (m.lengthOf symbol)) := by
  obtain ⟨_, h16, _, hover⟩ := buildModel_checks built
  obtain ⟨w, hw, hleads⟩ := m.leads_peekBits hover (m.lengthOf_le h16 symbol) hs hpos hread hold
  exact State.decodeSymbol_eq_ok.2 ⟨m, w, _, hk, hw, m.decodeBits_of_leads h16 hleads, rfl⟩

/-- `DECODE` where `Decode` finds a symbol: it stands in `RESULT` (rule R214). -/
theorem exec_decode_of_ok {s t : State} {k : SlotId} {v : Nat} (h : s.startCommand.decodeSymbol k = .ok v t) :
    exec (.decode k) s = .next (t.setResult (BitVec.ofNat 32 v)).finishCommand := by
  simp only [exec, execDecode, runCommand, h, Res.ok_andThen]

/-- Settles O31: the codeword leads the lookahead, and rule R210 finds the symbol of the leading codeword; the command starts
on the same slots and stream. -/
theorem decodeReturnsTheCodedSymbol : Obligations.DecodeReturnsTheCodedSymbol := by
  intro s k m symbol hk built hs hpos hread hold
  have started : s.startCommand.decodeSymbol k = .ok symbol (s.startCommand.consume (m.lengthOf symbol)) :=
    State.decodeSymbol_of_codeword (s := s.startCommand) hk built hs hpos hread hold
  exact ⟨State.decodeSymbol_of_codeword hk built hs hpos hread hold, exec_decode_of_ok started⟩

end Sys2Proof.Machine
end

