-- ==== Sys2Proof/Proofs/WalkInvariant.lean ====
section
/-! O49: the invariant of the walk (rule R283) at every instant of a block, through its reference code, its selectors and its
emission, to the next position or to `DONE` (rules R261, R277, R279). -/

namespace Sys2Proof.Machine

/-! ### Counting the visible blocks before a position (rule R277) -/

section
variable (r : Regs)

theorem Regs.wb_le_wbp : r.wb.toNat ≤ r.wbp := by
  rw [Regs.wbp, roundUpEven]
  omega

theorem Regs.hb_le_hbp : r.hb.toNat ≤ r.hbp := by
  rw [Regs.hbp, roundUpEven]
  omega

theorem Regs.visibleBefore_face_start (f : Nat) : r.visibleBefore f 0 0 = f * (r.hb.toNat * r.wb.toNat) := by
  simp [Regs.visibleBefore]

theorem Regs.visibleBefore_succ_column (f y x : Nat) :
    r.visibleBefore f y (x + 1) = r.visibleBefore f y x + (r.visible y x).toNat := by
  have columns : min (x + 1) r.wb.toNat = min x r.wb.toNat + (decide (x < r.wb.toNat)).toNat := by
    by_cases hx : x < r.wb.toNat
    · simp [hx, hx.le, Nat.succ_le_of_lt hx]
    · simp [hx, not_lt.1 hx, Nat.le_succ_of_le (not_lt.1 hx)]
  by_cases hy : y < r.hb.toNat
  · simp [Regs.visibleBefore, Regs.visible, hy, columns, Nat.add_assoc]
  · simp [Regs.visibleBefore, Regs.visible, hy]

/-- The columns past the visible ones add nothing, so the next row starts with the same count. -/
theorem Regs.visibleBefore_row_end {x : Nat} (hx : r.wb.toNat ≤ x) (f y : Nat) :
    r.visibleBefore f y x = r.visibleBefore f (y + 1) 0 := by
  by_cases hy : y < r.hb.toNat
  · simp [Regs.visibleBefore, hy, hx, hy.le, Nat.succ_le_of_lt hy]
    ring
  · simp [Regs.visibleBefore, hy, Nat.le_succ_of_le, not_lt.1 hy]

theorem Regs.visibleBefore_face_end {y : Nat} (hy : r.hb.toNat ≤ y) (f : Nat) :
    r.visibleBefore f y 0 = r.visibleBefore (f + 1) 0 0 := by
  simp [Regs.visibleBefore, hy]
  ring

end

/-! ### The instants inside a block -/

/-- Every index of the class is below its palette's size. -/
def BufEntry.InRange (r : Regs) (k : FormatClass) (e : BufEntry) : Prop :=
  ∀ ch ∈ k.channels, e.index ch < r.endpointCount ch

/-- An instant of the walk inside the block at the position: `WalkInv` with `n` more blocks written, which is 0 until the
block's emission and 1 after it. -/
structure State.InBlock (r : Regs) (n : Nat) (s : State) : Prop where
  walking : s.activity = .walking
  regs : s.regs = r
  inGrid : s.walk.f < r.faces.toNat ∧ s.walk.y < r.hbp ∧ s.walk.x < r.wbp
  accumulators : ∀ ch ∈ s.walk.cls.channels, s.walk.index ch < r.endpointCount ch
  entries : ∀ x < r.wbp, (bufEntry s.blockBuf x).valid = true → (bufEntry s.blockBuf x).InRange r s.walk.cls
  written : s.walk.blocksWritten = r.visibleBefore s.walk.f s.walk.y s.walk.x + n

/-- Before the emission, an instant inside a block is one of a walk with its invariant (rule R283). -/
theorem State.inBlock_zero_iff {r : Regs} {s : State} :
    s.InBlock r 0 ↔ s.activity = .walking ∧ s.regs = r ∧ s.WalkInv := by
  constructor
  · rintro ⟨hact, rfl, hgrid, hacc, hbuf, hcount⟩
    exact ⟨hact, rfl, hgrid, hacc, hbuf, hcount⟩
  · rintro ⟨hact, rfl, hgrid, hacc, hbuf, hcount⟩
    exact ⟨hact, rfl, hgrid, hacc, hbuf, hcount⟩

/-- The command has ended with an error. -/
def State.Raised (s : State) : Prop := s.activity = .idle ∧ ∃ c, s.ending = .raised c

theorem State.raiseInWalk_raised (s : State) (c : Cause) (k : BitVec 3) : (s.raiseInWalk c k).Raised := ⟨rfl, c, rfl⟩

@[simp] theorem Walker.cls_setIndex (w : Walker) (ch : Channel) (v : Nat) : (w.setIndex ch v).cls = w.cls := by
  cases ch <;> rfl
@[simp] theorem Walker.f_setIndex (w : Walker) (ch : Channel) (v : Nat) : (w.setIndex ch v).f = w.f := by
  cases ch <;> rfl
@[simp] theorem Walker.y_setIndex (w : Walker) (ch : Channel) (v : Nat) : (w.setIndex ch v).y = w.y := by
  cases ch <;> rfl
@[simp] theorem Walker.x_setIndex (w : Walker) (ch : Channel) (v : Nat) : (w.setIndex ch v).x = w.x := by
  cases ch <;> rfl
@[simp] theorem Walker.blocksWritten_setIndex (w : Walker) (ch : Channel) (v : Nat) :
    (w.setIndex ch v).blocksWritten = w.blocksWritten := by
  cases ch <;> rfl

@[simp] theorem State.entry_setEntry (s : State) (e : BufEntry) : (s.setEntry e).entry = e := by
  simp [State.entry, bufEntry_setBufEntry]

@[simp] theorem State.entry_setAccumulator (s : State) (ch : Channel) (v : Nat) :
    (s.setAccumulator ch v).entry = s.entry := by
  simp [State.entry]

@[simp] theorem State.entry_loadIndex (s : State) (ch : Channel) : (s.loadIndex ch).entry = s.entry :=
  s.entry_setAccumulator ch _

section
variable {r : Regs} {n : Nat} {s t : State}

namespace State.InBlock

theorem consume (h : s.InBlock r n) (l : Nat) : (s.consume l).InBlock r n := { h with }

/-- `Decode` only moves the reader. -/
theorem of_decodeSymbol (h : s.InBlock r n) {k : SlotId} {v : Nat} (ht : s.decodeSymbol k = .ok v t) : t.InBlock r n := by
  obtain ⟨_, _, l, _, _, _, rfl⟩ := State.decodeSymbol_eq_ok.1 ht
  exact h.consume l

/-- The entry of the walker's column is one of those that the invariant speaks of. -/
theorem entry_inRange (h : s.InBlock r n) (hv : s.entry.valid = true) : s.entry.InRange r s.walk.cls := by
  obtain ⟨_, _, hx⟩ := h.inGrid
  exact h.entries _ hx hv

theorem setEntry (h : s.InBlock r n) {e : BufEntry} (he : e.valid = true → e.InRange r s.walk.cls) :
    (s.setEntry e).InBlock r n :=
  { h with
    entries := fun x hx => by
      rw [State.setEntry_blockBuf, bufEntry_setBufEntry]
      split
      · exact he
      · exact h.entries x hx }

theorem setAccumulator (h : s.InBlock r n) {ch : Channel} {v : Nat}
    (hv : ch ∈ s.walk.cls.channels → v < r.endpointCount ch) : (s.setAccumulator ch v).InBlock r n where
  walking := h.walking
  regs := h.regs
  inGrid := by simpa using h.inGrid
  accumulators d hd := by
    rw [State.setAccumulator_walk, Walker.cls_setIndex] at hd
    rw [State.setAccumulator_walk, Walker.index_setIndex]
    split
    · subst d
      exact hv hd
    · exact h.accumulators d hd
  entries := by simpa using h.entries
  written := by simpa using h.written

theorem storeIndex (h : s.InBlock r n) (ch : Channel) : (s.storeIndex ch).InBlock r n := by
  refine h.setEntry fun hv d hd => ?_
  rw [BufEntry.index_setIndex]
  split
  · subst d
    exact h.accumulators ch hd
  · exact h.entry_inRange (by simpa using hv) d hd

theorem loadIndex (h : s.InBlock r n) (hv : s.entry.valid = true) (ch : Channel) : (s.loadIndex ch).InBlock r n :=
  h.setAccumulator (h.entry_inRange hv ch)

end State.InBlock

/-! ### The reference codes -/

/-- The walker's entry holds an index in range for every channel of the class but those still to be stored. -/
def State.StoredBut (r : Regs) (chs : List Channel) (s : State) : Prop :=
  ∀ ch ∈ s.walk.cls.channels, ch ∉ chs → s.entry.index ch < r.endpointCount ch

theorem State.storedBut_all (s : State) : s.StoredBut r s.walk.cls.channels := fun _ hch hnot => absurd hch hnot

theorem State.StoredBut.setAccumulator {chs : List Channel} (hs : s.StoredBut r chs) (ch : Channel) (v : Nat) :
    (s.setAccumulator ch v).StoredBut r chs := by
  simpa [State.StoredBut] using hs

theorem State.InBlock.storeIndex_storedBut {ch : Channel} {chs : List Channel} (h : s.InBlock r n)
    (hs : s.StoredBut r (ch :: chs)) : (s.storeIndex ch).StoredBut r chs := by
  intro d hd hnot
  rw [State.storeIndex, State.entry_setEntry, BufEntry.index_setIndex]
  split
  case isTrue heq =>
    subst d
    exact h.accumulators ch hd
  case isFalse hne => exact hs d hd (by simp [hne, hnot])

/-- An entry with every channel of the class stored may become valid. -/
theorem State.InBlock.markValid (h : s.InBlock r n) (hs : s.StoredBut r []) : s.markValid.InBlock r n :=
  h.setEntry fun _ ch hch => hs ch hch List.not_mem_nil

/-- The deltas of `REF_NEW` are reduced below the palette's size before they are stored (rule R271). -/
theorem newIndices_keeps {chs : List Channel} (h : s.InBlock r n) (hs : s.StoredBut r chs)
    (ht : newIndices chs s = .ok () t) : t.InBlock r n ∧ t.StoredBut r [] := by
  induction chs generalizing s with
  | nil =>
    cases ht
    exact ⟨h, hs⟩
  | cons ch chs ih =>
    obtain ⟨d, u, hu, ht⟩ := Res.andThen_eq_ok.1 ht
    obtain ⟨_, _, l, _, _, _, rfl⟩ := State.decodeSymbol_eq_ok.1 hu
    have reduced : ch ∈ s.walk.cls.channels → (s.walk.index ch + d) % s.regs.endpointCount ch < r.endpointCount ch := by
      intro hch
      rw [h.regs]
      exact Nat.mod_lt _ (Nat.zero_lt_of_lt (h.accumulators ch hch))
    have moved := (h.consume l).setAccumulator reduced
    have others : (s.consume l).StoredBut r (ch :: chs) := hs
    exact ih (moved.storeIndex ch) (moved.storeIndex_storedBut (others.setAccumulator ch _)) ht

theorem execRefNew_keeps (h : s.InBlock r n) (ht : execRefNew s = .next t) : t.InBlock r n ∨ t.Raised := by
  rcases endInWalk_eq_next.1 ht with ⟨_, u, hu, hmark⟩ | ⟨c, k, u, _, rfl⟩
  · cases hmark
    obtain ⟨hin, hstored⟩ := newIndices_keeps h s.storedBut_all hu
    exact .inl (hin.markValid hstored)
  · exact .inr (u.raiseInWalk_raised c k)

theorem State.InBlock.storeIndices {chs : List Channel} (h : s.InBlock r n) (hs : s.StoredBut r chs) :
    (chs.foldl State.storeIndex s).InBlock r n ∧ (chs.foldl State.storeIndex s).StoredBut r [] := by
  induction chs generalizing s with
  | nil => exact ⟨h, hs⟩
  | cons ch chs ih => exact ih (h.storeIndex ch) (h.storeIndex_storedBut hs)

theorem execRefLeft_keeps (h : s.InBlock r n) (ht : execRefLeft s = .next t) : t.InBlock r n := by
  cases ht
  obtain ⟨hin, hstored⟩ := h.storeIndices s.storedBut_all
  exact hin.markValid hstored

/-- `REF_TOP` loads from a valid entry, or ends the command (rule R273). -/
theorem execRefTop_keeps (h : s.InBlock r n) (ht : execRefTop s = .next t) : t.InBlock r n ∨ t.Raised := by
  unfold execRefTop at ht
  split at ht <;> cases ht
  case isTrue hv =>
    have loaded := List.foldlRecOn (motive := fun t => t.InBlock r n ∧ t.entry.valid = true) s.walk.cls.channels
      State.loadIndex ⟨h, hv⟩ fun t ⟨hin, htv⟩ ch _ => ⟨hin.loadIndex htv ch, by simpa using htv⟩
    exact .inl loaded.1
  case isFalse => exact .inr (s.raiseInWalk_raised _ _)

/-- A reference code of the stream keeps the invariant or raises. -/
theorem execStream_decodeRef_keeps (c : BitVec 2) (h : s.InBlock r n) (ht : execStream (decodeRef c) s = .next t) :
    t.InBlock r n ∨ t.Raised := by
  unfold decodeRef at ht
  split at ht
  · exact execRefNew_keeps h ht
  · split at ht
    · exact .inl (execRefLeft_keeps h ht)
    · split at ht
      · exact execRefTop_keeps h ht
      · cases ht
        exact .inr (s.raiseInWalk_raised _ _)

/-! ### The fetch of the code, and the selectors -/

/-- The code of an even row is a reference code, and only the stash of the walker's entry changes (rule R269). -/
theorem evenRowCode_keeps (h : s.InBlock r n) :
    s.evenRowCode.2.InBlock r n ∧ ∃ c, s.evenRowCode.1 = decodeRef c := by
  unfold State.evenRowCode
  split <;> exact ⟨h.setEntry h.entry_inRange, _, rfl⟩

theorem readReferenceByte_keeps (h : s.InBlock r n) (ht : readReferenceByte s = .ok () t) : t.InBlock r n := by
  obtain ⟨v, u, hu, ht⟩ := Res.andThen_eq_ok.1 ht
  have hin := h.of_decodeSymbol hu
  split at ht <;> cases ht
  exact { hin with }

/-- Where the fetch succeeds it answers a reference code (rules R268 to R270). -/
theorem fetchRef_keeps {i : Instr} (h : s.InBlock r n) (ht : fetchRef s = .ok i t) :
    t.InBlock r n ∧ ∃ c, i = decodeRef c := by
  unfold fetchRef at ht
  split at ht
  · split at ht
    · obtain ⟨_, u, hu, ht⟩ := Res.andThen_eq_ok.1 ht
      cases ht
      exact evenRowCode_keeps (readReferenceByte_keeps h hu)
    · cases ht
      exact evenRowCode_keeps h
  · cases ht
    exact ⟨h, _, rfl⟩

theorem readSelectors_keeps {chs : List Channel} {q q' : Selectors} (h : s.InBlock r n)
    (ht : readSelectors chs q s = .ok q' t) : t.InBlock r n := by
  induction chs generalizing q s with
  | nil =>
    cases ht
    exact h
  | cons ch chs ih =>
    obtain ⟨v, u, hu, ht⟩ := Res.andThen_eq_ok.1 ht
    split at ht
    · cases ht
    · exact ih (h.of_decodeSymbol hu) ht

/-! ### The end of a block, and the next position -/

/-- How a block may end: at the next position with the invariant, with an error, or with `DONE` and the count of rule
R279. -/
inductive State.BlockOutcome (r : Regs) (t : State) : Prop where
  | goesOn (h : t.InBlock r 0)
  | raised (h : t.Raised)
  | finished (idle : t.activity = .idle)
      (count : t.result = BitVec.ofNat 32 (r.faces.toNat * r.wb.toNat * r.hb.toNat))

@[simp] theorem State.faceReset_index (s : State) (ch : Channel) : s.faceReset.walk.index ch = 0 := by
  cases ch <;> rfl

/-- `FaceReset` leaves accumulators of 0 and no valid entry (rule R267), so it establishes the invariant's bounds. -/
theorem State.faceReset_inBlock (hact : s.activity = .walking) (hregs : s.regs = r)
    (hgrid : s.walk.f < r.faces.toNat ∧ s.walk.y < r.hbp ∧ s.walk.x < r.wbp)
    (hpal : ∀ ch ∈ s.walk.cls.channels, 0 < r.endpointCount ch)
    (hcount : s.walk.blocksWritten = r.visibleBefore s.walk.f s.walk.y s.walk.x) : s.faceReset.InBlock r 0 where
  walking := hact
  regs := hregs
  inGrid := hgrid
  accumulators ch hch := by
    rw [State.faceReset_index]
    exact hpal ch hch
  entries x hx hv := by
    rw [State.faceReset, bufEntry_clearValid, hregs, if_pos hx] at hv
    cases hv
  written := hcount

/-- The move to the next position, after a block that has emitted itself if it is visible (rules R261, R277, R279). -/
theorem advance_outcome (h : s.InBlock r (r.visible s.walk.y s.walk.x).toNat) : s.advance.BlockOutcome r := by
  obtain ⟨hact, rfl, ⟨hf, hy, hx⟩, hacc, hbuf, hcount⟩ := h
  rw [← Regs.visibleBefore_succ_column] at hcount
  unfold State.advance
  split
  case isTrue hcol => exact .goesOn ⟨hact, rfl, ⟨hf, hy, hcol⟩, hacc, hbuf, hcount⟩
  case isFalse hcol =>
    rw [s.regs.visibleBefore_row_end (s.regs.wb_le_wbp.trans (not_lt.1 hcol))] at hcount
    split
    case isTrue hrow => exact .goesOn ⟨hact, rfl, ⟨hf, hrow, Nat.zero_lt_of_lt hx⟩, hacc, hbuf, hcount⟩
    case isFalse hrow =>
      rw [s.regs.visibleBefore_face_end (s.regs.hb_le_hbp.trans (not_lt.1 hrow))] at hcount
      split
      case isTrue hface =>
        exact .goesOn (State.faceReset_inBlock hact rfl ⟨hface, Nat.zero_lt_of_lt hy, Nat.zero_lt_of_lt hx⟩
          (fun ch hch => Nat.zero_lt_of_lt (hacc ch hch)) hcount)
      case isFalse hface =>
        have last : s.walk.f + 1 = s.regs.faces.toNat := by omega
        refine .finished rfl (congrArg (BitVec.ofNat 32) ?_)
        calc s.walk.blocksWritten = (s.walk.f + 1) * (s.regs.hb.toNat * s.regs.wb.toNat) := by
              rw [hcount, Regs.visibleBefore_face_start]
          _ = s.regs.faces.toNat * s.regs.wb.toNat * s.regs.hb.toNat := by rw [last]; ring

/-- The emission counts one block. -/
theorem emit_counts {q : Selectors} (h : s.InBlock r 0) (ht : s.emit q = .ok t) :
    t.InBlock r 1 ∧ t.walk.y = s.walk.y ∧ t.walk.x = s.walk.x := by
  obtain ⟨ws, _, rfl⟩ := State.emit_eq_ok.1 ht
  exact ⟨⟨h.walking, h.regs, h.inGrid, h.accumulators, h.entries, congrArg (· + 1) h.written⟩, rfl, rfl⟩

theorem endBlock_outcome {q : Selectors} (h : s.InBlock r 0) (ht : endBlock q s = .next t) : t.BlockOutcome r := by
  unfold endBlock at ht
  rw [h.regs] at ht
  split at ht
  · cases ht
    exact .raised (s.raiseInWalk_raised _ _)
  · split at ht
    case isTrue hvis =>
      split at ht <;> cases ht
      next u hu =>
        obtain ⟨hin, hy, hx⟩ := emit_counts h hu
        exact advance_outcome (by rwa [hy, hx, hvis])
    case isFalse hvis =>
      cases ht
      exact advance_outcome (by rwa [Bool.eq_false_iff.2 hvis])

theorem restOfBlock_outcome (h : s.InBlock r 0) (ht : restOfBlockWith endBlock s = .next t) : t.BlockOutcome r := by
  rcases endInWalk_eq_next.1 ht with ⟨q, u, hu, hend⟩ | ⟨c, k, u, _, rfl⟩
  · exact endBlock_outcome (readSelectors_keeps h hu) hend
  · exact .raised (u.raiseInWalk_raised c k)

/-- One block of the walk (rule R278). -/
theorem walkStep_outcome (h : s.InBlock r 0) (ht : walkStep s = .next t) : t.BlockOutcome r := by
  rcases endInWalk_eq_next.1 ht with ⟨i, u, hu, hrun⟩ | ⟨c, k, u, _, rfl⟩
  · obtain ⟨hin, c, rfl⟩ := fetchRef_keeps h hu
    split at hrun
    next v hv =>
      unfold afterRefWith at hrun
      rcases execStream_decodeRef_keeps c hin hv with hgo | hraised
      · rw [if_pos hgo.walking] at hrun
        exact restOfBlock_outcome hgo hrun
      · rw [if_neg (by rw [hraised.1]; decide)] at hrun
        cases hrun
        exact .raised hraised
    all_goals cases hrun
  · exact .raised (u.raiseInWalk_raised c k)

end

/-! ### The start of the walk -/

theorem ite_some_eq_none {α : Type} {p : Prop} [Decidable p] {a : α} {o : Option α} :
    (if p then some a else o) = none ↔ ¬p ∧ o = none := by
  split <;> simp [*]

/-- What the accepted arguments of an `UNPACK` say of the grid and of the endpoint palettes (rule R263). -/
theorem argChecks_ok {r : Regs} {cls : BitVec 4} {k : FormatClass} (h : argChecks r cls = .ok k) :
    0 < r.faces.toNat ∧ 0 < r.wb.toNat ∧ 0 < r.hb.toNat ∧ ∀ ch ∈ k.channels, 0 < r.endpointCount ch := by
  unfold argChecks at h
  split at h
  · cases h
  split at h <;> cases h
  next hnone =>
    simp only [argErrorOf, ite_some_eq_none] at hnone
    obtain ⟨hgeometry, hfaces, _, _, _, _, _, _, hpal, _⟩ := hnone
    refine ⟨?faces, ?wb, ?hb, fun ch hch => ?palette⟩
    case faces => bv_omega
    case wb => bv_omega
    case hb => bv_omega
    case palette =>
      refine Nat.pos_of_ne_zero fun hzero => hpal ?_
      exact List.any_eq_true.2 ⟨ch, hch, by simp [hzero]⟩

/-- The walk starts with its invariant (rules R261, R267). -/
theorem State.startWalk_inBlock {s : State} {cls : BitVec 4} {k : FormatClass} (h : argChecks s.regs cls = .ok k) :
    (s.clearWritten.startWalk k).InBlock s.regs 0 := by
  obtain ⟨hfaces, hwb, hhb, hpal⟩ := argChecks_ok h
  exact State.faceReset_inBlock rfl rfl ⟨hfaces, hhb.trans_le s.regs.hb_le_hbp, hwb.trans_le s.regs.wb_le_wbp⟩ hpal
    (by simp [Regs.visibleBefore_face_start, State.clearWritten])

/-- Settles O49: the invariant at the start of the walk, and how a block that begins with it may end. -/
theorem walkInvariantHolds : Obligations.WalkInvariantHolds := by
  refine ⟨fun s cls k hk => (State.inBlock_zero_iff.1 (State.startWalk_inBlock hk)).2.2, fun s t hact hinv ht => ?_⟩
  unfold innerStep at ht
  rw [hact] at ht
  have outcome := walkStep_outcome (State.inBlock_zero_iff.2 ⟨hact, rfl, hinv⟩) ht
  refine ⟨fun hwalking => ?keeps, fun hidle hdone => ?counts⟩
  case keeps =>
    cases outcome with
    | goesOn h => exact (State.inBlock_zero_iff.1 h).2.2
    | raised h => simp [h.1] at hwalking
    | finished hidle _ => simp [hidle] at hwalking
  case counts =>
    cases outcome with
    | goesOn h => simp [h.walking] at hidle
    | raised h =>
      obtain ⟨_, c, hraised⟩ := h
      simp [hdone] at hraised
    | finished _ hcount => exact hcount

end Sys2Proof.Machine
end

