-- ==== Sys2Proof/Proofs/SystemCommands.lean ====
section
/-! O7 and O12: the word that matches no row of rule R113 (rule R323), `NOP` (rule R321), and what each leaves in `STATUS`
(rules R32, R324, R345). -/

namespace Sys2Proof.Machine

/-! ### The fields of `STATUS` that no command clears (rules R32, R324) -/

theorem State.status_getLsbD_anyErr (s : State) : s.status.getLsbD 7 = s.anyErr := by
  simp only [State.status, BitVec.getLsbD_append]
  simp

theorem State.status_getLsbD_overrun (s : State) : s.status.getLsbD 3 = s.br.overrun := by
  simp only [State.status, BitVec.getLsbD_append]
  simp

/-- `STATUS` once no command is under way: `BUSY = 0`. -/
theorem State.status_of_idle {s : State} (hidle : s.activity = .idle) :
    s.status = 0#16 ++ s.ending.causeField ++ BitVec.ofBool s.anyErr ++ s.ending.kindField ++ BitVec.ofBool s.br.overrun
      ++ BitVec.ofBool s.ending.errBit ++ BitVec.ofBool s.ending.doneBit ++ 0#1 := by
  simp [State.status, State.busy, hidle]

/-! ### A word that matches no row (rules R113, R323) -/

theorem decode_command_of_no_row {c : Word} (h : ∀ row ∈ commandRows, c &&& row.1 ≠ row.2) :
    ∃ e, decode (.command c) = .error e := by
  simp only [commandRows, List.forall_mem_cons] at h
  obtain ⟨hnop, hsoftReset, hbrStart, hgetBits, hbrStop, hbuild, hclear, hdecode, hrecvModel, hunpack, -⟩ := h
  simp only [decode, decodeCommand, if_neg hnop, if_neg hsoftReset, if_neg hbrStart, if_neg hgetBits, if_neg hbrStop,
    if_neg hbuild, if_neg hclear, if_neg hdecode, if_neg hrecvModel, if_neg hunpack]
  split <;> exact ⟨_, rfl⟩

/-- A pending write of `CMD` is the command with the action taken off the queue (rule R320). -/
theorem step_of_commandPending {s : State} {c : Word} {rest : List HostAction} (h : s.commandPending c rest) :
    step s = commandStep c { s with inputs := rest } := by
  obtain ⟨hidle, hinputs⟩ := h
  simp [step, hidle, hinputs, hostAction, busWrite, busAccessOk, offCmd, State.popInput]

theorem execIllegal_eq (s : State) : execIllegal s = .next (s.startCommand.raiseAt0 .badOpcode 0) := rfl

theorem commandStep_of_no_row {c : Word} (h : ∀ row ∈ commandRows, c &&& row.1 ≠ row.2) (s : State) :
    commandStep c s = .next (s.startCommand.raiseAt0 .badOpcode 0) := by
  obtain ⟨e, he⟩ := decode_command_of_no_row h
  rw [commandStep, he, execIllegal_eq]

/-- On an idle block the illegal word changes how the last command ended, `ANYERR` and `ERRINFO`, and nothing else. -/
theorem State.raiseAt0_badOpcode_of_idle {s : State} (hidle : s.activity = .idle) :
    s.startCommand.raiseAt0 .badOpcode 0 = { s with ending := .raised .badOpcode, anyErr := true, errinfo := 0 } := by
  obtain ⟨⟩ := s
  subst hidle
  rfl

/-- `ERR`, `ANYERR`, kind 5 and cause 0x20 (rules R341, R342). -/
theorem State.status_of_badOpcode {s : State} (hidle : s.activity = .idle) (hend : s.ending = .raised .badOpcode)
    (hany : s.anyErr = true) (hover : s.br.overrun = false) : s.status = 0x000020D4 := by
  rw [State.status_of_idle hidle, hend, hany, hover]
  rfl

/-- Settles O7: the decoder falls through all ten rows, and `BAD_OPCODE` is raised on an idle block. -/
theorem illegalCommandWordRaisesBadOpcode : Obligations.IllegalCommandWordRaisesBadOpcode := by
  refine ⟨fun s c rest hpending hrows => ?illegal, ?reservedBit, ?unknownOpcode⟩
  case illegal =>
    have hidle : State.activity { s with inputs := rest } = .idle := hpending.1
    refine ⟨?_, fun hover => State.status_of_badOpcode hidle rfl rfl hover⟩
    rw [step_of_commandPending hpending, commandStep_of_no_row hrows, State.raiseAt0_badOpcode_of_idle hidle]
  case reservedBit => simp [commandRows, maskN, maskB, maskS, maskU]
  case unknownOpcode => simp [commandRows, maskN, maskB, maskS, maskU]

/-! ### `NOP` (rule R321) -/

theorem exec_nop (s : State) : exec .nop s = .next s.startCommand.finishCommand := rfl

/-- `DONE` alone, and the two bits that a new command does not clear. -/
theorem State.status_of_done {s : State} (hidle : s.activity = .idle) (hend : s.ending = .done) :
    s.status = 0#24 ++ BitVec.ofBool s.anyErr ++ 0#3 ++ BitVec.ofBool s.br.overrun ++ 0b010#3 := by
  rw [State.status_of_idle hidle, hend]
  cases s.anyErr <;> cases s.br.overrun <;> rfl

/-- Settles O12: the `STATUS` of the rule's example says `ANYERR = 1` and `OVERRUN = 0`, and both stay. -/
theorem nopResult : Obligations.NopResult := by
  refine ⟨by decide, fun s => ⟨exec_nop s, fun hstatus t ht => ?_⟩⟩
  have hany : s.anyErr = true := by rw [← s.status_getLsbD_anyErr, hstatus]; rfl
  have hover : s.br.overrun = false := by rw [← s.status_getLsbD_overrun, hstatus]; rfl
  rw [exec_nop] at ht
  cases ht
  rw [State.status_of_done rfl rfl]
  simp [hany, hover]

end Sys2Proof.Machine
end

