-- ==== Sys2Proof/Proofs/Encodings.lean ====
section
/-! O1, O2, O3: the decoder and the encoder undo one another in all three encoding spaces (rules R112 to R119, R123). -/

namespace Sys2Proof

/-! ### Operand fields of a command word (rules R112, R115) -/

theorem SlotId.num_ofNum (b : BitVec 3) : (SlotId.ofNum b).num = b := by
  revert b
  decide

/-- A word is its row's bits with the operand field put back (rule R112). -/
theorem command_of_field {n : Nat} {mask c row : Word} (hmask : mask = BitVec.allOnes 32 <<< n)
    (h : c &&& mask = row) : row ||| (c.extractLsb' 0 n).setWidth 32 = c := by
  subst hmask h
  ext i hi
  by_cases h : i < n
  · simp [h, hi]
  · have inMask : (BitVec.allOnes 32)[i - n]'(by omega) = true := BitVec.getElem_allOnes ..
    simp [h, inMask, -BitVec.reduceAllOnes]

theorem command_of_fieldS {c row : Word} (h : c &&& maskS = row) :
    row ||| (SlotId.ofNum (c.extractLsb' 0 3)).num.setWidth 32 = c := by
  rw [SlotId.num_ofNum]
  exact command_of_field (by decide) h

theorem command_of_fieldN {c row : Word} (h : c &&& maskN = row) : row = c := by
  rw [← h, show maskN = BitVec.allOnes 32 by decide, BitVec.and_allOnes]

/-! ### Decoding an encoding -/

/-- Settles O1: one row of a table per constructor, over every value of its operand field. -/
theorem decodeOfEncodeGivesInstruction : Obligations.DecodeOfEncodeGivesInstruction := by
  intro i
  cases i with
  | getBits n => revert n; decide
  | unpack cls => revert cls; decide
  | build k | clear k | decode k | recvModel k => cases k <;> rfl
  | mZrunS e | mZrunL e | mRepS e | mRepL e =>
    have fits := e.isLt
    simp only [encode, Sys2Proof.decode, decodeMeta, metaExtraBits]
    simp [fits]
  | _ => rfl

/-! ### Encoding what was decoded -/

/-- A command word is rebuilt from the row it matches and its operand field. -/
theorem encode_of_decodeCommand {c : Word} {i : Instr} (h : decodeCommand c = .ok i) : encode i = .command c := by
  unfold decodeCommand at h
  split at h
  case isTrue hrow => cases h; exact congrArg Code.command (command_of_fieldN hrow)
  split at h
  case isTrue hrow => cases h; exact congrArg Code.command (command_of_fieldN hrow)
  split at h
  case isTrue hrow => cases h; exact congrArg Code.command (command_of_fieldN hrow)
  split at h
  case isTrue hrow => cases h; exact congrArg Code.command (command_of_field (by decide) hrow)
  split at h
  case isTrue hrow => cases h; exact congrArg Code.command (command_of_fieldN hrow)
  split at h
  case isTrue hrow => cases h; exact congrArg Code.command (command_of_fieldS hrow)
  split at h
  case isTrue hrow => cases h; exact congrArg Code.command (command_of_fieldS hrow)
  split at h
  case isTrue hrow => cases h; exact congrArg Code.command (command_of_fieldS hrow)
  split at h
  case isTrue hrow => cases h; exact congrArg Code.command (command_of_fieldS hrow)
  split at h
  case isTrue hrow => cases h; exact congrArg Code.command (command_of_field (by decide) hrow)
  split at h <;> cases h

/-- The 17 length symbols stand in the table at their own number (rule R236). -/
theorem encode_metaLengths : ∀ symbol < 17, encode (metaLengths.getD symbol .mLen0) = .metaSymbol symbol 0 := by
  decide

theorem encode_of_decodeMeta {symbol extra : Nat} {i : Instr} (h : decodeMeta symbol extra = .ok i) :
    encode i = .metaSymbol symbol extra := by
  unfold decodeMeta at h
  split at h
  · cases h
  split at h
  · cases h
  case isFalse hsymbol hextra =>
    have fits := Nat.not_le.1 hextra
    split at h
    case isTrue h17 => cases h; subst h17; exact congrArg _ (Nat.mod_eq_of_lt fits)
    split at h
    case isTrue h18 => cases h; subst h18; exact congrArg _ (Nat.mod_eq_of_lt fits)
    split at h
    case isTrue h19 => cases h; subst h19; exact congrArg _ (Nat.mod_eq_of_lt fits)
    split at h
    case isTrue h20 => cases h; subst h20; exact congrArg _ (Nat.mod_eq_of_lt fits)
    cases h
    have noExtra : metaExtraBits symbol = 0 := by simp [metaExtraBits, *]
    obtain rfl : extra = 0 := by simpa [noExtra] using fits
    exact encode_metaLengths symbol (by omega)

theorem encode_decodeRef : ∀ c, encode (decodeRef c) = .refCode c := by decide

/-- Settles O2: in each space the decoder's fields put together give the code back. -/
theorem decodedCodesAreEncodings : Obligations.DecodedCodesAreEncodings := by
  intro c i h
  cases c with
  | command c => exact encode_of_decodeCommand h
  | metaSymbol symbol extra => exact encode_of_decodeMeta h
  | refCode c => cases h; exact encode_decodeRef c

/-- Settles O3: each word is evaluated. -/
theorem sampleWordsDecode : Obligations.SampleWordsDecode := by
  unfold Obligations.SampleWordsDecode
  decide

end Sys2Proof
end

