-- ==== Sys2Proof/Proofs/StatusAndReset.lean ====
section
/-! O11, O13, O14, O59: the fields of `STATUS` and `ERRINFO` (rules R32, R34, R345), the reset state and `SOFT_RESET` (rules
R56, R322). -/

namespace Sys2Proof.Machine

/-! ### Fields of a concatenation -/

/-- A field of a concatenation that lies in its low part is a field of that part. -/
theorem extractLsb'_append_low {m n : Nat} (a : BitVec m) (b : BitVec n) {start len : Nat} (h : start + len ≤ n) :
    (a ++ b).extractLsb' start len = b.extractLsb' start len := by
  ext i hi
  simp [BitVec.getLsbD_append, show start + i < n by omega]

/-- A field that begins above the low part is a field of the high part. -/
theorem extractLsb'_append_high {m n : Nat} (a : BitVec m) (b : BitVec n) (start len : Nat) :
    (a ++ b).extractLsb' (n + start) len = a.extractLsb' start len := by
  ext i hi
  simp [BitVec.getLsbD_append, Nat.add_assoc]

/-! ### The fields of `STATUS` and `ERRINFO` -/

section
variable (s : State)

theorem State.status_getLsbD_busy : s.status.getLsbD 0 = s.busy := by
  simp only [State.status, BitVec.getLsbD_append]
  simp

theorem State.status_getLsbD_done : s.status.getLsbD 1 = s.ending.doneBit := by
  simp only [State.status, BitVec.getLsbD_append]
  simp

theorem State.status_getLsbD_err : s.status.getLsbD 2 = s.ending.errBit := by
  simp only [State.status, BitVec.getLsbD_append]
  simp

theorem State.status_kind : s.status.extractLsb' 4 3 = s.ending.kindField := by
  unfold State.status
  rw [extractLsb'_append_high _ _ 3, extractLsb'_append_high _ _ 2, extractLsb'_append_high _ _ 1,
    extractLsb'_append_high _ _ 0, extractLsb'_append_low _ _ (by omega), BitVec.extractLsb'_eq_self]

theorem State.status_cause : s.status.extractLsb' 8 8 = s.ending.causeField := by
  unfold State.status
  rw [extractLsb'_append_high _ _ 7, extractLsb'_append_high _ _ 6, extractLsb'_append_high _ _ 5,
    extractLsb'_append_high _ _ 4, extractLsb'_append_high _ _ 1, extractLsb'_append_high _ _ 0,
    extractLsb'_append_low _ _ (by omega), BitVec.extractLsb'_eq_self]

theorem State.status_reserved : s.status.extractLsb' 16 16 = 0 := by
  unfold State.status
  rw [extractLsb'_append_high _ _ 15, extractLsb'_append_high _ _ 14, extractLsb'_append_high _ _ 13,
    extractLsb'_append_high _ _ 12, extractLsb'_append_high _ _ 9, extractLsb'_append_high _ _ 8,
    extractLsb'_append_high _ _ 0, BitVec.extractLsb'_eq_self]
  rfl

end

/-- Settles O13: the fields by their places in the word, the codes row by row. -/
theorem statusFieldsAndCodes : Obligations.StatusFieldsAndCodes := by
  refine ⟨fun s => ⟨s.status_getLsbD_busy, s.status_getLsbD_done, s.status_getLsbD_err, s.status_getLsbD_overrun,
    s.status_kind, s.status_getLsbD_anyErr, s.status_cause, s.status_reserved⟩, ?codes⟩
  case codes => decide

section
variable (slot : BitVec 3) (f y x : Nat)

theorem packErrinfo_x : (packErrinfo slot f y x).extractLsb' 0 11 = BitVec.ofNat 11 x := by
  unfold packErrinfo
  rw [extractLsb'_append_low _ _ (by omega), BitVec.extractLsb'_eq_self]

theorem packErrinfo_y : (packErrinfo slot f y x).extractLsb' 11 11 = BitVec.ofNat 11 y := by
  unfold packErrinfo
  rw [extractLsb'_append_high _ _ 0, extractLsb'_append_low _ _ (by omega), BitVec.extractLsb'_eq_self]

theorem packErrinfo_f : (packErrinfo slot f y x).extractLsb' 22 3 = BitVec.ofNat 3 f := by
  unfold packErrinfo
  rw [extractLsb'_append_high _ _ 11, extractLsb'_append_high _ _ 0, extractLsb'_append_low _ _ (by omega),
    BitVec.extractLsb'_eq_self]

theorem packErrinfo_slot : (packErrinfo slot f y x).extractLsb' 25 3 = slot := by
  unfold packErrinfo
  rw [extractLsb'_append_high _ _ 14, extractLsb'_append_high _ _ 3, extractLsb'_append_high _ _ 0,
    extractLsb'_append_low _ _ (by omega), BitVec.extractLsb'_eq_self]

theorem packErrinfo_reserved : (packErrinfo slot f y x).extractLsb' 28 4 = 0 := by
  unfold packErrinfo
  rw [extractLsb'_append_high _ _ 17, extractLsb'_append_high _ _ 6, extractLsb'_append_high _ _ 3,
    extractLsb'_append_high _ _ 0, BitVec.extractLsb'_eq_self]
  rfl

end

/-- Settles O14: what `raise` writes, read back field by field. -/
theorem raiseRecordsCauseAndPosition : Obligations.RaiseRecordsCauseAndPosition := by
  intro s c slot f y x hf hy hx t
  refine ⟨rfl, t.status_getLsbD_busy, t.status_getLsbD_done, t.status_getLsbD_err, t.status_getLsbD_anyErr, t.status_kind,
    t.status_cause, ?x, ?y, ?f, packErrinfo_slot .., packErrinfo_reserved ..⟩
  case x => rw [State.raise_errinfo, packErrinfo_x, BitVec.toNat_ofNat, Nat.mod_eq_of_lt hx]
  case y => rw [State.raise_errinfo, packErrinfo_y, BitVec.toNat_ofNat, Nat.mod_eq_of_lt hy]
  case f => rw [State.raise_errinfo, packErrinfo_f, BitVec.toNat_ofNat, Nat.mod_eq_of_lt hf]

/-- No slot, position 0. -/
@[simp] theorem packErrinfo_zero : packErrinfo 0 0 0 0 = 0 := rfl

/-! ### Reset -/

theorem bufEntry_nil (x : Nat) : bufEntry [] x = BufEntry.reset := rfl

theorem State.blockReset_slot (s : State) (k : SlotId) : s.blockReset.slot k = none := by cases k <;> rfl

theorem exec_softReset (s : State) : exec .softReset s = .next s.startCommand.blockReset.finishCommand := rfl

/-- `DONE` alone, as reset leaves no error and no overrun behind. -/
theorem State.status_of_softReset (s : State) : s.blockReset.finishCommand.status = 0x00000002 := by
  rw [State.status_of_done rfl rfl]
  simp [State.reset, Reader.reset]

/-- Settles O11: the reset state with `DONE`, field by field. -/
theorem softResetResult : Obligations.SoftResetResult :=
  ⟨by decide, fun s => ⟨_, exec_softReset s, rfl, fun x => congrArg BufEntry.valid (bufEntry_nil x),
    s.startCommand.status_of_softReset, rfl, rfl, s.startCommand.blockReset_slot, rfl, rfl, fun i => rfl, rfl⟩⟩

theorem State.slotsBuilt_of_empty {s : State} (h : ∀ k, s.slot k = none) : s.slotsBuilt := by
  intro k m hk
  rw [h k] at hk
  cases hk

/-- Settles O59: nothing is listed, no slot is filled, and the position is that of an empty range. -/
theorem invariantsHoldAtReset : Obligations.InvariantsHoldAtReset := by
  refine ⟨⟨?wf, nofun, State.slotsBuilt_of_empty State.reset.blockReset_slot, rfl⟩, ?overrun⟩
  case wf => exact ⟨.nil, ⟨.nil, nofun⟩, .nil, nofun⟩
  case overrun => exact ⟨nofun, fun past => absurd past (Nat.not_lt_zero _)⟩

end Sys2Proof.Machine
end

