-- ==== Sys2Proof/Proofs/ReaderCommands.lean ====
section
/-! O18, O20, O21, O22, O32, O33: the commands of the reader and of the slots, each through its rule between the command's
beginning and its end (rules R156 to R158, R193, R214, R324). -/

namespace Sys2Proof.Machine

/-! ### A command through its rule -/

section
variable {body : State → Res Unit} {s : State}

theorem runCommand_of_ok {u : State} (h : body s.startCommand = .ok () u) :
    runCommand body s = .next u.finishCommand := by
  rw [runCommand, h]

theorem runCommand_of_err {c : Cause} {k : BitVec 3} {u : State} (h : body s.startCommand = .err c k u) :
    runCommand body s = .next (u.raiseAt0 c k) := by
  rw [runCommand, h]

theorem runCommand_of_refused {r : Refusal} (h : body s.startCommand = .refused r) :
    runCommand body s = .refused r := by
  rw [runCommand, h]

end

/-! ### `BR_START` and `BR_STOP` (rules R156, R158) -/

theorem crosses32_eq_true {r : Nat × Nat} : crosses32 r = true ↔ 2 ^ 32 < r.1 + r.2 := by simp [crosses32]

theorem crosses32_eq_false {r : Nat × Nat} : crosses32 r = false ↔ r.1 + r.2 ≤ 2 ^ 32 := by simp [crosses32]

/-- Settles O20: the crossing check, then the holes. -/
theorem brStartResult : Obligations.BrStartResult := by
  refine fun s => ⟨fun hrange hhole => ?starts, fun hrange => ?crosses, fun hrange hhole => ?noMemory⟩
  case starts =>
    have rule : brStartBody s.startCommand = .ok () s.startCommand.startReader :=
      (if_neg (Bool.eq_false_iff.1 (crosses32_eq_false.2 hrange))).trans (if_neg (Bool.eq_false_iff.1 hhole))
    exact runCommand_of_ok rule
  case crosses =>
    have rule : brStartBody s.startCommand = .err .badRange 0 s.startCommand := if_pos (crosses32_eq_true.2 hrange)
    exact runCommand_of_err rule
  case noMemory =>
    have rule : brStartBody s.startCommand = .refused .sourceNotBacked :=
      (if_neg (Bool.eq_false_iff.1 (crosses32_eq_false.2 hrange))).trans (if_pos hhole)
    exact runCommand_of_refused rule

theorem exec_brStop (s : State) :
    exec .brStop s = .next (s.startCommand.setResult (BitVec.ofNat 32 s.bytesConsumed)).finishCommand := rfl

/-- Settles O22: an empty range yields 0; a position past the end yields the whole length. -/
theorem brStopResult : Obligations.BrStopResult := by
  refine fun s => ⟨exec_brStop s, fun hstopped t ht => ?neverStarted, fun hstarted hexact hover t ht => ?overrun⟩ <;>
    rw [exec_brStop] at ht <;> cases ht
  case neverStarted => simp [State.bytesConsumed, Reader.rangeLen, hstopped]
  case overrun =>
    have past := hexact.1 hover
    have len : s.br.rangeLen = s.br.len.toNat := if_pos hstarted
    rw [State.finishCommand_result, State.setResult_result, State.bytesConsumed, min_eq_left (by omega), len,
      BitVec.ofNat_toNat, BitVec.setWidth_eq]

/-! ### `GET_BITS` (rules R155, R157) -/

/-- Two states with the same stream read the same bits. -/
theorem State.bitsAt_congr {s t : State} (h : ∀ i, t.streamBit i = s.streamBit i) (pos n : Nat) :
    t.bitsAt pos n = s.bitsAt pos n := by
  induction n with
  | zero => rfl
  | succ n ih => rw [State.bitsAt_succ, State.bitsAt_succ, ih, h]

@[simp] theorem State.peekBits_startCommand (s : State) (n : Nat) : s.startCommand.peekBits n = s.peekBits n :=
  State.bitsAt_congr (s := s) (t := s.startCommand) (fun _ => rfl) s.br.bitpos n

theorem getBitsBody_of_small {n : Nat} (hn : n ≤ 32) (s : State) :
    getBitsBody n s = (s.getBits n).andThen fun v t => .ok () (t.setResult (BitVec.ofNat 32 v)) :=
  if_neg (Nat.not_lt.2 hn)

theorem exec_getBits_of_peek {s : State} {n : BitVec 6} {v : Nat} (hn : n.toNat ≤ 32) (hv : s.peekBits n.toNat = .ok v) :
    exec (.getBits n) s =
      .next ((s.startCommand.consume n.toNat).setResult (BitVec.ofNat 32 v)).finishCommand := by
  have rule : getBitsBody n.toNat s.startCommand =
      .ok () ((s.startCommand.consume n.toNat).setResult (BitVec.ofNat 32 v)) := by
    rw [getBitsBody_of_small hn, State.getBits_eq_ok.2 ⟨by simpa using hv, rfl⟩, Res.ok_andThen]
  exact runCommand_of_ok rule

theorem exec_getBits_of_refused {s : State} {n : BitVec 6} {r : Refusal} (hn : n.toNat ≤ 32)
    (hr : s.peekBits n.toNat = .error r) : exec (.getBits n) s = .refused r := by
  have rule : getBitsBody n.toNat s.startCommand = .refused r := by
    rw [getBitsBody_of_small hn, State.getBits, State.peekBits_startCommand, hr, Res.refused_andThen]
  exact runCommand_of_refused rule

/-- From the end of the range on, every field reads as 0 (rule R155). -/
theorem State.bitsAt_past {s : State} {pos : Nat} (h : 8 * s.br.rangeLen ≤ pos) (n : Nat) : s.bitsAt pos n = .ok 0 := by
  induction n with
  | zero => rfl
  | succ n ih =>
    rw [State.bitsAt_succ, ih, State.streamBit_past (by omega)]
    rfl

/-- Settles O21: the field is the sum of rule R151; past the range, or without one, it is 0. -/
theorem getBitsResult : Obligations.GetBitsResult := by
  refine ⟨fun s n f hf hn => ?field, fun s n hn => ?tooMany, fun s n hn hpast => ?zeros⟩
  case field => exact exec_getBits_of_peek hn (State.bitsAt_eq_sum hf _ _)
  case tooMany =>
    have rule : getBitsBody n.toNat s.startCommand = .err .badNbits 0 s.startCommand := if_pos hn
    exact runCommand_of_err rule
  case zeros =>
    have past : 8 * s.br.rangeLen ≤ s.br.bitpos := by
      rcases hpast with h | h
      · exact h
      · simp [Reader.rangeLen, h]
    refine ⟨_, exec_getBits_of_peek hn (State.bitsAt_past past _), rfl, rfl, rfl, fun hpos _ => ?_⟩
    have beyond : 8 * s.br.rangeLen < s.br.bitpos + n.toNat := by omega
    exact Bool.or_eq_true_iff.2 (.inr (decide_eq_true beyond))

/-- A number of bits whose first one cannot be read cannot be read. -/
theorem State.bitsAt_of_first_refused {s : State} {pos : Nat} {r : Refusal} (h : s.streamBit pos = .error r) {n : Nat}
    (hn : 0 < n) : s.bitsAt pos n = .error r := by
  induction n, hn using Nat.le_induction with
  | base => rw [State.bitsAt_succ, State.bitsAt_zero, Nat.add_zero, h]; rfl
  | succ n _ ih => rw [State.bitsAt_succ, ih]; rfl

/-- Settles O18: the first bit of the field refuses the read. -/
theorem unreadableSourceRefuses : Obligations.UnreadableSourceRefuses := by
  intro s n hpos hn hin
  refine ⟨fun ht => exec_getBits_of_refused hn (State.bitsAt_of_first_refused ?changed hpos),
    fun ht hread => exec_getBits_of_refused hn (State.bitsAt_of_first_refused ?noValue hpos)⟩
  case changed => rw [State.streamBit, if_pos hin, if_pos ht]
  case noValue => simp only [State.streamBit, if_pos hin, ht, hread, Bool.false_eq_true, if_false]

/-! ### `DECODE` and `BUILD` (rules R193, R214) -/

theorem State.installModel_of_ok {s : State} {k : SlotId} {cl : List Nat} {m : Model} (h : buildModel cl = .ok m) :
    s.installModel k cl = .ok () (s.setSlot k (some m)) := by
  rw [State.installModel, h]

theorem State.installModel_of_error {s : State} {k : SlotId} {cl : List Nat} {c : Cause} (h : buildModel cl = .error c) :
    s.installModel k cl = .err c k.num (s.setSlot k none) := by
  rw [State.installModel, h]

theorem buildBody_of_count {k : SlotId} {s : State} (hn : s.regs.clvN.toNat ≤ maxSupportedSyms s.cfg) :
    buildBody k s = (s.installModel k (s.clvVector s.regs.clvN.toNat)).andThen fun _ t =>
      .ok () (t.setResult (t.regs.clvN.setWidth 32)) :=
  if_neg (Nat.not_lt.2 hn)

/-- Settles O33: the check of `CLV_N`, then the build of the vector. -/
theorem buildResult : Obligations.BuildResult := by
  intro s k n vector
  refine ⟨fun hn => ?badCount, fun hn m hm => ?built, fun hn c hc => ?fails⟩
  case badCount =>
    have rule : buildBody k s.startCommand = .err .badClvN 0 s.startCommand := if_pos hn
    exact runCommand_of_err rule
  case built =>
    have rule : buildBody k s.startCommand =
        .ok () ((s.startCommand.setSlot k (some m)).setResult (s.regs.clvN.setWidth 32)) := by
      rw [buildBody_of_count (s := s.startCommand) hn]
      exact congrArg (Res.andThen · _) (State.installModel_of_ok hm)
    have result : s.regs.clvN.setWidth 32 = BitVec.ofNat 32 n := BitVec.eq_of_toNat_eq (by simp [n])
    rw [← result]
    exact runCommand_of_ok rule
  case fails =>
    have rule : buildBody k s.startCommand = .err c k.num (s.startCommand.setSlot k none) := by
      rw [buildBody_of_count (s := s.startCommand) hn]
      exact congrArg (Res.andThen · _) (State.installModel_of_error hc)
    exact runCommand_of_err rule

end Sys2Proof.Machine
end

