-- ==== Sys2Proof/Proofs/DecodeSearch.lean ====
section
/-! O29, O30, O32: the reference decode finds exactly the leading codeword, and CR1's lookup and tail search find the same
(rules R210 to R215). -/

namespace Sys2Proof.Machine

/-! ### The smallest code length with a property -/

theorem find?_codeLengths_eq_some {p : Nat → Bool} {l : Nat} :
    codeLengths.find? p = some l ↔ (1 ≤ l ∧ l ≤ 16) ∧ p l = true ∧ ∀ a, 1 ≤ a → a < l → p a = false := by
  rw [codeLengths_eq_range', List.find?_range'_eq_some, ← codeLengths_eq_range', mem_codeLengths]
  simp only [Bool.not_eq_true']
  exact and_left_comm

theorem find?_codeLengths_eq_none {p : Nat → Bool} :
    codeLengths.find? p = none ↔ ∀ a, 1 ≤ a → a ≤ 16 → p a = false := by
  simp only [List.find?_eq_none, mem_codeLengths, Bool.not_eq_true, and_imp]

/-- The largest code length with a property. -/
theorem find?_reverse_codeLengths_eq_some {p : Nat → Bool} {l : Nat} (h : codeLengths.reverse.find? p = some l) :
    (1 ≤ l ∧ l ≤ 16) ∧ p l = true ∧ ∀ a, 1 ≤ a → a ≤ 16 → p a = true → a ≤ l := by
  obtain ⟨hp, longer, shorter, hsplit, hlonger⟩ := List.find?_eq_some_iff_append.1 h
  have falling : (longer ++ l :: shorter).Pairwise (· > ·) := hsplit ▸ (by decide)
  have mem {a : Nat} : a ∈ longer ++ l :: shorter ↔ 1 ≤ a ∧ a ≤ 16 := by
    rw [← hsplit, List.mem_reverse, mem_codeLengths]
  refine ⟨mem.1 (by simp), hp, fun a h1 h16 ha => ?_⟩
  rcases List.mem_append.1 (mem.2 ⟨h1, h16⟩) with hl | hl
  · simpa [ha] using hlonger a hl
  · rcases List.mem_cons.1 hl with rfl | hl
    · exact le_rfl
    · exact ((List.pairwise_cons.1 (List.pairwise_append.1 falling).2.1).1 a hl).le

namespace Model
variable (m : Model)

/-! ### A found length belongs to a leading codeword -/

theorem used_of_lt_maxCode {l w : Nat} (h : w < m.maxCode l) : 0 < m.num l := by
  by_contra unused
  rw [maxCode, if_pos (by omega)] at h
  omega

/-- The length that rule R210 finds has the number in its interval (rule R195). -/
theorem matchLength_eq_some {w l : Nat} (h : m.matchLength w = some l) :
    (1 ≤ l ∧ l ≤ 16) ∧ m.minCode l ≤ w ∧ w < m.maxCode l := by
  obtain ⟨hl, hw, hshorter⟩ := find?_codeLengths_eq_some.1 h
  refine ⟨hl, (m.maxCode_le_iff_minCode_le hl.1 hl.2).1 fun a h1 ha _ => ?_, of_decide_eq_true hw⟩
  have := of_decide_eq_false (hshorter a h1 ha)
  omega

/-- A number below some `max_codes[ℓ]` starts with a codeword. -/
theorem exists_leads_of_lt_maxCode (h16 : ∀ l ∈ m.cl, l ≤ 16) {w l : Nat} (h1 : 1 ≤ l) (hl : l ≤ 16)
    (hw : w < m.maxCode l) : ∃ s, m.leads s w := by
  cases hfound : m.matchLength w with
  | none =>
    have := of_decide_eq_false (find?_codeLengths_eq_none.1 hfound l h1 hl)
    omega
  | some a =>
    obtain ⟨⟨ha1, ha⟩, hlo, hhi⟩ := m.matchLength_eq_some hfound
    obtain ⟨s, hs, _⟩ := (m.mem_interval_iff_leads h16 ha1 ha (m.used_of_lt_maxCode hhi)).1 ⟨hlo, hhi⟩
    exact ⟨s, hs⟩

theorem decodeBits_of_no_leads (h16 : ∀ l ∈ m.cl, l ≤ 16) {w : Nat} (h : ∀ s, ¬ m.leads s w) :
    m.decodeBits w = .error .noCode := by
  cases hfound : m.matchLength w with
  | none => simp only [decodeBits, hfound]
  | some l =>
    obtain ⟨⟨h1, hl⟩, _, hw⟩ := m.matchLength_eq_some hfound
    obtain ⟨s, hs⟩ := m.exists_leads_of_lt_maxCode h16 h1 hl hw
    exact absurd hs (h s)

/-- Everything the reference decode answers on a built model (rules R210, R211, R215). -/
theorem decodeBits_cases (h16 : ∀ l ∈ m.cl, l ≤ 16) (w : Nat) :
    (∃ s, m.leads s w ∧ m.decodeBits w = .ok (s, m.lengthOf s)) ∨
      ((∀ s, ¬ m.leads s w) ∧ m.decodeBits w = .error .noCode) := by
  by_cases h : ∃ s, m.leads s w
  · obtain ⟨s, hs⟩ := h
    exact .inl ⟨s, hs, m.decodeBits_of_leads h16 hs⟩
  · have none : ∀ s, ¬ m.leads s w := fun s hs => h ⟨s, hs⟩
    exact .inr ⟨none, m.decodeBits_of_no_leads h16 none⟩

theorem decodeBits_eq_ok (h16 : ∀ l ∈ m.cl, l ≤ 16) {w s l : Nat} :
    m.decodeBits w = .ok (s, l) ↔ m.leads s w ∧ l = m.lengthOf s := by
  constructor
  · intro h
    rcases m.decodeBits_cases h16 w with ⟨v, hv, hd⟩ | ⟨_, hd⟩ <;> rw [hd] at h <;> cases h
    exact ⟨hv, rfl⟩
  · rintro ⟨hs, rfl⟩
    exact m.decodeBits_of_leads h16 hs

theorem decodeBits_eq_error (h16 : ∀ l ∈ m.cl, l ≤ 16) {w : Nat} {c : Cause} :
    m.decodeBits w = .error c ↔ c = .noCode ∧ ∀ s, ¬ m.leads s w := by
  constructor
  · intro h
    rcases m.decodeBits_cases h16 w with ⟨v, hv, hd⟩ | ⟨hnone, hd⟩ <;> rw [hd] at h <;> cases h
    exact ⟨rfl, hnone⟩
  · rintro ⟨rfl, hnone⟩
    exact m.decodeBits_of_no_leads h16 hnone

end Model

/-- Settles O29: a length is found exactly where a codeword leads, and then the place in `sorted` is its symbol's. -/
theorem decodeFindsTheLeadingCodeword : Obligations.DecodeFindsTheLeadingCodeword := by
  intro cl m w hm _
  obtain rfl := buildModel_eq_ok hm
  obtain ⟨_, h16, _, _⟩ := buildModel_checks hm
  refine ⟨fun s l => Model.decodeBits_eq_ok _ h16, ?noCode, fun h => ?indexRange⟩
  case noCode => rw [Model.decodeBits_eq_error _ h16, eq_self, true_and]
  case indexRange => cases ((Model.decodeBits_eq_error _ h16).1 h).1

/-! ### `DECODE` that finds nothing (rules R211, R214) -/

theorem State.decodeSymbol_of_error {s : State} {k : SlotId} {m : Model} {w : Nat} {c : Cause} (hk : s.slot k = some m)
    (hw : s.peekBits 16 = .ok w) (hc : m.decodeBits w = .error c) : s.decodeSymbol k = .err c k.num s := by
  simp only [State.decodeSymbol, State.decodeWith, hk, hw, hc]

/-- `DECODE` where `Decode` raises: nothing is consumed. -/
theorem exec_decode_of_err {s : State} {k : SlotId} {c : Cause}
    (h : s.startCommand.decodeSymbol k = .err c k.num s.startCommand) :
    exec (.decode k) s = .next (s.startCommand.raiseAt0 c k.num) := by
  simp only [exec, execDecode, runCommand, h, Res.err_andThen]

/-- Settles O32: an `EMPTY` slot, or a lookahead that no codeword leads. -/
theorem decodeErrorsConsumeNothing : Obligations.DecodeErrorsConsumeNothing := by
  refine fun s k => ⟨exec_decode_of_empty, fun m w hk built hw hnone => ?_⟩
  obtain ⟨_, h16, _, _⟩ := buildModel_checks built
  exact exec_decode_of_err (State.decodeSymbol_of_error (s := s.startCommand) hk
    ((s.peekBits_startCommand 16).trans hw) (m.decodeBits_of_no_leads h16 hnone))

/-! ### CR1's lookup and tail search (rules R189 to R192, R212) -/

namespace Model
variable (m : Model) (cfg : Config)

theorem tableBits_le : m.tableBits cfg ≤ 16 := by
  unfold tableBits maxTableBits
  split <;> omega

/-- A used length is at most `T` exactly when it is at most `ℓ*` (rule R191). -/
theorem le_tableBits_iff {a : Nat} (h1 : 1 ≤ a) (h16 : a ≤ 16) (hu : 0 < m.num a) :
    a ≤ m.tableBits cfg ↔ ∃ l, m.lStar cfg = some l ∧ a ≤ l := by
  have inTable (ha : a ≤ m.tableBits cfg) : (decide (a ≤ m.tableBits cfg) && decide (0 < m.num a)) = true := by
    simp [ha, hu]
  constructor
  · intro ha
    cases hstar : m.lStar cfg with
    | none =>
      exact absurd (inTable ha) (List.find?_eq_none.1 hstar a (List.mem_reverse.2 (mem_codeLengths.2 ⟨h1, h16⟩)))
    | some l =>
      obtain ⟨_, _, hlast⟩ := find?_reverse_codeLengths_eq_some hstar
      exact ⟨l, rfl, hlast a h1 h16 (inTable ha)⟩
  · rintro ⟨l, hstar, hal⟩
    obtain ⟨_, hp, _⟩ := find?_reverse_codeLengths_eq_some hstar
    simp only [Bool.and_eq_true, decide_eq_true_eq] at hp
    exact hal.trans hp.1

/-- A number that starts with a codeword is below `table_max_code` exactly when the codeword fits the table (rules R191,
R195). -/
theorem lt_tableMaxCode_iff (h16 : ∀ l ∈ m.cl, l ≤ 16) {s w : Nat} (h : m.leads s w) :
    w < m.tableMaxCode cfg ↔ m.lengthOf s ≤ m.tableBits cfg := by
  obtain ⟨⟨h1, hl⟩, used, hlo, hhi⟩ := m.leads_interval h16 h
  have past := (m.maxCode_le_iff_minCode_le h1 hl).2 hlo
  rw [m.le_tableBits_iff cfg h1 hl used, tableMaxCode]
  cases hstar : m.lStar cfg with
  | none => simp
  | some l =>
    obtain ⟨⟨hl1, hl16⟩, hp, _⟩ := find?_reverse_codeLengths_eq_some hstar
    simp only [Bool.and_eq_true, decide_eq_true_eq] at hp
    simp only [Option.some.injEq, exists_eq_left']
    constructor
    · intro hw
      by_contra longer
      exact absurd (past l hl1 (by omega) hp.2) (by omega)
    · intro hle
      rcases Nat.lt_or_eq_of_le hle with hlt | heq
      · exact hhi.trans (m.maxCode_lt_maxCode h1 hlt hl16 used hp.2)
      · rwa [heq] at hhi

/-- A used length that does not fit the table is not before `decode_start` (rule R192). -/
theorem decodeStart_le {a : Nat} (h1 : 1 ≤ a) (h16 : a ≤ 16) (hu : 0 < m.num a) (ha : m.tableBits cfg < a) :
    m.decodeStart cfg ≤ a := by
  have behind : (m.lStar cfg).getD 0 < a := by
    by_contra before
    cases hstar : m.lStar cfg with
    | none => rw [hstar, Option.getD_none] at before; omega
    | some l =>
      rw [hstar, Option.getD_some] at before
      exact absurd ((m.le_tableBits_iff cfg h1 h16 hu).2 ⟨l, hstar, by omega⟩) (by omega)
  unfold decodeStart
  cases hfound : codeLengths.find? fun l => decide ((m.lStar cfg).getD 0 < l) && decide (0 < m.num l) with
  | none => simpa [behind, hu] using find?_codeLengths_eq_none.1 hfound a h1 h16
  | some d =>
    obtain ⟨_, _, hshorter⟩ := find?_codeLengths_eq_some.1 hfound
    rw [Option.getD_some]
    by_contra hlt
    simpa [behind, hu] using hshorter a h1 (by omega)

/-- The top bits of the table index are the top bits of the number (rules R190, R212). -/
theorem tableIndex_div {w l t : Nat} (hl : l ≤ t) (ht : t ≤ 16) : w / 2 ^ (16 - t) / 2 ^ (t - l) = w / 2 ^ (16 - l) := by
  rw [Nat.div_div_eq_div_mul, ← Nat.pow_add]
  congr 2
  omega

/-- The lookup entry of a leading codeword that fits the table (rules R190, R212). -/
theorem lookup_of_leads (h16 : ∀ l ∈ m.cl, l ≤ 16) {s w : Nat} (h : m.leads s w)
    (hfits : m.lengthOf s ≤ m.tableBits cfg) :
    m.lookup cfg (w / 2 ^ (16 - m.tableBits cfg)) = some (s, m.lengthOf s) := by
  have index {v : Nat} (hv : m.lengthOf v ≤ m.tableBits cfg) := tableIndex_div (w := w) hv (m.tableBits_le cfg)
  obtain ⟨hs, hpos, hcode⟩ := h
  simp only [lookup]
  cases hfound : (List.range m.alphabet).find? _ with
  | none =>
    have := List.find?_eq_none.1 hfound s (List.mem_range.2 hs)
    simp [hpos, hfits, index hfits, hcode] at this
  | some v =>
    have hv := List.find?_some hfound
    simp only [Bool.and_eq_true, decide_eq_true_eq] at hv
    obtain ⟨⟨hvpos, hvfits⟩, hvcode⟩ := hv
    have leads : m.leads v w :=
      ⟨List.mem_range.1 (List.mem_of_find?_eq_some hfound), hvpos, (index hvfits).symm.trans hvcode⟩
    rw [m.leads_unique h16 leads ⟨hs, hpos, hcode⟩, Option.map_some]

/-- The tail search finds the length of a leading codeword that does not fit the table (rule R212). -/
theorem tailSearch_of_leads (h16 : ∀ l ∈ m.cl, l ≤ 16) {s w : Nat} (h : m.leads s w)
    (hlong : m.tableBits cfg < m.lengthOf s) :
    (codeLengths.find? fun l => decide (m.decodeStart cfg ≤ l) && decide (w + 1 ≤ m.maxCode l)) =
      some (m.lengthOf s) := by
  obtain ⟨⟨h1, hl⟩, used, _, hhi⟩ := m.leads_interval h16 h
  obtain ⟨_, _, hshorter⟩ := find?_codeLengths_eq_some.1 (m.matchLength_of_leads h16 h)
  refine find?_codeLengths_eq_some.2 ⟨⟨h1, hl⟩, ?_, fun a ha1 ha => ?_⟩
  · simpa [m.decodeStart_le cfg h1 hl used hlong] using hhi
  · rw [hshorter a ha1 ha, Bool.and_false]

/-- Rule R213 in a number of lookahead bits: both ways find the leading codeword, or none. -/
theorem decodeBitsFast_eq (h16 : ∀ l ∈ m.cl, l ≤ 16) (w : Nat) : m.decodeBitsFast cfg w = m.decodeBits w := by
  rcases m.decodeBits_cases h16 w with ⟨s, hs, hd⟩ | ⟨hnone, hd⟩
  · have table : w + 1 ≤ m.tableMaxCode cfg ↔ _ := m.lt_tableMaxCode_iff cfg h16 hs
    by_cases hfits : m.lengthOf s ≤ m.tableBits cfg
    · simp only [hd, decodeBitsFast, m.lookup_of_leads cfg h16 hs hfits]
      rw [if_pos (table.2 hfits)]
    · simp only [decodeBitsFast, decodeBits, m.tailSearch_of_leads cfg h16 hs (by omega), m.matchLength_of_leads h16 hs]
      rw [if_neg (fun hw => hfits (table.1 hw))]
  · have above {l : Nat} (h1 : 1 ≤ l) (hl : l ≤ 16) : ¬ w < m.maxCode l := fun hw =>
      let ⟨s, hs⟩ := m.exists_leads_of_lt_maxCode h16 h1 hl hw
      hnone s hs
    have table : ¬ w + 1 ≤ m.tableMaxCode cfg := by
      rw [tableMaxCode]
      cases hstar : m.lStar cfg with
      | none => simp
      | some l =>
        obtain ⟨⟨h1, hl⟩, _⟩ := find?_reverse_codeLengths_eq_some hstar
        exact above h1 hl
    have tail : (codeLengths.find? fun l => decide (m.decodeStart cfg ≤ l) && decide (w + 1 ≤ m.maxCode l)) = none :=
      find?_codeLengths_eq_none.2 fun a h1 ha => by
        have := above h1 ha
        simp only [Bool.and_eq_false_iff, decide_eq_false_iff_not]
        omega
    simp only [hd, decodeBitsFast, tail]
    rw [if_neg table]

end Model

/-- Settles O30: on the model of the slot both ways find the same in every lookahead. -/
theorem fastDecodeEqualsReference : Obligations.FastDecodeEqualsReference := by
  intro s k built
  unfold State.decodeSymbolFast State.decodeSymbol State.decodeWith
  cases hk : s.slot k with
  | none => rfl
  | some m =>
    obtain ⟨_, h16, _, _⟩ := buildModel_checks (built k m hk)
    simp only [m.decodeBitsFast_eq s.cfg h16]

end Sys2Proof.Machine
end

