-- ==== Sys2Proof/Proofs/DatapathSimulation.lean ====
section
/-! O23: CR1's shift register holds the next bits of the stream, left-justified (rule R44), and so answers what the
architectural reader answers (rules R160, R162). -/

namespace Sys2Proof.Machine

/-! ### Bits of the shift register, most significant first -/

/-- A byte placed behind `n` bits of the register. -/
theorem getMsbD_placed (c : BitVec 8) {n : Nat} (hn : n ≤ 24) (j : Nat) :
    (c.setWidth 32 <<< (24 - n)).getMsbD j = (decide (n ≤ j) && c.getMsbD (j - n)) := by
  simp only [BitVec.getMsbD, BitVec.getLsbD_shiftLeft, BitVec.getLsbD_setWidth]
  by_cases hj : n ≤ j
  · by_cases hin : j < n + 8
    · simp [hj, show j < 32 by omega, show ¬ 31 - j < 24 - n by omega, show 31 - j - (24 - n) = 7 - (j - n) by omega,
        show j - n < 8 by omega, show 31 - j < 32 by omega, show 7 - (j - n) < 32 by omega]
    · have outside : ¬ j < 32 ∨ 31 - j < 24 - n := by omega
      rcases outside with h | h <;> simp [h, show ¬ j - n < 8 by omega]
  · simp [hj, BitVec.getLsbD_of_ge c (31 - j - (24 - n)) (by omega)]

theorem getMsbD_shiftLeft_add (b : BitVec 32) (n j : Nat) : (b <<< n).getMsbD j = b.getMsbD (n + j) := by
  rw [BitVec.getMsbD_shiftLeft, Nat.add_comm]

/-- The number in the top bits, one bit more. -/
theorem topBits_succ (b : BitVec 32) {n : Nat} (hn : n < 32) :
    (b >>> (32 - (n + 1))).toNat = 2 * (b >>> (32 - n)).toNat + (b.getMsbD n).toNat := by
  have place : 32 - (n + 1) = 31 - n := by omega
  have next : 32 - n = 31 - n + 1 := by omega
  have bit : (b.getMsbD n).toNat = b.toNat / 2 ^ (31 - n) % 2 := by
    rw [BitVec.getMsbD, decide_eq_true hn, Bool.true_and, BitVec.getLsbD, Nat.toNat_testBit]
  rw [bit, place, next, BitVec.toNat_ushiftRight, BitVec.toNat_ushiftRight, Nat.shiftRight_succ, Nat.shiftRight_eq_div_pow]
  omega

section
variable {s : State} {pos : Nat} {d : Datapath}

/-- Where the register holds the stream's bits, its top bits are the number that the reader peeks (rule R151). -/
theorem bitsAt_eq_topBits {b : BitVec 32} {n : Nat} (hn : n ≤ 32)
    (h : ∀ j < n, s.streamBit (pos + j) = .ok (b.getMsbD j)) : s.bitsAt pos n = .ok (b >>> (32 - n)).toNat := by
  induction n with
  | zero => rw [BitVec.ushiftRight_eq_zero le_rfl]; rfl
  | succ n ih =>
    rw [State.bitsAt_succ, ih (by omega) fun j hj => h j (by omega), h n (by omega), topBits_succ b (by omega)]
    rfl

theorem Datapath.tracks_bits (h : d.tracks s pos) : ∀ j < d.bitCount, s.streamBit (pos + j) = .ok (d.bitBuf.getMsbD j) := by
  obtain ⟨_, _, _, hbits, _⟩ := h
  exact hbits

/-! ### `Refill` (rule R160) -/

/-- The byte that a refill places is the next one of the stream, zero past its end. -/
theorem refillByte_of_readable (hread : s.rangeReadable) (fetched : Nat) :
    ∃ c : BitVec 8,
      s.refillByte (s.br.base.toNat + min fetched s.br.rangeLen) =
        .ok (c, s.br.base.toNat + min (fetched + 1) s.br.rangeLen) ∧
      ∀ j < 8, s.streamBit (8 * fetched + j) = .ok (c.getMsbD j) := by
  unfold State.refillByte
  rcases Nat.lt_or_ge fetched s.br.rangeLen with hin | hpast
  · obtain ⟨ht, hbytes⟩ := hread
    obtain ⟨c, hc⟩ := Option.ne_none_iff_exists'.1 (hbytes _ hin)
    refine ⟨c, ?_, fun j hj => ?_⟩
    · rw [Nat.min_eq_left hin.le, Nat.min_eq_left hin, if_neg (by omega), ht, hc, if_neg Bool.false_ne_true]
      rfl
    · have byte : (8 * fetched + j) / 8 = fetched := by omega
      have bit : (8 * fetched + j) % 8 = j := by omega
      rw [State.streamBit_of_read (by omega) ht (by rw [byte]; exact hc), bit, BitVec.getMsbD, decide_eq_true hj,
        Bool.true_and]
  · refine ⟨0, ?_, fun j hj => ?_⟩
    · rw [Nat.min_eq_right hpast, Nat.min_eq_right (by omega), if_pos rfl]
    · rw [State.streamBit_past (by omega)]
      exact congrArg Except.ok BitVec.getMsbD_zero.symm

/-- One byte more in the register keeps the invariant of rule R44. -/
theorem Datapath.tracks_push {c : BitVec 8} {fetched : Nat} (hcount : d.bitCount ≤ 24)
    (hpos : 8 * fetched = pos + d.bitCount) (hbits : ∀ j < d.bitCount, s.streamBit (pos + j) = .ok (d.bitBuf.getMsbD j))
    (hzero : ∀ j, d.bitCount ≤ j → d.bitBuf.getMsbD j = false)
    (hc : ∀ j < 8, s.streamBit (8 * fetched + j) = .ok (c.getMsbD j)) :
    Datapath.tracks ⟨d.bitBuf ||| (c.setWidth 32 <<< (24 - d.bitCount)), d.bitCount + 8,
      s.br.base.toNat + min (fetched + 1) s.br.rangeLen⟩ s pos := by
  refine ⟨fetched + 1, by simp only; omega, by simp only; omega, fun j hj => ?_, fun j hj => ?_, rfl⟩ <;>
    simp only [BitVec.getMsbD_or, getMsbD_placed c hcount] at hj ⊢
  · rcases Nat.lt_or_ge j d.bitCount with hold | hnew
    · rw [hbits j hold]
      simp [Nat.not_le.2 hold]
    · rw [hzero j hnew, show pos + j = 8 * fetched + (j - d.bitCount) by omega, hc _ (by omega)]
      simp [hnew]
  · have outside : c.getMsbD (j - d.bitCount) = false := by simp [BitVec.getMsbD, show ¬ j - d.bitCount < 8 by omega]
    rw [hzero j (by omega), outside]
    simp

/-- `Refill` keeps the invariant, and has enough bits after its bytes. -/
theorem refill_of_tracks {need : Nat} (hneed : need ≤ 16) (hread : s.rangeReadable) (n : Nat) (h : d.tracks s pos)
    (henough : need ≤ d.bitCount + 8 * n) :
    ∃ e, s.refill need n d = .ok e ∧ e.tracks s pos ∧ need ≤ e.bitCount := by
  induction n generalizing d with
  | zero => exact ⟨d, rfl, h, by omega⟩
  | succ n ih =>
    unfold State.refill
    split
    case isTrue hfew =>
      obtain ⟨fetched, hpos, _, hbits, hzero, hnext⟩ := h
      obtain ⟨c, hbyte, hc⟩ := refillByte_of_readable hread fetched
      rw [hnext, hbyte]
      exact ih (Datapath.tracks_push (by omega) hpos hbits hzero hc) (by simp only; omega)
    case isFalse hmany => exact ⟨d, rfl, h, by omega⟩

/-! ### The calls (rules R160, R162) -/

/-- `Drop` moves the position (rule R160). -/
theorem Datapath.tracks_drop (h : d.tracks s pos) {n : Nat} (hn : n ≤ d.bitCount) : (d.drop n).tracks s (pos + n) := by
  obtain ⟨fetched, hpos, hcount, hbits, hzero, hnext⟩ := h
  refine ⟨fetched, ?_, ?_, fun j hj => ?_, fun j hj => ?_, hnext⟩ <;> simp only [Datapath.drop] at *
  · omega
  · omega
  · rw [getMsbD_shiftLeft_add, Nat.add_assoc, hbits _ (by omega)]
  · rw [getMsbD_shiftLeft_add, hzero _ (by omega)]

theorem extract_of_tracks {n : Nat} (hn : n ≤ 16) (hread : s.rangeReadable) (h : d.tracks s pos) :
    ∃ v e, s.extract n d = .ok (v, e) ∧ s.bitsAt pos n = .ok v ∧ e.tracks s (pos + n) := by
  obtain ⟨e, he, htracks, hcount⟩ := refill_of_tracks hn hread refillBound h (by rw [refillBound]; omega)
  have hbits := Datapath.tracks_bits htracks
  refine ⟨(e.bitBuf >>> (32 - n)).toNat, e.drop n, ?_, bitsAt_eq_topBits (by omega) fun j hj => hbits j (by omega),
    Datapath.tracks_drop htracks hcount⟩
  simp only [State.extract, he]
  split
  case isTrue h0 => rw [h0, BitVec.ushiftRight_eq_zero le_rfl]; rfl
  case isFalse => rfl

/-- `get_bits` answers the number that the reader reads, also where it reads it in two parts (rule R153). -/
theorem datapathGetBits_of_tracks {n : Nat} (hn : n ≤ 32) (hread : s.rangeReadable) (h : d.tracks s pos) :
    ∃ v e, s.datapathGetBits n d = .ok (v, e) ∧ s.bitsAt pos n = .ok v ∧ e.tracks s (pos + n) := by
  unfold State.datapathGetBits
  split
  case isTrue hsplit =>
    obtain ⟨hi, e, he, hhi, htracks⟩ := extract_of_tracks (n := n - 16) (by omega) hread h
    obtain ⟨lo, g, hg, hlo, htracks'⟩ := extract_of_tracks (n := 16) le_rfl hread htracks
    have whole : n - 16 + 16 = n := by omega
    refine ⟨hi * 2 ^ 16 + lo, g, ?_, ?_, by rwa [Nat.add_assoc, whole] at htracks'⟩
    · rw [he]
      simp only [hg]
    · rw [← whole, State.bitsAt_add, hhi]
      simp only [bind, Except.bind, hlo]
      rfl
  case isFalse => exact extract_of_tracks (by omega) hread h

theorem datapathPeek16_of_tracks (hread : s.rangeReadable) (h : d.tracks s pos) :
    ∃ v e, s.datapathPeek16 d = .ok (v, e) ∧ s.bitsAt pos 16 = .ok v ∧ e.tracks s pos ∧ 16 ≤ e.bitCount := by
  obtain ⟨e, he, htracks, hcount⟩ := refill_of_tracks le_rfl hread refillBound h (by rw [refillBound]; omega)
  have hbits := Datapath.tracks_bits htracks
  refine ⟨(e.bitBuf >>> 16).toNat, e, ?_, bitsAt_eq_topBits (by omega) fun j hj => hbits j (by omega), htracks, hcount⟩
  rw [State.datapathPeek16, he]

/-- Moving the reader's position leaves the stream and its range as they are. -/
theorem Datapath.tracks_consume {n : Nat} (h : d.tracks s (s.br.bitpos + n)) :
    d.tracks (s.consume n) (s.consume n).br.bitpos := h

/-- An empty register tracks a reader that has just started. -/
theorem Datapath.tracks_start (s : State) : (Datapath.start s.startReader).tracks s.startReader 0 :=
  ⟨0, rfl, Nat.zero_le _, nofun, fun j _ => BitVec.getMsbD_zero, by simp [Datapath.start]⟩

end

/-- Settles O23: each call refills to enough bits, answers the top bits of the register, and drops what is consumed. -/
theorem datapathSimulatesReader : Obligations.DatapathSimulatesReader := by
  intro s d hread h
  refine ⟨fun n hn => ?getBits, datapathPeek16_of_tracks hread h, fun l _ _ hl => ?drop, Datapath.tracks_start s⟩
  case getBits =>
    obtain ⟨v, e, he, hv, htracks⟩ := datapathGetBits_of_tracks hn hread h
    exact ⟨v, e, he, State.getBits_eq_ok.2 ⟨hv, rfl⟩, Datapath.tracks_consume htracks⟩
  case drop => exact Datapath.tracks_consume (Datapath.tracks_drop h hl)

end Sys2Proof.Machine
end

