-- ==== Sys2Proof/Proofs/HostAccesses.lean ====
section
/-! O4, O8, O9: what the outside does to an idle block, access by access: the register map (rules R31, R57), a word written to
`CMD` (rule R112), stores, palettes and the platform (rules R84, R90, R388, R390). -/

namespace Sys2Proof.Machine

/-! ### The step of an idle block -/

theorem step_of_idle_nil {s : State} (hidle : s.activity = .idle) (hin : s.inputs = []) : step s = .next s := by
  simp only [step, hidle, hin]

theorem step_of_idle_cons {s : State} {a : HostAction} {rest : List HostAction} (hidle : s.activity = .idle)
    (hin : s.inputs = a :: rest) : step s = hostAction a { s with inputs := rest } := by
  simp only [step, hidle, hin, State.popInput, List.tail_cons]

/-- Settles O4: the word is decoded and run with its write taken off the queue. -/
theorem stepRunsTheDecodedCommand : Obligations.StepRunsTheDecodedCommand := by
  intro s c rest i hpending hdecode
  rw [step_of_commandPending hpending, commandStep, hdecode]

/-- Settles O9: one action each. -/
theorem hostActionsOnAnIdleBlock : Obligations.HostActionsOnAnIdleBlock := by
  refine ⟨fun s => step_of_idle_nil, fun s rest hidle => ⟨fun addr b hin => ?store, ?_, ?_, ?_, ?_, ?_⟩⟩
  case store =>
    refine ⟨_, step_of_idle_cons hidle hin, rfl, fun a => Memory.read_write s.mem addr.toNat a b, ?_⟩
    rw [hostStore_br, Bool.or_eq_true, State.storeTouches, Bool.and_eq_true, decide_eq_true_eq, decide_eq_true_eq]
  all_goals exact fun _ _ hin => step_of_idle_cons hidle hin

/-! ### Fields and their masks (rule R31) -/

/-- A word cut to a field's width reads back as its masked bits. -/
theorem setWidth_setWidth_eq_and (v : Word) {n : Nat} {mask : Word}
    (hmask : mask = (BitVec.allOnes n).setWidth 32) : (v.setWidth n).setWidth 32 = v &&& mask := by
  subst hmask
  ext i hi
  by_cases h : i < n <;> simp [h, hi]

theorem DstBases.get_set (d : DstBases) {f g : Nat} (hf : f < 6) (hg : g < 6) (v : Word) :
    (d.set f v).get g = if g = f then v else d.get g := by
  interval_cases f <;> interval_cases g <;> rfl

theorem dstBaseFace_eq_some {off f : Nat} : dstBaseFace off = some f ↔ 0x48 ≤ off ∧ off < 0x60 ∧ (off - 0x48) / 4 = f := by
  rw [dstBaseFace, Option.ite_none_right_eq_some, Option.some_inj, and_assoc]
  rfl

theorem clvIndex_eq_some {cfg : Config} {off i : Nat} :
    clvIndex cfg off = some i ↔ 0x10000 ≤ off ∧ (off - 0x10000) / 4 < clvDepth cfg ∧ (off - 0x10000) / 4 = i := by
  rw [clvIndex, Option.ite_none_right_eq_some, Option.some_inj, and_assoc]
  rfl

/-! ### The register map (rule R31) -/

/-- Behind the registers with one field each stand `DST_BASE` and `CLV`. -/
theorem State.readReg_of_le (s : State) {off : Nat} (h : 0x48 ≤ off) :
    s.readReg off = ((dstBaseFace off).map s.regs.dstBase.get).getD
      (((clvIndex s.cfg off).map fun i => (s.clvAt i).setWidth 32).getD 0) := by
  have below {k : Nat} (hk : k < 0x48) : off ≠ k := by omega
  unfold State.readReg
  iterate 17 rw [if_neg (below (by decide))]
  cases dstBaseFace off with
  | some f => rfl
  | none => cases clvIndex s.cfg off <;> rfl

theorem State.readReg_dstBase (s : State) {off f : Nat} (h : dstBaseFace off = some f) :
    s.readReg off = s.regs.dstBase.get f := by
  obtain ⟨hlo, _, _⟩ := dstBaseFace_eq_some.1 h
  rw [s.readReg_of_le hlo, h]
  rfl

theorem dstBaseFace_of_le {off : Nat} (h : 0x60 ≤ off) : dstBaseFace off = none :=
  if_neg fun hface => absurd hface.2 (Nat.not_lt.2 h)

theorem State.readReg_clv {s : State} {off i : Nat} (h : clvIndex s.cfg off = some i) :
    s.readReg off = (s.clvAt i).setWidth 32 := by
  obtain ⟨hlo, _, _⟩ := clvIndex_eq_some.1 h
  rw [s.readReg_of_le (by omega), dstBaseFace_of_le (by omega), h]
  rfl

theorem State.readReg_unmapped {s : State} {off : Nat} (hlo : 0x60 ≤ off) (h : clvIndex s.cfg off = none) :
    s.readReg off = 0 := by
  rw [s.readReg_of_le (by omega), dstBaseFace_of_le hlo, h]
  rfl

/-! ### Reading back after a write (rules R31, R57) -/

/-- `CLV` shows at its own offsets alone. -/
theorem State.readReg_with_clv (s : State) (clv : List (Nat × BitVec 5)) {off : Nat} (h : clvIndex s.cfg off = none) :
    State.readReg { s with clv := clv } off = s.readReg off := by
  simp only [State.readReg, h]
  rfl

/-- A write of `CLV` (rule R37). -/
theorem State.readReg_writeReg_of_clv {s : State} {off other i : Nat} (v : Word) (hoff : off % 4 = 0)
    (hother : other % 4 = 0) (hi : clvIndex s.cfg off = some i) :
    (s.writeReg off v).readReg other = if other = off then (v.setWidth 5).setWidth 32 else s.readReg other := by
  have hw : s.writeReg off v = { s with clv := putOr 0 s.clv i (v.setWidth 5) } := by simp only [State.writeReg, hi]
  rw [hw]
  cases hj : clvIndex s.cfg other with
  | none =>
    rw [State.readReg_with_clv s _ hj, if_neg]
    rintro rfl
    rw [hi] at hj
    cases hj
  | some j =>
    obtain ⟨hlo, _, hi⟩ := clvIndex_eq_some.1 hi
    obtain ⟨hlo', _, hj'⟩ := clvIndex_eq_some.1 hj
    have same : j = i ↔ other = off := by omega
    rw [State.readReg_clv (s := { s with clv := putOr 0 s.clv i (v.setWidth 5) }) hj, State.readReg_clv hj]
    simp only [State.clvAt, lookupOr_putOr, same]
    split <;> rfl

/-- A write below `CLV` goes to the host-written registers (rule R57). -/
theorem State.writeReg_of_regs {s : State} {off : Nat} (v : Word) (h : clvIndex s.cfg off = none) :
    s.writeReg off v = { s with regs := s.regs.write off v } := by simp only [State.writeReg, h]

/-- A write of the host-written registers, register by register (rules R31, R57). -/
theorem Regs.write_eq (r : Regs) (off : Nat) (v : Word) : r.write off v =
    { srcBase := if off = offSrcBase then v else r.srcBase
      srcLen := if off = offSrcLen then v else r.srcLen
      clvN := if off = offClvN then v.setWidth 14 else r.clvN
      wb := if off = offWb then v.setWidth 11 else r.wb
      hb := if off = offHb then v.setWidth 11 else r.hb
      faces := if off = offFaces then v.setWidth 3 else r.faces
      numCE := if off = offNumCE then v.setWidth 16 else r.numCE
      numCS := if off = offNumCS then v.setWidth 16 else r.numCS
      numAE := if off = offNumAE then v.setWidth 16 else r.numAE
      numAS := if off = offNumAS then v.setWidth 16 else r.numAS
      rowPitch := if off = offRowPitch then v else r.rowPitch
      dstSize := if off = offDstSize then v else r.dstSize
      dstBase := match dstBaseFace off with
        | some f => r.dstBase.set f v
        | none => r.dstBase } := by
  unfold Regs.write
  iterate 12 refine ite_eq_iff'.2 ⟨fun h => by subst h; rfl, fun _ => ?_⟩
  simp only [*, reduceIte]
  cases dstBaseFace off <;> rfl

/-- Two different `DST_BASE` offsets name different faces. -/
theorem DstBases.get_set_of_ne (d : DstBases) (v : Word) {off other f g : Nat} (hoff : off % 4 = 0) (hother : other % 4 = 0)
    (hne : other ≠ off) (hf : dstBaseFace off = some f) (hg : dstBaseFace other = some g) : (d.set f v).get g = d.get g := by
  obtain ⟨hlo, hhi, hf⟩ := dstBaseFace_eq_some.1 hf
  obtain ⟨hlo', hhi', hg⟩ := dstBaseFace_eq_some.1 hg
  rw [DstBases.get_set d (by omega) (by omega), if_neg (by omega)]

theorem State.readReg_write_other {s : State} {off other : Nat} (v : Word) (hoff : off % 4 = 0)
    (hother : other % 4 = 0) (hne : other ≠ off) :
    State.readReg { s with regs := s.regs.write off v } other = s.readReg other := by
  have elsewhere {α : Type} {k : Nat} (hk : other = k) (a b : α) : (if off = k then a else b) = b :=
    if_neg fun h => hne (hk.trans h.symm)
  unfold State.readReg
  -- the registers that no host writes, then the twelve fields, then `DST_BASE` and `CLV`
  iterate 5 refine ite_congr rfl (fun _ => rfl) fun _ => ?_
  iterate 12
    refine ite_congr rfl (fun hk => ?_) fun _ => ?_
    · rw [Regs.write_eq]
      dsimp only
      rw [elsewhere hk]
  rw [Regs.write_eq]
  dsimp only
  cases hg : dstBaseFace other with
  | none => rfl
  | some g =>
    dsimp only
    cases hf : dstBaseFace off with
    | none => rfl
    | some f => exact DstBases.get_set_of_ne s.regs.dstBase v hoff hother hne hf hg

/-- The registers with one field each that the host can write (rule R31). -/
def fieldOffsets : List Nat :=
  [offSrcBase, offSrcLen, offRowPitch, offDstSize, offClvN, offWb, offHb, offFaces, offNumCE, offNumCS, offNumAE, offNumAS]

theorem State.readReg_write_field (s : State) {off : Nat} (v : Word) (h : off ∈ fieldOffsets) :
    some (State.readReg { s with regs := s.regs.write off v } off) = (fieldMask s.cfg off).map (v &&& ·) := by
  have whole : some v = some (v &&& 0xFFFFFFFF) := congrArg some BitVec.and_allOnes.symm
  have cut {n : Nat} {mask : Word} (hmask : mask = (BitVec.allOnes n).setWidth 32) :
      some ((v.setWidth n).setWidth 32) = some (v &&& mask) := congrArg some (setWidth_setWidth_eq_and v hmask)
  simp only [fieldOffsets, List.mem_cons, List.not_mem_nil, or_false] at h
  rcases h with rfl | rfl | rfl | rfl | rfl | rfl | rfl | rfl | rfl | rfl | rfl | rfl
  iterate 4 exact whole
  · exact cut (n := 14) rfl
  iterate 2 exact cut (n := 11) rfl
  · exact cut (n := 3) rfl
  iterate 4 exact cut (n := 16) rfl


/-- An offset without a field the host can write ignores the write (rule R57). -/
theorem Regs.write_of_not_field (r : Regs) {off : Nat} (v : Word) (h : off ∉ fieldOffsets) (hface : dstBaseFace off = none) :
    r.write off v = r := by
  simp only [fieldOffsets, List.mem_cons, List.not_mem_nil, or_false, not_or] at h
  simp only [Regs.write, h, hface, reduceIte]

theorem fieldMask_of_not_field (cfg : Config) {off : Nat} (h : off ∉ fieldOffsets) :
    fieldMask cfg off =
      if (dstBaseFace off).isSome then some 0xFFFFFFFF else if (clvIndex cfg off).isSome then some 0x1F else none := by
  simp only [fieldOffsets, List.mem_cons, List.not_mem_nil, or_false, not_or] at h
  simp only [fieldMask, h, or_self, reduceIte]

theorem State.readReg_write_same (s : State) (off : Nat) (v : Word) (hclv : clvIndex s.cfg off = none) :
    State.readReg { s with regs := s.regs.write off v } off =
      match fieldMask s.cfg off with
      | some m => v &&& m
      | none => s.readReg off := by
  by_cases hfield : off ∈ fieldOffsets
  · have written := s.readReg_write_field v hfield
    cases hmask : fieldMask s.cfg off with
    | none => rw [hmask] at written; cases written
    | some m => rw [hmask] at written; exact Option.some.inj written
  · rw [fieldMask_of_not_field s.cfg hfield, hclv]
    cases hface : dstBaseFace off with
    | none => rw [s.regs.write_of_not_field v hfield hface]; rfl
    | some f =>
      obtain ⟨_, hhi, hf⟩ := dstBaseFace_eq_some.1 hface
      have hf6 : f < 6 := by omega
      have written : (s.regs.write off v).dstBase = s.regs.dstBase.set f v := by simp only [Regs.write_eq, hface]
      rw [State.readReg_dstBase _ hface, written, DstBases.get_set _ hf6 hf6, if_pos rfl]
      exact BitVec.and_allOnes.symm

theorem fieldMask_clv {cfg : Config} {off i : Nat} (h : clvIndex cfg off = some i) : fieldMask cfg off = some 0x1F := by
  obtain ⟨hlo, _, _⟩ := clvIndex_eq_some.1 h
  have below : ∀ k ∈ fieldOffsets, k < 0x60 := by decide
  rw [fieldMask_of_not_field cfg fun hmem => absurd (below off hmem) (by omega), dstBaseFace_of_le (by omega), h]
  rfl

/-- What every aligned offset reads after an aligned write (rules R31, R57). -/
theorem State.readReg_writeReg (s : State) {off other : Nat} (v : Word) (hoff : off % 4 = 0) (hother : other % 4 = 0) :
    (s.writeReg off v).readReg other =
      if other = off then
        match fieldMask s.cfg off with
        | some m => v &&& m
        | none => s.readReg off
      else s.readReg other := by
  cases hclv : clvIndex s.cfg off with
  | some i =>
    rw [State.readReg_writeReg_of_clv v hoff hother hclv, fieldMask_clv hclv]
    exact if_congr Iff.rfl (setWidth_setWidth_eq_and v rfl) rfl
  | none =>
    rw [State.writeReg_of_regs v hclv]
    split
    case isTrue h => rw [h, State.readReg_write_same s off v hclv]
    case isFalse h => exact State.readReg_write_other v hoff hother h

/-! ### Bus accesses (rule R57) -/

theorem busAccessOk_of_aligned {off : Nat} (h : off % 4 = 0) : busAccessOk 4 off = true := by simp [busAccessOk, h]

theorem busAccessOk_of_bad {width off : Nat} (h : width ≠ 4 ∨ off % 4 ≠ 0) : busAccessOk width off = false := by
  rcases h with h | h <;> simp [busAccessOk, h]

theorem State.writeReg_frame (s : State) (off : Nat) (v : Word) :
    s.writeReg off v = { s with regs := (s.writeReg off v).regs, clv := (s.writeReg off v).clv } := by
  unfold State.writeReg
  split <;> rfl

/-- The two words of `BITPOS` (rule R35). -/
theorem bitpos_words {n : Nat} (h : n < 2 ^ 64) :
    (BitVec.ofNat 32 (n / 2 ^ 32)).toNat * 2 ^ 32 + (BitVec.ofNat 32 n).toNat = n := by
  simp only [BitVec.toNat_ofNat]
  omega

/-- Settles O8: writes by what every offset reads afterwards, reads by the map. -/
theorem registerAccesses : Obligations.RegisterAccesses := by
  refine ⟨fun s off v rest hidle hin hoff hcmd => ?write, fun s off rest hidle hin hoff => ?read,
    fun s off hoff hnone => ?noRegister, fun s width off v rest hidle hbad hin => ?refused, fun s => ?map⟩
  case write =>
    refine ⟨State.writeReg { s with inputs := rest } off v, ?_, State.writeReg_frame .., fun other hother =>
      State.readReg_writeReg { s with inputs := rest } v hoff hother⟩
    rw [step_of_idle_cons hidle hin, hostAction, busWrite, busAccessOk_of_aligned hoff, if_pos rfl, if_neg hcmd]
  case read =>
    rw [step_of_idle_cons hidle hin, hostAction, busRead, busAccessOk_of_aligned hoff]
    rfl
  case noRegister =>
    rcases hnone with rfl | hnone
    · rfl
    · simp only [hasRegister, Bool.or_eq_false_iff, decide_eq_false_iff_not, Option.isSome_eq_false_iff,
        Option.isNone_iff_eq_none] at hnone
      exact State.readReg_unmapped (Nat.not_lt.1 hnone.1) hnone.2
  case refused =>
    have bad := busAccessOk_of_bad hbad
    rcases hin with hin | hin <;> rw [step_of_idle_cons hidle hin]
    · simp only [hostAction, busWrite, bad, Bool.false_eq_true, if_false]
    · simp only [hostAction, busRead, bad, Bool.false_eq_true, if_false]
  case map =>
    refine ⟨rfl, rfl, rfl, rfl, bitpos_words, rfl, rfl, rfl, rfl, rfl, rfl, rfl, rfl, rfl, rfl, rfl, rfl, fun f hf => ?_,
      fun i hi => ?_⟩
    · exact State.readReg_dstBase s (dstBaseFace_eq_some.2 (by omega))
    · refine State.readReg_clv (clvIndex_eq_some.2 ⟨by omega, ?_, by omega⟩)
      rwa [show (0x10000 + 4 * i - 0x10000) / 4 = i by omega]

end Sys2Proof.Machine
end

