-- ==== Sys2Proof/Proofs/MetaSymbols.lean ====
section
/-! O5, O36, O37, O38: what a meta symbol does, how it is fetched, and everything one step of a receive can answer (rules R235
to R242, R245). -/

namespace Sys2Proof.Machine

/-! ### The reader moved -/

/-- `t` is `s` with the reader moved, if at all. -/
def State.Moves (s t : State) : Prop := t = s ∨ ∃ n, t = s.consume n

theorem State.Moves.refl (s : State) : s.Moves s := .inl rfl

theorem State.Moves.consume {s t : State} (h : s.Moves t) (n : Nat) : s.Moves (t.consume n) := by
  rcases h with rfl | ⟨m, rfl⟩
  · exact .inr ⟨n, rfl⟩
  · exact .inr ⟨m + n, State.consume_consume s m n⟩

theorem State.decodeSymbol_ok_moves {s t : State} {k : SlotId} {v : Nat} (h : s.decodeSymbol k = .ok v t) :
    ∃ n, t = s.consume n := by
  obtain ⟨_, _, l, _, _, _, rfl⟩ := State.decodeSymbol_eq_ok.1 h
  exact ⟨l, rfl⟩

theorem State.getBits_ok_moves {s t : State} {n v : Nat} (h : s.getBits n = .ok v t) : t = s.consume n :=
  (State.getBits_eq_ok.1 h).2

/-! ### The meta symbols' meanings (rules R236 to R241) -/

/-- Settles O36: the 17 length symbols are one meaning at 17 values. -/
theorem lengthSymbolsAppendTheirLength : Obligations.LengthSymbolsAppendTheirLength :=
  fun _ => ⟨rfl, rfl, rfl, rfl, rfl, rfl, rfl, rfl, rfl, rfl, rfl, rfl, rfl, rfl, rfl, rfl, rfl⟩

section
variable {s : State} {n : Nat}

theorem Receiver.rem_lt_iff (r : Receiver) (hn : 0 < n) : r.rem < n ↔ r.total < r.cl.length + n := by
  rw [Receiver.rem, Receiver.ofs]
  omega

theorem metaZeroRun_of_fits (hn : 0 < n) (h : s.recv.cl.length + n ≤ s.recv.total) :
    metaZeroRun n s = .next (s.appendLengths (List.replicate n 0)) :=
  if_neg (by rw [Receiver.rem_lt_iff _ hn]; omega)

theorem metaZeroRun_of_overshoot (hn : 0 < n) (h : s.recv.total < s.recv.cl.length + n) :
    metaZeroRun n s = .next (s.raiseAt0 .runOvershoot metaSlotNum) :=
  if_pos ((Receiver.rem_lt_iff _ hn).2 h)

theorem metaRepeat_of_no_previous (h : s.recv.previous = 0) :
    metaRepeat n s = .next (s.raiseAt0 .repeatNoPrev metaSlotNum) :=
  if_pos h

theorem metaRepeat_of_fits (hn : 0 < n) (hp : s.recv.previous ≠ 0) (h : s.recv.cl.length + n ≤ s.recv.total) :
    metaRepeat n s = .next (s.appendLengths (List.replicate n s.recv.previous)) :=
  (if_neg hp).trans (if_neg (by rw [Receiver.rem_lt_iff _ hn]; omega))

theorem metaRepeat_of_overshoot (hn : 0 < n) (hp : s.recv.previous ≠ 0) (h : s.recv.total < s.recv.cl.length + n) :
    metaRepeat n s = .next (s.raiseAt0 .runOvershoot metaSlotNum) :=
  (if_neg hp).trans (if_pos ((Receiver.rem_lt_iff _ hn).2 h))

theorem Receiver.previous_eq {r : Receiver} {p : Nat} (h : r.cl.getLast? = some p) : r.previous = p := by
  rw [Receiver.previous, h, Option.getD_some]

theorem Receiver.previous_eq_zero {r : Receiver} (h : r.cl = [] ∨ r.cl.getLast? = some 0) : r.previous = 0 := by
  rcases h with h | h
  · rw [Receiver.previous, h]; rfl
  · exact Receiver.previous_eq h

end

/-- Settles O37: no run is empty, so it exceeds the remaining count exactly when it exceeds the total. -/
theorem runSymbolsFillOrRaise : Obligations.RunSymbolsFillOrRaise := by
  refine ⟨fun s => ⟨fun e => ⟨metaZeroRun_of_fits (Nat.succ_pos _), metaZeroRun_of_overshoot (Nat.succ_pos _)⟩,
    fun e => ⟨metaZeroRun_of_fits (Nat.succ_pos _), metaZeroRun_of_overshoot (Nat.succ_pos _)⟩⟩, fun s => ?_⟩
  intro fail rep
  have repeats (n : Nat) (hn : 0 < n) :
      (s.recv.cl = [] ∨ s.recv.cl.getLast? = some 0 → metaRepeat n s = fail .repeatNoPrev) ∧
      ∀ p, s.recv.cl.getLast? = some p → p ≠ 0 →
        (s.recv.cl.length + n ≤ s.recv.total → metaRepeat n s = .next (s.appendLengths (List.replicate n p))) ∧
        (s.recv.total < s.recv.cl.length + n → metaRepeat n s = fail .runOvershoot) := by
    refine ⟨fun h => metaRepeat_of_no_previous (Receiver.previous_eq_zero h), fun p hp hne => ?_⟩
    obtain rfl := Receiver.previous_eq hp
    exact ⟨metaRepeat_of_fits hn hne, metaRepeat_of_overshoot hn hne⟩
  exact ⟨fun e => repeats _ (Nat.succ_pos _), fun e => repeats _ (Nat.succ_pos _)⟩

/-- What a meta symbol can do: it appends lengths, each at most 16 or one that stands there already, within the total; or it
raises (rules R236 to R241). -/
inductive State.MetaOutcome (s : State) : State → Prop where
  | fills (ls : List Nat) (some_ : ls ≠ []) (short : ∀ l ∈ ls, l ≤ 16 ∨ l ∈ s.recv.cl)
      (fits : s.recv.cl.length < s.recv.total → s.recv.cl.length + ls.length ≤ s.recv.total) :
      s.MetaOutcome (s.appendLengths ls)
  | raises (c : Cause) (listed : c = .repeatNoPrev ∨ c = .runOvershoot) : s.MetaOutcome (s.raiseAt0 c metaSlotNum)

theorem metaLength_outcome (s : State) {k : Nat} (hk : k ≤ 16) : ∃ t, metaLength k s = .next t ∧ s.MetaOutcome t :=
  ⟨_, rfl, .fills [k] (List.cons_ne_nil _ _) (by simpa using .inl hk) fun h => h⟩

theorem metaZeroRun_outcome (s : State) {n : Nat} (hn : 0 < n) : ∃ t, metaZeroRun n s = .next t ∧ s.MetaOutcome t := by
  rcases Nat.lt_or_ge s.recv.total (s.recv.cl.length + n) with hover | hfits
  · exact ⟨_, metaZeroRun_of_overshoot hn hover, .raises _ (.inr rfl)⟩
  · exact ⟨_, metaZeroRun_of_fits hn hfits, .fills _ (by simpa using Nat.pos_iff_ne_zero.1 hn)
      (fun l hl => .inl (by rw [List.eq_of_mem_replicate hl]; omega)) fun _ => by rwa [List.length_replicate]⟩

theorem Receiver.previous_mem {r : Receiver} (h : r.previous ≠ 0) : r.previous ∈ r.cl := by
  cases hlast : r.cl.getLast? with
  | none => exact absurd (by rw [Receiver.previous, hlast]; rfl) h
  | some p =>
    rw [Receiver.previous_eq hlast]
    exact List.mem_of_getLast? hlast

theorem metaRepeat_outcome (s : State) {n : Nat} (hn : 0 < n) : ∃ t, metaRepeat n s = .next t ∧ s.MetaOutcome t := by
  by_cases hp : s.recv.previous = 0
  · exact ⟨_, metaRepeat_of_no_previous hp, .raises _ (.inl rfl)⟩
  rcases Nat.lt_or_ge s.recv.total (s.recv.cl.length + n) with hover | hfits
  · exact ⟨_, metaRepeat_of_overshoot hn hp hover, .raises _ (.inr rfl)⟩
  · exact ⟨_, metaRepeat_of_fits hn hp hfits, .fills _ (by simpa using Nat.pos_iff_ne_zero.1 hn)
      (fun l hl => .inr (List.eq_of_mem_replicate hl ▸ Receiver.previous_mem hp)) fun _ => by rwa [List.length_replicate]⟩

/-- An instruction with a code in the meta alphabet has an outcome of a meta symbol. -/
theorem execStream_metaSymbol_outcome {symbol extra : Nat} {i : Instr} (h : decode (.metaSymbol symbol extra) = .ok i)
    (s : State) : ∃ t, execStream i s = .next t ∧ s.MetaOutcome t := by
  have code : encode i = .metaSymbol symbol extra := decodedCodesAreEncodings _ _ h
  cases i with
  | mZrunS e | mZrunL e => exact metaZeroRun_outcome s (Nat.succ_pos _)
  | mRepS e | mRepL e => exact metaRepeat_outcome s (Nat.succ_pos _)
  | nop | softReset | brStart | getBits | brStop | build | clear | decode | recvModel | unpack | refNew | refLeft | refTop
  | refDiag => cases code
  | _ => exact metaLength_outcome s (by omega)

theorem isCommand_of_decode_metaSymbol {symbol extra : Nat} {i : Instr} (h : decode (.metaSymbol symbol extra) = .ok i) :
    i.isCommand = false := by
  have code : encode i = .metaSymbol symbol extra := decodedCodesAreEncodings _ _ h
  cases i with
  | nop | softReset | brStart | getBits | brStop | build | clear | decode | recvModel | unpack => cases code
  | _ => rfl

/-! ### The fetch (rules R118, R235) -/

theorem le_of_decode_metaSymbol {symbol extra : Nat} {i : Instr} (h : decode (.metaSymbol symbol extra) = .ok i) :
    symbol ≤ 20 := by
  by_contra hs
  rw [decode, decodeMeta, if_pos (by omega)] at h
  cases h

/-- A field as wide as the symbol's extra bits always decodes. -/
theorem decode_metaSymbol_of_lt {symbol extra : Nat} (hs : symbol ≤ 20) (he : extra < 2 ^ metaExtraBits symbol) :
    ∃ i, decode (.metaSymbol symbol extra) = .ok i := by
  rw [decode, decodeMeta, if_neg (by omega), if_neg (by omega)]
  split_ifs <;> exact ⟨_, rfl⟩

section
variable {s t : State}

theorem fetchMeta_of_ok {u : State} {symbol extra : Nat} {i : Instr} (ht : s.decodeSymbol .metaCode = .ok symbol t)
    (hu : t.getBits (metaExtraBits symbol) = .ok extra u) (hi : decode (.metaSymbol symbol extra) = .ok i) :
    fetchMeta s = .ok i u := by
  rw [fetchMeta, ht, Res.ok_andThen, if_neg (by have := le_of_decode_metaSymbol hi; omega), hu, Res.ok_andThen, hi]

theorem fetchMeta_of_err {c : Cause} {n : BitVec 3} (h : s.decodeSymbol .metaCode = .err c n t) :
    fetchMeta s = .err c n t := by
  rw [fetchMeta, h, Res.err_andThen]

theorem fetchMeta_of_bad {symbol : Nat} (h : s.decodeSymbol .metaCode = .ok symbol t) (hs : 20 < symbol) :
    fetchMeta s = .err .badMetaSymbol metaSlotNum t := by
  rw [fetchMeta, h, Res.ok_andThen, if_pos hs]

theorem fetchMeta_of_refused {r : Refusal} (h : s.decodeSymbol .metaCode = .refused r) : fetchMeta s = .refused r := by
  rw [fetchMeta, h, Res.refused_andThen]

theorem fetchMeta_of_extra_refused {symbol : Nat} {r : Refusal} (h : s.decodeSymbol .metaCode = .ok symbol t)
    (hs : symbol ≤ 20) (hr : t.getBits (metaExtraBits symbol) = .refused r) : fetchMeta s = .refused r := by
  rw [fetchMeta, h, Res.ok_andThen, if_neg (by omega), hr, Res.refused_andThen]

/-! ### One step of a receive -/

theorem step_of_receiving (hact : s.activity = .receiving) (hreset : s.inputs.head? ≠ some .hardReset) :
    step s = receiveStep s := by
  have noReset : s.resetPending = false := by simpa [State.resetPending] using hreset
  simp only [step, innerStep, hact, noReset, Bool.false_eq_true, if_false]

theorem receiveStep_of_fetch_ok (hofs : s.recv.cl.length < s.recv.total) {i : Instr} (h : fetchMeta s = .ok i t) :
    receiveStep s = execStream i t := by
  rw [receiveStep, if_pos (show s.recv.ofs < s.recv.total from hofs), h]

theorem receiveStep_of_fetch_err (hofs : s.recv.cl.length < s.recv.total) {c : Cause} {k : BitVec 3}
    (h : fetchMeta s = .err c k t) : receiveStep s = .next (t.raiseAt0 c k) := by
  rw [receiveStep, if_pos (show s.recv.ofs < s.recv.total from hofs), h]

theorem receiveStep_of_fetch_refused (hofs : s.recv.cl.length < s.recv.total) {r : Refusal}
    (h : fetchMeta s = .refused r) : receiveStep s = .refused r := by
  rw [receiveStep, if_pos (show s.recv.ofs < s.recv.total from hofs), h]

/-- No symbol above 20 has extra bits, so nothing is read for one. -/
theorem le_of_extra_refused {symbol : Nat} {r : Refusal} (h : t.getBits (metaExtraBits symbol) = .refused r) :
    symbol ≤ 20 := by
  by_contra hs
  have none : metaExtraBits symbol = 0 := by
    unfold metaExtraBits
    split_ifs <;> omega
  rw [none] at h
  cases h

/-- Settles O5: the fetch case by case, then the instruction as `exec` gives it. -/
theorem stepRunsTheFetchedMetaSymbol : Obligations.StepRunsTheFetchedMetaSymbol := by
  refine ⟨fun s t u symbol extra i hact hreset hofs ht hu hi => ?fetched, fun s hact hreset hofs =>
    ⟨fun c n t h => ?fails, fun symbol t h hs => ?bad, fun r h => ?refused, fun symbol t r h hr => ?extraRefused⟩⟩ <;>
    rw [step_of_receiving hact hreset]
  case fetched =>
    rw [receiveStep_of_fetch_ok hofs (fetchMeta_of_ok ht hu hi)]
    exact execStream_eq_exec (isCommand_of_decode_metaSymbol hi) u
  case fails =>
    rw [receiveStep_of_fetch_err hofs (fetchMeta_of_err h)]
    obtain ⟨rfl, rfl⟩ := State.decodeSymbol_err h
    rfl
  case bad => exact receiveStep_of_fetch_err hofs (fetchMeta_of_bad h hs)
  case refused => exact receiveStep_of_fetch_refused hofs (fetchMeta_of_refused h)
  case extraRefused =>
    exact receiveStep_of_fetch_refused hofs (fetchMeta_of_extra_refused h (le_of_extra_refused hr) hr)

/-! ### Everything one step of a receive can answer -/

/-- The slot of the meta model holds one that `Build` made of at most 21 code sizes (rule R234). -/
def State.MetaBuilt (s : State) : Prop :=
  ∃ m, s.slot .metaCode = some m ∧ buildModel m.cl = .ok m ∧ m.cl.length ≤ 21

/-- Where the meta model is built, `Decode(5)` fails with `NO_CODE` alone (rule R215). -/
theorem State.MetaBuilt.decodeSymbol_err (hm : s.MetaBuilt) {c : Cause} {n : BitVec 3}
    (h : s.decodeSymbol .metaCode = .err c n t) : c = .noCode := by
  obtain ⟨m, hk, built, _⟩ := hm
  obtain ⟨_, h16, _, _⟩ := buildModel_checks built
  rcases s.decodeWith_cases .metaCode Model.decodeBits with
    ⟨h0, _⟩ | ⟨_, _, _, _, e⟩ | ⟨m', w, c', hk', _, hc, e⟩ | ⟨_, _, _, _, _, _, e⟩
  case inl => rw [hk] at h0; cases h0
  all_goals rw [State.decodeSymbol, e] at h; cases h
  obtain rfl := Option.some.inj (hk.symm.trans hk')
  exact ((m.decodeBits_eq_error h16).1 hc).1

/-- ... and answers a symbol of the meta alphabet. -/
theorem State.MetaBuilt.symbol_le (hm : s.MetaBuilt) {symbol : Nat} (h : s.decodeSymbol .metaCode = .ok symbol t) :
    symbol ≤ 20 := by
  obtain ⟨m, hk, built, hlen⟩ := hm
  obtain ⟨_, h16, _, _⟩ := buildModel_checks built
  obtain ⟨m', w, l, hk', _, hd, _⟩ := State.decodeSymbol_eq_ok.1 h
  obtain rfl := Option.some.inj (hk.symm.trans hk')
  obtain ⟨⟨hs, _⟩, _⟩ := (m.decodeBits_eq_ok h16).1 hd
  have : symbol < m.cl.length := hs
  omega

/-- What the fetch of a meta symbol answers, if it is not refused. -/
theorem fetchMeta_cases (s : State) :
    (∃ r, fetchMeta s = .refused r) ∨
    (∃ symbol extra i n, decode (.metaSymbol symbol extra) = .ok i ∧ fetchMeta s = .ok i (s.consume n)) ∨
    ∃ c t, fetchMeta s = .err c metaSlotNum t ∧ s.Moves t ∧ (s.MetaBuilt → c = .noCode) := by
  cases hd : s.decodeSymbol .metaCode with
  | refused r => exact .inl ⟨r, fetchMeta_of_refused hd⟩
  | err c n t =>
    obtain ⟨rfl, rfl⟩ := State.decodeSymbol_err hd
    exact .inr (.inr ⟨c, _, fetchMeta_of_err hd, .refl _, fun hm => hm.decodeSymbol_err hd⟩)
  | ok symbol t =>
    obtain ⟨n, rfl⟩ := State.decodeSymbol_ok_moves hd
    by_cases hs : symbol ≤ 20
    · cases hg : (s.consume n).getBits (metaExtraBits symbol) with
      | refused r => exact .inl ⟨r, fetchMeta_of_extra_refused hd hs hg⟩
      | err c k u => exact (State.getBits_ne_err _ _ _ _ _ hg).elim
      | ok extra u =>
        obtain ⟨hpeek, rfl⟩ := State.getBits_eq_ok.1 hg
        obtain ⟨i, hi⟩ := decode_metaSymbol_of_lt hs (State.peekBits_lt hpeek)
        have fetched := fetchMeta_of_ok hd hg hi
        rw [State.consume_consume] at fetched
        exact .inr (.inl ⟨symbol, extra, i, _, hi, fetched⟩)
    · exact .inr (.inr ⟨_, _, fetchMeta_of_bad hd (by omega), (State.Moves.refl s).consume n,
        fun hm => absurd (hm.symbol_le hd) hs⟩)

/-- What one step of a receive can answer: it fills, it raises while filling, or it completes the receive (rules R235,
R242). -/
inductive State.ReceiveOutcome (s : State) : State → Prop where
  | fills (n : Nat) (ls : List Nat) (some_ : ls ≠ []) (short : ∀ l ∈ ls, l ≤ 16 ∨ l ∈ s.recv.cl)
      (before : s.recv.cl.length < s.recv.total) (fits : s.recv.cl.length + ls.length ≤ s.recv.total) :
      s.ReceiveOutcome ((s.consume n).appendLengths ls)
  | raises (t : State) (c : Cause) (moved : s.Moves t)
      (listed : s.MetaBuilt → c ∈ [Cause.noCode, .repeatNoPrev, .runOvershoot]) :
      s.ReceiveOutcome (t.raiseAt0 c metaSlotNum)
  | overrun (behind : s.recv.total ≤ s.recv.cl.length) (h : s.br.overrun = true) :
      s.ReceiveOutcome (s.raiseAt0 .streamOverrun s.recv.target.num)
  | built (behind : s.recv.total ≤ s.recv.cl.length) (h : s.br.overrun = false)
      (built : buildModel s.recv.cl = .ok ⟨s.recv.cl⟩) :
      s.ReceiveOutcome
        ((s.setSlot s.recv.target (some ⟨s.recv.cl⟩)).setResult (BitVec.ofNat 32 s.recv.total)).finishCommand
  | buildFails (behind : s.recv.total ≤ s.recv.cl.length) (h : s.br.overrun = false) (c : Cause)
      (fails : buildModel s.recv.cl = .error c) :
      s.ReceiveOutcome ((s.setSlot s.recv.target none).raiseAt0 c s.recv.target.num)

theorem finishReceive_of_overrun (h : s.br.overrun = true) :
    finishReceive s = .next (s.raiseAt0 .streamOverrun s.recv.target.num) :=
  if_pos h

theorem finishReceive_of_built (h : s.br.overrun = false) {m : Model} (hm : buildModel s.recv.cl = .ok m) :
    finishReceive s =
      .next ((s.setSlot s.recv.target (some m)).setResult (BitVec.ofNat 32 s.recv.total)).finishCommand := by
  rw [finishReceive, h, if_neg Bool.false_ne_true, State.installModel_of_ok hm]

theorem finishReceive_of_error (h : s.br.overrun = false) {c : Cause} (hc : buildModel s.recv.cl = .error c) :
    finishReceive s = .next ((s.setSlot s.recv.target none).raiseAt0 c s.recv.target.num) := by
  rw [finishReceive, h, if_neg Bool.false_ne_true, State.installModel_of_error hc]

theorem receiveStep_of_complete (h : s.recv.total ≤ s.recv.cl.length) : receiveStep s = finishReceive s :=
  if_neg (Nat.not_lt.2 h)

/-- A step of a receive is refused, or has one of the outcomes; it never faults. -/
theorem receiveStep_cases (s : State) :
    (∃ r, receiveStep s = .refused r) ∨ ∃ t, receiveStep s = .next t ∧ s.ReceiveOutcome t := by
  rcases Nat.lt_or_ge s.recv.cl.length s.recv.total with hofs | hofs
  · rcases fetchMeta_cases s with ⟨r, hr⟩ | ⟨symbol, extra, i, n, hi, hf⟩ | ⟨c, t, hf, moved, hc⟩
    · exact .inl ⟨r, receiveStep_of_fetch_refused hofs hr⟩
    · obtain ⟨t, ht, outcome⟩ := execStream_metaSymbol_outcome hi (s.consume n)
      refine .inr ⟨t, (receiveStep_of_fetch_ok hofs hf).trans ht, ?_⟩
      cases outcome with
      | fills ls some_ short fits => exact .fills n ls some_ short hofs (fits hofs)
      | raises c listed =>
        refine .raises _ c ((State.Moves.refl s).consume n) fun _ => ?_
        rcases listed with rfl | rfl <;> simp
    · exact .inr ⟨_, receiveStep_of_fetch_err hofs hf, .raises t c moved fun hm => by simp [hc hm]⟩
  · rw [receiveStep_of_complete hofs]
    cases hover : s.br.overrun with
    | true => exact .inr ⟨_, finishReceive_of_overrun hover, .overrun hofs hover⟩
    | false =>
      rcases buildModel_cases s.recv.cl with hb | ⟨c, _, hb⟩
      · exact .inr ⟨_, finishReceive_of_built hover hb, .built hofs hover hb⟩
      · exact .inr ⟨_, finishReceive_of_error hover hb, .buildFails hofs hover c hb⟩

theorem receiveStep_outcome (h : receiveStep s = .next t) : s.ReceiveOutcome t := by
  rcases receiveStep_cases s with ⟨r, hr⟩ | ⟨u, hu, outcome⟩
  · rw [hr] at h; cases h
  · rw [hu] at h; cases h; exact outcome

theorem innerStep_of_receiving (h : s.activity = .receiving) : innerStep s = receiveStep s := by
  simp only [innerStep, h]

/-- Settles O38: of the outcomes of a step, those that complete a receive need a filled vector. -/
theorem fillLoopAdvancesWithinTotal : Obligations.FillLoopAdvancesWithinTotal := by
  intro s t hact hofs h16 ht
  rw [innerStep_of_receiving hact] at ht
  cases receiveStep_outcome ht with
  | fills n ls some_ short before fits =>
    refine .inr ⟨hact, rfl, rfl, ?_, ?_, List.prefix_append _ _, fun l hl => ?_⟩
    · have := List.length_pos_iff.2 some_
      simp only [State.appendLengths, State.consume_recv, List.length_append]
      omega
    · simpa [State.appendLengths] using fits
    · rcases List.mem_append.1 hl with hl | hl
      · exact h16 l hl
      · exact (short l hl).elim id (h16 l)
  | raises u c _ _ => exact .inl ⟨rfl, c, rfl⟩
  | overrun behind _ | built behind _ _ | buildFails behind _ c _ => omega

end
end Sys2Proof.Machine
end

