-- ==== Sys2Proof/Proofs/ReceiveFrame.lean ====
section
/-! O41: everything `RECV_MODEL` can leave, through its header, its fill loop and its completion (rules R230 to R244). -/

namespace Sys2Proof.Machine

/-! ### What no command of the stream changes -/

/-- The configuration, the host-written registers, `CLV`, the palettes and the host's own side. -/
def State.hostSide (s : State) :=
  (s.cfg, s.regs, s.clv, s.palCE, s.palCS, s.palAE, s.palAS, s.palPlaces, s.registerBase, s.holes, s.inputs, s.readData)

/-- What `RECV_MODEL` leaves alone: the host's side, the walker, memory and the reader's range. -/
def State.receiveRest (s : State) :=
  (s.hostSide, s.walk, s.blockBuf, s.mem, s.br.base, s.br.len, s.br.started, s.br.touched)

/-- Moving the position keeps `OVERRUN` exact (rule R42). -/
theorem State.overrunExact_consume {s : State} (h : s.overrunExact) (n : Nat) : (s.consume n).overrunExact := by
  have flag : (s.consume n).br.overrun = (s.br.overrun || decide (8 * s.br.rangeLen < s.br.bitpos + n)) := rfl
  rw [State.overrunExact, flag, State.consume_rangeLen, State.consume_bitpos, Bool.or_eq_true, decide_eq_true_eq,
    show s.br.overrun = true ↔ _ from h]
  omega

theorem State.Moves.trans {s t u : State} (h : s.Moves t) (hu : t.Moves u) : s.Moves u := by
  rcases hu with rfl | ⟨n, rfl⟩
  · exact h
  · exact h.consume n

/-- What holds of every state that a `RECV_MODEL k` begun in `s` reaches. -/
structure State.ReceiveFrame (s : State) (k : SlotId) (t : State) : Prop where
  rest : t.receiveRest = s.receiveRest
  forward : s.br.bitpos ≤ t.br.bitpos
  exact : s.overrunExact → t.overrunExact
  others : ∀ j, j ≠ k → j ≠ .metaCode → t.slot j = s.slot j

section
variable {s t : State} {k : SlotId}

namespace State.ReceiveFrame

theorem consume (h : s.ReceiveFrame k t) (n : Nat) : s.ReceiveFrame k (t.consume n) :=
  ⟨h.rest, h.forward.trans (Nat.le_add_right ..), fun hs => State.overrunExact_consume (h.exact hs) n, h.others⟩

theorem moves (h : s.ReceiveFrame k t) {u : State} (hu : t.Moves u) : s.ReceiveFrame k u := by
  rcases hu with rfl | ⟨n, rfl⟩
  · exact h
  · exact h.consume n

theorem setSlot (h : s.ReceiveFrame k t) {j : SlotId} (hj : j = k ∨ j = .metaCode) (m : Option Model) :
    s.ReceiveFrame k (t.setSlot j m) :=
  { h with
    others := fun i hk hm => by
      rw [State.slot_setSlot, if_neg (by rcases hj with rfl | rfl <;> assumption), h.others i hk hm] }

theorem appendLengths (h : s.ReceiveFrame k t) (ls : List Nat) : s.ReceiveFrame k (t.appendLengths ls) := { h with }
theorem setResult (h : s.ReceiveFrame k t) (v : Word) : s.ReceiveFrame k (t.setResult v) := { h with }
theorem finishCommand (h : s.ReceiveFrame k t) : s.ReceiveFrame k t.finishCommand := { h with }
theorem raiseAt0 (h : s.ReceiveFrame k t) (c : Cause) (n : BitVec 3) : s.ReceiveFrame k (t.raiseAt0 c n) := { h with }

end State.ReceiveFrame

/-! ### The header (rules R230 to R234) -/

/-- The code sizes are fields of three bits, one place of the vector each (rule R233). -/
theorem readMetaSizes_cases (order msz : List Nat) (s : State) :
    (∃ r, readMetaSizes order msz s = .refused r) ∨
    ∃ v t, readMetaSizes order msz s = .ok v t ∧ s.Moves t ∧ v.length = msz.length ∧
      ((∀ l ∈ msz, l < 8) → ∀ l ∈ v, l < 8) := by
  induction order generalizing msz s with
  | nil => exact .inr ⟨_, _, rfl, .refl s, rfl, id⟩
  | cons symbol order ih =>
    rw [readMetaSizes]
    cases hg : s.getBits metaSizeBits with
    | refused r => exact .inl ⟨r, rfl⟩
    | err c n t => exact (State.getBits_ne_err _ _ _ _ _ hg).elim
    | ok size t =>
      obtain ⟨hpeek, rfl⟩ := State.getBits_eq_ok.1 hg
      have hsize : size < 8 := State.peekBits_lt hpeek
      refine (ih (msz.set symbol size) _).imp id ?_
      rintro ⟨v, t, hv, moved, hlen, small⟩
      refine ⟨v, t, hv, ((State.Moves.refl s).consume _).trans moved, by simpa using hlen, fun hm => small ?_⟩
      intro l hl
      rcases List.mem_or_eq_of_mem_set hl with hl | rfl
      · exact hm l hl
      · exact hsize

/-- A vector with entries is refused for its lengths alone (rule R181). -/
theorem buildModel_error_of_ne_nil {cl : List Nat} {c : Cause} (hcl : cl ≠ []) (h : buildModel cl = .error c) :
    c = .badLmax ∨ c = .oversubscribed := by
  unfold buildModel at h
  split at h
  · simp_all
  · split at h
    · cases h; exact .inl rfl
    · split at h
      · cases h; exact .inl rfl
      · split at h <;> cases h
        exact .inr rfl

/-- The start of the fill loop: the meta model is in slot 5, and no entry is filled (rules R234, R235). -/
def State.fillStart (u : State) (k : SlotId) (total : Nat) (msz : List Nat) : State :=
  { u.setSlot .metaCode (some ⟨msz⟩) with activity := .receiving, recv := { target := k, total := total, cl := [] } }

/-- What the header of a receive can answer, where `u` is the state with the target emptied and some fields read. -/
inductive State.HeaderOutcome (s : State) (k : SlotId) : Res Unit → Prop where
  | refused (r : Refusal) : s.HeaderOutcome k (.refused r)
  | raises (u : State) (moved : (s.setSlot k none).Moves u) (c : Cause)
      (listed : c = .streamOverrun ∨ c = .badNumCodelengthCodes) : s.HeaderOutcome k (.err c metaSlotNum u)
  | empty (u : State) (moved : (s.setSlot k none).Moves u) (h : u.br.overrun = false) :
      s.HeaderOutcome k (.ok () (u.setResult 0).finishCommand)
  | metaFails (u : State) (moved : (s.setSlot k none).Moves u) (c : Cause)
      (listed : c = .badLmax ∨ c = .oversubscribed) : s.HeaderOutcome k (.err c metaSlotNum (u.setSlot .metaCode none))
  | ready (u : State) (moved : (s.setSlot k none).Moves u) (total : Nat) (hpos : 0 < total) (msz : List Nat)
      (hlen : msz.length = 21) (small : ∀ l ∈ msz, l < 8) (built : buildModel msz = .ok ⟨msz⟩) :
      s.HeaderOutcome k (.ok () (u.fillStart k total msz))

theorem receiveMetaModel_outcome {u : State} (moved : (s.setSlot k none).Moves u) {total : Nat} (hpos : 0 < total) :
    s.HeaderOutcome k (receiveMetaModel k total u) := by
  rw [receiveMetaModel]
  cases hg : u.getBits metaCountBits with
  | refused r => exact .refused r
  | err c n t => exact (State.getBits_ne_err _ _ _ _ _ hg).elim
  | ok ncodes t =>
    obtain rfl := State.getBits_ok_moves hg
    rw [Res.ok_andThen]
    split
    · exact .raises _ (moved.consume _) _ (.inr rfl)
    · rcases readMetaSizes_cases (metaOrder.take ncodes) (List.replicate metaSyms 0) (u.consume metaCountBits) with
        ⟨r, hr⟩ | ⟨msz, v, hv, moved', hlen, small⟩
      · rw [hr]; exact .refused r
      · rw [hv, Res.ok_andThen]
        have all := (moved.consume _).trans moved'
        have hlen : msz.length = 21 := by simpa [metaSyms] using hlen
        rcases v.installModel_cases .metaCode msz with ⟨hb, hi⟩ | ⟨c, hc, hi⟩ <;> rw [hi]
        · exact .ready v all total hpos msz hlen (small (by simp +contextual)) hb
        · exact .metaFails v all c (buildModel_error_of_ne_nil (by rintro rfl; cases hlen) hc)

theorem receiveHeader_outcome (s : State) (k : SlotId) : s.HeaderOutcome k (receiveHeader k s) := by
  rw [receiveHeader]
  cases hg : (s.setSlot k none).getBits s.cfg.totalSymsBits with
  | refused r => exact .refused r
  | err c n t => exact (State.getBits_ne_err _ _ _ _ _ hg).elim
  | ok total t =>
    obtain rfl := State.getBits_ok_moves hg
    have moved := (State.Moves.refl (s.setSlot k none)).consume s.cfg.totalSymsBits
    rw [Res.ok_andThen]
    split
    · split
      · exact .raises _ moved _ (.inl rfl)
      · next hover => exact .empty _ moved (by simpa using hover)
    · next hne => exact receiveMetaModel_outcome moved (Nat.pos_of_ne_zero hne)

/-! ### The fill loop and its end -/

/-- What slot 5 holds behind a header that has built the meta model (rule R234). -/
def State.HoldsSizes (t : State) : Prop :=
  ∃ m, t.slot .metaCode = some m ∧ buildModel m.cl = .ok m ∧ m.cl.length = 21 ∧ ∀ l ∈ m.cl, l < 8

/-- The causes of `RECV_MODEL` on a slot other than 5 (rule R327). -/
def receiveCauses : List Cause :=
  [.badNumCodelengthCodes, .badLmax, .oversubscribed, .noCode, .repeatNoPrev, .runOvershoot, .streamOverrun]

/-- An instant of the fill loop of a `RECV_MODEL k` begun in `s`. -/
structure State.Filling (s : State) (k : SlotId) (t : State) : Prop extends s.ReceiveFrame k t where
  receiving : t.activity = .receiving
  target : t.recv.target = k
  some_ : 0 < t.recv.total
  emptied : t.slot k = none
  sizes : t.HoldsSizes
  kept : t.result = s.result ∧ t.errinfo = s.errinfo ∧ t.anyErr = s.anyErr

/-- What a `RECV_MODEL k` begun in `s` leaves. -/
structure State.Received (s : State) (k : SlotId) (t : State) : Prop extends s.ReceiveFrame k t where
  idle : t.activity = .idle
  metaSlot : t.slot .metaCode = s.slot .metaCode ∨ t.slot .metaCode = none ∨ t.HoldsSizes
  ended :
    (t.ending = .done ∧ t.errinfo = s.errinfo ∧ t.anyErr = s.anyErr ∧
      ∀ m, t.slot k = some m → buildModel m.cl = .ok m) ∨
    ∃ c ∈ receiveCauses, t.ending = .raised c ∧ t.anyErr = true ∧ t.slot k = none ∧ t.result = s.result

theorem State.HoldsSizes.metaBuilt (h : t.HoldsSizes) : t.MetaBuilt := by
  obtain ⟨m, hm, built, hlen, _⟩ := h
  exact ⟨m, hm, built, hlen.le⟩

/-- A raise ends a receive whose target is empty. -/
theorem State.ReceiveFrame.raised (h : s.ReceiveFrame k t) {c : Cause} (hc : c ∈ receiveCauses) (n : BitVec 3)
    (hmeta : t.slot .metaCode = s.slot .metaCode ∨ t.slot .metaCode = none ∨ t.HoldsSizes) (hk : t.slot k = none)
    (hres : t.result = s.result) : s.Received k (t.raiseAt0 c n) :=
  { h.raiseAt0 c n with idle := rfl, metaSlot := hmeta, ended := .inr ⟨c, hc, rfl, rfl, hk, hres⟩ }

theorem State.Filling.raised (h : s.Filling k t) {c : Cause} (hc : c ∈ receiveCauses) (n : BitVec 3) :
    s.Received k (t.raiseAt0 c n) :=
  h.toReceiveFrame.raised hc n (.inr (.inr h.sizes)) h.emptied h.kept.1

theorem State.Filling.consume (h : s.Filling k t) (n : Nat) : s.Filling k (t.consume n) :=
  { h with toReceiveFrame := h.toReceiveFrame.consume n }

theorem State.Filling.moves (h : s.Filling k t) {u : State} (hu : t.Moves u) : s.Filling k u := by
  rcases hu with rfl | ⟨n, rfl⟩
  · exact h
  · exact h.consume n

theorem State.Filling.appendLengths (h : s.Filling k t) (ls : List Nat) : s.Filling k (t.appendLengths ls) := { h with }

/-- How far the fill loop is from its completion: one step per entry at most, and one for the completion (rule R245). -/
def State.fillMeasure (t : State) : Nat := t.recv.total - t.recv.cl.length + 1

/-- A step of a receive fills, nearer to the completion, or ends it. -/
theorem receiveStep_filling (h : s.Filling k t) (hk : k ≠ .metaCode) {u : State} (hu : t.ReceiveOutcome u) :
    (s.Filling k u ∧ u.fillMeasure < t.fillMeasure) ∨ s.Received k u := by
  cases hu with
  | fills n ls some_ short before fits =>
    refine .inl ⟨(h.consume n).appendLengths ls, ?_⟩
    have := List.length_pos_iff.2 some_
    simp only [State.fillMeasure, State.appendLengths, State.consume_recv, List.length_append]
    omega
  | raises v c moved listed =>
    have hc := listed h.sizes.metaBuilt
    exact .inr ((h.moves moved).raised (by simp [receiveCauses] at hc ⊢; tauto) _)
  | overrun behind hover => exact .inr (h.raised (by decide) _)
  | built behind hover hb =>
    refine .inr { ((h.toReceiveFrame.setSlot (.inl h.target) _).setResult _).finishCommand with
      idle := rfl, metaSlot := .inr (.inr ?_), ended := .inl ⟨rfl, h.kept.2.1, h.kept.2.2, fun m hm => ?_⟩ }
    · obtain ⟨m, hm, rest⟩ := h.sizes
      exact ⟨m, (State.slot_setSlot ..).trans ((if_neg (h.target ▸ hk.symm)).trans hm), rest⟩
    · have : some (⟨t.recv.cl⟩ : Model) = some m :=
        ((State.slot_setSlot ..).trans (if_pos h.target.symm)).symm.trans hm
      cases this
      exact hb
  | buildFails behind hover c hc =>
    have hne : t.recv.cl ≠ [] := by
      have := h.some_
      rintro hnil
      simp [hnil] at behind
      omega
    refine .inr ((h.toReceiveFrame.setSlot (.inl h.target) none).raised ?_ _ (.inr (.inr ?_)) ?_ h.kept.1)
    · rcases buildModel_error_of_ne_nil hne hc with rfl | rfl <;> decide
    · obtain ⟨m, hm, rest⟩ := h.sizes
      exact ⟨m, (State.slot_setSlot ..).trans ((if_neg (h.target ▸ hk.symm)).trans hm), rest⟩
    · exact (State.slot_setSlot ..).trans (if_pos h.target.symm)

end

/-- Where every inner step ends the command, or comes nearer to its end, or may be refused where `R` holds, a bound on the
distance is enough fuel (rule R320). -/
theorem runToIdle_cases {P Q : State → Prop} {R : Prop} (distance : State → Nat)
    (hP : ∀ s, P s → s.activity ≠ .idle ∧ 0 < distance s ∧
      ((R ∧ ∃ r, innerStep s = .refused r) ∨
        ∃ t, innerStep s = .next t ∧ ((P t ∧ distance t < distance s) ∨ (t.activity = .idle ∧ Q t))))
    {n : Nat} {s : State} (hs : P s) (hn : distance s ≤ n) :
    (R ∧ ∃ r, runToIdle n s = .refused r) ∨ ∃ t, runToIdle n s = .next t ∧ Q t := by
  induction n generalizing s with
  | zero =>
    have := (hP s hs).2.1
    omega
  | succ n ih =>
    obtain ⟨hact, _, ⟨hR, r, hr⟩ | ⟨t, ht, hout⟩⟩ := hP s hs
    · exact .inl ⟨hR, r, by simp only [runToIdle, if_neg hact, hr]⟩
    · rw [runToIdle_succ hact ht]
      rcases hout with ⟨hPt, hlt⟩ | ⟨hidle, hQ⟩
      · exact ih hPt (by omega)
      · exact .inr ⟨t, runToIdle_of_idle hidle, hQ⟩

section
variable {s : State} {k : SlotId}

theorem runToIdle_filling {t : State} (h : s.Filling k t) (hk : k ≠ .metaCode) {n : Nat} (hn : t.fillMeasure ≤ n) :
    (∃ r, runToIdle n t = .refused r) ∨ ∃ u, runToIdle n t = .next u ∧ s.Received k u := by
  refine (runToIdle_cases (P := s.Filling k) (R := True) State.fillMeasure (fun u hu => ?_) h hn).imp And.right id
  refine ⟨by rw [hu.receiving]; decide, Nat.succ_pos _, ?_⟩
  rw [innerStep_of_receiving hu.receiving]
  refine (receiveStep_cases u).imp (fun hr => ⟨trivial, hr⟩) ?_
  rintro ⟨v, hv, hout⟩
  exact ⟨v, hv, (receiveStep_filling hu hk hout).imp id fun hr => ⟨hr.idle, hr⟩⟩

/-- `RECV_MODEL` is refused, or ends as rules R243 and R244 say; it never faults. -/
theorem execRecvModel_cases (s : State) (hk : k ≠ .metaCode) :
    (∃ r, execRecvModel k s = .refused r) ∨ ∃ t, execRecvModel k s = .next t ∧ s.Received k t := by
  have emptied : (s.startCommand.setSlot k none).slot k = none := by simp
  have frame : s.ReceiveFrame k (s.startCommand.setSlot k none) :=
    State.ReceiveFrame.setSlot (s := s) (t := s.startCommand) ⟨rfl, le_rfl, id, fun _ _ _ => rfl⟩ (.inl rfl) none
  have metaKept : (s.startCommand.setSlot k none).slot .metaCode = s.slot .metaCode := by
    rw [State.slot_setSlot, if_neg hk.symm]; rfl
  have same {u : State} (moved : (s.startCommand.setSlot k none).Moves u) :
      u.slot .metaCode = s.slot .metaCode ∧ u.slot k = none ∧ u.result = s.result ∧ u.errinfo = s.errinfo ∧
        u.anyErr = s.anyErr := by
    rcases moved with rfl | ⟨n, rfl⟩ <;> exact ⟨metaKept, emptied, rfl, rfl, rfl⟩
  unfold execRecvModel
  rw [if_neg hk]
  generalize hh : receiveHeader k s.startCommand = header
  cases hh ▸ receiveHeader_outcome s.startCommand k with
  | refused r => exact .inl ⟨r, rfl⟩
  | raises u moved c listed =>
    obtain ⟨hmeta, hempty, hres, _, _⟩ := same moved
    refine .inr ⟨_, rfl, (frame.moves moved).raised ?_ _ (.inl hmeta) hempty hres⟩
    rcases listed with rfl | rfl <;> decide
  | empty u moved hover =>
    obtain ⟨hmeta, hempty, _, herr, hany⟩ := same moved
    exact .inr ⟨_, runToIdle_of_idle rfl, { ((frame.moves moved).setResult 0).finishCommand with
      idle := rfl, metaSlot := .inl hmeta
      ended := .inl ⟨rfl, herr, hany, fun m hm => by rw [show u.slot k = some m from hm] at hempty; cases hempty⟩ }⟩
  | metaFails u moved c listed =>
    obtain ⟨_, hempty, hres, _, _⟩ := same moved
    refine .inr ⟨_, rfl, ((frame.moves moved).setSlot (.inr rfl) none).raised ?_ _ (.inr (.inl ?_)) ?_ hres⟩
    · rcases listed with rfl | rfl <;> decide
    · simp
    · rw [State.slot_setSlot, if_neg hk, hempty]
  | ready u moved total hpos msz hlen small built =>
    obtain ⟨_, hempty, hres, herr, hany⟩ := same moved
    have framed := (frame.moves moved).setSlot (.inr rfl) (some ⟨msz⟩)
    have filling : s.Filling k (u.fillStart k total msz) :=
      { framed with
        receiving := rfl, target := rfl, some_ := hpos
        emptied := (State.slot_setSlot ..).trans ((if_neg hk).trans hempty)
        sizes := ⟨⟨msz⟩, Slots.get_set_self u.slots .metaCode _, built, hlen, small⟩
        kept := ⟨hres, herr, hany⟩ }
    exact runToIdle_filling filling hk le_rfl

theorem exec_recvModel_received {t : State} (hk : k ≠ .metaCode) (h : exec (.recvModel k) s = .next t) :
    s.Received k t := by
  rcases execRecvModel_cases s hk with ⟨r, hr⟩ | ⟨u, hu, hout⟩
  · cases hr.symm.trans h
  · cases hu.symm.trans h
    exact hout

/-- Settles O41: what the header, the fill loop and the completion leave. -/
theorem receiveFrame : Obligations.ReceiveFrame := by
  intro s t k hk ht
  have done := exec_recvModel_received hk ht
  refine ⟨?frame, done.forward, done.others, done.metaSlot, fun c hc => ?failed⟩
  case frame =>
    have rest := done.rest
    have idle := done.idle
    obtain ⟨_, _, _, _, _, _, _, ⟨⟩⟩ := t
    simp only [State.receiveRest, State.hostSide, Prod.mk.injEq] at rest idle
    simp [rest, idle]
  case failed =>
    rcases done.ended with ⟨hdone, _⟩ | ⟨_, _, _, _, hempty, hres⟩
    · rw [hdone] at hc; cases hc
    · exact ⟨hempty, hres⟩

end
end Sys2Proof.Machine
end

