-- ==== Sys2Proof/Proofs/ReceiveSent.lean ====
section
/-! O39 and O40: a receive of a model that the stream holds in the layout of rule R117, field by field and symbol by symbol. -/

namespace Sys2Proof.Machine

/-! ### Fields that the stream holds -/

theorem State.getBits_of_field {s : State} {n v : Nat} (h : s.streamHolds (fieldBits n v)) (hv : v < 2 ^ n) :
    s.getBits n = .ok v (s.consume n) :=
  State.getBits_eq_ok.2 ⟨State.peekBits_of_field h hv, rfl⟩

/-- The code sizes are read into the vector that they stand for (rule R233). -/
theorem readMetaSizes_of_fields {sizes order msz : List Nat} {s : State} {m : Nat} (hlen : sizes.length ≤ order.length)
    (small : ∀ z ∈ sizes, z < 8) (h : (s.consume m).streamHolds (sizes.flatMap (fieldBits 3))) :
    readMetaSizes (order.take sizes.length) msz (s.consume m) =
      .ok ((order.zip sizes).foldl (fun v p => v.set p.1 p.2) msz)
        (s.consume (m + (sizes.flatMap (fieldBits 3)).length)) := by
  induction sizes generalizing order msz m with
  | nil => simp [readMetaSizes]
  | cons z sizes ih =>
    cases order with
    | nil => simp at hlen
    | cons symbol order =>
      rw [List.flatMap_cons, State.streamHolds_append, length_fieldBits, State.consume_consume] at h
      obtain ⟨first, rest⟩ := h
      rw [List.length_cons, List.take_succ_cons, readMetaSizes,
        State.getBits_of_field (n := metaSizeBits) first (small z (by simp)), Res.ok_andThen, State.consume_consume,
        List.zip_cons_cons, List.foldl_cons, List.flatMap_cons, List.length_append, length_fieldBits, ← Nat.add_assoc]
      exact ih (Nat.le_of_succ_le_succ hlen) (fun y hy => small y (by simp [hy])) rest

/-! ### The header -/

section
variable {s : State} {k : SlotId} {total : Nat}

theorem receiveHeader_of_empty_overrun (h : s.streamHolds (fieldBits s.cfg.totalSymsBits 0))
    (hover : (s.consume s.cfg.totalSymsBits).br.overrun = true) :
    receiveHeader k s = .err .streamOverrun metaSlotNum ((s.setSlot k none).consume s.cfg.totalSymsBits) := by
  rw [receiveHeader, State.getBits_of_field (s := s.setSlot k none) h (Nat.two_pow_pos _), Res.ok_andThen, if_pos rfl]
  exact if_pos hover

theorem receiveHeader_of_empty (h : s.streamHolds (fieldBits s.cfg.totalSymsBits 0))
    (hover : (s.consume s.cfg.totalSymsBits).br.overrun = false) :
    receiveHeader k s = .ok () (((s.setSlot k none).consume s.cfg.totalSymsBits).setResult 0).finishCommand := by
  rw [receiveHeader, State.getBits_of_field (s := s.setSlot k none) h (Nat.two_pow_pos _), Res.ok_andThen, if_pos rfl]
  exact if_neg (Bool.eq_false_iff.1 hover)

theorem receiveHeader_of_total (hpos : 0 < total) (hlt : total < 2 ^ s.cfg.totalSymsBits)
    (h : s.streamHolds (fieldBits s.cfg.totalSymsBits total)) :
    receiveHeader k s = receiveMetaModel k total ((s.setSlot k none).consume s.cfg.totalSymsBits) := by
  rw [receiveHeader, State.getBits_of_field (s := s.setSlot k none) h hlt, Res.ok_andThen, if_neg (by omega)]

theorem receiveMetaModel_of_badCount {count : Nat} (hcount : count = 0 ∨ (22 ≤ count ∧ count ≤ 31))
    (h : s.streamHolds (fieldBits 5 count)) :
    receiveMetaModel k total s = .err .badNumCodelengthCodes metaSlotNum (s.consume 5) := by
  rw [receiveMetaModel, State.getBits_of_field (n := metaCountBits) h (by simp only [metaCountBits]; omega), Res.ok_andThen,
    if_pos (by simp only [metaSyms]; omega)]
  rfl

/-- A header whose fields the stream holds: what is left to it is the build of the meta model. -/
theorem receiveHeader_of_fields {sizes : List Nat} (hpos : 0 < total) (hlt : total < 2 ^ s.cfg.totalSymsBits)
    (h1 : 1 ≤ sizes.length) (h21 : sizes.length ≤ 21) (small : ∀ z ∈ sizes, z < 8)
    (h : s.streamHolds (fieldBits s.cfg.totalSymsBits total ++ fieldBits 5 sizes.length ++ sizes.flatMap (fieldBits 3))) :
    receiveHeader k s =
      (((s.setSlot k none).consume (fieldBits s.cfg.totalSymsBits total ++ fieldBits 5 sizes.length ++
        sizes.flatMap (fieldBits 3)).length).installModel .metaCode (metaVector sizes)).andThen fun _ v =>
          .ok () { v with activity := .receiving, recv := { target := k, total := total, cl := [] } } := by
  obtain ⟨⟨htotal, hcount⟩, hsizes⟩ := State.streamHolds_append.1 h |>.imp_left State.streamHolds_append.1
  rw [length_fieldBits] at hcount
  rw [List.length_append, length_fieldBits, length_fieldBits] at hsizes
  rw [receiveHeader_of_total hpos hlt htotal, receiveMetaModel,
    State.getBits_of_field (s := (s.setSlot k none).consume _) (n := metaCountBits) hcount
      (by simp only [metaCountBits]; omega),
    Res.ok_andThen, if_neg (by simp only [metaSyms]; omega), State.consume_consume]
  have sizesRead := readMetaSizes_of_fields (s := s.setSlot k none) (order := metaOrder)
    (msz := List.replicate metaSyms 0) h21 small hsizes
  rw [show s.cfg.totalSymsBits + metaCountBits = s.cfg.totalSymsBits + 5 from rfl, sizesRead, Res.ok_andThen,
    List.length_append, List.length_append, length_fieldBits, length_fieldBits]
  rfl

end

/-! ### The fill loop -/

theorem length_lt_of_expandSymbol {cl cl' : List Nat} {p : Nat × Nat} (h : expandSymbol cl p = some cl') :
    cl.length < cl'.length := by
  unfold expandSymbol at h
  dsimp only at h
  split_ifs at h <;> cases h <;> simp

theorem length_le_of_expandSymbols {symbols : List (Nat × Nat)} {cl cl' : List Nat}
    (h : symbols.foldlM expandSymbol cl = some cl') : cl.length + symbols.length ≤ cl'.length := by
  induction symbols generalizing cl with
  | nil => cases h; simp
  | cons p symbols ih =>
    obtain ⟨cl1, h1, h2⟩ := Option.bind_eq_some_iff.1 (List.foldlM_cons.symm.trans h)
    have := length_lt_of_expandSymbol h1
    have := ih h2
    simp only [List.length_cons]
    omega

/-- A state of the fill loop: `n` bits behind the state `u`, with the entries `cl`. -/
def State.filled (u : State) (n : Nat) (cl : List Nat) : State :=
  { u.consume n with recv := { u.recv with cl := cl } }

theorem State.filled_consume (u : State) (n m : Nat) (cl : List Nat) :
    (u.filled n cl).consume m = u.filled (n + m) cl := by
  rw [State.filled, State.filled, ← State.consume_consume]
  rfl

/-- A meta symbol's instruction adds the entries that the symbol stands for, where they fit (rules R236 to R241). -/
theorem execStream_of_expandSymbol {t : State} {symbol extra : Nat} {i : Instr} {cl : List Nat}
    (hi : decode (.metaSymbol symbol extra) = .ok i) (hcl : expandSymbol t.recv.cl (symbol, extra) = some cl)
    (hfits : cl.length ≤ t.recv.total) : execStream i t = .next { t with recv := { t.recv with cl := cl } } := by
  have zeroRun (n : Nat) (hn : 0 < n) (h : some (t.recv.cl ++ List.replicate n 0) = some cl) :
      metaZeroRun n t = .next { t with recv := { t.recv with cl := cl } } := by
    cases h
    exact metaZeroRun_of_fits hn (by simpa using hfits)
  have repeated (n : Nat) (hn : 0 < n)
      (h : (if t.recv.previous = 0 then none else some (t.recv.cl ++ List.replicate n t.recv.previous)) = some cl) :
      metaRepeat n t = .next { t with recv := { t.recv with cl := cl } } := by
    split at h <;> cases h
    next hp => exact metaRepeat_of_fits hn hp (by simpa using hfits)
  have code : encode i = .metaSymbol symbol extra := decodedCodesAreEncodings _ _ hi
  cases i with
  | nop | softReset | brStart | getBits | brStop | build | clear | decode | recvModel | unpack | refNew | refLeft | refTop
  | refDiag => cases code
  | mZrunS e | mZrunL e => cases code; exact zeroRun _ (Nat.succ_pos _) hcl
  | mRepS e | mRepL e => cases code; exact repeated _ (Nat.succ_pos _) hcl
  | _ => cases code; cases hcl; rfl

section
variable {u : State} {m : Model}

/-- One symbol of the stream is one step of the fill loop. -/
theorem receiveStep_of_symbol (hm : u.slot .metaCode = some m) (built : buildModel m.cl = .ok m) (hread : u.rangeReadable)
    {p : Nat × Nat} (hp : 0 < m.lengthOf p.1 ∧ p.2 < 2 ^ metaExtraBits p.1) {n : Nat} {cl cl' : List Nat}
    (hcl : expandSymbol cl p = some cl') (hfits : cl'.length ≤ u.recv.total)
    (h : (u.consume n).streamHolds (m.codeword p.1 ++ fieldBits (metaExtraBits p.1) p.2)) :
    receiveStep (u.filled n cl) =
      .next (u.filled (n + (m.codeword p.1 ++ fieldBits (metaExtraBits p.1) p.2).length) cl') := by
  obtain ⟨symbol, extra⟩ := p
  obtain ⟨hpos, hextra⟩ := hp
  have hlen := length_lt_of_expandSymbol hcl
  have codewordLen : (m.codeword symbol).length = m.lengthOf symbol := length_fieldBits _ _
  obtain ⟨hcode, hfield⟩ := State.streamHolds_append.1 h
  rw [codewordLen] at hfield
  have inAlphabet : symbol < m.alphabet := by
    by_contra hs
    rw [Model.lengthOf, List.getD_eq_getElem?_getD, List.getElem?_eq_none (Nat.not_lt.1 hs)] at hpos
    exact absurd hpos (Nat.lt_irrefl 0)
  have hs20 : symbol ≤ 20 := by
    by_contra hs
    unfold expandSymbol at hcl
    simp only at hcl
    split_ifs at hcl <;> omega
  have decoded : (u.filled n cl).decodeSymbol .metaCode = .ok symbol ((u.filled n cl).consume (m.lengthOf symbol)) :=
    State.decodeSymbol_of_codeword (s := u.filled n cl) hm built inAlphabet hpos hread hcode
  have field := State.getBits_of_field (s := (u.filled n cl).consume (m.lengthOf symbol)) hfield hextra
  obtain ⟨i, hi⟩ := decode_metaSymbol_of_lt hs20 hextra
  rw [receiveStep_of_fetch_ok (s := u.filled n cl) (hlen.trans_le hfits) (fetchMeta_of_ok decoded field hi),
    State.filled_consume, State.filled_consume,
    execStream_of_expandSymbol (t := u.filled (n + m.lengthOf symbol + metaExtraBits symbol) cl) hi hcl hfits,
    List.length_append, codewordLen, length_fieldBits, ← Nat.add_assoc]
  rfl

theorem runToIdle_of_complete {t : State} (hact : t.activity = .receiving) (h : t.recv.total ≤ t.recv.cl.length)
    (n : Nat) : runToIdle (n + 1) t = finishReceive t := by
  have ends : ∃ v, finishReceive t = .next v ∧ v.activity = .idle := by
    cases hover : t.br.overrun with
    | true => exact ⟨_, finishReceive_of_overrun hover, rfl⟩
    | false =>
      rcases buildModel_cases t.recv.cl with hb | ⟨c, _, hb⟩
      · exact ⟨_, finishReceive_of_built hover hb, rfl⟩
      · exact ⟨_, finishReceive_of_error hover hb, rfl⟩
  obtain ⟨v, hv, hidle⟩ := ends
  rw [runToIdle_succ (by rw [hact]; decide) ((innerStep_of_receiving hact).trans ((receiveStep_of_complete h).trans hv)),
    runToIdle_of_idle hidle, hv]

/-- The fill loop over the symbols of the stream, up to the completion. -/
theorem runToIdle_of_symbols (hact : u.activity = .receiving) (hm : u.slot .metaCode = some m)
    (built : buildModel m.cl = .ok m) (hread : u.rangeReadable) {symbols : List (Nat × Nat)}
    (hp : ∀ p ∈ symbols, 0 < m.lengthOf p.1 ∧ p.2 < 2 ^ metaExtraBits p.1) {n fuel : Nat} {cl cl' : List Nat}
    (hcl : symbols.foldlM expandSymbol cl = some cl') (hlen : cl'.length = u.recv.total)
    (h : (u.consume n).streamHolds (metaSymbolBits m symbols)) (hfuel : symbols.length < fuel) :
    runToIdle fuel (u.filled n cl) = finishReceive (u.filled (n + (metaSymbolBits m symbols).length) cl') := by
  obtain ⟨fuel, rfl⟩ : ∃ k, fuel = k + 1 := ⟨fuel - 1, by omega⟩
  induction symbols generalizing n fuel cl with
  | nil =>
    rw [show cl = cl' from Option.some.inj hcl]
    exact runToIdle_of_complete (t := u.filled n cl') hact hlen.ge fuel
  | cons p symbols ih =>
    obtain ⟨cl1, h1, h2⟩ := Option.bind_eq_some_iff.1 (List.foldlM_cons.symm.trans hcl)
    have split : metaSymbolBits m (p :: symbols) =
        (m.codeword p.1 ++ fieldBits (metaExtraBits p.1) p.2) ++ metaSymbolBits m symbols := List.flatMap_cons
    generalize hbits : m.codeword p.1 ++ fieldBits (metaExtraBits p.1) p.2 = bits at split
    rw [split, State.streamHolds_append, State.consume_consume] at h
    have grows := length_le_of_expandSymbols h2
    have stepped := receiveStep_of_symbol hm built hread (hp p (by simp)) h1 (by omega) (hbits ▸ h.1)
    rw [hbits] at stepped
    rw [List.length_cons] at hfuel
    obtain ⟨fuel, rfl⟩ : ∃ k, fuel = k + 1 := ⟨fuel - 1, by omega⟩
    rw [runToIdle_succ (s := u.filled n cl) (by rw [show (u.filled n cl).activity = _ from hact]; decide)
      ((innerStep_of_receiving (s := u.filled n cl) hact).trans stepped), split, List.length_append, ← Nat.add_assoc]
    exact ih (fun q hq => hp q (by simp [hq])) h2 h.2 fuel (by omega)

end

/-! ### The whole command -/

section
variable {s : State} {k : SlotId} {total : Nat} {sizes : List Nat} {symbols : List (Nat × Nat)} {cl : List Nat}
  {meta_ : Model}

theorem exec_recvModel_of_header_err (hk : k ≠ .metaCode) {c : Cause} {n : BitVec 3} {t : State}
    (h : receiveHeader k s.startCommand = .err c n t) : exec (.recvModel k) s = .next (t.raiseAt0 c n) := by
  rw [exec, execRecvModel, if_neg hk, h]

theorem exec_recvModel_of_header_ok (hk : k ≠ .metaCode) {t : State} (h : receiveHeader k s.startCommand = .ok () t) :
    exec (.recvModel k) s = runToIdle (t.recv.total + 1) t := by
  rw [exec, execRecvModel, if_neg hk, h]

/-- The end of the fill loop of a receive of `cl` by the meta model, `n` bits behind its start. -/
def State.sent (s : State) (k : SlotId) (total : Nat) (meta_ : Model) (n : Nat) (cl : List Nat) : State :=
  ((s.startCommand.setSlot k none).fillStart k total meta_.cl).filled n cl

/-- A receive of a model that the stream holds comes to its completion, behind the model's last bit. -/
theorem exec_recvModel_of_sent (hk : k ≠ .metaCode) (hread : s.rangeReadable) (hpos : 0 < total)
    (hlt : total < 2 ^ s.cfg.totalSymsBits) (h1 : 1 ≤ sizes.length) (h21 : sizes.length ≤ 21)
    (small : ∀ z ∈ sizes, z < 8) (hmeta : buildModel (metaVector sizes) = .ok meta_)
    (hp : ∀ p ∈ symbols, 0 < meta_.lengthOf p.1 ∧ p.2 < 2 ^ metaExtraBits p.1)
    (hcl : expandSymbols symbols = some cl) (hlen : cl.length = total)
    (h : s.streamHolds (modelBits s.cfg total sizes symbols)) :
    exec (.recvModel k) s =
      finishReceive (s.sent k total meta_ (modelBits s.cfg total sizes symbols).length cl) := by
  obtain rfl := buildModel_eq_ok hmeta
  obtain ⟨hheader, hsymbols⟩ := State.streamHolds_append.1 h
  have header := receiveHeader_of_fields (k := k) (s := s.startCommand) hpos hlt h1 h21 small hheader
  rw [State.installModel_of_ok hmeta, Res.ok_andThen] at header
  have enough : symbols.length ≤ total := by simpa [hlen] using length_le_of_expandSymbols hcl
  have behind : (modelBits s.cfg total sizes symbols).length = (fieldBits s.cfg.totalSymsBits total ++
      fieldBits 5 sizes.length ++ sizes.flatMap (fieldBits 3)).length + (metaSymbolBits ⟨metaVector sizes⟩ symbols).length :=
    List.length_append
  rw [exec_recvModel_of_header_ok hk header, behind]
  exact runToIdle_of_symbols (u := (s.startCommand.setSlot k none).fillStart k total (metaVector sizes)) rfl
    (Slots.get_set_self (s.startCommand.setSlot k none).slots .metaCode _) hmeta hread hp hcl hlen hsymbols
    (Nat.lt_succ_of_le enough)

theorem Slots.set_set_self (t : Slots) (k : SlotId) (a b : Option Model) : (t.set k a).set k b = t.set k b := by
  cases k <;> rfl

theorem Slots.set_comm {j k : SlotId} (h : j ≠ k) (t : Slots) (a b : Option Model) :
    (t.set j a).set k b = (t.set k b).set j a := by
  cases j <;> cases k <;> first | rfl | exact absurd rfl h

theorem State.consume_br_of_inside {n : Nat} (hover : s.br.overrun = false) (h : s.br.bitpos + n ≤ 8 * s.br.rangeLen) :
    (s.consume n).br = { s.br with bitpos := s.br.bitpos + n } := by
  have inside : (s.br.overrun || decide (8 * s.br.rangeLen < s.br.bitpos + n)) = s.br.overrun := by simp [hover, h]
  rw [State.consume, inside]

/-- The target is built where it was emptied, and the meta model stays in slot 5. -/
theorem State.sent_built (hk : k ≠ .metaCode) (n : Nat) (m : Model) :
    (((s.sent k total meta_ n cl).setSlot k (some m)).setResult (BitVec.ofNat 32 total)).finishCommand = { s with
      slots := (s.slots.set .metaCode (some meta_)).set k (some m)
      recv := { target := k, total := total, cl := cl }
      br := (s.consume n).br
      result := BitVec.ofNat 32 total
      ending := .done
      activity := .idle } := by
  have slots : ((s.slots.set k none).set .metaCode (some ⟨meta_.cl⟩)).set k (some m) =
      (s.slots.set .metaCode (some meta_)).set k (some m) := by
    rw [Slots.set_comm hk, Slots.set_set_self]
  rw [← slots]
  obtain ⟨⟩ := s
  rfl

/-- Settles O39: the completion builds the target. -/
theorem receiveInstallsTheSentModel : Obligations.ReceiveInstallsTheSentModel := by
  intro s k total sizes symbols cl meta_ m hk hread hover hpos hlt h1 h21 small hmeta hp hcl hlen hm h hfits
  have reader := State.consume_br_of_inside hover hfits
  have inside : (s.consume (modelBits s.cfg total sizes symbols).length).br.overrun = false := by rw [reader, hover]
  rw [exec_recvModel_of_sent hk hread hpos hlt h1 h21 small hmeta hp hcl hlen h,
    finishReceive_of_built (s := s.sent k total meta_ (modelBits s.cfg total sizes symbols).length cl) inside hm, ← reader]
  exact congrArg Host.Outcome.next (State.sent_built hk _ m)

/-- Settles O40: the header's ends case by case, and the two ends of the completion. -/
theorem receiveHeaderOutcomes : Obligations.ReceiveHeaderOutcomes := by
  refine ⟨fun s => ?slot5, fun s k hk h => ?empty, fun s k total count hk hpos hlt hcount h => ?badCount,
    fun s k total sizes hk hpos hlt h1 h21 small => ⟨fun c => ?metaFails, fun symbols cl meta_ => ?completion⟩⟩
  case slot5 =>
    rw [← packErrinfo_zero]
    rfl
  case empty =>
    refine ⟨fun hover => ?_, fun hover => ?_⟩
    · rw [exec_recvModel_of_header_ok hk (receiveHeader_of_empty (s := s.startCommand) h hover), runToIdle_of_idle rfl]
      rfl
    · rw [exec_recvModel_of_header_err hk (receiveHeader_of_empty_overrun (s := s.startCommand) h hover)]
      rfl
  case badCount =>
    obtain ⟨htotal, hc⟩ := State.streamHolds_append.1 h
    rw [length_fieldBits] at hc
    have header := (receiveHeader_of_total (k := k) (s := s.startCommand) hpos hlt htotal).trans
      (receiveMetaModel_of_badCount hcount hc)
    exact ⟨_, exec_recvModel_of_header_err hk header, rfl⟩
  case metaFails =>
    intro bits hc h
    have header := receiveHeader_of_fields (k := k) (s := s.startCommand) hpos hlt h1 h21 small h
    rw [State.installModel_of_error hc, Res.err_andThen] at header
    exact exec_recvModel_of_header_err hk header
  case completion =>
    intro bits fail hread hmeta hp hcl hlen h
    have comes := exec_recvModel_of_sent hk hread hpos hlt h1 h21 small hmeta hp hcl hlen h
    have slots : (s.slots.set k none).set .metaCode (some ⟨meta_.cl⟩) = (s.slots.set .metaCode (some meta_)).set k none :=
      Slots.set_comm hk ..
    simp only [fail, ← slots]
    refine ⟨fun hover => comes.trans (finishReceive_of_overrun (s := s.sent k total meta_ (modelBits s.cfg total sizes symbols).length cl) hover), fun hover c hc => ?_⟩
    have emptied : ((s.slots.set k none).set .metaCode (some ⟨meta_.cl⟩)).set k none =
        (s.slots.set k none).set .metaCode (some ⟨meta_.cl⟩) := by
      rw [Slots.set_comm hk, Slots.set_set_self]
    rw [comes, ← emptied]
    exact finishReceive_of_error (s := s.sent k total meta_ (modelBits s.cfg total sizes symbols).length cl) hover hc

end
end Sys2Proof.Machine
end

