-- ==== Sys2Proof/Proofs/WalkCodes.lean ====
section
/-! O6, O50 to O54: the reference codes, the fetch of one, the rest of a block, and the order of the walk (rules R267 to R279). -/

namespace Sys2Proof.Machine

/-! ### `Decode` in states with the same stream and slots -/

/-- `t` has the slots, the reader and the memory of `s`, which are all that `Decode` looks at (rule R210). -/
def State.SameStream (s t : State) : Prop := t.slots = s.slots ∧ t.br = s.br ∧ t.mem = s.mem

section
variable {s t : State} {k : SlotId}

theorem State.SameStream.peekBits (h : s.SameStream t) (n : Nat) : t.peekBits n = s.peekBits n := by
  obtain ⟨_, hbr, hmem⟩ := h
  rw [State.peekBits, State.peekBits, hbr]
  exact State.bitsAt_congr (fun i => State.streamBit_congr hmem (by rw [hbr]) (by rw [hbr]) (by rw [hbr]) i) _ n

theorem State.SameStream.slot (h : s.SameStream t) (k : SlotId) : t.slot k = s.slot k := by
  rw [State.slot, State.slot, h.1]

theorem State.SameStream.decode_ok (h : s.SameStream t) {v : Nat} {u : State} (hu : s.decodeSymbol k = .ok v u) :
    ∃ n, u = s.consume n ∧ t.decodeSymbol k = .ok v (t.consume n) := by
  obtain ⟨m, w, n, hk, hw, hd, rfl⟩ := State.decodeSymbol_eq_ok.1 hu
  exact ⟨n, rfl, State.decodeSymbol_eq_ok.2 ⟨m, w, n, (h.slot k).trans hk, (h.peekBits 16).trans hw, hd, rfl⟩⟩

theorem State.SameStream.decode_err (h : s.SameStream t) {c : Cause} {n : BitVec 3} {u : State}
    (hu : s.decodeSymbol k = .err c n u) : t.decodeSymbol k = .err c n t := by
  unfold State.decodeSymbol State.decodeWith at hu ⊢
  rw [h.slot k, h.peekBits 16]
  cases hk : s.slot k with
  | none => rw [hk] at hu; cases hu; rfl
  | some m =>
    rw [hk] at hu
    cases hw : s.peekBits 16 with
    | error r => rw [hw] at hu; cases hu
    | ok w =>
      rw [hw] at hu
      cases hf : m.decodeBits w with
      | error e => simp only [hf] at hu ⊢; cases hu; rfl
      | ok e => simp only [hf] at hu; cases hu

end

/-! ### Accumulators and the walker's entry -/

/-- `u` is `w` but for its accumulators. -/
def Walker.SamePlace (w u : Walker) : Prop :=
  u = { w with
    colorEndpointIndex := u.colorEndpointIndex, alpha0EndpointIndex := u.alpha0EndpointIndex,
    alpha1EndpointIndex := u.alpha1EndpointIndex }

theorem Walker.SamePlace.refl (w : Walker) : w.SamePlace w := rfl

theorem Walker.SamePlace.setIndex {w u : Walker} (h : w.SamePlace u) (ch : Channel) (v : Nat) :
    w.SamePlace (u.setIndex ch v) := by
  rw [Walker.SamePlace] at h
  rw [h]
  cases ch <;> rfl

theorem State.bufEntry_setEntry (s : State) (e : BufEntry) (x : Nat) :
    bufEntry (s.setEntry e).blockBuf x = if x = s.walk.x then e else bufEntry s.blockBuf x :=
  bufEntry_setBufEntry ..

theorem State.bufEntry_storeIndex (s : State) (ch : Channel) (x : Nat) :
    bufEntry (s.storeIndex ch).blockBuf x =
      if x = s.walk.x then (bufEntry s.blockBuf x).setIndex ch (s.walk.index ch) else bufEntry s.blockBuf x := by
  rw [State.storeIndex, State.bufEntry_setEntry]
  split
  · next hx => rw [hx, State.entry]
  · rfl

theorem State.bufEntry_markValid (s : State) (x : Nat) :
    bufEntry s.markValid.blockBuf x =
      if x = s.walk.x then { bufEntry s.blockBuf x with valid := true } else bufEntry s.blockBuf x := by
  rw [State.markValid, State.bufEntry_setEntry]
  split
  · next hx => rw [hx, State.entry]
  · rfl

/-! ### `REF_NEW` (rule R271) -/

/-- `a <- (a + d) mod n(a)`, then `block_buffer[x].a <- a`. -/
def State.addDelta (s : State) (ch : Channel) (d : Nat) : State :=
  (s.setAccumulator ch ((s.walk.index ch + d) % s.regs.endpointCount ch)).storeIndex ch

section
variable {s t : State} {a b : Channel} {d e : Nat}

theorem newIndices_cons_of_ok {chs : List Channel} (h : s.decodeSymbol a.deltaSlot = .ok d t) :
    newIndices (a :: chs) s = newIndices chs (t.addDelta a d) := by
  rw [newIndices, h, Res.ok_andThen]
  rfl

theorem newIndices_cons_of_err {chs : List Channel} {c : Cause} {n : BitVec 3}
    (h : s.decodeSymbol a.deltaSlot = .err c n t) : newIndices (a :: chs) s = .err c n t := by
  rw [newIndices, h, Res.err_andThen]

theorem State.addDelta_index (s : State) (a : Channel) (d : Nat) (ch : Channel) :
    (s.addDelta a d).walk.index ch =
      if ch = a then (s.walk.index a + d) % s.regs.endpointCount a else s.walk.index ch :=
  Walker.index_setIndex ..

theorem State.addDelta_bufEntry (s : State) (a : Channel) (d : Nat) (x : Nat) :
    bufEntry (s.addDelta a d).blockBuf x = if x = s.walk.x then
      (bufEntry s.blockBuf x).setIndex a ((s.addDelta a d).walk.index a) else bufEntry s.blockBuf x := by
  rw [State.addDelta, State.bufEntry_storeIndex]
  simp

@[simp] theorem State.addDelta_x (s : State) (a : Channel) (d : Nat) : (s.addDelta a d).walk.x = s.walk.x :=
  Walker.x_setIndex ..
@[simp] theorem State.addDelta_y (s : State) (a : Channel) (d : Nat) : (s.addDelta a d).walk.y = s.walk.y :=
  Walker.y_setIndex ..
@[simp] theorem State.addDelta_f (s : State) (a : Channel) (d : Nat) : (s.addDelta a d).walk.f = s.walk.f :=
  Walker.f_setIndex ..
@[simp] theorem State.addDelta_blocksWritten (s : State) (a : Channel) (d : Nat) :
    (s.addDelta a d).walk.blocksWritten = s.walk.blocksWritten := Walker.blocksWritten_setIndex ..

theorem State.addDelta_sameStream (s : State) (a : Channel) (d : Nat) : s.SameStream (s.addDelta a d) := ⟨rfl, rfl, rfl⟩

theorem FormatClass.ne_of_channels {k : FormatClass} (h : k.channels = [a, b]) : a ≠ b := by
  cases k <;> cases h <;> decide

theorem execRefNew_of_err {c : Cause} {n : BitVec 3} (h : newIndices s.walk.cls.channels s = .err c n t) :
    exec .refNew s = .next (t.raiseInWalk c n) := by
  rw [exec, execRefNew, h]
  rfl

theorem execRefNew_of_ok (h : newIndices s.walk.cls.channels s = .ok () t) : exec .refNew s = .next t.markValid := by
  rw [exec, execRefNew, h]
  rfl

end

/-- Settles O50: one delta per accumulator; the second `Decode` reads behind the first, which its delta does not disturb. -/
theorem refNewAddsDeltas : Obligations.RefNewAddsDeltas := by
  intro s walkAfter
  refine ⟨fun a d t hch hd => ?one, fun a b d e t v hch hd he => ?two, fun a b d c k t v hch hd he => ?secondFails,
    fun a chs c k t hch hd => ?firstFails⟩
  case one =>
    obtain ⟨n, rfl⟩ := State.decodeSymbol_ok_moves hd
    have ran : newIndices s.walk.cls.channels s = .ok () ((s.consume n).addDelta a d) := by
      rw [hch, newIndices_cons_of_ok hd]
      rfl
    refine ⟨_, execRefNew_of_ok ran, rfl, (Walker.SamePlace.refl s.walk).setIndex .., (s.consume n).addDelta_index a d,
      fun x => ?_⟩
    rw [State.bufEntry_markValid, State.addDelta_bufEntry]
    by_cases hx : x = s.walk.x <;> simp [hx, State.addDelta]
  case two =>
    have hab := FormatClass.ne_of_channels hch
    obtain ⟨n, rfl⟩ := State.decodeSymbol_ok_moves hd
    obtain ⟨m, rfl, he'⟩ := ((s.consume n).addDelta_sameStream a d).decode_ok he
    have ran : newIndices s.walk.cls.channels s = .ok () ((((s.consume n).addDelta a d).consume m).addDelta b e) := by
      rw [hch, newIndices_cons_of_ok hd, newIndices_cons_of_ok he']
      rfl
    refine ⟨_, execRefNew_of_ok ran, rfl, ((Walker.SamePlace.refl s.walk).setIndex ..).setIndex .., fun ch => ?_,
      fun x => ?_⟩
    · rw [State.markValid_walk, State.addDelta_index, State.consume_walk, State.addDelta_index, State.addDelta_index]
      rw [if_neg hab.symm]
      by_cases hb : ch = b
      · rw [if_pos hb, if_neg (hb ▸ hab.symm), if_pos hb]
        rfl
      · rw [if_neg hb, if_neg hb]
        rfl
    · rw [State.bufEntry_markValid, State.addDelta_bufEntry, State.consume_blockBuf, State.addDelta_bufEntry]
      by_cases hx : x = s.walk.x
      · have kept : (((((s.consume n).addDelta a d).consume m).addDelta b e).walk.index a) =
            ((s.consume n).addDelta a d).walk.index a := by simp [State.addDelta_index, hab]
        simp [hx, kept]
      · simp [hx]
  case secondFails =>
    obtain ⟨rfl, rfl⟩ := State.decodeSymbol_err he
    have ran : newIndices s.walk.cls.channels s = .err c b.deltaSlot.num (v.addDelta a d) := by
      rw [hch, newIndices_cons_of_ok hd, newIndices_cons_of_err ((v.addDelta_sameStream a d).decode_err he)]
    obtain ⟨n, rfl⟩ := State.decodeSymbol_ok_moves hd
    exact ⟨_, execRefNew_of_err ran, rfl, rfl, rfl, by simp [State.raiseInWalk], by simp [State.raiseInWalk]⟩
  case firstFails =>
    obtain ⟨rfl, rfl⟩ := State.decodeSymbol_err hd
    exact execRefNew_of_err (by rw [hch, newIndices_cons_of_err hd])

/-! ### `REF_LEFT`, `REF_TOP`, `REF_DIAG` (rules R272 to R274) -/

/-- What storing the accumulators of some channels does to the walker's entry. -/
theorem State.storeIndices_eq (chs : List Channel) (s : State) :
    (chs.foldl State.storeIndex s) = { s with blockBuf := (chs.foldl State.storeIndex s).blockBuf } ∧
    ∀ x, bufEntry (chs.foldl State.storeIndex s).blockBuf x =
      if x = s.walk.x then chs.foldl (fun e ch => e.setIndex ch (s.walk.index ch)) (bufEntry s.blockBuf x)
      else bufEntry s.blockBuf x := by
  induction chs generalizing s with
  | nil => exact ⟨rfl, fun x => by simp⟩
  | cons ch chs ih =>
    obtain ⟨frame, entries⟩ := ih (s.storeIndex ch)
    refine ⟨frame, fun x => ?_⟩
    rw [List.foldl_cons, entries x, State.bufEntry_storeIndex]
    by_cases hx : x = s.walk.x <;> simp [hx]

theorem BufEntry.index_foldl_setIndex (f : Channel → Nat) (chs : List Channel) (e : BufEntry) (ch : Channel) :
    (chs.foldl (fun e c => e.setIndex c (f c)) e).index ch = if ch ∈ chs then f ch else e.index ch := by
  induction chs generalizing e with
  | nil => simp
  | cons c chs ih =>
    rw [List.foldl_cons, ih, BufEntry.index_setIndex]
    by_cases h1 : ch ∈ chs <;> by_cases h2 : ch = c <;> simp [h1, h2]

theorem BufEntry.endpointReference_foldl_setIndex (f : Channel → Nat) (chs : List Channel) (e : BufEntry) :
    (chs.foldl (fun e c => e.setIndex c (f c)) e).endpointReference = e.endpointReference :=
  List.foldlRecOn (motive := fun d : BufEntry => d.endpointReference = e.endpointReference) chs _ rfl fun d hd c _ => by simp [hd]

/-- What loading the accumulators of some channels does: the entry stays, and so does the walker's place. -/
theorem State.loadIndices_eq (chs : List Channel) (s : State) :
    (chs.foldl State.loadIndex s) = { s with walk := (chs.foldl State.loadIndex s).walk } ∧
    s.walk.SamePlace (chs.foldl State.loadIndex s).walk ∧
    ∀ ch, (chs.foldl State.loadIndex s).walk.index ch = if ch ∈ chs then s.entry.index ch else s.walk.index ch := by
  induction chs generalizing s with
  | nil => exact ⟨rfl, rfl, fun ch => by simp⟩
  | cons c chs ih =>
    obtain ⟨frame, place, loaded⟩ := ih (s.loadIndex c)
    refine ⟨frame, ?_, fun ch => ?_⟩
    · have first := (Walker.SamePlace.refl s.walk).setIndex c (s.entry.index c)
      rw [Walker.SamePlace] at place first ⊢
      rw [List.foldl_cons, place, State.loadIndex, State.setAccumulator_walk, first]
    · rw [List.foldl_cons, loaded, State.entry_loadIndex, State.loadIndex, State.setAccumulator_walk,
        Walker.index_setIndex]
      by_cases h1 : ch ∈ chs <;> by_cases h2 : ch = c <;> simp [h1, h2]

theorem exec_refTop_of_valid {s : State} (h : s.entry.valid = true) :
    exec .refTop s = .next (s.walk.cls.channels.foldl State.loadIndex s) :=
  if_pos h

theorem exec_refTop_of_stale {s : State} (h : s.entry.valid = false) :
    exec .refTop s = .next (s.raiseInWalk .staleTop 0) :=
  if_neg (Bool.eq_false_iff.1 h)

/-- Settles O51: the stores and the loads over the channels of the class. -/
theorem refLeftStoresAndRefTopLoads : Obligations.RefLeftStoresAndRefTopLoads := by
  refine ⟨fun s => ?stores, fun s => ⟨fun hv => ?loads, fun hv => exec_refTop_of_stale hv⟩⟩
  case stores =>
    obtain ⟨frame, entries⟩ := s.storeIndices_eq s.walk.cls.channels
    have place : (s.walk.cls.channels.foldl State.storeIndex s).walk.x = s.walk.x := by rw [frame]
    refine ⟨_, rfl, ?_, fun x hx => ?_, ?_, ?_, fun ch => ?_⟩
    · rw [frame]; rfl
    all_goals rw [State.bufEntry_markValid, place]
    · rw [if_neg hx, entries x, if_neg hx]
    · rw [if_pos rfl]
    · rw [if_pos rfl, entries, if_pos rfl]
      exact BufEntry.endpointReference_foldl_setIndex ..
    · rw [if_pos rfl, entries, if_pos rfl]
      exact BufEntry.index_foldl_setIndex ..
  case loads =>
    obtain ⟨frame, place, loaded⟩ := s.loadIndices_eq s.walk.cls.channels
    exact ⟨_, exec_refTop_of_valid hv, place ▸ frame, loaded⟩

/-- Settles O52: `REF_DIAG` is a raise in the walk, whatever the class. -/
theorem refDiagRaisesReserved : Obligations.RefDiagRaisesReserved := fun _ => rfl

/-! ### The rest of a block (rules R275 to R277) -/

section
variable {s t : State} {a b : Channel} {chs : List Channel} {q : Selectors}

theorem readSelectors_cons_of_ok {v : Nat} (h : s.decodeSymbol a.selectorSlot = .ok v t)
    (hv : v < t.regs.selectorCount a) : readSelectors (a :: chs) q s = readSelectors chs (q.set a v) t := by
  rw [readSelectors, h, Res.ok_andThen, if_neg (Nat.not_le.2 hv)]

theorem readSelectors_cons_of_range {v : Nat} (h : s.decodeSymbol a.selectorSlot = .ok v t)
    (hv : t.regs.selectorCount a ≤ v) :
    readSelectors (a :: chs) q s = .err .selectorRange a.selectorSlot.num t := by
  rw [readSelectors, h, Res.ok_andThen, if_pos hv]

theorem readSelectors_cons_of_err {c : Cause} {n : BitVec 3} (h : s.decodeSymbol a.selectorSlot = .err c n t) :
    readSelectors (a :: chs) q s = .err c n t := by
  rw [readSelectors, h, Res.err_andThen]

theorem restOfBlock_of_err {c : Cause} {n : BitVec 3} (h : readSelectors s.walk.cls.channels {} s = .err c n t) :
    restOfBlock s = .next (t.raiseInWalk c n) := by
  rw [restOfBlock, restOfBlockWith, h]
  rfl

theorem restOfBlock_of_ok (h : readSelectors s.walk.cls.channels {} s = .ok q t) : restOfBlock s = endBlock q t := by
  rw [restOfBlock, restOfBlockWith, h]
  rfl

theorem endBlock_of_overrun (h : s.br.overrun = true) : endBlock q s = .next (s.raiseInWalk .streamOverrun 0) := if_pos h

theorem endBlock_of_visible (h : s.br.overrun = false) (hvis : s.regs.visible s.walk.y s.walk.x = true)
    (he : s.emit q = .ok t) : endBlock q s = .next t.advance := by
  rw [endBlock, h, if_neg Bool.false_ne_true, if_pos hvis, he]

theorem endBlock_of_refused (h : s.br.overrun = false) (hvis : s.regs.visible s.walk.y s.walk.x = true) {r : Refusal}
    (he : s.emit q = .error r) : endBlock q s = .refused r := by
  rw [endBlock, h, if_neg Bool.false_ne_true, if_pos hvis, he]

theorem endBlock_of_padded (h : s.br.overrun = false) (hvis : s.regs.visible s.walk.y s.walk.x = false) :
    endBlock q s = .next s.advance := by
  rw [endBlock, h, if_neg Bool.false_ne_true, if_neg (Bool.eq_false_iff.1 hvis)]

theorem Regs.visible_eq_true {r : Regs} {y x : Nat} : r.visible y x = true ↔ x < r.wb.toNat ∧ y < r.hb.toNat := by
  simp [Regs.visible]

theorem Regs.visible_eq_false {r : Regs} {y x : Nat} : r.visible y x = false ↔ r.wb.toNat ≤ x ∨ r.hb.toNat ≤ y := by
  rw [← Bool.not_eq_true, Regs.visible_eq_true]
  omega

theorem State.emit_of_words {ws : List Word} (h : s.blockWords q = .ok ws) : s.emit q = .ok { s with
    mem := s.mem.writeWords s.walkAddr ws
    walk := { s.walk with blocksWritten := s.walk.blocksWritten + 1 } } :=
  State.emit_eq_ok.2 ⟨ws, h, rfl⟩

theorem State.emit_of_refused {r : Refusal} (h : s.blockWords q = .error r) : s.emit q = .error r := by
  rw [State.emit, h]

end

/-- Settles O53: the selectors one after the other, then the end of the block. -/
theorem restOfBlockChecksThenWrites : Obligations.RestOfBlockChecksThenWrites := by
  intro s
  refine ⟨fun a chs c n t hch h => ?firstFails, fun a b v u c n t hch ha hv h => ?secondFails,
    fun a chs v t hch h hv => ?firstRange, fun a b v w u t hch ha hv hb hw => ?secondRange, fun q t hread => ?block⟩
  case firstFails =>
    obtain ⟨rfl, rfl⟩ := State.decodeSymbol_err h
    exact restOfBlock_of_err (by rw [hch, readSelectors_cons_of_err h])
  case secondFails =>
    obtain ⟨_, rfl⟩ := State.decodeSymbol_ok_moves ha
    obtain ⟨rfl, rfl⟩ := State.decodeSymbol_err h
    exact restOfBlock_of_err (by rw [hch, readSelectors_cons_of_ok ha hv, readSelectors_cons_of_err h])
  case firstRange =>
    obtain ⟨_, rfl⟩ := State.decodeSymbol_ok_moves h
    exact restOfBlock_of_err (by rw [hch, readSelectors_cons_of_range h hv])
  case secondRange =>
    obtain ⟨_, rfl⟩ := State.decodeSymbol_ok_moves ha
    obtain ⟨_, rfl⟩ := State.decodeSymbol_ok_moves hb
    exact restOfBlock_of_err (by rw [hch, readSelectors_cons_of_ok ha hv, readSelectors_cons_of_range hb hw])
  case block =>
    have ran : readSelectors s.walk.cls.channels {} s = .ok q t ∧ t.walk = s.walk ∧ t.regs = s.regs := by
      rcases hread with ⟨a, v, hch, ha, hv, rfl⟩ | ⟨a, b, v, w, u, hch, ha, hv, hb, hw, rfl⟩
      · obtain ⟨_, rfl⟩ := State.decodeSymbol_ok_moves ha
        exact ⟨by rw [hch, readSelectors_cons_of_ok ha hv]; rfl, rfl, rfl⟩
      · obtain ⟨_, rfl⟩ := State.decodeSymbol_ok_moves ha
        obtain ⟨_, rfl⟩ := State.decodeSymbol_ok_moves hb
        exact ⟨by rw [hch, readSelectors_cons_of_ok ha hv, readSelectors_cons_of_ok hb hw]; rfl, rfl, rfl⟩
    obtain ⟨ran, hwalk, hregs⟩ := ran
    rw [restOfBlock_of_ok ran, ← hwalk, ← hregs]
    exact ⟨fun hover => endBlock_of_overrun hover,
      fun hover hx hy => ⟨fun ws hws => endBlock_of_visible hover (Regs.visible_eq_true.2 ⟨hx, hy⟩) (State.emit_of_words hws),
        fun r hr => endBlock_of_refused hover (Regs.visible_eq_true.2 ⟨hx, hy⟩) (State.emit_of_refused hr)⟩,
      fun hover hpad => endBlock_of_padded hover (Regs.visible_eq_false.2 hpad)⟩

/-! ### The order of the walk (rules R120, R261, R267) -/

section
variable {s : State}

/-- The walker's place is in the padded grid. -/
def State.InGrid (s : State) : Prop :=
  s.walk.f < s.regs.faces.toNat ∧ s.walk.y < s.regs.hbp ∧ s.walk.x < s.regs.wbp

theorem State.advance_column (h : s.walk.x + 1 < s.regs.wbp) :
    s.advance = { s with walk := { s.walk with x := s.walk.x + 1 } } :=
  if_pos h

theorem State.advance_row (hx : ¬ s.walk.x + 1 < s.regs.wbp) (h : s.walk.y + 1 < s.regs.hbp) :
    s.advance = { s with walk := { s.walk with x := 0, y := s.walk.y + 1 } } :=
  (if_neg hx).trans (if_pos h)

theorem State.advance_face (hx : ¬ s.walk.x + 1 < s.regs.wbp) (hy : ¬ s.walk.y + 1 < s.regs.hbp)
    (h : s.walk.f + 1 < s.regs.faces.toNat) :
    s.advance = State.faceReset { s with walk := { s.walk with x := 0, y := 0, f := s.walk.f + 1 } } :=
  (if_neg hx).trans ((if_neg hy).trans (if_pos h))

theorem State.advance_last (hx : ¬ s.walk.x + 1 < s.regs.wbp) (hy : ¬ s.walk.y + 1 < s.regs.hbp)
    (h : ¬ s.walk.f + 1 < s.regs.faces.toNat) :
    s.advance = (s.setResult (BitVec.ofNat 32 s.walk.blocksWritten)).finishCommand :=
  (if_neg hx).trans ((if_neg hy).trans (if_neg h))

/-- A place in the grid is one of the blocks. -/
theorem State.InGrid.walkRank_lt (h : s.InGrid) : s.walkRank < s.regs.blockCount := by
  obtain ⟨hf, hy, hx⟩ := h
  have row : s.walk.f * s.regs.hbp + s.walk.y + 1 ≤ s.regs.faces.toNat * s.regs.hbp := by
    calc s.walk.f * s.regs.hbp + s.walk.y + 1 ≤ (s.walk.f + 1) * s.regs.hbp := by rw [Nat.succ_mul]; omega
      _ ≤ _ := Nat.mul_le_mul_right _ hf
  calc s.walkRank < (s.walk.f * s.regs.hbp + s.walk.y + 1) * s.regs.wbp := by
        rw [State.walkRank, Nat.succ_mul]; omega
    _ ≤ s.regs.blockCount := Nat.mul_le_mul_right _ row

/-- What the move to the next place does: one place on, with a new face reset, or the end of the command. -/
inductive State.NextPlace (s : State) : State → Prop where
  | column (rank : (s.walk.f * s.regs.hbp + s.walk.y) * s.regs.wbp + (s.walk.x + 1) = s.walkRank + 1)
      (h : s.walk.x + 1 < s.regs.wbp) : s.NextPlace { s with walk := { s.walk with x := s.walk.x + 1 } }
  | row (rank : (s.walk.f * s.regs.hbp + (s.walk.y + 1)) * s.regs.wbp + 0 = s.walkRank + 1)
      (h : s.walk.y + 1 < s.regs.hbp) : s.NextPlace { s with walk := { s.walk with x := 0, y := s.walk.y + 1 } }
  | face (rank : ((s.walk.f + 1) * s.regs.hbp + 0) * s.regs.wbp + 0 = s.walkRank + 1)
      (h : s.walk.f + 1 < s.regs.faces.toNat) :
      s.NextPlace (State.faceReset { s with walk := { s.walk with x := 0, y := 0, f := s.walk.f + 1 } })
  | last (rank : s.walkRank + 1 = s.regs.blockCount) :
      s.NextPlace ((s.setResult (BitVec.ofNat 32 s.walk.blocksWritten)).finishCommand)

theorem State.InGrid.advance_nextPlace (h : s.InGrid) : s.NextPlace s.advance := by
  obtain ⟨hf, hy, hx⟩ := h
  by_cases hcol : s.walk.x + 1 < s.regs.wbp
  · rw [State.advance_column hcol]
    exact .column (Nat.add_assoc ..).symm hcol
  have lastColumn : s.walk.x + 1 = s.regs.wbp := by omega
  have nextRow : s.walkRank + 1 = (s.walk.f * s.regs.hbp + (s.walk.y + 1)) * s.regs.wbp := by
    rw [State.walkRank, Nat.add_assoc, lastColumn]; ring
  by_cases hrow : s.walk.y + 1 < s.regs.hbp
  · rw [State.advance_row hcol hrow]
    exact .row nextRow.symm hrow
  have lastRow : s.walk.y + 1 = s.regs.hbp := by omega
  have nextFace : s.walkRank + 1 = (s.walk.f + 1) * s.regs.hbp * s.regs.wbp := by
    rw [nextRow, lastRow]; ring
  by_cases hface : s.walk.f + 1 < s.regs.faces.toNat
  · rw [State.advance_face hcol hrow hface]
    exact .face nextFace.symm hface
  · rw [State.advance_last hcol hrow hface]
    refine .last (nextFace.trans ?_)
    rw [show s.walk.f + 1 = s.regs.faces.toNat by omega]
    rfl

end

/-- Settles O54: the four moves, told apart by the rank. -/
theorem walkFollowsRasterOrder : Obligations.WalkFollowsRasterOrder := by
  intro s hact hf hy hx
  have grid : s.InGrid := ⟨hf, hy, hx⟩
  have wbpPos := Nat.zero_lt_of_lt hx
  have hbpPos := Nat.zero_lt_of_lt hy
  have move := grid.advance_nextPlace
  generalize hadv : s.advance = t at move
  cases move with
  | column rank h =>
    have inside : State.InGrid { s with walk := { s.walk with x := s.walk.x + 1 } } := ⟨hf, hy, h⟩
    refine ⟨fun _ => ⟨hact, rank, hf, hy, h, rfl, fun _ => ⟨rfl, rfl⟩, fun hne => absurd rfl hne⟩, fun hlast => ?_⟩
    have before : s.walkRank + 1 < s.regs.blockCount := rank ▸ inside.walkRank_lt
    omega
  | row rank h =>
    have inside : State.InGrid { s with walk := { s.walk with x := 0, y := s.walk.y + 1 } } := ⟨hf, h, wbpPos⟩
    refine ⟨fun _ => ⟨hact, rank, hf, h, wbpPos, rfl, fun _ => ⟨rfl, rfl⟩, fun hne => absurd rfl hne⟩, fun hlast => ?_⟩
    have before : s.walkRank + 1 < s.regs.blockCount := rank ▸ inside.walkRank_lt
    omega
  | face rank h =>
    have inside : State.InGrid (State.faceReset { s with walk := { s.walk with x := 0, y := 0, f := s.walk.f + 1 } }) :=
      ⟨h, hbpPos, wbpPos⟩
    refine ⟨fun _ => ⟨hact, rank, h, hbpPos, wbpPos, rfl, fun heq => absurd heq (Nat.succ_ne_self _), fun _ =>
      ⟨rfl, fun x => bufEntry_clearValid ..⟩⟩, fun hlast => ?_⟩
    have before : s.walkRank + 1 < s.regs.blockCount := rank ▸ inside.walkRank_lt
    omega
  | last rank => exact ⟨fun hlt => absurd rank (Nat.ne_of_lt hlt), fun _ => rfl⟩

/-! ### The fetch of a code (rules R268 to R270) -/

section
variable {s t : State}

theorem innerStep_of_walking (h : s.activity = .walking) : innerStep s = walkStep s := by
  simp only [innerStep, h]

theorem step_of_walking (hact : s.activity = .walking) (hreset : s.inputs.head? ≠ some .hardReset) :
    step s = walkStep s := by
  have noReset : s.resetPending = false := by simpa [State.resetPending] using hreset
  simp only [step, hact, noReset, Bool.false_eq_true, if_false, innerStep]

theorem fetchRef_of_even_even (hy : s.walk.y % 2 = 0) (hx : s.walk.x % 2 = 0) :
    fetchRef s = (readReferenceByte s).andThen fun _ t => .ok t.evenRowCode.1 t.evenRowCode.2 :=
  (if_pos hy).trans (if_pos hx)

theorem fetchRef_of_even_odd (hy : s.walk.y % 2 = 0) (hx : s.walk.x % 2 = 1) :
    fetchRef s = .ok s.evenRowCode.1 s.evenRowCode.2 :=
  (if_pos hy).trans (if_neg (by omega))

theorem fetchRef_of_odd (hy : s.walk.y % 2 = 1) :
    fetchRef s = .ok (decodeRef (s.entry.endpointReference.extractLsb' 0 2)) s :=
  if_neg (by omega)

/-- `reference_group <- v`. -/
def State.setReferenceGroup (s : State) (v : Nat) : State :=
  { s with walk := { s.walk with referenceGroup := BitVec.ofNat 8 v } }

theorem readReferenceByte_of_ok {v : Nat} (h : s.decodeSymbol .ref = .ok v t) (hv : v ≤ 255) :
    readReferenceByte s = .ok () (t.setReferenceGroup v) := by
  rw [readReferenceByte, h, Res.ok_andThen, if_neg (by omega)]
  rfl

theorem readReferenceByte_of_range {v : Nat} (h : s.decodeSymbol .ref = .ok v t) (hv : 255 < v) :
    readReferenceByte s = .err .refSymbolRange SlotId.ref.num t := by
  rw [readReferenceByte, h, Res.ok_andThen, if_pos hv]

theorem readReferenceByte_of_err {c : Cause} {n : BitVec 3} (h : s.decodeSymbol .ref = .err c n t) :
    readReferenceByte s = .err c n t := by
  rw [readReferenceByte, h, Res.err_andThen]

theorem readReferenceByte_of_refused {r : Refusal} (h : s.decodeSymbol .ref = .refused r) :
    readReferenceByte s = .refused r := by
  rw [readReferenceByte, h, Res.refused_andThen]

theorem State.evenRowCode_of_even (h : s.walk.x % 2 = 0) :
    s.evenRowCode = (decodeRef (s.walk.referenceGroup.extractLsb' 0 2),
      s.setEntry { s.entry with endpointReference := (s.walk.referenceGroup.extractLsb' 2 2).setWidth 4 }) :=
  if_pos h

theorem State.evenRowCode_of_odd (h : s.walk.x % 2 = 1) :
    s.evenRowCode = (decodeRef (s.walk.referenceGroup.extractLsb' 4 2),
      s.setEntry { s.entry with endpointReference := (s.walk.referenceGroup.extractLsb' 6 2).setWidth 4 }) :=
  if_neg (by omega)

theorem isCommand_decodeRef (c : BitVec 2) : (decodeRef c).isCommand = false := by
  unfold decodeRef
  split
  · rfl
  · split
    · rfl
    · split <;> rfl

theorem walkStepWith_of_err {last : Selectors → State → Result} {c : Cause} {n : BitVec 3}
    (h : fetchRef s = .err c n t) : walkStepWith last s = .next (t.raiseInWalk c n) := by
  rw [walkStepWith, h]
  rfl

theorem walkStepWith_of_refused {last : Selectors → State → Result} {r : Refusal} (h : fetchRef s = .refused r) :
    walkStepWith last s = .refused r := by
  rw [walkStepWith, h]
  rfl

/-- A block whose code has been fetched runs the code, then the rest of the block if the code has not ended the command. -/
theorem walkStepWith_of_next {last : Selectors → State → Result} {c : BitVec 2} {u : State}
    (h : fetchRef s = .ok (decodeRef c) t) (hu : exec (decodeRef c) t = .next u) :
    walkStepWith last s = if u.activity = .walking then restOfBlockWith last u else .next u := by
  rw [← execStream_eq_exec (isCommand_decodeRef c)] at hu
  rw [walkStepWith, h, endInWalk, hu]
  rfl

theorem walkStepWith_of_code_refused {last : Selectors → State → Result} {c : BitVec 2} {r : Refusal}
    (h : fetchRef s = .ok (decodeRef c) t) (hr : exec (decodeRef c) t = .refused r) :
    walkStepWith last s = .refused r := by
  rw [← execStream_eq_exec (isCommand_decodeRef c)] at hr
  rw [walkStepWith, h, endInWalk, hr]

end

/-- Settles O6: the three sources of the code, then the code as `exec` gives it; and the ways the reference byte fails. -/
theorem stepRunsTheFetchedReferenceCode : Obligations.StepRunsTheFetchedReferenceCode := by
  refine ⟨fun s i fetched hact hreset hfetch => ?runs, fun s hact hreset hy hx =>
    ⟨fun c k t h => ?fails, fun v t h hv => ?range, fun r h => ?refused⟩⟩ <;> rw [step_of_walking hact hreset]
  case runs =>
    have code : ∃ c, i = decodeRef c ∧ fetchRef s = .ok (decodeRef c) fetched := by
      rcases hfetch with ⟨hy, hx, v, t, hd, hv, hi, rfl⟩ | ⟨hy, hx, hi, rfl⟩ | ⟨hy, hi, rfl⟩ <;> cases hi
      · obtain ⟨n, rfl⟩ := State.decodeSymbol_ok_moves hd
        refine ⟨_, rfl, ?_⟩
        rw [fetchRef_of_even_even hy hx, readReferenceByte_of_ok hd hv, Res.ok_andThen,
          State.evenRowCode_of_even (s := (s.consume n).setReferenceGroup v) hx]
        rfl
      · refine ⟨_, rfl, ?_⟩
        rw [fetchRef_of_even_odd hy hx, State.evenRowCode_of_odd hx]
        rfl
      · exact ⟨_, rfl, fetchRef_of_odd hy⟩
    obtain ⟨c, rfl, hf⟩ := code
    exact ⟨fun u hu hwalk => (walkStepWith_of_next hf hu).trans (if_pos hwalk),
      fun u hu hidle => (walkStepWith_of_next hf hu).trans (if_neg hidle), fun r hr => walkStepWith_of_code_refused hf hr⟩
  case fails =>
    obtain ⟨rfl, rfl⟩ := State.decodeSymbol_err h
    exact walkStepWith_of_err (n := SlotId.ref.num) (by
      rw [fetchRef_of_even_even hy hx, readReferenceByte_of_err h, Res.err_andThen])
  case range =>
    obtain ⟨n, rfl⟩ := State.decodeSymbol_ok_moves h
    exact walkStepWith_of_err (by rw [fetchRef_of_even_even hy hx, readReferenceByte_of_range h hv, Res.err_andThen])
  case refused =>
    exact walkStepWith_of_refused (by
      rw [fetchRef_of_even_even hy hx, readReferenceByte_of_refused h, Res.refused_andThen])

end Sys2Proof.Machine
end

