-- ==== Sys2Proof/Proofs/UnpackChecks.lean ====
section
/-! O42: the argument checks of `UNPACK` and the host's duties (rules R263, R386, R389, R390), and what the accepted ones say. -/

namespace Sys2Proof.Machine

/-! ### The checks as a list (rule R263) -/

/-- The error of the first check that fails. -/
def firstError (checks : List (Bool × Cause)) : Option Cause := (checks.find? fun p => p.1).map fun p => p.2

theorem firstError_cons (b : Bool) (c : Cause) (checks : List (Bool × Cause)) :
    firstError ((b, c) :: checks) = if b = true then some c else firstError checks := by
  cases b <;> rfl

theorem firstError_eq_none {checks : List (Bool × Cause)} :
    firstError checks = none ↔ checks.find? (fun p => p.1) = none := Option.map_eq_none_iff

theorem argErrorOf_eq_firstError (r : Regs) (k : FormatClass) : argErrorOf r k = firstError (argumentChecks r k) := by
  unfold argErrorOf argumentChecks
  simp only [firstError_cons]
  refine ite_congr (by simp) (fun _ => rfl) fun _ => ?_
  refine ite_congr (by simp) (fun _ => rfl) fun _ => ?_
  refine ite_congr (by simp [blockBufDepth, Regs.wbp, roundUpEven]) (fun _ => rfl) fun _ => ?_
  refine ite_congr (by simp) (fun _ => rfl) fun _ => ?_
  refine ite_congr (by simp [Regs.pitch]) (fun _ => rfl) fun _ => ?_
  refine ite_congr (by simp) (fun _ => rfl) fun _ => ?_
  refine ite_congr (by simp) (fun _ => rfl) fun _ => ?_
  refine ite_congr (by
    simp only [Bool.or_eq_true, List.any_eq_true, crosses32_eq_true, Regs.dstRange, Regs.srcRange, decide_eq_true_eq]) (fun _ => rfl) fun _ => ?_
  exact ite_congr (by simp) (fun _ => rfl) fun _ => rfl

section
variable {r : Regs} {cls : BitVec 4} {k : FormatClass}

theorem argChecks_of_error (hk : FormatClass.ofCode cls = some k) {c : Cause} (h : argErrorOf r k = some c) :
    argChecks r cls = .error c := by
  simp only [argChecks, hk, h]

theorem argChecks_of_no_class (h : FormatClass.ofCode cls = none) : argChecks r cls = .error .badFmtClass := by
  simp only [argChecks, h]

theorem argChecks_eq_ok_iff : argChecks r cls = .ok k ↔ FormatClass.ofCode cls = some k ∧ argErrorOf r k = none := by
  unfold argChecks
  cases FormatClass.ofCode cls with
  | none => simp
  | some j =>
    cases hj : argErrorOf r j with
    | none =>
      simp only [hj, Except.ok.injEq, Option.some.injEq]
      exact ⟨fun h => ⟨h, h ▸ hj⟩, And.left⟩
    | some c =>
      simp only [hj, Option.some.injEq, reduceCtorEq, false_iff, not_and]
      rintro rfl
      simp [hj]

/-- What the accepted arguments say (rules R263, R265, R266). -/
structure Regs.Accepted (r : Regs) (k : FormatClass) : Prop where
  wbPos : 0 < r.wb.toNat
  hbPos : 0 < r.hb.toNat
  faces : r.faces.toNat = 1 ∨ r.faces.toNat = 6
  pitch : k.bpb * r.wb.toNat ≤ r.pitch k
  dstSize : r.pitch k * r.hb.toNat ≤ r.dstSize.toNat
  dst32 : ∀ f < r.faces.toNat, (r.dstBase.get f).toNat + r.dstSize.toNat ≤ 2 ^ 32
  src32 : r.srcBase.toNat + r.srcLen.toNat ≤ 2 ^ 32
  endpoints : ∀ ch ∈ k.channels, 0 < r.endpointCount ch
  selectors : ∀ ch ∈ k.channels, 0 < r.selectorCount ch

theorem Regs.accepted_of_argChecks (h : argChecks r cls = .ok k) : r.Accepted k := by
  obtain ⟨_, hnone⟩ := argChecks_eq_ok_iff.1 h
  obtain ⟨_, hwb, hhb, hpal⟩ := argChecks_ok h
  simp only [argErrorOf, ite_some_eq_none] at hnone
  obtain ⟨_, hfaces, _, hpitch, hsize, _, _, hrange, hzero, _⟩ := hnone
  simp only [Bool.or_eq_true, List.any_eq_true, List.mem_range, not_or, not_exists, not_and, Bool.not_eq_true,
    crosses32_eq_false] at hrange
  refine ⟨hwb, hhb, ?faces, ?pitch, Nat.not_lt.1 hsize, hrange.1, hrange.2, hpal, fun ch hch => ?selectors⟩
  case faces => bv_omega
  case pitch =>
    rw [Regs.pitch]
    split
    · exact le_rfl
    · next hne => exact Nat.not_lt.1 fun hlt => hpitch ⟨hne, .inr hlt⟩
  case selectors =>
    refine Nat.pos_of_ne_zero fun h0 => hzero (List.any_eq_true.2 ⟨ch, hch, by simp [h0]⟩)

end

/-! ### Ranges that meet -/

theorem rangesMeet_eq_true {a b : Nat × Nat} :
    rangesMeet a b = true ↔ ∃ i, a.1 ≤ i ∧ i < a.1 + a.2 ∧ b.1 ≤ i ∧ i < b.1 + b.2 := by
  simp only [rangesMeet, Bool.and_eq_true, decide_eq_true_eq]
  refine ⟨fun h => ⟨max a.1 b.1, by omega⟩, ?_⟩
  rintro ⟨i, h⟩
  omega

theorem rangesMeet_comm (a b : Nat × Nat) : rangesMeet a b = rangesMeet b a := by
  rw [Bool.eq_iff_iff, rangesMeet_eq_true, rangesMeet_eq_true]
  exact exists_congr fun i => by tauto

/-- An address in two ranges that do not meet is impossible. -/
theorem not_both_of_apart {a b : Nat × Nat} (h : rangesMeet a b = false) {i : Nat} (ha : a.1 ≤ i ∧ i < a.1 + a.2)
    (hb : b.1 ≤ i ∧ i < b.1 + b.2) : False :=
  Bool.eq_false_iff.1 h (rangesMeet_eq_true.2 ⟨i, ha.1, ha.2, hb.1, hb.2⟩)

theorem someMeet_eq_false {l : List (Nat × Nat)} :
    someMeet l = false ↔ l.Pairwise fun a b => rangesMeet a b = false := by
  induction l with
  | nil => simp [someMeet]
  | cons a l ih => simp [someMeet, ih]

/-- The host's duties on ranges: no destination meets another one, the source, a palette array or the registers (rule R389). -/
structure State.RangesApart (s : State) : Prop where
  src : ∀ f < s.regs.faces.toNat, rangesMeet s.regs.srcRange (s.regs.dstRange f) = false
  dst : ∀ f < s.regs.faces.toNat, ∀ g < s.regs.faces.toNat, f ≠ g →
    rangesMeet (s.regs.dstRange f) (s.regs.dstRange g) = false
  host : ∀ f < s.regs.faces.toNat, ∀ r ∈ s.paletteRanges ++ s.registerRanges, rangesMeet (s.regs.dstRange f) r = false

theorem State.rangesApart_of_duties {s : State} (h : s.hostDuties = none) : s.RangesApart := by
  obtain ⟨_, _, _, hmeet, hhost, _⟩ := State.hostDuties_eq_none.1 h
  obtain ⟨hsrc, hdst⟩ := List.pairwise_cons.1 (someMeet_eq_false.1 hmeet)
  have rising : ∀ f g, f < g → g < s.regs.faces.toNat →
      rangesMeet (s.regs.dstRange f) (s.regs.dstRange g) = false := by
    intro f g hfg hg
    have := List.pairwise_iff_getElem.1 (List.pairwise_map.1 hdst) f g (by simp; omega) (by simpa using hg) hfg
    simpa using this
  refine ⟨fun f hf => hsrc _ (List.mem_map_of_mem (List.mem_range.2 hf)), fun f hf g hg hne => ?_, hhost⟩
  rcases Nat.lt_or_gt_of_ne hne with hlt | hlt
  · exact rising f g hlt hg
  · rw [rangesMeet_comm]
    exact rising g f hlt hf

/-! ### `UNPACK` up to its walk -/

section
variable {s : State} {cls : BitVec 4} {k : FormatClass}

theorem exec_unpack_of_argError {c : Cause} (h : argChecks s.regs cls = .error c) :
    exec (.unpack cls) s = .next (s.startCommand.clearWritten.raiseArgs c) := by
  rw [exec, execUnpack, h]

theorem exec_unpack_of_accepted (h : argChecks s.regs cls = .ok k) (hd : s.hostDuties = none) :
    exec (.unpack cls) s = runToIdle s.regs.blockCount (s.startCommand.clearWritten.startWalk k) := by
  rw [exec, execUnpack, h]
  simp only [hd]
  rfl

theorem exec_unpack_of_neglect (h : argChecks s.regs cls = .ok k) {r : Refusal} (hd : s.hostDuties = some r) :
    exec (.unpack cls) s = .refused r := by
  rw [exec, execUnpack, h]
  simp only [hd]

/-- How `UNPACK` begins: an argument error, a refusal, or the walk. -/
theorem exec_unpack_cases (s : State) (cls : BitVec 4) :
    (∃ c, argChecks s.regs cls = .error c ∧ exec (.unpack cls) s = .next (s.startCommand.clearWritten.raiseArgs c)) ∨
    (∃ r, exec (.unpack cls) s = .refused r) ∨
    ∃ k, argChecks s.regs cls = .ok k ∧ s.hostDuties = none ∧
      exec (.unpack cls) s = runToIdle s.regs.blockCount (s.startCommand.clearWritten.startWalk k) := by
  cases hk : argChecks s.regs cls with
  | error c => exact .inl ⟨c, rfl, exec_unpack_of_argError hk⟩
  | ok k =>
    cases hd : s.hostDuties with
    | some r => exact .inr (.inl ⟨r, exec_unpack_of_neglect hk hd⟩)
    | none => exact .inr (.inr ⟨k, rfl, rfl, exec_unpack_of_accepted hk hd⟩)

/-- The state that a failed argument check leaves (rules R261, R263). -/
theorem State.raiseArgs_eq (s : State) (c : Cause) :
    s.startCommand.clearWritten.raiseArgs c = { s with
      walk := { s.walk with blocksWritten := 0 }, result := 0, ending := .raised c, anyErr := true, errinfo := 0,
      activity := .idle } := by
  simp only [State.raiseArgs, State.raiseAt0, State.raise, packErrinfo_zero]
  rfl

/-- Accepted arguments with a duty neglected refuse the trace. -/
theorem exec_unpack_refused (h : argChecks s.regs cls = .ok k) (hd : s.hostDuties ≠ none) :
    ∃ r, exec (.unpack cls) s = .refused r := by
  obtain ⟨r, hr⟩ := Option.ne_none_iff_exists'.1 hd
  exact ⟨r, exec_unpack_of_neglect h hr⟩

end

/-- The codes 4 to 15 are reserved (rule R116). -/
theorem FormatClass.reserved_iff : ∀ cls : BitVec 4, 4 ≤ cls.toNat ↔ FormatClass.ofCode cls = none := by decide

/-- Settles O42: the model's chain of checks answers the first failing one of the list; a duty that is neglected contradicts
what the duties say. -/
theorem unpackChecksArgumentsInOrder : Obligations.UnpackChecksArgumentsInOrder := by
  intro s cls fail
  have fails {c : Cause} (h : argChecks s.regs cls = .error c) : exec (.unpack cls) s = fail c := by
    rw [exec_unpack_of_argError h, State.raiseArgs_eq]
  refine ⟨FormatClass.reserved_iff cls, fun h => fails (argChecks_of_no_class h), fun k hk => ⟨fun c hc => ?first, ?accepted,
    fun hok => ?duties⟩⟩
  case first =>
    refine fails (argChecks_of_error hk ?_)
    rw [argErrorOf_eq_firstError, firstError, hc]
    rfl
  case accepted => rw [argChecks_eq_ok_iff, argErrorOf_eq_firstError, firstError_eq_none, and_iff_right hk]
  case duties =>
    have refuses (neglected : s.hostDuties = none → False) : ∃ r, exec (.unpack cls) s = .refused r :=
      exec_unpack_refused hok neglected
    refine ⟨fun f hf other hother a hlo hhi hlo' hhi' => refuses fun hnone => ?meets, fun hsrc => refuses fun hnone => ?source,
      fun f hf hdst => refuses fun hnone => ?destination, fun r hr hbad => refuses fun hnone => ?palette,
      fun hlen => refuses fun hnone => ?lengths⟩
    case meets =>
      have apart := State.rangesApart_of_duties hnone
      have both {r : Nat × Nat} (h : rangesMeet (s.regs.dstRange f) r = false) (hr : other = r) : False :=
        not_both_of_apart h ⟨hlo, hhi⟩ (hr ▸ ⟨hlo', hhi'⟩)
      simp only [List.mem_append, List.mem_singleton, List.mem_map, List.mem_filter, List.mem_range,
        decide_eq_true_eq] at hother
      rcases hother with ((rfl | hpal) | hreg) | ⟨g, ⟨hg, hne⟩, rfl⟩
      · exact both ((rangesMeet_comm ..).trans (apart.src f hf)) rfl
      · exact both (apart.host f hf other (List.mem_append_left _ hpal)) rfl
      · exact both (apart.host f hf other (List.mem_append_right _ hreg)) rfl
      · exact both (apart.dst f hf g hg hne.symm) rfl
    all_goals obtain ⟨hsrc', hdst', hpal', _, _, hmatch⟩ := State.hostDuties_eq_none.1 hnone
    case source => simp [hsrc'] at hsrc
    case destination => simp [hdst' f hf] at hdst
    case palette =>
      obtain ⟨hole, crosses⟩ := hpal' r hr
      rw [crosses32_eq_false] at crosses
      rcases hbad with hbad | hbad
      · simp [hole] at hbad
      · omega
    case lengths =>
      obtain ⟨hce, hcs, hae, has⟩ := State.palettesMatch_eq_true.1 hmatch
      omega

end Sys2Proof.Machine
end

