-- ==== Sys2Proof/Proofs/WalkSteps.lean ====
section
/-! Everything that one block of the walk can answer (rule R278), for every state: what it leaves alone, its causes, its refusals,
and its end. -/

namespace Sys2Proof.Machine

/-! ### Inside a block, before its end -/

/-- What a block leaves alone up to its end: all but the reader's position, the accumulators with the reference group, and
`block_buffer`. -/
def State.walkRest (s : State) :=
  (s.hostSide, s.result, s.errinfo, s.ending, s.anyErr, s.slots, s.activity, s.recv, s.mem)

/-- The reader's range. -/
def Reader.range (r : Reader) := (r.base, r.len, r.started, r.touched)

/-- The walker's class, position and block count. -/
def Walker.place (w : Walker) := (w.cls, w.f, w.y, w.x, w.blocksWritten)

/-- The canonical form of `block_buffer`. -/
def canonicalBuffer (b : List (Nat × BufEntry)) : Prop := keysRise b ∧ noneIs BufEntry.reset b

/-- The stream can be read on: the rest of the range is readable, or the position is at or past its end (rule R155). -/
def State.CanRead (s : State) : Prop := s.rangeReadable ∨ 8 * s.br.rangeLen ≤ s.br.bitpos

theorem State.CanRead.peekBits {s : State} (h : s.CanRead) (n : Nat) : ∃ v, s.peekBits n = .ok v :=
  h.elim (fun hread => State.peekBits_of_readable hread n) fun hpast => ⟨0, State.bitsAt_past hpast n⟩

/-- `u` is a state that a block begun in `s` reaches before its end. -/
structure State.Prepared (s u : State) : Prop where
  rest : u.walkRest = s.walkRest
  range : u.br.range = s.br.range
  place : u.walk.place = s.walk.place
  forward : s.br.bitpos ≤ u.br.bitpos
  exact : s.overrunExact → u.overrunExact
  canonical : canonicalBuffer s.blockBuf → canonicalBuffer u.blockBuf

section
variable {s t u : State}

namespace State.Prepared

theorem refl (s : State) : s.Prepared s := ⟨rfl, rfl, rfl, le_rfl, id, id⟩

theorem trans (h : s.Prepared t) (hu : t.Prepared u) : s.Prepared u :=
  ⟨hu.rest.trans h.rest, hu.range.trans h.range, hu.place.trans h.place, h.forward.trans hu.forward,
    fun hs => hu.exact (h.exact hs), fun hs => hu.canonical (h.canonical hs)⟩

theorem hostSide (h : s.Prepared u) : u.hostSide = s.hostSide := congrArg (fun p => p.1) h.rest
theorem regs (h : s.Prepared u) : u.regs = s.regs := congrArg (fun p => p.2.1) h.hostSide
theorem slots (h : s.Prepared u) : u.slots = s.slots := congrArg (fun p => p.2.2.2.2.2.1) h.rest
theorem activity (h : s.Prepared u) : u.activity = s.activity := congrArg (fun p => p.2.2.2.2.2.2.1) h.rest
theorem mem (h : s.Prepared u) : u.mem = s.mem := congrArg (fun p => p.2.2.2.2.2.2.2.2) h.rest
theorem rangeLen (h : s.Prepared u) : u.br.rangeLen = s.br.rangeLen := by
  have := h.range
  simp only [Reader.range, Prod.mk.injEq] at this
  simp only [Reader.rangeLen, this]
theorem rangeReadable (h : s.Prepared u) (hr : s.rangeReadable) : u.rangeReadable := by
  have := h.range
  simp only [Reader.range, Prod.mk.injEq] at this
  obtain ⟨hbase, _, _, htouched⟩ := this
  refine ⟨htouched.trans hr.1, fun j hj => ?_⟩
  rw [h.mem, hbase]
  exact hr.2 j (h.rangeLen ▸ hj)
theorem canRead (h : s.Prepared u) (hr : s.CanRead) : u.CanRead :=
  hr.imp h.rangeReadable fun hpast => by rw [h.rangeLen]; exact hpast.trans h.forward
theorem slotsBuilt (h : s.Prepared u) (hb : s.slotsBuilt) : u.slotsBuilt := by
  intro k m hm
  exact hb k m (by rwa [State.slot, ← h.slots])

theorem consume (h : s.Prepared t) (n : Nat) : s.Prepared (t.consume n) :=
  { h with
    forward := h.forward.trans (Nat.le_add_right ..), exact := fun hs => State.overrunExact_consume (h.exact hs) n }

theorem setEntry (h : s.Prepared t) (e : BufEntry) : s.Prepared (t.setEntry e) :=
  { h with
    canonical := fun hs => ⟨keysRise_setBufEntry (h.canonical hs).1 _ _, noneIs_setBufEntry (h.canonical hs).2 _ _⟩ }

theorem setAccumulator (h : s.Prepared t) (ch : Channel) (v : Nat) : s.Prepared (t.setAccumulator ch v) :=
  { h with place := by rw [← h.place]; cases ch <;> rfl }

theorem setReferenceGroup (h : s.Prepared t) (v : Nat) : s.Prepared (t.setReferenceGroup v) := { h with }
theorem storeIndex (h : s.Prepared t) (ch : Channel) : s.Prepared (t.storeIndex ch) := h.setEntry _
theorem loadIndex (h : s.Prepared t) (ch : Channel) : s.Prepared (t.loadIndex ch) := h.setAccumulator ..
theorem markValid (h : s.Prepared t) : s.Prepared t.markValid := h.setEntry _
theorem addDelta (h : s.Prepared t) (ch : Channel) (d : Nat) : s.Prepared (t.addDelta ch d) :=
  (h.setAccumulator ..).storeIndex ch

end State.Prepared
end

/-! ### The procedures of a block -/

/-- A procedure of a block begun in `s`: it only prepares, it raises one of the causes where the slots are built, and it is
refused only where the range cannot be read. -/
def Res.Prepares {α : Type} (s : State) (causes : List Cause) : Res α → Prop
  | .ok _ u => s.Prepared u
  | .err c _ u => s.Prepared u ∧ (s.slotsBuilt → c ∈ causes)
  | .refused _ => ¬ s.CanRead

/-- The causes of a `Decode` (rules R210, R211, R215). -/
def decodeCauses : List Cause := [.emptyModel, .noCode]

section
variable {α β : Type} {s : State} {causes : List Cause}

/-- What a procedure does from a later state of the block, it does from the block's begin. -/
theorem Res.Prepares.of_prepared {r : Res α} {t : State} (ht : s.Prepared t) (hr : r.Prepares t causes) :
    r.Prepares s causes := by
  cases r with
  | ok a u => exact ht.trans hr
  | err c n u => exact ⟨ht.trans hr.1, fun hb => hr.2 (ht.slotsBuilt hb)⟩
  | refused x => exact fun hread => hr (ht.canRead hread)

theorem Res.Prepares.andThen {r : Res α} {f : α → State → Res β} (hr : r.Prepares s causes)
    (hf : ∀ a u, s.Prepared u → (f a u).Prepares u causes) : (r.andThen f).Prepares s causes := by
  cases r with
  | err c n u => exact hr
  | refused x => exact hr
  | ok a u => exact (hf a u hr).of_prepared hr

theorem Res.Prepares.mono {r : Res α} (hr : r.Prepares s causes) {more : List Cause} (hsub : causes ⊆ more) :
    r.Prepares s more := by
  cases r with
  | ok a u => exact hr
  | err c n u => exact ⟨hr.1, fun hb => hsub (hr.2 hb)⟩
  | refused x => exact hr

theorem State.decodeSymbol_prepares (s : State) (k : SlotId) : (s.decodeSymbol k).Prepares s decodeCauses := by
  unfold State.decodeSymbol
  rcases s.decodeWith_cases k Model.decodeBits with
    ⟨_, e⟩ | ⟨_, r, _, hp, e⟩ | ⟨m, w, c, hk, _, hf, e⟩ | ⟨_, _, _, _, _, _, e⟩ <;> rw [e]
  · exact ⟨.refl s, fun _ => by simp [decodeCauses]⟩
  · intro hread
    obtain ⟨v, hv⟩ := hread.peekBits 16
    rw [hv] at hp
    cases hp
  · refine ⟨.refl s, fun hb => ?_⟩
    obtain ⟨_, h16, _, _⟩ := buildModel_checks (hb k m hk)
    rw [((m.decodeBits_eq_error h16).1 hf).1]
    simp [decodeCauses]
  · exact (State.Prepared.refl s).consume _

theorem newIndices_prepares (chs : List Channel) (s : State) : (newIndices chs s).Prepares s decodeCauses := by
  induction chs generalizing s with
  | nil => exact State.Prepared.refl s
  | cons ch chs ih =>
    refine (s.decodeSymbol_prepares _).andThen fun d u _ => ?_
    exact (ih (u.addDelta ch d)).of_prepared ((State.Prepared.refl u).addDelta ch d)

theorem readReferenceByte_prepares (s : State) : (readReferenceByte s).Prepares s walkCauses := by
  refine ((s.decodeSymbol_prepares .ref).mono (by decide)).andThen fun v u _ => ?_
  split
  · exact ⟨.refl u, fun _ => by decide⟩
  · exact (State.Prepared.refl u).setReferenceGroup v

theorem State.evenRowCode_prepared (s : State) : s.Prepared s.evenRowCode.2 := by
  unfold State.evenRowCode
  split <;> exact (State.Prepared.refl s).setEntry _

theorem fetchRef_prepares (s : State) : (fetchRef s).Prepares s walkCauses := by
  unfold fetchRef
  split
  · split
    · exact (readReferenceByte_prepares s).andThen fun _ u _ => u.evenRowCode_prepared
    · exact s.evenRowCode_prepared
  · exact State.Prepared.refl s

theorem fetchRef_decodeRef {s t : State} {i : Instr} (h : fetchRef s = .ok i t) : ∃ c, i = decodeRef c := by
  have even (u : State) : ∃ c, u.evenRowCode.1 = decodeRef c := by
    unfold State.evenRowCode
    split <;> exact ⟨_, rfl⟩
  unfold fetchRef at h
  split at h
  · split at h
    · obtain ⟨_, u, _, hu⟩ := Res.andThen_eq_ok.1 h
      cases hu
      exact even u
    · cases h
      exact even s
  · cases h
    exact ⟨_, rfl⟩

/-- The selector of a channel. -/
def Selectors.index (q : Selectors) : Channel → Nat
  | .color => q.cs
  | .alpha0 => q.as0
  | .alpha1 => q.as1

theorem Selectors.index_set (q : Selectors) (c d : Channel) (v : Nat) :
    (q.set c v).index d = if d = c then v else q.index d := by
  cases c <;> cases d <;> rfl

theorem readSelectors_prepares (chs : List Channel) (q : Selectors) (s : State) :
    (readSelectors chs q s).Prepares s walkCauses := by
  induction chs generalizing q s with
  | nil => exact State.Prepared.refl s
  | cons ch chs ih =>
    refine ((s.decodeSymbol_prepares _).mono (by decide)).andThen fun v u _ => ?_
    split
    · exact ⟨.refl u, fun _ => by decide⟩
    · exact ih _ u

/-- Every selector of the class is below its palette's size (rule R275). -/
def Selectors.InRange (q : Selectors) (r : Regs) (k : FormatClass) : Prop := ∀ ch ∈ k.channels, q.index ch < r.selectorCount ch

theorem readSelectors_inRange {chs : List Channel} {q q' : Selectors} {t : State} {done : List Channel}
    (hq : ∀ ch ∈ done, q.index ch < s.regs.selectorCount ch) (h : readSelectors chs q s = .ok q' t) :
    ∀ ch ∈ done ++ chs, q'.index ch < s.regs.selectorCount ch := by
  induction chs generalizing q s done with
  | nil =>
    cases h
    simpa using hq
  | cons ch chs ih =>
    obtain ⟨v, u, hu, h⟩ := Res.andThen_eq_ok.1 h
    obtain ⟨n, rfl⟩ := State.decodeSymbol_ok_moves hu
    split at h
    · cases h
    · next hv =>
      have more : ∀ d ∈ done ++ [ch], (q.set ch v).index d < s.regs.selectorCount d := by
        intro d hd
        rw [Selectors.index_set]
        split
        · next heq => exact heq ▸ Nat.not_le.1 hv
        · next hne => exact hq d (by simpa [hne] using hd)
      have all := ih (s := s.consume n) more h
      rwa [List.append_assoc] at all

end

/-! ### A reference code -/

/-- A reference code as a procedure of the block (rules R271 to R274). -/
def runCode (i : Instr) (s : State) : Res Unit :=
  match i with
  | .refNew => (newIndices s.walk.cls.channels s).andThen fun _ t => .ok () t.markValid
  | .refLeft => .ok () (s.walk.cls.channels.foldl State.storeIndex s).markValid
  | .refTop =>
    if s.entry.valid then .ok () (s.walk.cls.channels.foldl State.loadIndex s) else .err .staleTop 0 s
  | _ => .err .reservedRefCode 0 s

/-- The instructions that the reference codes stand for (rule R121). -/
theorem decodeRef_cases (c : BitVec 2) :
    decodeRef c = .refNew ∨ decodeRef c = .refLeft ∨ decodeRef c = .refTop ∨ decodeRef c = .refDiag := by
  unfold decodeRef
  split_ifs <;> simp

section
variable (s : State)

theorem execRefNew_eq : execRefNew s = endInWalk (runCode .refNew s) fun _ u => .next u := by
  unfold execRefNew runCode
  cases newIndices s.walk.cls.channels s <;> rfl

theorem execRefTop_eq : execRefTop s = endInWalk (runCode .refTop s) fun _ u => .next u := by
  unfold execRefTop runCode
  split <;> rfl

theorem execStream_decodeRef (c : BitVec 2) :
    execStream (decodeRef c) s = endInWalk (runCode (decodeRef c) s) fun _ u => .next u := by
  rcases decodeRef_cases c with h | h | h | h <;> rw [h]
  · exact execRefNew_eq s
  · rfl
  · exact execRefTop_eq s
  · rfl

theorem runCode_refNew_prepares : (runCode .refNew s).Prepares s decodeCauses :=
  (newIndices_prepares s.walk.cls.channels s).andThen fun _ u _ => (State.Prepared.refl u).markValid

theorem runCode_refLeft_prepares : (runCode .refLeft s).Prepares s [] :=
  (List.foldlRecOn (motive := fun u => s.Prepared u) s.walk.cls.channels _ (.refl s)
    fun _ hu ch _ => hu.storeIndex ch).markValid

theorem runCode_refTop_prepares : (runCode .refTop s).Prepares s [.staleTop] := by
  simp only [runCode]
  split
  · exact List.foldlRecOn (motive := fun u => s.Prepared u) s.walk.cls.channels _ (.refl s) fun _ hu ch _ => hu.loadIndex ch
  · exact ⟨.refl s, fun _ => by simp⟩

theorem runCode_refDiag_prepares : (runCode .refDiag s).Prepares s [.reservedRefCode] := ⟨.refl s, fun _ => by simp⟩

theorem runCode_decodeRef_prepares (c : BitVec 2) : (runCode (decodeRef c) s).Prepares s walkCauses := by
  rcases decodeRef_cases c with h | h | h | h <;> rw [h]
  · exact (runCode_refNew_prepares s).mono (by decide)
  · exact (runCode_refLeft_prepares s).mono (by decide)
  · exact (runCode_refTop_prepares s).mono (by decide)
  · exact (runCode_refDiag_prepares s).mono (by decide)

end

/-- What a reference code run in `s` can answer: it prepares, it raises one of its causes, or it is refused. -/
inductive State.CodeOutcome (s : State) (causes : List Cause) : Result → Prop where
  | prepares (u : State) (h : s.Prepared u) : s.CodeOutcome causes (.next u)
  | raises (u : State) (h : s.Prepared u) (c : Cause) (n : BitVec 3) (listed : s.slotsBuilt → c ∈ causes) :
      s.CodeOutcome causes (.next (u.raiseInWalk c n))
  | refused (r : Refusal) (h : ¬ s.CanRead) : s.CodeOutcome causes (.refused r)

theorem Res.Prepares.codeOutcome {s : State} {causes : List Cause} {r : Res Unit} (h : r.Prepares s causes) :
    s.CodeOutcome causes (endInWalk r fun _ u => .next u) := by
  cases r with
  | ok a u => exact .prepares u h
  | err c n u => exact .raises u h.1 c n h.2
  | refused x => exact .refused x h

theorem execRefNew_outcome (s : State) : s.CodeOutcome decodeCauses (execRefNew s) := by
  rw [execRefNew_eq]
  exact (runCode_refNew_prepares s).codeOutcome

theorem execRefLeft_outcome (s : State) : s.CodeOutcome [] (execRefLeft s) := (runCode_refLeft_prepares s).codeOutcome

theorem execRefTop_outcome (s : State) : s.CodeOutcome [.staleTop] (execRefTop s) := by
  rw [execRefTop_eq]
  exact (runCode_refTop_prepares s).codeOutcome

theorem execRefDiag_outcome (s : State) : s.CodeOutcome [.reservedRefCode] (execRefDiag s) :=
  (runCode_refDiag_prepares s).codeOutcome

/-! ### The whole block -/

/-- `u` is a state that a block begun in `s` reaches at its end, with the selectors `q` (rules R275, R276). -/
structure State.AtEnd (s : State) (q : Selectors) (u : State) : Prop where
  prepared : s.Prepared u
  selectors : q.InRange s.regs s.walk.cls
  inBlock : ∀ r, s.InBlock r 0 → u.InBlock r 0

/-- The block of the walker, written and counted (rules R277, R300). -/
def State.emitted (u : State) (ws : List Word) : State :=
  { u with
    mem := u.mem.writeWords u.walkAddr ws
    walk := { u.walk with blocksWritten := u.walk.blocksWritten + 1 } }

/-- A block up to its end: the fetch of its code, the code, and its selectors (rule R278). -/
def blockBody (s : State) : Res Selectors :=
  (fetchRef s).andThen fun i t => (runCode i t).andThen fun _ u => readSelectors u.walk.cls.channels {} u

/-- A block begun in `s` up to its end: it raises, is refused where the stream cannot be read on, or stands at its end. -/
def Res.EndsBlock (s : State) : Res Selectors → Prop
  | .ok q u => s.AtEnd q u
  | .err c _ u => s.Prepared u ∧ (s.slotsBuilt → c ∈ walkCauses)
  | .refused _ => ¬ s.CanRead

theorem Walker.cls_of_place {w v : Walker} (h : v.place = w.place) : v.cls = w.cls := congrArg (fun p => p.1) h

section
variable {s t u v : State} {i : Instr}

/-- A code that has run to its end has not ended the command. -/
theorem fetchRef_runCode_activity (hact : s.activity = .walking) (hf : fetchRef s = .ok i t)
    (hc : runCode i t = .ok () u) : u.activity = .walking := by
  obtain ⟨c, rfl⟩ := fetchRef_decodeRef hf
  have fetched := fetchRef_prepares s
  have ran := runCode_decodeRef_prepares t c
  rw [hf] at fetched
  rw [hc] at ran
  exact (State.Prepared.activity ran).trans ((State.Prepared.activity fetched).trans hact)

/-- Whatever is done at the end of a block, the block comes to its end in the same way. -/
theorem walkStepWith_eq (hact : s.activity = .walking) (last : Selectors → State → Result) :
    walkStepWith last s = endInWalk (blockBody s) last := by
  unfold walkStepWith blockBody
  cases hf : fetchRef s with
  | err c n t => rfl
  | refused r => rfl
  | ok i t =>
    obtain ⟨c, rfl⟩ := fetchRef_decodeRef hf
    simp only [endInWalk, Res.ok_andThen, execStream_decodeRef]
    cases hc : runCode (decodeRef c) t with
    | err e n u => exact if_neg (show ¬ (Activity.idle = .walking) by decide)
    | refused r => rfl
    | ok a u => exact if_pos (fetchRef_runCode_activity hact hf hc)

/-- The indices stay in range up to the end of a block (rule R283). -/
theorem blockBody_keeps {r : Regs} {q : Selectors} (h : s.InBlock r 0) (hq : blockBody s = .ok q u) : u.InBlock r 0 := by
  obtain ⟨i, t, hf, rest⟩ := Res.andThen_eq_ok.1 hq
  obtain ⟨_, v, hc, hsel⟩ := Res.andThen_eq_ok.1 rest
  obtain ⟨hin, c, rfl⟩ := fetchRef_keeps h hf
  have ran : execStream (decodeRef c) t = .next v := by
    rw [execStream_decodeRef, hc]
    rfl
  rcases execStream_decodeRef_keeps c hin ran with hgo | hraised
  · exact readSelectors_keeps hgo hsel
  · have goesOn := fetchRef_runCode_activity h.walking hf hc
    rw [hraised.1] at goesOn
    cases goesOn

theorem blockBody_prepares (s : State) : (blockBody s).Prepares s walkCauses := by
  have fetched := fetchRef_prepares s
  unfold blockBody
  cases hf : fetchRef s with
  | err c n t => rw [hf] at fetched; exact fetched
  | refused r => rw [hf] at fetched; exact fetched
  | ok i t =>
    rw [hf] at fetched
    obtain ⟨c, rfl⟩ := fetchRef_decodeRef hf
    exact ((runCode_decodeRef_prepares t c).andThen fun _ u _ => readSelectors_prepares _ _ u).of_prepared fetched

theorem blockBody_inRange {q : Selectors} (hq : blockBody s = .ok q u) : q.InRange s.regs s.walk.cls := by
  have fetched := fetchRef_prepares s
  obtain ⟨i, t, hf, rest⟩ := Res.andThen_eq_ok.1 hq
  obtain ⟨_, v, hc, hsel⟩ := Res.andThen_eq_ok.1 rest
  obtain ⟨c, rfl⟩ := fetchRef_decodeRef hf
  have ran := runCode_decodeRef_prepares t c
  rw [hf] at fetched
  rw [hc] at ran
  have hv : s.Prepared v := State.Prepared.trans fetched ran
  intro ch hch
  rw [← hv.regs]
  exact readSelectors_inRange (done := []) (by simp) hsel ch (by rwa [Walker.cls_of_place hv.place])

theorem blockBody_endsBlock (s : State) : (blockBody s).EndsBlock s := by
  have prepares := blockBody_prepares s
  cases hq : blockBody s with
  | err c n u => rw [hq] at prepares; exact prepares
  | refused r => rw [hq] at prepares; exact prepares
  | ok q u =>
    rw [hq] at prepares
    exact ⟨prepares, blockBody_inRange hq, fun r hr => blockBody_keeps hr hq⟩

end

/-- Everything one block of the walk can answer (rules R268 to R278). -/
inductive State.WalkOutcome (s : State) : Result → Prop where
  | raises (u : State) (h : s.Prepared u) (c : Cause) (n : BitVec 3) (listed : s.slotsBuilt → c ∈ walkCauses) :
      s.WalkOutcome (.next (u.raiseInWalk c n))
  | emits (q : Selectors) (u : State) (h : s.AtEnd q u) (inside : u.br.overrun = false)
      (visible : s.regs.visible s.walk.y s.walk.x = true) (ws : List Word) (words : u.blockWords q = .ok ws) :
      s.WalkOutcome (.next (u.emitted ws).advance)
  | skips (q : Selectors) (u : State) (h : s.AtEnd q u) (inside : u.br.overrun = false)
      (padded : s.regs.visible s.walk.y s.walk.x = false) : s.WalkOutcome (.next u.advance)
  | unreadable (r : Refusal) (h : ¬ s.CanRead) : s.WalkOutcome (.refused r)
  | noPalette (q : Selectors) (u : State) (h : s.AtEnd q u) (r : Refusal) (words : u.blockWords q = .error r) :
      s.WalkOutcome (.refused r)

theorem State.Prepared.visible {s u : State} (h : s.Prepared u) :
    u.regs.visible u.walk.y u.walk.x = s.regs.visible s.walk.y s.walk.x := by
  have place := h.place
  simp only [Walker.place, Prod.mk.injEq] at place
  obtain ⟨_, _, hy, hx, _⟩ := place
  rw [h.regs, hy, hx]

theorem endBlock_outcome_of_atEnd {s u : State} {q : Selectors} (h : s.AtEnd q u) : s.WalkOutcome (endBlock q u) := by
  cases hover : u.br.overrun with
  | true =>
    rw [endBlock_of_overrun hover]
    exact .raises u h.prepared _ _ fun _ => by decide
  | false =>
    cases hvis : u.regs.visible u.walk.y u.walk.x with
    | false =>
      rw [endBlock_of_padded hover hvis]
      exact .skips q u h hover (h.prepared.visible.symm.trans hvis)
    | true =>
      cases hw : u.blockWords q with
      | error r =>
        rw [endBlock_of_refused hover hvis (State.emit_of_refused hw)]
        exact .noPalette q u h r hw
      | ok ws =>
        rw [endBlock_of_visible hover hvis (State.emit_of_words hw)]
        exact .emits q u h hover (h.prepared.visible.symm.trans hvis) ws hw

theorem walkStep_cases {s : State} (hact : s.activity = .walking) : s.WalkOutcome (walkStep s) := by
  have ends := blockBody_endsBlock s
  rw [walkStep, walkStepWith_eq hact]
  cases hb : blockBody s with
  | err c n u => rw [hb] at ends; exact .raises u ends.1 c n ends.2
  | refused x => rw [hb] at ends; exact .unreadable x ends
  | ok q u => rw [hb] at ends; exact endBlock_outcome_of_atEnd ends

end Sys2Proof.Machine
end

