-- ==== Sys2Proof/Proofs/BlockPlaces.lean ====
section
/-! Where the visible blocks lie and in which order the walk meets them (rules R277, R301), and the words of a block whose
indices are in range (rules R302 to R306). -/

namespace Sys2Proof.Machine

/-! ### The order of the visible blocks (rule R277) -/

/-- The number of a visible block in the order of the walk. -/
def Regs.blockIndex (r : Regs) (f y x : Nat) : Nat := (f * r.hb.toNat + y) * r.wb.toNat + x

section
variable {r : Regs} {k : FormatClass} {f y x a : Nat}

theorem Regs.visibleBefore_of_visible (hy : y < r.hb.toNat) (hx : x ≤ r.wb.toNat) :
    r.visibleBefore f y x = r.blockIndex f y x := by
  rw [Regs.visibleBefore, Regs.blockIndex, if_pos hy, min_eq_left hy.le, min_eq_left hx]
  ring

theorem mul_add_inj {w a b i j : Nat} (hi : i < w) (hj : j < w) (h : a * w + i = b * w + j) : a = b ∧ i = j := by
  have quotient : a = b := by
    have := congrArg (· / w) h
    simpa [Nat.add_comm (_ * w), Nat.add_mul_div_right _ _ (Nat.zero_lt_of_lt hi), Nat.div_eq_of_lt hi,
      Nat.div_eq_of_lt hj] using this
  subst quotient
  exact ⟨rfl, Nat.add_left_cancel h⟩

/-- Different visible blocks have different numbers. -/
theorem Regs.blockIndex_inj {f' y' x' : Nat} (hy : y < r.hb.toNat) (hx : x < r.wb.toNat) (hy' : y' < r.hb.toNat)
    (hx' : x' < r.wb.toNat) (h : r.blockIndex f y x = r.blockIndex f' y' x') : f = f' ∧ y = y' ∧ x = x' := by
  obtain ⟨hrow, rfl⟩ := mul_add_inj hx hx' h
  obtain ⟨rfl, rfl⟩ := mul_add_inj hy hy' hrow
  exact ⟨rfl, rfl, rfl⟩

theorem Regs.visibleBefore_le (hf : f < r.faces.toNat) :
    r.visibleBefore f y x ≤ r.faces.toNat * (r.hb.toNat * r.wb.toNat) := by
  have rows : min y r.hb.toNat * r.wb.toNat + (if y < r.hb.toNat then min x r.wb.toNat else 0) ≤
      r.hb.toNat * r.wb.toNat := by
    split
    · next hy =>
      calc min y r.hb.toNat * r.wb.toNat + min x r.wb.toNat ≤ (y + 1) * r.wb.toNat := by
            rw [min_eq_left hy.le, Nat.succ_mul]
            exact Nat.add_le_add_left (min_le_right ..) _
        _ ≤ _ := Nat.mul_le_mul_right _ hy
    · exact Nat.mul_le_mul_right _ (min_le_right ..)
  calc r.visibleBefore f y x ≤ f * (r.hb.toNat * r.wb.toNat) + r.hb.toNat * r.wb.toNat := by
        rw [Regs.visibleBefore, Nat.add_assoc]
        exact Nat.add_le_add_left rows _
    _ = (f + 1) * (r.hb.toNat * r.wb.toNat) := (Nat.succ_mul ..).symm
    _ ≤ _ := Nat.mul_le_mul_right _ hf

/-- The number of visible blocks is a `RESULT` (rule R279): `FACES`, `WB` and `HB` are narrow. -/
theorem Regs.Accepted.blocks_lt (h : r.Accepted k) : r.faces.toNat * (r.hb.toNat * r.wb.toNat) < 2 ^ 32 := by
  have hf : r.faces.toNat ≤ 6 := by rcases h.faces with h | h <;> omega
  calc r.faces.toNat * (r.hb.toNat * r.wb.toNat) ≤ 6 * (2 ^ 11 * 2 ^ 11) :=
        Nat.mul_le_mul hf (Nat.mul_le_mul r.hb.isLt.le r.wb.isLt.le)
    _ < 2 ^ 32 := by norm_num

/-! ### The bytes of a visible block (rule R301) -/

/-- Address `a` is one of the visible block at `(f, y, x)`. -/
structure Regs.Covers (r : Regs) (k : FormatClass) (f y x a : Nat) : Prop where
  face : f < r.faces.toNat
  row : y < r.hb.toNat
  column : x < r.wb.toNat
  from_ : r.blockAddr k f y x ≤ a
  below : a < r.blockAddr k f y x + k.bpb

/-- The offset of a block's end within its face. -/
theorem Regs.Accepted.row_le_pitch (h : r.Accepted k) (hx : x < r.wb.toNat) : x * k.bpb + k.bpb ≤ r.pitch k := by
  calc x * k.bpb + k.bpb = (x + 1) * k.bpb := (Nat.succ_mul ..).symm
    _ ≤ r.wb.toNat * k.bpb := Nat.mul_le_mul_right _ hx
    _ ≤ r.pitch k := (Nat.mul_comm ..).trans_le h.pitch

theorem Regs.Accepted.block_in_face (h : r.Accepted k) (hy : y < r.hb.toNat) (hx : x < r.wb.toNat) :
    y * r.pitch k + x * k.bpb + k.bpb ≤ r.dstSize.toNat := by
  have rows : (y + 1) * r.pitch k ≤ r.dstSize.toNat :=
    (Nat.mul_le_mul_right _ hy).trans ((Nat.mul_comm ..).trans_le h.dstSize)
  have := h.row_le_pitch hx
  rw [Nat.succ_mul] at rows
  omega

theorem Regs.Covers.inFace (h : r.Accepted k) (hc : r.Covers k f y x a) :
    (r.dstRange f).1 ≤ a ∧ a < (r.dstRange f).1 + (r.dstRange f).2 := by
  have inside := h.block_in_face hc.row hc.column
  have lo := hc.from_
  have hi := hc.below
  simp only [Regs.blockAddr, Regs.dstRange] at lo hi ⊢
  omega

/-- Every byte of a block has a 32-bit address (rule R91). -/
theorem Regs.Covers.lt (h : r.Accepted k) (hc : r.Covers k f y x a) : a < 2 ^ 32 := by
  have hi := (hc.inFace h).2
  have := h.dst32 f hc.face
  simp only [Regs.dstRange] at hi
  omega

/-- Of two rows of a face, the blocks of the upper one come before those of the lower one. -/
theorem Regs.Covers.not_row_lt (h : r.Accepted k) {y' x' : Nat} (hc : r.Covers k f y x a) (hc' : r.Covers k f y' x' a) :
    ¬ y < y' := by
  intro hlt
  have rows : (y + 1) * r.pitch k ≤ y' * r.pitch k := Nat.mul_le_mul_right _ hlt
  have := h.row_le_pitch hc.column
  have hi := hc.below
  have lo := hc'.from_
  rw [Nat.succ_mul] at rows
  simp only [Regs.blockAddr] at hi lo
  omega

theorem Regs.Covers.not_column_lt {x' : Nat} (hc : r.Covers k f y x a) (hc' : r.Covers k f y x' a) : ¬ x < x' := by
  intro hlt
  have columns : (x + 1) * k.bpb ≤ x' * k.bpb := Nat.mul_le_mul_right _ hlt
  have hi := hc.below
  have lo := hc'.from_
  rw [Nat.succ_mul] at columns
  simp only [Regs.blockAddr] at hi lo
  omega

end

/-- No two visible blocks share a byte (rules R263, R389). -/
theorem State.RangesApart.covers_unique {s : State} {k : FormatClass} (apart : s.RangesApart) (h : s.regs.Accepted k)
    {f y x f' y' x' a : Nat} (hc : s.regs.Covers k f y x a) (hc' : s.regs.Covers k f' y' x' a) :
    f = f' ∧ y = y' ∧ x = x' := by
  have face : f = f' := by
    by_contra hne
    exact not_both_of_apart (apart.dst f hc.face f' hc'.face hne) (hc.inFace h) (hc'.inFace h)
  subst face
  have row : y = y' := le_antisymm (Nat.not_lt.1 (hc'.not_row_lt h hc)) (Nat.not_lt.1 (hc.not_row_lt h hc'))
  subst row
  exact ⟨rfl, rfl, le_antisymm (Nat.not_lt.1 (hc'.not_column_lt hc)) (Nat.not_lt.1 (hc.not_column_lt hc'))⟩

/-! ### Memory changed within some of the blocks -/

/-- Between two memories only bytes of the visible blocks number `n` to `m - 1` have changed. -/
def Regs.ChangedWithin (r : Regs) (k : FormatClass) (n m : Nat) (before after : Memory) : Prop :=
  ∀ a, (∀ f y x, r.Covers k f y x a → n ≤ r.blockIndex f y x → m ≤ r.blockIndex f y x) →
    Memory.read after a = Memory.read before a

section
variable {r : Regs} {k : FormatClass} {n m l : Nat} {A B C : Memory}

theorem Regs.ChangedWithin.refl (r : Regs) (k : FormatClass) (n m : Nat) (A : Memory) : r.ChangedWithin k n m A A :=
  fun _ _ => rfl

theorem Regs.ChangedWithin.trans (h : r.ChangedWithin k n m A B) (h' : r.ChangedWithin k m l B C) (hnm : n ≤ m)
    (hml : m ≤ l) : r.ChangedWithin k n l A C := by
  intro a ha
  rw [h' a fun f y x hc hm => ha f y x hc (hnm.trans hm), h a fun f y x hc hn => hml.trans (ha f y x hc hn)]

theorem FormatClass.bpb_eq (k : FormatClass) : k.bpb = 4 * k.words := rfl

/-- A block's words are written within the block. -/
theorem Regs.changedWithin_writeWords {f y x : Nat} (hf : f < r.faces.toNat) (hy : y < r.hb.toNat) (hx : x < r.wb.toNat)
    {ws : List Word} (hlen : ws.length ≤ k.words) (A : Memory) :
    r.ChangedWithin k (r.blockIndex f y x) (r.blockIndex f y x + 1) A (A.writeWords (r.blockAddr k f y x) ws) := by
  intro a ha
  refine Memory.read_writeWords_outside ws A _ a ?_
  by_contra hin
  have covers : r.Covers k f y x a := ⟨hf, hy, hx, by omega, by rw [k.bpb_eq]; omega⟩
  have := ha f y x covers le_rfl
  omega

/-- A written byte stays written. -/
theorem Memory.read_writeWords_ne_none {ws : List Word} {A : Memory} {b a : Nat} (h : Memory.read A a ≠ none) :
    Memory.read (A.writeWords b ws) a ≠ none := by
  induction ws generalizing A b with
  | nil => exact h
  | cons w ws ih =>
    refine ih ?_
    rw [Memory.read_writeWord]
    split
    · exact Option.some_ne_none _
    · exact h

end

theorem State.RangesApart.kept {s : State} {k : FormatClass} (apart : s.RangesApart) (h : s.regs.Accepted k) {n m : Nat}
    {A B : Memory} (changed : s.regs.ChangedWithin k n m A B) {f y x a : Nat} (hc : s.regs.Covers k f y x a)
    (hout : s.regs.blockIndex f y x < n ∨ m ≤ s.regs.blockIndex f y x) : Memory.read B a = Memory.read A a := by
  refine changed a fun f' y' x' hc' hn => ?_
  obtain ⟨rfl, rfl, rfl⟩ := apart.covers_unique h hc hc'
  omega

/-- The bytes of the words of a block are bytes of the block. -/
theorem Regs.covers_word {r : Regs} {k : FormatClass} {f y x : Nat} (hf : f < r.faces.toNat) (hy : y < r.hb.toNat)
    (hx : x < r.wb.toNat) {i b : Nat} (hi : i < k.words) (hb : b < 4) :
    r.Covers k f y x (r.blockAddr k f y x + 4 * i + b) :=
  ⟨hf, hy, hx, by omega, by rw [k.bpb_eq]; omega⟩

/-! ### The words of a block whose indices are in range -/

section
variable {s t : State}

theorem State.classBlock_congr (h : t.hostSide = s.hostSide) (k : FormatClass) (ws : List Word) :
    t.classBlock k ws = s.classBlock k ws := by
  simp only [State.hostSide, Prod.mk.injEq] at h
  obtain ⟨_, hregs, _, hce, hcs, hae, has, _⟩ := h
  cases k <;> simp only [State.classBlock, State.colorHalf, State.alphaHalf, hregs, hce, hcs, hae, has]

theorem State.colorWords_inRange (hm : s.palettesMatch = true) {ce cs : Nat} (hce : ce < s.regs.numCE.toNat)
    (hcs : cs < s.regs.numCS.toNat) : ∃ ws, s.colorWords ce cs = .ok ws ∧ s.colorHalf ws ∧ ws.length = 2 := by
  obtain ⟨lce, lcs, _, _⟩ := State.palettesMatch_eq_true.1 hm
  obtain ⟨e, he⟩ : ∃ e, s.palCE[ce]? = some e := ⟨_, List.getElem?_eq_getElem (by omega)⟩
  obtain ⟨q, hq⟩ : ∃ q, s.palCS[cs]? = some q := ⟨_, List.getElem?_eq_getElem (by omega)⟩
  exact ⟨_, State.colorWords_eq_ok he hq, ⟨ce, cs, e, q, hce, hcs, he, hq, rfl⟩, rfl⟩

theorem State.alphaWords_inRange (hm : s.palettesMatch = true) {ae sel : Nat} (hae : ae < s.regs.numAE.toNat)
    (hsel : sel < s.regs.numAS.toNat) : ∃ ws, s.alphaWords ae sel = .ok ws ∧ s.alphaHalf ws ∧ ws.length = 2 := by
  obtain ⟨_, _, lae, las⟩ := State.palettesMatch_eq_true.1 hm
  obtain ⟨e, he⟩ : ∃ e, s.palAE[ae]? = some e := ⟨_, List.getElem?_eq_getElem (by omega)⟩
  obtain ⟨s0, h0⟩ : ∃ v, s.palAS[3 * sel]? = some v := ⟨_, List.getElem?_eq_getElem (by omega)⟩
  obtain ⟨s1, h1⟩ : ∃ v, s.palAS[3 * sel + 1]? = some v := ⟨_, List.getElem?_eq_getElem (by omega)⟩
  obtain ⟨s2, h2⟩ : ∃ v, s.palAS[3 * sel + 2]? = some v := ⟨_, List.getElem?_eq_getElem (by omega)⟩
  refine ⟨_, State.alphaWords_eq_ok he h0 h1 h2, ⟨ae, sel, e, s0, s1, s2, hae, hsel, he, h0, h1, h2, ?_⟩, rfl⟩
  rw [pairWord_eq_append, pairWord_eq_append]

/-- Indices in range name palette entries, so the block has its words (rules R283, R302 to R306). -/
theorem State.blockWords_inRange {q : Selectors} (hm : s.palettesMatch = true)
    (acc : ∀ ch ∈ s.walk.cls.channels, s.walk.index ch < s.regs.endpointCount ch) (sel : q.InRange s.regs s.walk.cls) :
    ∃ ws, s.blockWords q = .ok ws ∧ s.classBlock s.walk.cls ws ∧ ws.length = s.walk.cls.words := by
  cases hc : s.walk.cls <;> rw [hc] at acc sel
  case c =>
    rw [State.blockWords_c q hc]
    exact State.colorWords_inRange hm (acc .color (by decide)) (sel .color (by decide))
  case a =>
    rw [State.blockWords_a q hc]
    exact State.alphaWords_inRange hm (acc .alpha0 (by decide)) (sel .alpha0 (by decide))
  case ca =>
    obtain ⟨lo, hlo, alo, llo⟩ := State.alphaWords_inRange hm (acc .alpha0 (by decide)) (sel .alpha0 (by decide))
    obtain ⟨hi, hhi, ahi, lhi⟩ := State.colorWords_inRange hm (acc .color (by decide)) (sel .color (by decide))
    exact ⟨_, State.blockWords_ca hc hlo hhi, ⟨lo, hi, alo, ahi, rfl⟩, by rw [List.length_append, llo, lhi]; rfl⟩
  case aa =>
    obtain ⟨lo, hlo, alo, llo⟩ := State.alphaWords_inRange hm (acc .alpha0 (by decide)) (sel .alpha0 (by decide))
    obtain ⟨hi, hhi, ahi, lhi⟩ := State.alphaWords_inRange hm (acc .alpha1 (by decide)) (sel .alpha1 (by decide))
    exact ⟨_, State.blockWords_aa hc hlo hhi, ⟨lo, hi, alo, ahi, rfl⟩, by rw [List.length_append, llo, lhi]; rfl⟩

end
end Sys2Proof.Machine
end

