-- ==== Sys2Proof/Proofs/UnpackRuns.lean ====
section
/-! O43, O45, O46: the run of an `UNPACK` from its start to its end: what it leaves alone, which bytes it has written after some
of its blocks, and how it ends (rules R260, R261, R279, R280, R310). -/

namespace Sys2Proof.Machine

/-! ### The invariants of the run -/

/-- The premises of a walk: accepted arguments and the host's duties (rules R263, R389, R390). -/
structure State.WalkReady (s : State) (k : FormatClass) : Prop where
  accepted : s.regs.Accepted k
  apart : s.RangesApart
  palettes : s.palettesMatch = true

theorem State.walkReady_of_checks {s : State} {cls : BitVec 4} {k : FormatClass} (h : argChecks s.regs cls = .ok k)
    (hd : s.hostDuties = none) : s.WalkReady k :=
  ⟨Regs.accepted_of_argChecks h, State.rangesApart_of_duties hd, (State.hostDuties_eq_none.1 hd).2.2.2.2.2⟩

/-- The visible blocks before number `n` hold words that `P` allows. -/
def Regs.HoldsBlocks (r : Regs) (k : FormatClass) (P : List Word → Prop) (n : Nat) (m : Memory) : Prop :=
  ∀ f < r.faces.toNat, ∀ y < r.hb.toNat, ∀ x < r.wb.toNat, r.blockIndex f y x < n →
    ∃ ws, P ws ∧ ws.length = k.words ∧ Memory.holdsWords m (r.blockAddr k f y x) ws

/-- What holds of every state that an `UNPACK` of class `k` begun in `s` reaches between two blocks, and of the one it ends in. -/
structure State.WalkFrame (s : State) (k : FormatClass) (t : State) : Prop where
  host : t.hostSide = s.hostSide
  slots : t.slots = s.slots
  recv : t.recv = s.recv
  cls : t.walk.cls = k
  range : t.br.range = (s.regs.srcBase, s.regs.srcLen, true, false)
  exact : t.overrunExact
  canonical : canonicalBuffer s.blockBuf → canonicalBuffer t.blockBuf
  count : t.walk.blocksWritten ≤ s.regs.faces.toNat * (s.regs.hb.toNat * s.regs.wb.toNat)
  changed : s.regs.ChangedWithin k 0 t.walk.blocksWritten s.mem t.mem
  words : s.regs.HoldsBlocks k (s.classBlock k) t.walk.blocksWritten t.mem
  memory : Memory.wf s.mem → Memory.wf t.mem
  readable : s.sourceWritten → t.rangeReadable

/-- The walk is between two blocks. -/
structure State.Walking (s : State) (k : FormatClass) (t : State) : Prop extends s.WalkFrame k t where
  inBlock : t.InBlock s.regs 0
  inside : t.br.overrun = false
  pending : t.ending = .pending
  quiet : t.errinfo = s.errinfo ∧ t.anyErr = s.anyErr

/-- The command has ended. -/
structure State.Unpacked (s : State) (k : FormatClass) (t : State) : Prop extends s.WalkFrame k t where
  idle : t.activity = .idle
  result : t.result = BitVec.ofNat 32 t.walk.blocksWritten
  ended :
    (t.ending = .done ∧ t.br.overrun = false ∧ t.errinfo = s.errinfo ∧ t.anyErr = s.anyErr ∧
      t.walk.blocksWritten = s.regs.faces.toNat * (s.regs.hb.toNat * s.regs.wb.toNat)) ∨
    ∃ c, t.ending = .raised c ∧ t.anyErr = true ∧ (s.slotsBuilt → c ∈ walkCauses)

/-- The start of the walk of an `UNPACK`. -/
def State.unpackStart (s : State) (k : FormatClass) : State := s.startCommand.clearWritten.startWalk k

/-- From `t` to `u` the walk has written blocks number `t.walk.blocksWritten` and on, and no others. -/
def State.WritesTo (k : FormatClass) (t u : State) : Prop :=
  t.walk.blocksWritten ≤ u.walk.blocksWritten ∧
    t.regs.ChangedWithin k t.walk.blocksWritten u.walk.blocksWritten t.mem u.mem

section
variable {s t u : State} {k : FormatClass}

theorem State.WritesTo.trans {v : State} (hregs : u.regs = t.regs) (h : t.WritesTo k u) (h' : u.WritesTo k v) :
    t.WritesTo k v :=
  ⟨h.1.trans h'.1, h.2.trans (hregs ▸ h'.2) h.1 h'.1⟩

theorem State.Prepared.blocksWritten (h : t.Prepared u) : u.walk.blocksWritten = t.walk.blocksWritten :=
  congrArg (fun p => p.2.2.2.2) h.place

namespace State.WalkFrame

theorem prepared (h : s.WalkFrame k t) (hu : t.Prepared u) : s.WalkFrame k u where
  host := hu.hostSide.trans h.host
  slots := hu.slots.trans h.slots
  recv := (congrArg (fun p => p.2.2.2.2.2.2.2.1) hu.rest).trans h.recv
  cls := (Walker.cls_of_place hu.place).trans h.cls
  range := hu.range.trans h.range
  exact := hu.exact h.exact
  canonical hs := hu.canonical (h.canonical hs)
  count := by rw [hu.blocksWritten]; exact h.count
  changed := by rw [hu.blocksWritten, hu.mem]; exact h.changed
  words := by rw [hu.blocksWritten, hu.mem]; exact h.words
  memory hs := by rw [hu.mem]; exact h.memory hs
  readable hs := hu.rangeReadable (h.readable hs)

theorem regs (h : s.WalkFrame k t) : t.regs = s.regs := congrArg (fun p => p.2.1) h.host

theorem advance (h : s.WalkFrame k t) : s.WalkFrame k t.advance := by
  unfold State.advance
  split
  · exact { h with }
  · split
    · exact { h with }
    · split
      · exact { h with
          canonical := fun hs => ⟨keysRise_clearValid (h.canonical hs).1 _, noneIs_clearValid (h.canonical hs).2 _⟩ }
      · exact { h with }

theorem raiseInWalk (h : s.WalkFrame k t) (c : Cause) (n : BitVec 3) : s.WalkFrame k (t.raiseInWalk c n) := { h with }

end State.WalkFrame

theorem Memory.holdsWords_congr {A B : Memory} {a : Nat} {ws : List Word}
    (h : ∀ i < ws.length, ∀ b < 4, Memory.read B (a + 4 * i + b) = Memory.read A (a + 4 * i + b))
    (hA : Memory.holdsWords A a ws) : Memory.holdsWords B a ws := by
  intro j w hj b hb
  rw [h j (List.getElem?_eq_some_iff.1 hj).1 b hb]
  exact hA j w hj b hb

/-! ### The emission -/

/-- The number of a visible block is the count of the blocks written before it (rule R283). -/
theorem State.InBlock.blocksWritten_eq (h : t.InBlock s.regs 0)
    (hvis : t.walk.x < s.regs.wb.toNat ∧ t.walk.y < s.regs.hb.toNat) :
    t.walk.blocksWritten = s.regs.blockIndex t.walk.f t.walk.y t.walk.x := by
  rw [h.written, Regs.visibleBefore_of_visible hvis.2 hvis.1.le, Nat.add_zero]

theorem State.InBlock.emitted (h : t.InBlock s.regs 0) (ws : List Word) : (t.emitted ws).InBlock s.regs 1 :=
  ⟨h.walking, h.regs, h.inGrid, h.accumulators, h.entries, congrArg (· + 1) h.written⟩

theorem State.InBlock.emission_changes (h : t.InBlock s.regs 0) (hcls : t.walk.cls = k)
    (hvis : t.walk.x < s.regs.wb.toNat ∧ t.walk.y < s.regs.hb.toNat) {ws : List Word} (hlen : ws.length ≤ k.words) :
    s.regs.ChangedWithin k t.walk.blocksWritten (t.walk.blocksWritten + 1) t.mem (t.mem.writeWords t.walkAddr ws) := by
  rw [h.blocksWritten_eq hvis, State.walkAddr, h.regs, hcls]
  exact Regs.changedWithin_writeWords h.inGrid.1 hvis.2 hvis.1 hlen _

/-- The walker's block holds the words that are written into it, and the blocks before it keep theirs (rules R301, R310). -/
theorem State.InBlock.holdsBlocks_emitted (h : t.InBlock s.regs 0) (hcls : t.walk.cls = k) (ready : s.WalkReady k)
    (hvis : t.walk.x < s.regs.wb.toNat ∧ t.walk.y < s.regs.hb.toNat) {P : List Word → Prop} {ws : List Word} (hws : P ws)
    (hlen : ws.length = k.words) (before : s.regs.HoldsBlocks k P t.walk.blocksWritten t.mem) :
    s.regs.HoldsBlocks k P (t.walk.blocksWritten + 1) (t.mem.writeWords t.walkAddr ws) := by
  intro f hf y hy x hx hidx
  have changes := h.emission_changes hcls hvis hlen.le
  rcases Nat.lt_or_eq_of_le (Nat.lt_succ_iff.1 hidx) with hlt | heq
  · obtain ⟨vs, hvs, lvs, holds⟩ := before f hf y hy x hx hlt
    refine ⟨vs, hvs, lvs, Memory.holdsWords_congr (fun i hi b hb => ?_) holds⟩
    exact ready.apart.kept ready.accepted changes (Regs.covers_word hf hy hx (lvs ▸ hi) hb) (.inl hlt)
  · refine ⟨ws, hws, hlen, ?_⟩
    have place : s.regs.blockAddr k f y x = t.walkAddr := by
      obtain ⟨rfl, rfl, rfl⟩ := Regs.blockIndex_inj hy hx hvis.2 hvis.1 (heq.trans (h.blocksWritten_eq hvis))
      rw [State.walkAddr, h.regs, hcls]
    rw [place]
    exact Memory.holdsWords_writeWords t.mem t.walkAddr ws

/-- Writing the walker's block and counting it (rules R277, R300, R301). -/
theorem State.WalkFrame.emitted (h : s.WalkFrame k t) (ready : s.WalkReady k) (hin : t.InBlock s.regs 0)
    (hvis : t.walk.x < s.regs.wb.toNat ∧ t.walk.y < s.regs.hb.toNat) {ws : List Word} (hws : s.classBlock k ws)
    (hlen : ws.length = k.words) : s.WalkFrame k (t.emitted ws) :=
  { h with
    count := by
      have number := hin.blocksWritten_eq hvis
      have next := Regs.visibleBefore_le (r := s.regs) (y := t.walk.y) (x := t.walk.x + 1) hin.inGrid.1
      rw [Regs.visibleBefore_of_visible hvis.2 hvis.1, Regs.blockIndex] at next
      rw [Regs.blockIndex] at number
      show t.walk.blocksWritten + 1 ≤ _
      omega
    changed := h.changed.trans (hin.emission_changes h.cls hvis hlen.le) (Nat.zero_le _) (Nat.le_succ _)
    words := hin.holdsBlocks_emitted h.cls ready hvis hws hlen h.words
    memory := fun hs => Memory.wf_writeWords ws (h.memory hs) _
    readable := fun hs => ⟨(h.readable hs).1, fun j hj => Memory.read_writeWords_ne_none ((h.readable hs).2 j hj)⟩ }

/-! ### One block of the run -/

/-- The move to the next place, after a block that has emitted itself if it is visible. -/
theorem State.WalkFrame.advance_cases (h : s.WalkFrame k t) (ready : s.WalkReady k)
    (hin : t.InBlock s.regs (s.regs.visible t.walk.y t.walk.x).toNat) (inside : t.br.overrun = false)
    (pending : t.ending = .pending) (quiet : t.errinfo = s.errinfo ∧ t.anyErr = s.anyErr) :
    (s.Walking k t.advance ∧ t.advance.walkRank = t.walkRank + 1) ∨ s.Unpacked k t.advance := by
  have frame := h.advance
  have outcome := advance_outcome hin
  have grid : t.InGrid := by rw [State.InGrid, hin.regs]; exact hin.inGrid
  have goesOn {v : State} (hact : v.activity = .walking) (hout : v.BlockOutcome s.regs) : v.InBlock s.regs 0 := by
    cases hout with
    | goesOn h => exact h
    | raised h => rw [h.1] at hact; cases hact
    | finished hidle _ => rw [hidle] at hact; cases hact
  have move := grid.advance_nextPlace
  generalize t.advance = v at move frame outcome
  cases move with
  | column rank _ => exact .inl ⟨{ frame with inBlock := goesOn hin.walking outcome, inside, pending, quiet }, rank⟩
  | row rank _ => exact .inl ⟨{ frame with inBlock := goesOn hin.walking outcome, inside, pending, quiet }, rank⟩
  | face rank _ => exact .inl ⟨{ frame with inBlock := goesOn hin.walking outcome, inside, pending, quiet }, rank⟩
  | last rank =>
    have total : t.walk.blocksWritten = s.regs.faces.toNat * (s.regs.hb.toNat * s.regs.wb.toNat) := by
      cases outcome with
      | goesOn h => exact absurd h.walking nofun
      | raised h => obtain ⟨_, c, hc⟩ := h; cases hc
      | finished _ hcount =>
        have small := ready.accepted.blocks_lt
        have same := congrArg BitVec.toNat hcount
        simp only [State.finishCommand_result, State.setResult_result, BitVec.toNat_ofNat, Nat.mul_assoc] at same
        rw [Nat.mul_comm s.regs.wb.toNat] at same
        rwa [Nat.mod_eq_of_lt (h.count.trans_lt small), Nat.mod_eq_of_lt small] at same
    exact .inr { frame with idle := rfl, result := rfl, ended := .inl ⟨rfl, inside, quiet.1, quiet.2, total⟩ }

theorem State.advance_mem (t : State) : t.advance.mem = t.mem ∧ t.advance.walk.blocksWritten = t.walk.blocksWritten := by
  unfold State.advance
  split_ifs <;> exact ⟨rfl, rfl⟩

theorem State.Prepared.kept_ending (h : t.Prepared u) :
    u.ending = t.ending ∧ u.errinfo = t.errinfo ∧ u.anyErr = t.anyErr := by
  have rest := h.rest
  simp only [State.walkRest, Prod.mk.injEq] at rest
  exact ⟨rest.2.2.2.1, rest.2.2.1, rest.2.2.2.2.1⟩

theorem State.Prepared.walkRank (h : t.Prepared u) : u.walkRank = t.walkRank := by
  have place := h.place
  simp only [Walker.place, Prod.mk.injEq] at place
  simp only [State.walkRank, h.regs, place]

/-- What holds at the end of a block of the run, with the words that it emits if it is visible. -/
theorem State.Walking.atEnd (h : s.Walking k t) (ready : s.WalkReady k) {q : Selectors} (he : t.AtEnd q u) :
    s.WalkFrame k u ∧ u.InBlock s.regs 0 ∧ u.ending = .pending ∧ (u.errinfo = s.errinfo ∧ u.anyErr = s.anyErr) ∧
      ∃ ws, u.blockWords q = .ok ws ∧ s.classBlock k ws ∧ ws.length = k.words := by
  obtain ⟨hend, herr, hany⟩ := he.prepared.kept_ending
  have frame := h.toWalkFrame.prepared he.prepared
  have hin := he.inBlock _ h.inBlock
  refine ⟨frame, hin, hend.trans h.pending, ⟨herr.trans h.quiet.1, hany.trans h.quiet.2⟩, ?_⟩
  have palettes : u.palettesMatch = true := by
    have host := frame.host
    simp only [State.hostSide, Prod.mk.injEq] at host
    simp only [State.palettesMatch, host]
    exact ready.palettes
  have selectors : q.InRange u.regs u.walk.cls := by
    rw [hin.regs, frame.cls, ← h.cls, ← h.inBlock.regs]
    exact he.selectors
  obtain ⟨ws, hws, hclass, hlen⟩ := State.blockWords_inRange palettes (hin.regs ▸ hin.accumulators) selectors
  rw [frame.cls] at hclass hlen
  exact ⟨ws, hws, State.classBlock_congr frame.host k ws ▸ hclass, hlen⟩

/-- One block of the run: it may be refused only where a source byte is missing; else the run goes on by one place, or ends. -/
theorem State.Walking.step (h : s.Walking k t) (ready : s.WalkReady k) :
    (¬ s.sourceWritten ∧ ∃ r, innerStep t = .refused r) ∨
    ∃ u, innerStep t = .next u ∧ t.WritesTo k u ∧
      ((s.Walking k u ∧ u.walkRank = t.walkRank + 1) ∨ s.Unpacked k u) := by
  have hact := h.inBlock.walking
  have hregs := h.inBlock.regs
  rw [innerStep_of_walking hact]
  have outcome := walkStep_cases hact
  generalize walkStep t = o at outcome
  cases outcome with
  | unreadable r hread => exact .inl ⟨fun hs => hread (.inl (h.readable hs)), r, rfl⟩
  | noPalette q u he r words =>
    obtain ⟨_, _, _, _, ws, hws, _⟩ := h.atEnd ready he
    rw [hws] at words
    cases words
  | raises u hu c n listed =>
    have frame := h.toWalkFrame.prepared hu
    refine .inr ⟨_, rfl, ?_, .inr { frame.raiseInWalk c n with
      idle := rfl, result := rfl, ended := .inr ⟨c, rfl, rfl, fun hb => listed ?_⟩ }⟩
    · refine ⟨hu.blocksWritten.ge, ?_⟩
      rw [show (u.raiseInWalk c n).mem = t.mem from hu.mem]
      exact Regs.ChangedWithin.refl _ _ _ _ _
    · intro j m hm
      exact hb j m (by rwa [State.slot, ← h.slots])
  | skips q u he inside padded =>
    obtain ⟨frame, hin, hpend, hquiet, _⟩ := h.atEnd ready he
    have hidden : s.regs.visible u.walk.y u.walk.x = false := by
      rw [← hin.regs, he.prepared.visible, padded]
    refine .inr ⟨_, rfl, ?_, ?_⟩
    · obtain ⟨hmem, hcount⟩ := u.advance_mem
      refine ⟨(hcount.trans he.prepared.blocksWritten).ge, ?_⟩
      rw [hmem, he.prepared.mem]
      exact Regs.ChangedWithin.refl _ _ _ _ _
    · rw [← he.prepared.walkRank]
      exact frame.advance_cases ready (by rw [hidden]; exact hin) inside hpend hquiet
  | emits q u he inside visible ws words =>
    obtain ⟨frame, hin, hpend, hquiet, ws', hws', hclass, hlen⟩ := h.atEnd ready he
    obtain rfl : ws' = ws := by rw [hws'] at words; cases words; rfl
    have shown : s.regs.visible u.walk.y u.walk.x = true := by
      rw [← hin.regs, he.prepared.visible, visible]
    have hvis := Regs.visible_eq_true.1 shown
    refine .inr ⟨_, rfl, ?_, ?_⟩
    · obtain ⟨hmem, hcount⟩ := (u.emitted ws').advance_mem
      have changes := hin.emission_changes frame.cls hvis hlen.le
      rw [he.prepared.mem, he.prepared.blocksWritten] at changes
      refine ⟨(Nat.le_succ _).trans_eq ((congrArg (· + 1) he.prepared.blocksWritten.symm).trans hcount.symm), ?_⟩
      rw [hmem, hcount, hregs]
      show s.regs.ChangedWithin k _ (u.walk.blocksWritten + 1) _ (u.mem.writeWords u.walkAddr ws')
      rw [he.prepared.blocksWritten, he.prepared.mem]
      exact changes
    · rw [← he.prepared.walkRank]
      exact (frame.emitted ready hin hvis hclass hlen).advance_cases ready (by
        show (u.emitted ws').InBlock s.regs (s.regs.visible u.walk.y u.walk.x).toNat
        rw [shown]
        exact hin.emitted ws') inside hpend hquiet

/-! ### The whole run -/

/-- How many blocks are left. -/
def State.blocksLeft (t : State) : Nat := t.regs.blockCount - t.walkRank

theorem State.InBlock.inGrid' {r : Regs} {n : Nat} (h : t.InBlock r n) : t.InGrid := by
  rw [State.InGrid, h.regs]
  exact h.inGrid

/-- From any instant between two blocks the run comes to its end. -/
theorem State.Walking.run (h : s.Walking k t) (ready : s.WalkReady k) {n : Nat} (hn : t.blocksLeft ≤ n) :
    (¬ s.sourceWritten ∧ ∃ r, runToIdle n t = .refused r) ∨
    ∃ u, runToIdle n t = .next u ∧ s.Unpacked k u ∧ t.WritesTo k u := by
  refine runToIdle_cases (P := fun v => s.Walking k v ∧ t.WritesTo k v) (Q := fun v => s.Unpacked k v ∧ t.WritesTo k v)
    State.blocksLeft ?_ ⟨h, le_rfl, .refl _ _ _ _ _⟩ hn
  rintro v ⟨hv, hwrites⟩
  have left := hv.inBlock.inGrid'.walkRank_lt
  refine ⟨by rw [hv.inBlock.walking]; decide, Nat.sub_pos_of_lt left, (hv.step ready).imp id ?_⟩
  rintro ⟨w, hw, more, hout⟩
  have all := hwrites.trans (hv.inBlock.regs.trans h.inBlock.regs.symm) more
  refine ⟨w, hw, hout.imp ?_ fun hend => ⟨hend.idle, hend, all⟩⟩
  rintro ⟨hgo, hrank⟩
  refine ⟨⟨hgo, all⟩, ?_⟩
  rw [State.blocksLeft, State.blocksLeft, hgo.inBlock.regs, hv.inBlock.regs, hrank]
  rw [hv.inBlock.regs] at left
  omega

theorem State.unpackStart_walking {cls : BitVec 4} (h : argChecks s.regs cls = .ok k) : s.Walking k (s.unpackStart k) where
  host := rfl
  slots := rfl
  recv := rfl
  cls := rfl
  range := rfl
  exact := by simp [State.overrunExact, State.unpackStart, State.startWalk, State.faceReset, State.startReader]
  canonical hs := ⟨keysRise_clearValid hs.1 _, noneIs_clearValid hs.2 _⟩
  count := Nat.zero_le _
  changed := .refl _ _ _ _ _
  words _ _ _ _ _ _ hlt := absurd hlt (Nat.not_lt_zero _)
  memory := id
  readable hs := ⟨rfl, hs⟩
  inBlock := State.startWalk_inBlock (s := s.startCommand) h
  inside := rfl
  pending := rfl
  quiet := ⟨rfl, rfl⟩

theorem State.blocksLeft_unpackStart (s : State) (k : FormatClass) : (s.unpackStart k).blocksLeft = s.regs.blockCount := by
  show s.regs.blockCount - ((0 * _ + 0) * _ + 0) = _
  simp

/-- With its checks passed `UNPACK` ends as a command, or is refused for a source byte that is missing. -/
theorem exec_unpack_run {cls : BitVec 4} (h : argChecks s.regs cls = .ok k) (hd : s.hostDuties = none) :
    (¬ s.sourceWritten ∧ ∃ r, exec (.unpack cls) s = .refused r) ∨
    ∃ t, exec (.unpack cls) s = .next t ∧ s.Unpacked k t := by
  rw [exec_unpack_of_accepted h hd]
  have run := (State.unpackStart_walking h).run (State.walkReady_of_checks h hd) (s.blocksLeft_unpackStart k).le
  refine run.imp id ?_
  rintro ⟨t, ht, hout, _⟩
  exact ⟨t, ht, hout⟩

/-- Where `UNPACK` has a next state, an argument check has failed or its walk has run. -/
theorem exec_unpack_next {cls : BitVec 4} (h : exec (.unpack cls) s = .next t) :
    (∃ c, argChecks s.regs cls = .error c ∧ t = s.startCommand.clearWritten.raiseArgs c) ∨
    ∃ k, argChecks s.regs cls = .ok k ∧ s.hostDuties = none ∧ s.Unpacked k t := by
  rcases exec_unpack_cases s cls with ⟨c, hc, he⟩ | ⟨r, he⟩ | ⟨k, hk, hd, _⟩
  · cases he.symm.trans h
    exact .inl ⟨c, hc, rfl⟩
  · cases he.symm.trans h
  · rcases exec_unpack_run hk hd with ⟨_, r, hr⟩ | ⟨u, hu, hout⟩
    · cases hr.symm.trans h
    · cases hu.symm.trans h
      exact .inr ⟨k, hk, hd, hout⟩

end

/-- Settles O43: with every source byte written nothing is refused, and the run ends with `DONE` or a cause of the walk. -/
theorem unpackEndsDoneOrWithAWalkCause : Obligations.UnpackEndsDoneOrWithAWalkCause := by
  intro s cls k hk hd hsrc hbuilt
  rcases exec_unpack_run hk hd with ⟨hmissing, _⟩ | ⟨t, ht, out⟩
  · exact absurd hsrc hmissing
  refine ⟨t, ht, out.idle, ?_⟩
  rcases out.ended with ⟨hdone, inside, _, _, total⟩ | ⟨c, hc, _, listed⟩
  · refine .inl ⟨hdone, inside, out.result.trans ?_⟩
    rw [total, Nat.mul_assoc, Nat.mul_comm s.regs.hb.toNat]
  · exact .inr ⟨c, listed hbuilt, hc⟩

/-- Settles O45: every visible block has been written when the walk ends with `DONE`. -/
theorem visibleBlocksHoldPaletteWords : Obligations.VisibleBlocksHoldPaletteWords := by
  intro s t cls k hcls ht hdone f hf y hy x hx
  rcases exec_unpack_next ht with ⟨c, _, rfl⟩ | ⟨k', hk, hd, out⟩
  · cases hdone
  obtain ⟨hcls', _⟩ := argChecks_eq_ok_iff.1 hk
  obtain rfl := Option.some.inj (hcls.symm.trans hcls')
  rcases out.ended with ⟨_, _, _, _, total⟩ | ⟨c, hc, _⟩
  · refine out.words f hf y hy x hx ?_
    have before := Regs.visibleBefore_le (r := s.regs) (y := y) (x := x + 1) hf
    rw [Regs.visibleBefore_of_visible hy hx, Regs.blockIndex] at before
    rw [total, Regs.blockIndex]
    omega
  · rw [hdone] at hc
    cases hc

/-- Settles O46: what the run keeps, and the blocks that it has written, whose number is `RESULT`. -/
theorem unpackFrame : Obligations.UnpackFrame := by
  refine ⟨fun s t cls ht => ?frame, fun s t cls ht => ⟨fun hcls => ?noClass, fun k hcls a ha => ?bytes⟩⟩ <;>
    rcases exec_unpack_next ht with ⟨c, _, rfl⟩ | ⟨k', hk, hd, out⟩
  case frame.inl => rfl
  case frame.inr =>
    have host := out.host
    have slots := out.slots
    have recv := out.recv
    have idle := out.idle
    obtain ⟨⟩ := t
    simp only [State.hostSide, Prod.mk.injEq] at host slots recv idle
    simp [host, slots, recv, idle]
  case noClass.inl => rfl
  case noClass.inr =>
    rw [(argChecks_eq_ok_iff.1 hk).1] at hcls
    cases hcls
  case bytes.inl => rfl
  case bytes.inr =>
    obtain ⟨hcls', _⟩ := argChecks_eq_ok_iff.1 hk
    obtain rfl := Option.some.inj (hcls.symm.trans hcls')
    refine out.changed a fun f y x hc _ => ?_
    have written : t.result.toNat = t.walk.blocksWritten := by
      rw [out.result, BitVec.toNat_ofNat]
      exact Nat.mod_eq_of_lt (out.count.trans_lt (Regs.accepted_of_argChecks hk).blocks_lt)
    have := ha f hc.face y hc.row x hc.column
    have lo := hc.from_
    have hi := hc.below
    rw [Regs.blockIndex]
    omega

end Sys2Proof.Machine
end

