-- ==== Sys2Proof/Proofs/CommandFrames.lean ====
section
/-! O15, O16, O60: what every instruction leaves alone, how a command ends, and with which causes (rules R33, R34, R54, R324,
R327, R331). -/

namespace Sys2Proof.Machine

/-! ### A command's rule, between its beginning and its end -/

/-- What the rule of a command other than `SOFT_RESET`, `RECV_MODEL` and `UNPACK` keeps. -/
structure State.Settles (s u : State) : Prop where
  host : u.hostSide = s.hostSide
  mem : u.mem = s.mem
  blockBuf : u.blockBuf = s.blockBuf
  quiet : u.errinfo = s.errinfo ∧ u.anyErr = s.anyErr
  exact : s.overrunExact → u.overrunExact
  built : s.slotsBuilt → u.slotsBuilt

/-- A rule that keeps these things, `RESULT` too where it raises, and raises one of its causes. -/
def Res.SettlesWith (s : State) (causes : List Cause) : Res Unit → Prop
  | .ok _ u => s.Settles u
  | .err c _ u => s.Settles u ∧ u.result = s.result ∧ (s.slotsBuilt → c ∈ causes)
  | .refused _ => True

/-- Memory changed at 32-bit addresses at most. -/
def Memory.addresses32 (m : Memory) : Prop := ∀ c ∈ m, c.1 < 2 ^ 32

/-- What a command other than `SOFT_RESET`, begun in `s`, leaves. -/
structure State.Commanded (s : State) (i : Instr) (t : State) : Prop where
  host : t.hostSide = s.hostSide
  idle : t.activity = .idle
  ended : (t.ending = .done ∧ t.errinfo = s.errinfo ∧ t.anyErr = s.anyErr) ∨
    ∃ c, t.ending = .raised c ∧ t.anyErr = true ∧ ((∃ cls, i = .unpack cls) ∨ t.result = s.result) ∧
      (s.slotsBuilt → c ∈ causesOf i)
  mem : (∀ cls, i ≠ .unpack cls) → t.mem = s.mem
  memory : Memory.wf s.mem → Memory.wf t.mem
  addresses : Memory.addresses32 s.mem → Memory.addresses32 t.mem
  canonical : canonicalBuffer s.blockBuf → canonicalBuffer t.blockBuf
  exact : s.overrunExact → t.overrunExact
  built : s.slotsBuilt → t.slotsBuilt

section
variable {s t u : State} {k : SlotId}

theorem State.slotsBuilt_setSlot (hs : s.slotsBuilt) {m : Option Model} (hm : ∀ x, m = some x → buildModel x.cl = .ok x) :
    (s.setSlot k m).slotsBuilt := by
  intro j x hx
  rw [State.slot_setSlot] at hx
  split at hx
  · exact hm x hx
  · exact hs j x hx

theorem State.Settles.refl (s : State) : s.Settles s := ⟨rfl, rfl, rfl, ⟨rfl, rfl⟩, id, id⟩

theorem State.Settles.setResult (h : s.Settles u) (v : Word) : s.Settles (u.setResult v) := { h with }

theorem State.Settles.consume (h : s.Settles u) (n : Nat) : s.Settles (u.consume n) :=
  { h with exact := fun hs => State.overrunExact_consume (h.exact hs) n }

theorem State.Settles.setSlot (h : s.Settles u) (k : SlotId) {m : Option Model}
    (hm : ∀ x, m = some x → buildModel x.cl = .ok x) : s.Settles (u.setSlot k m) :=
  { h with built := fun hs => State.slotsBuilt_setSlot (h.built hs) hm }

theorem brStartBody_settles (s : State) : (brStartBody s).SettlesWith s (causesOf .brStart) := by
  unfold brStartBody
  split
  · exact ⟨.refl s, rfl, fun _ => by decide⟩
  · split
    · trivial
    · exact ⟨rfl, rfl, rfl, ⟨rfl, rfl⟩, fun _ => by simp [State.overrunExact, State.startReader], id⟩

theorem getBitsBody_settles (n : BitVec 6) (s : State) : (getBitsBody n.toNat s).SettlesWith s (causesOf (.getBits n)) := by
  unfold getBitsBody
  split
  · exact ⟨.refl s, rfl, fun _ => by simp [causesOf]⟩
  · cases hg : s.getBits n.toNat with
    | refused r => trivial
    | err c k u => exact (State.getBits_ne_err _ _ _ _ _ hg).elim
    | ok v u =>
      obtain rfl := State.getBits_ok_moves hg
      exact ((State.Settles.refl s).consume _).setResult _

theorem buildBody_settles (k : SlotId) (s : State) : (buildBody k s).SettlesWith s (causesOf (.build k)) := by
  unfold buildBody
  split
  · exact ⟨.refl s, rfl, fun _ => by simp [causesOf]⟩
  · rcases buildModel_cases (s.clvVector s.regs.clvN.toNat) with hb | ⟨c, hc, hb⟩
    · rw [State.installModel_of_ok hb]
      exact ((State.Settles.refl s).setSlot k fun x hx => by cases hx; exact hb).setResult _
    · rw [State.installModel_of_error hb]
      refine ⟨(State.Settles.refl s).setSlot k nofun, rfl, fun _ => ?_⟩
      simp only [List.mem_cons, List.not_mem_nil, or_false] at hc
      rcases hc with rfl | rfl | rfl <;> simp [causesOf]

theorem decodeBody_settles (k : SlotId) (s : State) :
    ((s.decodeSymbol k).andThen fun v u => .ok () (u.setResult (BitVec.ofNat 32 v))).SettlesWith s
      (causesOf (.decode k)) := by
  have prepares := s.decodeSymbol_prepares k
  cases hd : s.decodeSymbol k with
  | refused r => trivial
  | err c n u =>
    rw [hd] at prepares
    obtain ⟨rfl, rfl⟩ := State.decodeSymbol_err hd
    exact ⟨.refl _, rfl, prepares.2⟩
  | ok v u =>
    obtain ⟨n, rfl⟩ := State.decodeSymbol_ok_moves hd
    exact ((State.Settles.refl s).consume n).setResult _

/-- A command is its rule between its beginning and its end (rule R324). -/
theorem runCommand_commanded {i : Instr} {body : State → Res Unit}
    (hbody : (body s.startCommand).SettlesWith s.startCommand (causesOf i)) (h : runCommand body s = .next t) :
    s.Commanded i t := by
  rcases runCommand_eq_next.1 h with ⟨u, hu, rfl⟩ | ⟨c, n, u, hu, rfl⟩ <;> rw [hu] at hbody
  · have kept : s.startCommand.Settles u := hbody
    exact {
      host := kept.host, idle := rfl, ended := .inl ⟨rfl, kept.quiet⟩, mem := fun _ => kept.mem
      memory := fun hs => (congrArg Memory.wf kept.mem).mpr hs
      addresses := fun hs => (congrArg Memory.addresses32 kept.mem).mpr hs
      canonical := fun hs => (congrArg canonicalBuffer kept.blockBuf).mpr hs, exact := kept.exact, built := kept.built }
  · obtain ⟨kept, result, listed⟩ := hbody
    exact {
      host := kept.host, idle := rfl, ended := .inr ⟨c, rfl, rfl, .inr result, listed⟩, mem := fun _ => kept.mem
      memory := fun hs => (congrArg Memory.wf kept.mem).mpr hs
      addresses := fun hs => (congrArg Memory.addresses32 kept.mem).mpr hs
      canonical := fun hs => (congrArg canonicalBuffer kept.blockBuf).mpr hs, exact := kept.exact, built := kept.built }

/-! ### `RECV_MODEL` -/

theorem State.Received.commanded (h : s.Received k t) : s.Commanded (.recvModel k) t := by
  have rest := h.rest
  simp only [State.receiveRest, Prod.mk.injEq] at rest
  obtain ⟨host, _, hbuf, hmem, _⟩ := rest
  refine {
    host := host, idle := h.idle, ended := ?_, mem := fun _ => hmem
    memory := fun hs => by rw [hmem]; exact hs
    addresses := fun hs => by rw [hmem]; exact hs
    canonical := fun hs => by rw [hbuf]; exact hs, exact := h.exact, built := fun hs j m hm => ?_ }
  · rcases h.ended with ⟨hdone, herr, hany, _⟩ | ⟨c, hc, hraised, hany, _, hres⟩
    · exact .inl ⟨hdone, herr, hany⟩
    · refine .inr ⟨c, hraised, hany, .inr hres, fun _ => ?_⟩
      simp only [receiveCauses, causesOf] at hc ⊢
      exact List.mem_cons_of_mem _ hc
  · by_cases hk : j = k
    · subst hk
      rcases h.ended with ⟨_, _, _, hb⟩ | ⟨_, _, _, _, hempty, _⟩
      · exact hb m hm
      · rw [hempty] at hm; cases hm
    · by_cases hj : j = .metaCode
      · subst hj
        rcases h.metaSlot with hsame | hempty | ⟨x, hx, built, _⟩
        · exact hs _ m (hsame ▸ hm)
        · rw [hempty] at hm; cases hm
        · rw [hx] at hm; cases hm; exact built
      · exact hs j m (h.others j hk hj ▸ hm)

/-- `RECV_MODEL 5` raises at once (rule R243). -/
theorem exec_recvModel_metaCode (s : State) :
    exec (.recvModel .metaCode) s = .next (s.startCommand.raiseAt0 .badSlot 0) := rfl

/-! ### `UNPACK` -/

/-- The causes of the argument checks (rule R263). -/
theorem argChecks_error_mem {r : Regs} {cls : BitVec 4} {c : Cause} (h : argChecks r cls = .error c) :
    c ∈ causesOf (.unpack cls) := by
  refine List.mem_append_left walkCauses ?_
  cases hk : FormatClass.ofCode cls with
  | none =>
    rw [argChecks_of_no_class hk] at h
    cases h
    decide
  | some k =>
    cases he : argErrorOf r k with
    | none =>
      rw [argChecks_eq_ok_iff.2 ⟨hk, he⟩] at h
      cases h
    | some e =>
      rw [argChecks_of_error hk he] at h
      cases h
      rw [argErrorOf_eq_firstError, firstError, Option.map_eq_some_iff] at he
      obtain ⟨p, hp, rfl⟩ := he
      have listed := List.mem_map_of_mem (f := fun p : Bool × Cause => p.2) (List.mem_of_find?_eq_some hp)
      simp only [argumentChecks, List.map_cons, List.map_nil, List.mem_cons, List.not_mem_nil, or_false] at listed ⊢
      tauto

theorem Memory.read_ne_none_of_mem {m : Memory} {c : Host.Cell} (h : c ∈ m) : Memory.read m c.1 ≠ none := by
  unfold Memory.read
  induction m with
  | nil => simp at h
  | cons d m ih =>
    obtain ⟨a, v⟩ := d
    rw [lookupCell]
    split
    · simp
    · next hne =>
      rcases List.mem_cons.1 h with rfl | h
      · exact absurd rfl hne
      · exact ih h

theorem Memory.exists_mem_of_read_ne_none {m : Memory} {a : Nat} (h : Memory.read m a ≠ none) : ∃ c ∈ m, c.1 = a := by
  unfold Memory.read at h
  induction m with
  | nil => simp [lookupCell] at h
  | cons d m ih =>
    obtain ⟨b, v⟩ := d
    rw [lookupCell] at h
    split at h
    · next heq => exact ⟨(b, v), by simp, heq.symm⟩
    · obtain ⟨c, hc, rfl⟩ := ih h
      exact ⟨c, List.mem_cons_of_mem _ hc, rfl⟩

/-- The walk writes at 32-bit addresses alone (rules R91, R301). -/
theorem Regs.ChangedWithin.addresses32 {r : Regs} {cls : FormatClass} {n m : Nat} {A B : Memory} (acc : r.Accepted cls)
    (h : r.ChangedWithin cls n m A B) (hA : Memory.addresses32 A) : Memory.addresses32 B := by
  intro c hc
  by_cases covered : ∃ f y x, r.Covers cls f y x c.1
  · obtain ⟨f, y, x, hcov⟩ := covered
    exact hcov.lt acc
  · have same := h c.1 fun f y x hcov => absurd ⟨f, y, x, hcov⟩ covered
    obtain ⟨d, hd, heq⟩ := Memory.exists_mem_of_read_ne_none (same ▸ Memory.read_ne_none_of_mem hc)
    exact heq ▸ hA d hd

theorem State.Unpacked.commanded {cls : BitVec 4} {f : FormatClass} (h : s.Unpacked f t) (acc : s.regs.Accepted f) :
    s.Commanded (.unpack cls) t where
  host := h.host
  idle := h.idle
  ended := by
    rcases h.ended with ⟨hdone, _, herr, hany, _⟩ | ⟨c, hc, hany, listed⟩
    · exact .inl ⟨hdone, herr, hany⟩
    · exact .inr ⟨c, hc, hany, .inl ⟨cls, rfl⟩, fun hs => List.mem_append_right _ (listed hs)⟩
  mem hne := absurd rfl (hne cls)
  memory := h.memory
  addresses := h.changed.addresses32 acc
  canonical := h.canonical
  exact _ := h.exact
  built hs j m hm := hs j m (by rwa [State.slot, ← h.slots])

/-- Every command but `SOFT_RESET`. -/
theorem exec_commanded {i : Instr} (hi : i.isCommand = true) (hreset : i ≠ .softReset) (h : exec i s = .next t) :
    s.Commanded i t := by
  cases i with
  | nop => exact runCommand_commanded (body := fun v => .ok () v) (.refl _) h
  | softReset => exact absurd rfl hreset
  | brStart => exact runCommand_commanded (brStartBody_settles _) h
  | getBits n => exact runCommand_commanded (getBitsBody_settles n _) h
  | brStop =>
    exact runCommand_commanded (body := fun v => .ok () (v.setResult (BitVec.ofNat 32 v.bytesConsumed)))
      ((State.Settles.refl _).setResult _) h
  | build k => exact runCommand_commanded (buildBody_settles k _) h
  | clear k =>
    exact runCommand_commanded (body := fun v => .ok () (v.setSlot k none)) ((State.Settles.refl _).setSlot k nofun) h
  | decode k =>
    exact runCommand_commanded
      (body := fun v => (v.decodeSymbol k).andThen fun n u => .ok () (u.setResult (BitVec.ofNat 32 n)))
      (decodeBody_settles k _) h
  | recvModel k =>
    by_cases hk : k = .metaCode
    · subst hk
      rw [exec_recvModel_metaCode] at h
      cases h
      exact {
        host := rfl, idle := rfl, ended := .inr ⟨_, rfl, rfl, .inr rfl, fun _ => by decide⟩, mem := fun _ => rfl
        memory := id, addresses := id, canonical := id, exact := id, built := id }
    · exact (exec_recvModel_received hk h).commanded
  | unpack cls =>
    rcases exec_unpack_next h with ⟨c, hc, rfl⟩ | ⟨f, hf, _, out⟩
    · exact {
        host := rfl, idle := rfl, ended := .inr ⟨c, rfl, rfl, .inl ⟨cls, rfl⟩, fun _ => argChecks_error_mem hc⟩
        mem := fun _ => rfl, memory := id, addresses := id, canonical := id, exact := id, built := id }
    · exact out.commanded (Regs.accepted_of_argChecks hf)
  | _ => cases hi

/-! ### The instructions of the stream -/

/-- What an instruction of the stream leaves: the host's side and memory, and `ending` unless it raises one of its causes. -/
structure State.Streamed (s : State) (causes : List Cause) (t : State) : Prop where
  host : t.hostSide = s.hostSide
  mem : t.mem = s.mem
  ended : t.ending = s.ending ∨ ∃ c, t.ending = .raised c ∧ (s.slotsBuilt → c ∈ causes)

theorem metaZeroRun_streamed {n : Nat} (h : metaZeroRun n s = .next t) : s.Streamed [.runOvershoot] t := by
  unfold metaZeroRun at h
  split at h <;> cases h
  · exact ⟨rfl, rfl, .inr ⟨_, rfl, fun _ => by simp⟩⟩
  · exact ⟨rfl, rfl, .inl rfl⟩

theorem metaRepeat_streamed {n : Nat} (h : metaRepeat n s = .next t) : s.Streamed [.repeatNoPrev, .runOvershoot] t := by
  unfold metaRepeat at h
  split at h
  · cases h
    exact ⟨rfl, rfl, .inr ⟨_, rfl, fun _ => by simp⟩⟩
  · split at h <;> cases h
    · exact ⟨rfl, rfl, .inr ⟨_, rfl, fun _ => by simp⟩⟩
    · exact ⟨rfl, rfl, .inl rfl⟩

theorem State.CodeOutcome.streamed {causes : List Cause} {o : Result} (h : s.CodeOutcome causes o) (ho : o = .next t) :
    s.Streamed causes t := by
  cases h with
  | prepares u hu =>
    cases ho
    exact ⟨hu.hostSide, hu.mem, .inl hu.kept_ending.1⟩
  | raises u hu c n listed =>
    cases ho
    exact ⟨hu.hostSide, hu.mem, .inr ⟨c, rfl, listed⟩⟩
  | refused r _ => cases ho

theorem exec_streamed {i : Instr} (hi : i.isCommand = false) (h : exec i s = .next t) : s.Streamed (causesOf i) t := by
  cases i with
  | nop | softReset | brStart | getBits | brStop | build | clear | decode | recvModel | unpack => cases hi
  | mZrunS e | mZrunL e => exact metaZeroRun_streamed h
  | mRepS e | mRepL e => exact metaRepeat_streamed h
  | refNew => exact (execRefNew_outcome s).streamed h
  | refLeft => exact (execRefLeft_outcome s).streamed h
  | refTop => exact (execRefTop_outcome s).streamed h
  | refDiag => exact (execRefDiag_outcome s).streamed h
  | _ => cases h; exact ⟨rfl, rfl, .inl rfl⟩

end

/-! ### The statements -/

/-- Settles O15: how a command ends, for every command but `SOFT_RESET`. -/
theorem statusAfterEveryCommand : Obligations.StatusAfterEveryCommand := by
  intro i s t hi hreset h
  have done := exec_commanded hi hreset h
  refine ⟨done.idle, done.ended.imp id ?_⟩
  rintro ⟨c, hc, hany, hkept, _⟩
  exact ⟨c, hc, hany, hkept⟩

/-- Settles O16: the causes of a command, and those of an instruction of the stream. -/
theorem instructionsRaiseOnlyTheirCauses : Obligations.InstructionsRaiseOnlyTheirCauses := by
  intro i s t c hbuilt hpending h hc
  cases hi : i.isCommand with
  | true =>
    by_cases hreset : i = .softReset
    · subst hreset
      rw [exec_softReset] at h
      cases h
      cases hc
    · rcases (exec_commanded hi hreset h).ended with ⟨hdone, _⟩ | ⟨e, he, _, _, listed⟩
      · rw [hdone] at hc
        cases hc
      · rw [he] at hc
        cases hc
        exact listed hbuilt
  | false =>
    have pending : s.ending = .pending := by simpa [hi] using hpending
    rcases (exec_streamed hi h).ended with hsame | ⟨e, he, listed⟩
    · rw [hsame, pending] at hc
      cases hc
    · rw [he] at hc
      cases hc
      exact listed hbuilt

/-- Settles O60: the host's side and memory, command by command and for the stream; `SOFT_RESET` keeps what is not state of
the block. -/
theorem instructionsKeepWhatTheyDoNotWrite : Obligations.InstructionsKeepWhatTheyDoNotWrite := by
  intro i s t h
  by_cases hreset : i = .softReset
  · subst hreset
    rw [exec_softReset] at h
    cases h
    exact ⟨rfl, rfl, rfl, rfl, rfl, rfl, rfl, rfl, rfl, rfl, fun hne => absurd rfl hne, fun _ => rfl⟩
  have kept : t.hostSide = s.hostSide ∧ ((∀ cls, i ≠ .unpack cls) → t.mem = s.mem) := by
    cases hi : i.isCommand with
    | true => exact ⟨(exec_commanded hi hreset h).host, (exec_commanded hi hreset h).mem⟩
    | false => exact ⟨(exec_streamed hi h).host, fun _ => (exec_streamed hi h).mem⟩
  obtain ⟨host, hmem⟩ := kept
  simp only [State.hostSide, Prod.mk.injEq] at host
  simp only [host, true_and, implies_true]
  exact hmem

end Sys2Proof.Machine
end

