-- ==== Sys2Proof/Proofs/AbandonedCommands.lean ====
section
/-! O10: the reset values, and what a hardware reset during a command leaves of the words that an `UNPACK` writes (rules R56,
R89, R380). -/

namespace Sys2Proof.Machine

/-! ### Where a walk abandoned after some words stands -/

/-- `t` is reached from the walk begun in `s` with `N` words of class `k` written, or is its end with at most `N` words. What
a full run from `start` has after that instant is said of its last state. -/
inductive State.StopsAt (s : State) (k : FormatClass) (N : Nat) (full : Result) : State → Prop where
  | between (t : State) (h : s.Walking k t) (count : t.walk.blocksWritten * k.words = N)
      (later : ∀ u, full = .next u → t.WritesTo k u) : s.StopsAt k N full t
  | ended (t : State) (h : s.Unpacked k t) (count : t.walk.blocksWritten * k.words ≤ N)
      (later : ∀ u, full = .next u → u = t) : s.StopsAt k N full t
  | within (p : State) (h : s.Walking k p) (u : State) (hu : p.Prepared u) (hin : u.InBlock s.regs 0)
      (visible : s.regs.visible u.walk.y u.walk.x = true) (ws : List Word) (hlen : ws.length = k.words) (m : Nat)
      (hm : m < k.words) (count : p.walk.blocksWritten * k.words + m = N)
      (later : ∀ v, full = .next v → (u.emitted ws).advance.WritesTo k v) :
      s.StopsAt k N full { u with mem := u.mem.writeWords u.walkAddr (ws.take m) }

section
variable {s t u : State} {k : FormatClass}

theorem walkUntil_of_idle (h : s.activity = .idle) (fuel n : Nat) : walkUntil fuel n s = .next s := by
  cases fuel with
  | zero => rfl
  | succ fuel => exact if_pos (.inr h)

/-- A walk that is not abandoned at once goes on by one block, or is cut off in it. -/
theorem walkUntil_succ {fuel n : Nat} (hn : n ≠ 0) (hact : s.activity ≠ .idle) (hs : innerStep s = .next u) :
    walkUntil (fuel + 1) n s = if wordsBetween s u ≤ n then walkUntil fuel (n - wordsBetween s u) u
      else walkStepWith (writeFirstWords n) s := by
  simp only [walkUntil, hs]
  exact if_neg (by tauto)

theorem walkUntil_of_refused {fuel n : Nat} (hn : n ≠ 0) (hact : s.activity ≠ .idle) {r : Refusal}
    (hs : innerStep s = .refused r) : walkUntil (fuel + 1) n s = .refused r := by
  simp only [walkUntil, hs]
  exact if_neg (by tauto)

theorem walkUntil_of_zero (s : State) (fuel : Nat) : walkUntil fuel 0 s = .next s := by
  cases fuel with
  | zero => rfl
  | succ fuel => exact if_pos (.inl rfl)

/-- What a full run from an instant of the walk writes after it. -/
theorem State.Walking.run_writesTo (h : s.Walking k t) (ready : s.WalkReady k) {fuel : Nat} (hfuel : t.blocksLeft ≤ fuel)
    (hu : runToIdle fuel t = .next u) : t.WritesTo k u := by
  rcases h.run ready hfuel with ⟨_, r, hr⟩ | ⟨v, hv, _, hw⟩
  · cases hr.symm.trans hu
  · cases hv.symm.trans hu
    exact hw

theorem State.WritesTo.refl (k : FormatClass) (t : State) : t.WritesTo k t := ⟨le_rfl, .refl _ _ _ _ _⟩

theorem State.Walking.wordsBetween_eq (h : s.Walking k t) (hw : t.WritesTo k u) :
    t.walk.blocksWritten * k.words + wordsBetween t u = u.walk.blocksWritten * k.words := by
  rw [wordsBetween, h.cls, ← Nat.add_mul, Nat.add_sub_cancel' hw.1]

/-- A block that writes more words than are allowed is a visible one, cut off in its emission. -/
theorem State.Walking.cut_off (h : s.Walking k t) (ready : s.WalkReady k) {n : Nat} (hs : innerStep t = .next u)
    (hmore : n < wordsBetween t u) {v : State} (hv : walkStepWith (writeFirstWords n) t = .next v) :
    ∃ p ws, t.Prepared p ∧ p.InBlock s.regs 0 ∧ s.regs.visible p.walk.y p.walk.x = true ∧ ws.length = k.words ∧
      n < k.words ∧ u = (p.emitted ws).advance ∧ v = { p with mem := p.mem.writeWords p.walkAddr (ws.take n) } := by
  have ends := blockBody_endsBlock t
  have same := walkStepWith_eq h.inBlock.walking
  generalize blockBody t = r at ends same
  rw [innerStep_of_walking h.inBlock.walking, walkStep, same] at hs
  rw [same] at hv
  -- a block that emits nothing writes no words
  have wrote (hcount : u.walk.blocksWritten = t.walk.blocksWritten) : False := by
    rw [wordsBetween, hcount, Nat.sub_self, Nat.zero_mul] at hmore
    omega
  cases r with
  | refused x => cases hs
  | err c m p =>
    cases hs
    exact (wrote ends.1.blocksWritten).elim
  | ok q p =>
    obtain ⟨frame, hin, _, _, ws, hws, _, hlen⟩ := h.atEnd ready ends
    have hs : endBlock q p = .next u := hs
    have hv : writeFirstWords n q p = .next v := hv
    cases hover : p.br.overrun with
    | true =>
      rw [endBlock_of_overrun hover] at hs
      cases hs
      exact (wrote ends.prepared.blocksWritten).elim
    | false =>
      cases hvis : p.regs.visible p.walk.y p.walk.x with
      | false =>
        rw [endBlock_of_padded hover hvis] at hs
        cases hs
        exact (wrote (p.advance_mem.2.trans ends.prepared.blocksWritten)).elim
      | true =>
        rw [endBlock_of_visible hover hvis (State.emit_of_words hws)] at hs
        simp only [writeFirstWords, hws] at hv
        cases hs
        cases hv
        refine ⟨p, ws, ends.prepared, hin, hin.regs ▸ hvis, hlen, ?_, rfl, rfl⟩
        have one : (p.emitted ws).advance.walk.blocksWritten = t.walk.blocksWritten + 1 :=
          (p.emitted ws).advance_mem.2.trans (congrArg (· + 1) ends.prepared.blocksWritten)
        have words : wordsBetween t (p.emitted ws).advance = k.words := by
          rw [wordsBetween, one, h.cls, Nat.add_sub_cancel_left, Nat.one_mul]
        exact hmore.trans_eq words

theorem State.advance_regs (t : State) : t.advance.regs = t.regs := by
  unfold State.advance
  split_ifs <;> rfl

/-- Where a walk stands that is abandoned after some words. -/
theorem walkUntil_stops (ready : s.WalkReady k) {fuel n N : Nat} {p : State} (h : s.Walking k p)
    (hfuel : p.blocksLeft ≤ fuel) (hN : p.walk.blocksWritten * k.words + n = N) (ht : walkUntil fuel n p = .next t) :
    s.StopsAt k N (runToIdle fuel p) t := by
  induction fuel generalizing n p with
  | zero =>
    have := Nat.sub_pos_of_lt h.inBlock.inGrid'.walkRank_lt
    rw [State.blocksLeft] at hfuel
    omega
  | succ fuel ih =>
    have hact : p.activity ≠ .idle := by rw [h.inBlock.walking]; decide
    by_cases hn : n = 0
    · subst hn
      rw [walkUntil_of_zero] at ht
      cases ht
      exact .between _ h hN fun u hu => h.run_writesTo ready hfuel hu
    rcases h.step ready with ⟨_, r, hr⟩ | ⟨u, hu, hw, hout⟩
    · rw [walkUntil_of_refused hn hact hr] at ht
      cases ht
    have between := h.wordsBetween_eq hw
    rw [walkUntil_succ hn hact hu] at ht
    rw [runToIdle_succ hact hu]
    split at ht
    case isTrue hle =>
      rcases hout with ⟨hgo, hrank⟩ | hend
      · refine ih hgo ?_ (by omega) ht
        rw [State.blocksLeft, h.inBlock.regs] at hfuel
        rw [State.blocksLeft, hgo.inBlock.regs, hrank]
        omega
      · rw [walkUntil_of_idle hend.idle] at ht
        cases ht
        refine .ended _ hend (by omega) fun v hv => ?_
        rw [runToIdle_of_idle hend.idle] at hv
        cases hv
        rfl
    case isFalse hgt =>
      obtain ⟨v, ws, hv, hin, hvis, hlen, hlt, rfl, rfl⟩ := h.cut_off ready hu (Nat.not_le.1 hgt) ht
      refine .within p h v hv hin hvis ws hlen n hlt hN fun w hw' => ?_
      rcases hout with ⟨hgo, hrank⟩ | hend
      · refine hgo.run_writesTo ready ?_ hw'
        rw [State.blocksLeft, h.inBlock.regs] at hfuel
        rw [State.blocksLeft, hgo.inBlock.regs, hrank]
        omega
      · rw [runToIdle_of_idle hend.idle] at hw'
        cases hw'
        exact .refl ..

end

/-! ### The memory that it leaves -/

theorem mul_add_lt_mul_iff {w i a b : Nat} (hi : i < w) : a * w + i < b * w ↔ a < b := by
  constructor
  · intro h
    exact Nat.lt_of_mul_lt_mul_right (Nat.lt_of_le_of_lt (Nat.le_add_right ..) h)
  · intro h
    calc a * w + i < (a + 1) * w := by rw [Nat.succ_mul]; omega
      _ ≤ b * w := Nat.mul_le_mul_right w h

section
variable {s t u : State} {k : FormatClass} {N : Nat} {full : Result}

/-- No byte outside the visible blocks has changed, and memory keeps its form. -/
theorem State.StopsAt.changed (h : s.StopsAt k N full t) :
    (∃ n, s.regs.ChangedWithin k 0 n s.mem t.mem) ∧ (Memory.wf s.mem → Memory.wf t.mem) := by
  cases h with
  | between _ h _ _ => exact ⟨⟨_, h.changed⟩, h.memory⟩
  | ended _ h _ _ => exact ⟨⟨_, h.changed⟩, h.memory⟩
  | within p h v hv hin hvis ws hlen m hm _ _ =>
    have frame := h.toWalkFrame.prepared hv
    have cut := hin.emission_changes frame.cls (Regs.visible_eq_true.1 hvis) (ws := ws.take m)
      (by rw [List.length_take]; omega)
    exact ⟨⟨_, frame.changed.trans cut (Nat.zero_le _) (Nat.le_succ _)⟩,
      fun hs => Memory.wf_writeWords _ (frame.memory hs) _⟩

/-- Of the words that the whole run writes, the first `N` have been written (rules R89, R92, R380). -/
theorem State.StopsAt.read_word (h : s.StopsAt k N full t) (ready : s.WalkReady k) (hfull : full = .next u)
    {f y x i b : Nat} (hf : f < s.regs.faces.toNat) (hy : y < s.regs.hb.toNat) (hx : x < s.regs.wb.toNat)
    (hi : i < k.words) (hb : b < 4) :
    Memory.read t.mem (s.regs.blockAddr k f y x + 4 * i + b) =
      if s.regs.blockIndex f y x * k.words + i < N then Memory.read u.mem (s.regs.blockAddr k f y x + 4 * i + b)
      else Memory.read s.mem (s.regs.blockAddr k f y x + 4 * i + b) := by
  have covers := Regs.covers_word (r := s.regs) hf hy hx hi hb
  have kept {n m : Nat} {A B : Memory} (hc : s.regs.ChangedWithin k n m A B)
      (hout : s.regs.blockIndex f y x < n ∨ m ≤ s.regs.blockIndex f y x) := ready.apart.kept ready.accepted hc covers hout
  cases h with
  | between _ h count later =>
    subst count
    simp only [mul_add_lt_mul_iff hi]
    split
    · next hlt => exact (kept (h.inBlock.regs ▸ (later u hfull).2) (.inl hlt)).symm
    · next hge => exact kept h.changed (.inr (Nat.not_lt.1 hge))
  | ended _ h count later =>
    obtain rfl := later u hfull
    split
    · rfl
    · next hge =>
      refine kept h.changed (.inr (Nat.not_lt.1 fun hlt => hge ?_))
      exact ((mul_add_lt_mul_iff hi).2 hlt).trans_le count
  | within p h v hv hin hvis ws hlen m hm count later =>
    subst count
    have hvis := Regs.visible_eq_true.1 hvis
    have frame := h.toWalkFrame.prepared hv
    have number := hin.blocksWritten_eq hvis
    rw [← hv.blocksWritten]
    have cut := hin.emission_changes frame.cls hvis (ws := ws.take m) (by rw [List.length_take]; omega)
    have emission := hin.emission_changes frame.cls hvis hlen.le
    -- behind the block's emission the whole run changes only later blocks
    have behind : Memory.read u.mem (s.regs.blockAddr k f y x + 4 * i + b) =
        if s.regs.blockIndex f y x ≤ v.walk.blocksWritten then
          Memory.read (v.mem.writeWords v.walkAddr ws) (s.regs.blockAddr k f y x + 4 * i + b)
        else Memory.read u.mem (s.regs.blockAddr k f y x + 4 * i + b) := by
      split
      · next hle =>
        have writes := (later u hfull).2
        rw [(v.emitted ws).advance_mem.1, (v.emitted ws).advance_mem.2, State.advance_regs] at writes
        exact kept (hin.regs ▸ writes) (.inl (Nat.lt_succ_of_le hle))
      · rfl
    rcases Nat.lt_trichotomy (s.regs.blockIndex f y x) v.walk.blocksWritten with hlt | heq | hgt
    · have before := (mul_add_lt_mul_iff hi).2 hlt
      rw [if_pos (by omega), behind, if_pos hlt.le, kept emission (.inl hlt)]
      exact kept cut (.inl hlt)
    · obtain ⟨rfl, rfl, rfl⟩ := Regs.blockIndex_inj hy hx hvis.2 hvis.1 (heq.trans number)
      have place : s.regs.blockAddr k v.walk.f v.walk.y v.walk.x = v.walkAddr := by
        rw [State.walkAddr, hin.regs, frame.cls]
      rw [behind, if_pos heq.le, heq, place]
      by_cases him : i < m
      · rw [if_pos (by omega)]
        obtain ⟨w, hw⟩ : ∃ w, ws[i]? = some w := ⟨_, List.getElem?_eq_getElem (by omega)⟩
        have cutHolds := Memory.holdsWords_writeWords v.mem v.walkAddr (ws.take m) i w
          (by rw [List.getElem?_take_of_lt him, hw]) b hb
        exact cutHolds.trans (Memory.holdsWords_writeWords v.mem v.walkAddr ws i w hw b hb).symm
      · rw [if_neg (by omega)]
        refine (Memory.read_writeWords_outside (ws.take m) v.mem v.walkAddr _ (.inr ?_)).trans ?_
        · rw [List.length_take]; omega
        · rw [← place]
          exact kept frame.changed (.inr heq.ge)
    · have after : v.walk.blocksWritten * k.words + m < s.regs.blockIndex f y x * k.words :=
        (mul_add_lt_mul_iff hm).2 hgt
      rw [if_neg (by omega)]
      exact (kept cut (.inr hgt)).trans (kept frame.changed (.inr hgt.le))

/-! ### The command abandoned -/

theorem unpackUntil_of_argError {s : State} {cls : BitVec 4} {n : Nat} {c : Cause}
    (h : argChecks s.regs cls = .error c) : unpackUntil cls n s = .next s := by
  simp only [unpackUntil, h]

/-- An `UNPACK` abandoned in its walk has stopped somewhere in it. -/
theorem unpackUntil_stops {cls : BitVec 4} {n : Nat} (hk : argChecks s.regs cls = .ok k) (h : unpackUntil cls n s = .next t) :
    s.hostDuties = none ∧ s.StopsAt k n (exec (.unpack cls) s) t := by
  simp only [unpackUntil, hk] at h
  cases hd : s.hostDuties with
  | some r => rw [hd] at h; cases h
  | none =>
    rw [hd] at h
    refine ⟨rfl, ?_⟩
    rw [exec_unpack_of_accepted hk hd]
    exact walkUntil_stops (State.walkReady_of_checks hk hd) (State.unpackStart_walking hk) (s.blocksLeft_unpackStart k).le
      (by show 0 * k.words + n = n; omega) h

/-- Where the whole walk is not refused, no instant of it is: a walk abandoned after some words has a state. -/
theorem walkUntil_of_full (ready : s.WalkReady k) {fuel n : Nat} {p : State} (h : s.Walking k p)
    (hfuel : p.blocksLeft ≤ fuel) (hu : runToIdle fuel p = .next u) : ∃ t, walkUntil fuel n p = .next t := by
  induction fuel generalizing n p with
  | zero => exact ⟨p, rfl⟩
  | succ fuel ih =>
    have hact : p.activity ≠ .idle := by rw [h.inBlock.walking]; decide
    by_cases hn : n = 0
    · exact ⟨p, by rw [hn, walkUntil_of_zero]⟩
    rcases h.step ready with ⟨_, r, hr⟩ | ⟨v, hv, _, hout⟩
    · rw [runToIdle, if_neg hact, hr] at hu
      cases hu
    rw [runToIdle_succ hact hv] at hu
    rw [walkUntil_succ hn hact hv]
    split
    · rcases hout with ⟨hgo, hrank⟩ | hend
      · refine ih hgo ?_ hu
        rw [State.blocksLeft, h.inBlock.regs] at hfuel
        rw [State.blocksLeft, hgo.inBlock.regs, hrank]
        omega
      · exact ⟨v, walkUntil_of_idle hend.idle _ _⟩
    · have ends := blockBody_endsBlock p
      have same := walkStepWith_eq h.inBlock.walking
      generalize blockBody p = r at ends same
      rw [innerStep_of_walking h.inBlock.walking, walkStep, same] at hv
      rw [same]
      cases r with
      | refused x => cases hv
      | err c m w => exact ⟨_, rfl⟩
      | ok q w =>
        obtain ⟨_, _, _, _, ws, hws, _⟩ := h.atEnd ready ends
        exact ⟨{ w with mem := w.mem.writeWords w.walkAddr (ws.take n) }, by simp only [endInWalk, writeFirstWords, hws]⟩

theorem unpackUntil_of_full {cls : BitVec 4} {n : Nat} (hk : argChecks s.regs cls = .ok k) (hd : s.hostDuties = none)
    (hu : exec (.unpack cls) s = .next u) : ∃ t, unpackUntil cls n s = .next t := by
  rw [exec_unpack_of_accepted hk hd] at hu
  simp only [unpackUntil, hk, hd]
  exact walkUntil_of_full (State.walkReady_of_checks hk hd) (State.unpackStart_walking hk) (s.blocksLeft_unpackStart k).le hu

theorem State.StopsAt.host (h : s.StopsAt k N full t) : t.hostSide = s.hostSide := by
  cases h with
  | between _ h _ _ => exact h.host
  | ended _ h _ _ => exact h.host
  | within p h v hv _ _ _ _ _ _ _ _ => exact hv.hostSide.trans h.host

theorem commandUntil_of_no_unpack {i : Instr} (h : ∀ cls, i ≠ .unpack cls) (n : Nat) (s : State) :
    commandUntil i n s = .next s := by
  cases i with
  | unpack cls => exact absurd rfl (h cls)
  | _ => rfl

theorem abandonCommand_of_no_unpack {c : Word} (h : ∀ cls, decode (.command c) ≠ .ok (.unpack cls)) (n : Nat) (s : State) :
    abandonCommand c n s = .next s.blockReset := by
  unfold abandonCommand
  cases hd : decode (.command c) with
  | error e => rfl
  | ok i =>
    have other : ∀ cls, i ≠ .unpack cls := by
      rintro cls rfl
      exact h cls hd
    simp only [commandUntil_of_no_unpack other n s]
    rfl

theorem abandonCommand_of_unpack {c : Word} {cls : BitVec 4} (h : decode (.command c) = .ok (.unpack cls)) (n : Nat)
    (s : State) : abandonCommand c n s = resetThere (unpackUntil cls n s) := by
  simp only [abandonCommand, h, commandUntil]

/-- A reset pending is the next action, inside a command too (rule R380). -/
theorem step_of_hardReset {rest : List HostAction} (hin : s.inputs = .hardReset :: rest) :
    step s = .next (State.blockReset { s with inputs := rest }) := by
  have pending : s.resetPending = true := by simp [State.resetPending, hin]
  have popped : s.popInput = { s with inputs := rest } := by rw [State.popInput, hin, List.tail_cons]
  unfold step
  split
  · rw [hin]
    exact congrArg (fun u => Host.Outcome.next (State.blockReset u)) popped
  all_goals
    rw [if_pos pending, popped]
    rfl

/-- The reset's state, of a state with the same configuration, palettes and outside. -/
theorem State.blockReset_congr (h : t.hostSide = s.hostSide) (hmem : t.mem = u.mem) :
    t.blockReset = { s.blockReset with mem := u.mem } := by
  simp only [State.hostSide, Prod.mk.injEq] at h
  simp only [State.blockReset, h, hmem]

/-! ### The reset values (rule R56) -/

theorem State.reset_readReg {off : Nat} (hoff : off % 4 = 0) : State.reset.readReg off = 0 := by
  rcases Nat.lt_or_ge off 0x48 with hlt | hge
  · have fields : ∀ j < 18, State.reset.readReg (4 * j) = 0 := by decide
    have := fields (off / 4) (by omega)
    rwa [show 4 * (off / 4) = off by omega] at this
  · have base (f : Nat) : State.reset.regs.dstBase.get f = 0 := by
      simp only [State.reset, Regs.reset, DstBases.reset, DstBases.get]
      split_ifs <;> rfl
    rw [State.readReg_of_le _ hge]
    cases dstBaseFace off with
    | some f => simp [base]
    | none => cases clvIndex State.reset.cfg off <;> rfl

end

/-- Settles O10: a reset between commands, one during a command that writes no memory, and one during an `UNPACK`, whose walk
has stopped somewhere. -/
theorem resetValuesAndHardwareReset : Obligations.ResetValuesAndHardwareReset := by
  refine ⟨?reset, fun off hoff => State.reset_readReg hoff, rfl, State.reset.blockReset_slot, fun x => rfl, rfl, rfl⟩
  intro s rest atReset
  refine ⟨fun hin => ⟨_, step_of_hardReset hin, fun x => rfl, rfl⟩, fun c n hidle hin => ?during⟩
  rw [step_of_idle_cons hidle hin, hostAction]
  refine ⟨fun hne => ⟨_, abandonCommand_of_no_unpack hne n _, fun x => rfl, rfl⟩, fun cls u hc hu => ?unpack⟩
  rw [abandonCommand_of_unpack hc]
  rcases exec_unpack_next hu with ⟨e, he, rfl⟩ | ⟨k, hk, hd, _⟩
  case inl =>
    rw [unpackUntil_of_argError he]
    exact ⟨_, rfl, ⟨fun x => rfl, rfl⟩, fun k _ f _ y _ x _ i _ b _ => (ite_self _).symm, fun a _ => rfl⟩
  case inr =>
    obtain ⟨t, ht⟩ := unpackUntil_of_full (n := n) hk hd hu
    obtain ⟨_, stops⟩ := unpackUntil_stops hk ht
    have ready := State.walkReady_of_checks hk hd
    have hcls := (argChecks_eq_ok_iff.1 hk).1
    rw [ht]
    refine ⟨_, rfl, ⟨fun x => rfl, State.blockReset_congr stops.host rfl⟩, fun k' hk' f hf y hy x hx i hi b hb => ?words,
      fun a ha => ?others⟩
    case words =>
      obtain rfl := Option.some.inj (hcls.symm.trans hk')
      exact stops.read_word ready hu hf hy hx hi hb
    case others =>
      obtain ⟨⟨m, changed⟩, _⟩ := stops.changed
      refine changed a fun f y x covers _ => ?_
      have lo : s.regs.blockAddr k f y x ≤ a := covers.from_
      have hi : a < s.regs.blockAddr k f y x + k.bpb := covers.below
      rcases ha k hcls f covers.face y covers.row x covers.column with h | h <;> omega

end Sys2Proof.Machine
end

