-- ==== Sys2Proof/Proofs/MachineSteps.lean ====
section
/-! O24, O56, O57, O58: what every step of the machine keeps, and that every command ends (rules R42, R48, R320). -/

namespace Sys2Proof.Machine

/-! ### No fault (rule R320) -/

theorem noFault_next (s : State) : NoFault (.next s) := nofun
theorem noFault_refused (r : Refusal) : NoFault (.refused r) := nofun

theorem noFault_of_cases {o : Result} {P : State → Prop} (h : (∃ r, o = .refused r) ∨ ∃ t, o = .next t ∧ P t) : NoFault o := by
  rcases h with ⟨r, rfl⟩ | ⟨t, rfl, _⟩
  · exact noFault_refused r
  · exact noFault_next t

section
variable {s t : State} {k : SlotId}

theorem State.CodeOutcome.noFault {causes : List Cause} {o : Result} (h : s.CodeOutcome causes o) : NoFault o := by
  cases h with
  | prepares u _ => exact noFault_next _
  | raises u _ c n _ => exact noFault_next _
  | refused r _ => exact noFault_refused r

theorem State.WalkOutcome.noFault {o : Result} (h : s.WalkOutcome o) : NoFault o := by
  cases h with
  | raises | emits | skips => exact noFault_next _
  | unreadable r | noPalette q u h r => exact noFault_refused _

theorem innerStep_noFault (s : State) : NoFault (innerStep s) := by
  cases hact : s.activity with
  | idle => simp only [innerStep, hact]; exact noFault_next s
  | receiving =>
    rw [innerStep_of_receiving hact]
    exact noFault_of_cases (receiveStep_cases s)
  | walking =>
    rw [innerStep_of_walking hact]
    exact (walkStep_cases hact).noFault

theorem metaZeroRun_noFault (n : Nat) (s : State) : NoFault (metaZeroRun n s) := by
  unfold metaZeroRun
  split <;> exact noFault_next _

theorem metaRepeat_noFault (n : Nat) (s : State) : NoFault (metaRepeat n s) := by
  unfold metaRepeat
  split
  · exact noFault_next _
  · split <;> exact noFault_next _

theorem execUnpack_noFault (cls : BitVec 4) (s : State) : NoFault (exec (.unpack cls) s) := by
  rcases exec_unpack_cases s cls with ⟨c, _, he⟩ | ⟨r, he⟩ | ⟨k, hk, hd, _⟩
  · rw [he]; exact noFault_next _
  · rw [he]; exact noFault_refused r
  · exact noFault_of_cases ((exec_unpack_run hk hd).imp And.right id)

theorem exec_noFault (i : Instr) (s : State) : NoFault (exec i s) := by
  cases i with
  | nop | softReset | brStart | getBits | brStop | build | clear | decode =>
    simp only [exec, execNop, execSoftReset, execBrStart, execGetBits, execBrStop, execBuild, execClear, execDecode]
    exact runCommand_noFault _ s
  | recvModel k =>
    by_cases hk : k = .metaCode
    · subst hk
      exact noFault_next _
    · exact noFault_of_cases (execRecvModel_cases s hk)
  | unpack cls => exact execUnpack_noFault cls s
  | mZrunS e | mZrunL e => exact metaZeroRun_noFault _ s
  | mRepS e | mRepL e => exact metaRepeat_noFault _ s
  | refNew => exact (execRefNew_outcome s).noFault
  | refLeft => exact (execRefLeft_outcome s).noFault
  | refTop => exact (execRefTop_outcome s).noFault
  | refDiag => exact (execRefDiag_outcome s).noFault
  | _ => exact noFault_next _

theorem walkStepWith_writeFirstWords_noFault (hact : s.activity = .walking) (n : Nat) :
    NoFault (walkStepWith (writeFirstWords n) s) := by
  rw [walkStepWith_eq hact]
  cases blockBody s with
  | err => exact noFault_next _
  | refused x => exact noFault_refused x
  | ok q u =>
    show NoFault (writeFirstWords n q u)
    unfold writeFirstWords
    cases u.blockWords q with
    | error r => exact noFault_refused r
    | ok ws => exact noFault_next _

/-- No walk becomes a receive. -/
theorem walkStep_not_receiving (hact : s.activity = .walking) (h : innerStep s = .next t) : t.activity ≠ .receiving := by
  have stays {u : State} (hu : u.activity = .walking) : u.advance.activity ≠ .receiving := by
    unfold State.advance
    split_ifs
    · rw [hu]; decide
    · rw [hu]; decide
    · rw [State.faceReset, hu]; decide
    · exact nofun
  have outcome := walkStep_cases hact
  rw [← innerStep_of_walking hact, h] at outcome
  cases outcome with
  | raises u _ c n _ => exact nofun
  | emits q u hu _ _ ws _ => exact stays (hu.prepared.activity.trans hact)
  | skips q u hu _ _ => exact stays (hu.prepared.activity.trans hact)

theorem walkUntil_noFault {fuel n : Nat} (h : s.activity ≠ .receiving) : NoFault (walkUntil fuel n s) := by
  induction fuel generalizing n s with
  | zero => exact noFault_next s
  | succ fuel ih =>
    by_cases hstop : n = 0 ∨ s.activity = .idle
    · rw [walkUntil, if_pos hstop]
      exact noFault_next s
    obtain ⟨hn, hidle⟩ := not_or.1 hstop
    have hact : s.activity = .walking := by
      cases ha : s.activity with
      | idle => exact absurd ha hidle
      | receiving => exact absurd ha h
      | walking => rfl
    cases hs : innerStep s with
    | fault x => exact absurd hs (innerStep_noFault s x)
    | refused r =>
      rw [walkUntil_of_refused hn hidle hs]
      exact noFault_refused r
    | next t =>
      rw [walkUntil_succ hn hidle hs]
      split
      · exact ih (walkStep_not_receiving hact hs)
      · exact walkStepWith_writeFirstWords_noFault hact n

theorem unpackUntil_noFault (cls : BitVec 4) (n : Nat) (s : State) : NoFault (unpackUntil cls n s) := by
  unfold unpackUntil
  cases argChecks s.regs cls with
  | error c => exact noFault_next s
  | ok k =>
    cases s.hostDuties with
    | some r => exact noFault_refused r
    | none => exact walkUntil_noFault (by exact nofun)

theorem abandonCommand_noFault (c : Word) (n : Nat) (s : State) : NoFault (abandonCommand c n s) := by
  by_cases h : ∃ cls, decode (.command c) = .ok (.unpack cls)
  · obtain ⟨cls, hcls⟩ := h
    rw [abandonCommand_of_unpack hcls]
    cases hu : unpackUntil cls n s with
    | next t => exact noFault_next _
    | refused r => exact noFault_refused r
    | fault x => exact absurd hu (unpackUntil_noFault cls n s x)
  · rw [abandonCommand_of_no_unpack (not_exists.1 h)]
    exact noFault_next _

theorem hostAction_noFault (a : HostAction) (s : State) : NoFault (hostAction a s) := by
  cases a with
  | write width off v =>
    simp only [hostAction, busWrite, commandStep]
    split
    · split
      · cases decode (.command v) with
        | ok i => exact exec_noFault i s
        | error e => exact runCommand_noFault _ s
      · exact noFault_next _
    · exact noFault_refused _
  | read width off =>
    simp only [hostAction, busRead]
    split
    · exact noFault_next _
    · exact noFault_refused _
  | resetDuring c n => exact abandonCommand_noFault c n s
  | store | loadPalCE | loadPalCS | loadPalAE | loadPalAS | platform | hardReset => exact noFault_next _

/-! ### A step, by what the block is doing -/

/-- What a step of the block is: nothing, one action of the outside, a reset, or an inner step. -/
theorem step_cases (s : State) :
    (s.activity = .idle ∧ s.inputs = [] ∧ step s = .next s) ∨
    (s.activity = .idle ∧ ∃ a rest, s.inputs = a :: rest ∧ step s = hostAction a { s with inputs := rest }) ∨
    (∃ rest, s.inputs = .hardReset :: rest ∧ step s = .next (State.blockReset { s with inputs := rest })) ∨
    (s.activity ≠ .idle ∧ step s = innerStep s) := by
  by_cases hidle : s.activity = .idle
  · cases hin : s.inputs with
    | nil => exact .inl ⟨hidle, rfl, step_of_idle_nil hidle hin⟩
    | cons a rest => exact .inr (.inl ⟨hidle, a, rest, rfl, step_of_idle_cons hidle hin⟩)
  · by_cases hreset : s.inputs.head? = some .hardReset
    · obtain ⟨rest, hin⟩ := List.head?_eq_some_iff.1 hreset
      exact .inr (.inr (.inl ⟨rest, hin, step_of_hardReset hin⟩))
    · refine .inr (.inr (.inr ⟨hidle, ?_⟩))
      have noReset : s.resetPending = false := by simpa [State.resetPending] using hreset
      cases hact : s.activity with
      | idle => exact absurd hact hidle
      | receiving | walking => simp only [step, hact, noReset, Bool.false_eq_true, if_false]

end

/-- Settles O57: instruction by instruction, and the outside's actions and inner steps. -/
theorem nothingFaults : Obligations.NothingFaults := by
  refine ⟨exec_noFault, fun s => ?_⟩
  rcases step_cases s with ⟨_, _, h⟩ | ⟨_, a, rest, _, h⟩ | ⟨rest, _, h⟩ | ⟨_, h⟩ <;> rw [h]
  · exact noFault_next s
  · exact hostAction_noFault a _
  · exact noFault_next _
  · exact innerStep_noFault s

/-! ### A command and its inner steps -/

theorem innerSteps_of_idle {s : State} (h : s.activity = .idle) (n : Nat) : innerSteps n s = .next s := by
  induction n with
  | zero => rfl
  | succ n ih =>
    have stays : innerStep s = .next s := by simp only [innerStep, h]
    simp only [innerSteps, stays, ih]

/-- Inner steps that end a command are the run to its end, if the run's bound suffices. -/
theorem runToIdle_of_innerSteps {n fuel : Nat} {s t : State} (h : innerSteps n s = .next t) (hidle : t.activity = .idle)
    (hrun : NoFault (runToIdle fuel s)) : runToIdle fuel s = .next t := by
  induction fuel generalizing n s with
  | zero =>
    by_cases hs : s.activity = .idle
    · rw [innerSteps_of_idle hs] at h
      rw [runToIdle_of_idle hs, h]
    · exact absurd (by simp only [runToIdle, if_neg hs]) (hrun .unfinished)
  | succ fuel ih =>
    by_cases hs : s.activity = .idle
    · rw [innerSteps_of_idle hs] at h
      rw [runToIdle_of_idle hs, h]
    cases n with
    | zero =>
      cases h
      exact absurd hidle hs
    | succ n =>
      cases hu : innerStep s with
      | next u =>
        rw [runToIdle_succ hs hu] at hrun ⊢
        simp only [innerSteps, hu] at h
        exact ih h hrun
      | refused r => simp only [innerSteps, hu] at h; cases h
      | fault x => simp only [innerSteps, hu] at h; cases h

/-- Settles O56: a command is its run to the end, which is not a fault, so it agrees with any number of inner steps that end. -/
theorem commandsAreTheirInnerSteps : Obligations.CommandsAreTheirInnerSteps := by
  refine ⟨fun s h t k n hk hh hn hidle => ?receive, fun s t cls k n hk hd hn hidle => ?unpack⟩
  case receive =>
    have noFault := exec_noFault (.recvModel k) s
    rw [exec_recvModel_of_header_ok hk hh] at noFault ⊢
    exact runToIdle_of_innerSteps hn hidle noFault
  case unpack =>
    have noFault := exec_noFault (.unpack cls) s
    rw [exec_unpack_of_accepted hk hd] at noFault ⊢
    exact runToIdle_of_innerSteps hn hidle noFault

/-! ### `OVERRUN` (rule R42) -/

theorem State.overrunExact_blockReset (s : State) : s.blockReset.overrunExact := by
  simp [State.overrunExact, State.blockReset, State.reset, Reader.reset]

theorem State.overrunExact_congr {s t : State} (h : t.br = s.br) (hs : s.overrunExact) : t.overrunExact := by
  rw [State.overrunExact, h]
  exact hs

theorem innerStep_overrunExact {s t : State} (hs : s.overrunExact) (h : innerStep s = .next t) : t.overrunExact := by
  have moved {u : State} (hu : s.Moves u) : u.overrunExact := by
    rcases hu with rfl | ⟨n, rfl⟩
    · exact hs
    · exact State.overrunExact_consume hs n
  have advanced {u : State} (hu : u.overrunExact) : u.advance.overrunExact := by
    refine State.overrunExact_congr ?_ hu
    unfold State.advance
    split_ifs <;> rfl
  cases hact : s.activity with
  | idle =>
    simp only [innerStep, hact] at h
    cases h
    exact hs
  | receiving =>
    rw [innerStep_of_receiving hact] at h
    cases receiveStep_outcome h with
    | fills n ls => exact State.overrunExact_consume hs n
    | raises u c hu => exact State.overrunExact_congr (s := u) rfl (moved hu)
    | overrun | built | buildFails => exact hs
  | walking =>
    have outcome := walkStep_cases hact
    rw [← innerStep_of_walking hact, h] at outcome
    cases outcome with
    | raises u hu c n _ => exact hu.exact hs
    | emits q u hu _ _ ws _ => exact advanced (u := u.emitted ws) (hu.prepared.exact hs)
    | skips q u hu _ _ => exact advanced (hu.prepared.exact hs)

theorem exec_overrunExact {i : Instr} {s t : State} (hi : i.isCommand = true) (hs : s.overrunExact)
    (h : exec i s = .next t) : t.overrunExact := by
  by_cases hreset : i = .softReset
  · subst hreset
    rw [exec_softReset] at h
    cases h
    exact State.overrunExact_congr (s := s.startCommand.blockReset) rfl (State.overrunExact_blockReset s.startCommand)
  · exact (exec_commanded hi hreset h).exact hs

theorem isCommand_of_decode_command {c : Word} {i : Instr} (h : decode (.command c) = .ok i) : i.isCommand = true := by
  have code := decodedCodesAreEncodings _ _ h
  cases i with
  | nop | softReset | brStart | getBits | brStop | build | clear | decode | recvModel | unpack => rfl
  | _ => cases code

/-- An abandoned command leaves a state at reset. -/
theorem abandonCommand_reset {c : Word} {n : Nat} {s t : State} (h : abandonCommand c n s = .next t) :
    ∃ u : State, t = u.blockReset := by
  obtain ⟨u, rfl, _⟩ := abandonCommand_eq_next h
  exact ⟨u, rfl⟩

/-- What the outside's actions are on an idle block, each by what it does. -/
theorem hostAction_cases {a : HostAction} {s t : State} (h : hostAction a s = .next t) :
    (∃ i, i.isCommand = true ∧ exec i s = .next t) ∨ t = s.startCommand.raiseAt0 .badOpcode 0 ∨
    (∃ off v, t = s.writeReg off v) ∨ (∃ v, t = { s with readData := v }) ∨ (∃ addr b, t = hostStore addr b s) ∨
    (∃ ce cs ae as places holes base, t = { s with
      palCE := ce, palCS := cs, palAE := ae, palAS := as, palPlaces := places, holes := holes, registerBase := base }) ∨
    t = s.blockReset ∨ ∃ c n, abandonCommand c n s = .next t := by
  cases a with
  | write width off v =>
    simp only [hostAction, busWrite, commandStep] at h
    split at h
    · split at h
      · cases hd : decode (.command v) with
        | ok i =>
          rw [hd] at h
          exact .inl ⟨i, isCommand_of_decode_command hd, h⟩
        | error e =>
          rw [hd] at h
          cases h
          exact .inr (.inl rfl)
      · cases h
        exact .inr (.inr (.inl ⟨_, _, rfl⟩))
    · cases h
  | read width off =>
    simp only [hostAction, busRead] at h
    split at h <;> cases h
    exact .inr (.inr (.inr (.inl ⟨_, rfl⟩)))
  | store addr b => cases h; exact .inr (.inr (.inr (.inr (.inl ⟨addr, b, rfl⟩))))
  | loadPalCE | loadPalCS | loadPalAE | loadPalAS | platform =>
    cases h
    exact .inr (.inr (.inr (.inr (.inr (.inl ⟨_, _, _, _, _, _, _, rfl⟩)))))
  | hardReset => cases h; exact .inr (.inr (.inr (.inr (.inr (.inr (.inl rfl))))))
  | resetDuring c n => exact .inr (.inr (.inr (.inr (.inr (.inr (.inr ⟨c, n, h⟩))))))

/-- Settles O24: a host store does not touch the position, and everything else moves it by `Consume`, starts the reader or
resets it. -/
theorem everyStepKeepsOverrunExact : Obligations.EveryStepKeepsOverrunExact := by
  intro s t hs ht
  rcases step_cases s with ⟨_, _, h⟩ | ⟨_, a, rest, _, h⟩ | ⟨rest, _, h⟩ | ⟨_, h⟩ <;> rw [h] at ht
  · cases ht
    exact hs
  · have popped : State.overrunExact { s with inputs := rest } := hs
    rcases hostAction_cases ht with ⟨i, hi, he⟩ | rfl | ⟨off, v, rfl⟩ | ⟨v, rfl⟩ | ⟨addr, b, rfl⟩ |
      ⟨_, _, _, _, _, _, _, rfl⟩ | rfl | ⟨c, n, hc⟩
    · exact exec_overrunExact hi popped he
    · exact popped
    · exact State.overrunExact_congr (State.writeReg_br ..) popped
    · exact popped
    · exact popped
    · exact popped
    · exact State.overrunExact_blockReset _
    · obtain ⟨u, rfl⟩ := abandonCommand_reset hc
      exact State.overrunExact_blockReset u
  · cases ht
    exact State.overrunExact_blockReset _
  · exact innerStep_overrunExact hs ht

/-! ### The block's invariant -/

theorem State.inv_blockReset {s : State} (hwf : Memory.wf s.mem) (haddr : Memory.addresses32 s.mem) : s.blockReset.Inv :=
  ⟨⟨hwf, ⟨List.Pairwise.nil, nofun⟩, List.Pairwise.nil, nofun⟩, haddr, State.slotsBuilt_of_empty s.blockReset_slot, rfl⟩

/-- What a command abandoned in its walk leaves in memory. -/
theorem abandonCommand_inv {c : Word} {n : Nat} {s t : State} (hs : s.Inv) (h : abandonCommand c n s = .next t) : t.Inv := by
  obtain ⟨⟨hwf, _⟩, haddr, _⟩ := hs
  by_cases hunpack : ∃ cls, decode (.command c) = .ok (.unpack cls)
  · obtain ⟨cls, hcls⟩ := hunpack
    rw [abandonCommand_of_unpack hcls] at h
    cases hu : unpackUntil cls n s with
    | refused r => rw [hu] at h; cases h
    | fault x => rw [hu] at h; cases h
    | next u =>
      rw [hu] at h
      cases h
      cases hk : argChecks s.regs cls with
      | error e =>
        rw [unpackUntil_of_argError hk] at hu
        cases hu
        exact State.inv_blockReset hwf haddr
      | ok k =>
        obtain ⟨_, stops⟩ := unpackUntil_stops hk hu
        obtain ⟨⟨m, changed⟩, form⟩ := stops.changed
        exact State.inv_blockReset (form hwf) (changed.addresses32 (Regs.accepted_of_argChecks hk) haddr)
  · rw [abandonCommand_of_no_unpack (not_exists.1 hunpack)] at h
    cases h
    exact State.inv_blockReset hwf haddr

theorem exec_inv {i : Instr} {s t : State} (hi : i.isCommand = true) (hs : s.Inv) (h : exec i s = .next t) : t.Inv := by
  obtain ⟨⟨hwf, hclv, hbuf⟩, haddr, hbuilt, _⟩ := hs
  by_cases hreset : i = .softReset
  · subst hreset
    rw [exec_softReset] at h
    cases h
    exact State.inv_blockReset hwf haddr
  · have done := exec_commanded hi hreset h
    have clv : t.clv = s.clv := congrArg (fun p => p.2.2.1) done.host
    refine ⟨⟨done.memory hwf, ?_, done.canonical hbuf⟩, done.addresses haddr, done.built hbuilt, done.idle⟩
    rw [clv]
    exact hclv

theorem State.inv_writeReg {s : State} (hs : s.Inv) (off : Nat) (v : Word) : (s.writeReg off v).Inv := by
  obtain ⟨⟨hwf, hclv, hbuf⟩, haddr, hbuilt, hidle⟩ := hs
  unfold State.writeReg
  cases clvIndex s.cfg off with
  | none => exact ⟨⟨hwf, hclv, hbuf⟩, haddr, hbuilt, hidle⟩
  | some i => exact ⟨⟨hwf, ⟨keysRise_putOr _ hclv.1 _ _, noneIs_putOr hclv.2 _ _⟩, hbuf⟩, haddr, hbuilt, hidle⟩

theorem inv_hostStore {s : State} (hs : s.Inv) (addr : Word) (b : Byte) : (hostStore addr b s).Inv := by
  obtain ⟨⟨hwf, hrest⟩, haddr, hbuilt, hidle⟩ := hs
  refine ⟨⟨Memory.wf_write hwf _ _, hrest⟩, fun c hc => ?_, hbuilt, hidle⟩
  rcases mem_putCell hc with rfl | hc
  · exact addr.isLt
  · exact haddr c hc

/-- Settles O58: between commands the block is idle, so a step is an action of the outside. -/
theorem everyStepKeepsInvariant : Obligations.EveryStepKeepsInvariant := by
  intro s t hs ht
  obtain ⟨hform, haddr, hbuilt, hidle⟩ := hs
  rcases step_cases s with ⟨_, _, h⟩ | ⟨_, a, rest, _, h⟩ | ⟨rest, _, h⟩ | ⟨hact, _⟩
  · rw [h] at ht
    cases ht
    exact ⟨hform, haddr, hbuilt, hidle⟩
  · rw [h] at ht
    have popped : State.Inv { s with inputs := rest } := ⟨hform, haddr, hbuilt, hidle⟩
    rcases hostAction_cases ht with ⟨i, hi, he⟩ | rfl | ⟨off, v, rfl⟩ | ⟨v, rfl⟩ | ⟨addr, b, rfl⟩ |
      ⟨_, _, _, _, _, _, _, rfl⟩ | rfl | ⟨c, n, hc⟩
    · exact exec_inv hi popped he
    · exact ⟨hform, haddr, hbuilt, rfl⟩
    · exact State.inv_writeReg popped off v
    · exact ⟨hform, haddr, hbuilt, hidle⟩
    · exact inv_hostStore popped addr b
    · exact ⟨hform, haddr, hbuilt, hidle⟩
    · exact State.inv_blockReset hform.1 haddr
    · exact abandonCommand_inv popped hc
  · rw [h] at ht
    cases ht
    exact State.inv_blockReset hform.1 haddr
  · exact absurd hidle hact

end Sys2Proof.Machine
end

