-- ==== Sys2Proof/Proofs/CutStreams.lean ====
section
/-! A walk beside another one over the same range, or over a shorter one: the bits, and what `Decode` answers (rules R150, R210,
R290, R291). -/

namespace Sys2Proof.Machine

/-! ### Bits of a range that is cut off -/

section
variable {s t : State}

/-- The leading bits of a stretch (rule R151). -/
theorem State.bitsAt_leading {pos n l w : Nat} (h : s.bitsAt pos n = .ok w) (hl : l ≤ n) :
    s.bitsAt pos l = .ok (w / 2 ^ (n - l)) := by
  rw [← Nat.add_sub_cancel' hl, State.bitsAt_add] at h
  cases hi : s.bitsAt pos l with
  | error r => rw [hi] at h; cases h
  | ok a =>
    cases lo : s.bitsAt (pos + l) (n - l) with
    | error r => rw [hi, lo] at h; cases h
    | ok b =>
      rw [hi, lo] at h
      cases h
      rw [Nat.mul_comm, Nat.mul_add_div (by positivity), Nat.div_eq_of_lt (State.bitsAt_lt lo), Nat.add_zero]

/-- `t` reads the bytes that `s` reads, but its range may end earlier. -/
structure State.Cuts (s t : State) : Prop where
  mem : t.mem = s.mem
  base : t.br.base = s.br.base
  touched : t.br.touched = s.br.touched
  shorter : t.br.rangeLen ≤ s.br.rangeLen

namespace State.Cuts

theorem streamBit_inside (h : s.Cuts t) {i : Nat} (hi : i / 8 < t.br.rangeLen) : t.streamBit i = s.streamBit i := by
  simp only [State.streamBit, h.mem, h.base, h.touched, if_pos hi, if_pos (hi.trans_le h.shorter)]

theorem bitsAt_inside (h : s.Cuts t) {pos n : Nat} (hn : pos + n ≤ 8 * t.br.rangeLen) : t.bitsAt pos n = s.bitsAt pos n := by
  induction n with
  | zero => rfl
  | succ n ih => rw [State.bitsAt_succ, State.bitsAt_succ, ih (by omega), h.streamBit_inside (by omega)]

/-- What the longer range can read, the shorter one can: behind its end there are zeros (rule R155). -/
theorem bitsAt_ok (h : s.Cuts t) {pos n w : Nat} (hw : s.bitsAt pos n = .ok w) : ∃ v, t.bitsAt pos n = .ok v := by
  by_cases hend : 8 * t.br.rangeLen ≤ pos
  · exact ⟨0, State.bitsAt_past hend n⟩
  by_cases hin : pos + n ≤ 8 * t.br.rangeLen
  · exact ⟨w, (h.bitsAt_inside hin).trans hw⟩
  · obtain ⟨l, hl⟩ : ∃ l, 8 * t.br.rangeLen = pos + l := ⟨8 * t.br.rangeLen - pos, by omega⟩
    have lead := State.bitsAt_leading hw (l := l) (by omega)
    rw [← h.bitsAt_inside hl.ge] at lead
    rw [show n = l + (n - l) by omega, State.bitsAt_add, lead, State.bitsAt_past hl.le]
    exact ⟨_, rfl⟩

end State.Cuts

/-- `t` stands past the end of its range, with its slots built: every way on ends with an `EntropyError` (rules R276, R290). -/
structure State.Lost (t : State) : Prop where
  built : t.slotsBuilt
  exact : t.overrunExact
  past : 8 * t.br.rangeLen < t.br.bitpos

/-- A procedure that has failed for want of stream, or goes on past its end. -/
def Res.Lost {α : Type} : Res α → Prop
  | .ok _ u => u.Lost
  | .err c _ _ => c.kind = .entropyError
  | .refused _ => False

theorem kind_of_mem_walkCauses : ∀ c ∈ walkCauses, c.kind = .entropyError := by decide

/-- Past the end, a procedure of the block stays past the end or fails. -/
theorem Res.Prepares.lost {α : Type} {r : Res α} (h : r.Prepares t walkCauses) (ht : t.Lost) : r.Lost := by
  cases r with
  | ok a u =>
    have hu : t.Prepared u := h
    refine ⟨hu.slotsBuilt ht.built, hu.exact ht.exact, ?_⟩
    rw [hu.rangeLen]
    exact ht.past.trans_le hu.forward
  | err c n u => exact kind_of_mem_walkCauses c (h.2 ht.built)
  | refused x => exact absurd (.inr ht.past.le) h

/-- `Decode` over the shorter range finds the same symbol within the range, or it fails, or it moves past the end (rule R210). -/
theorem State.Cuts.decode (h : s.Cuts t) (hslots : t.slots = s.slots) (hpos : t.br.bitpos = s.br.bitpos) (exact : t.overrunExact)
    (built : t.slotsBuilt) {k : SlotId} (hs : ∀ r, s.decodeSymbol k ≠ .refused r) :
    (∃ v n, s.decodeSymbol k = .ok v (s.consume n) ∧ t.decodeSymbol k = .ok v (t.consume n) ∧
      t.br.bitpos + n ≤ 8 * t.br.rangeLen) ∨ (t.decodeSymbol k).Lost := by
  have slot : t.slot k = s.slot k := by rw [State.slot, State.slot, hslots]
  unfold State.decodeSymbol State.decodeWith at hs
  cases hk : s.slot k with
  | none =>
    right
    simp only [State.decodeSymbol, State.decodeWith, slot, hk]
    rfl
  | some m =>
    rw [hk] at slot hs
    obtain ⟨_, h16, _, _⟩ := buildModel_checks (built k m slot)
    cases hw : s.peekBits 16 with
    | error r => simp only [hw] at hs; exact absurd rfl (hs r)
    | ok w =>
      obtain ⟨v, hv⟩ : ∃ v, t.peekBits 16 = .ok v := by
        rw [State.peekBits, hpos]
        exact h.bitsAt_ok hw
      cases hd : m.decodeBits v with
      | error c =>
        right
        obtain ⟨rfl, _⟩ := (m.decodeBits_eq_error h16).1 hd
        rw [State.decodeSymbol_of_error slot hv hd]
        rfl
      | ok e =>
        obtain ⟨symbol, n⟩ := e
        have found : t.decodeSymbol k = .ok symbol (t.consume n) := State.decodeSymbol_eq_ok.2 ⟨m, v, n, slot, hv, hd, rfl⟩
        rcases Nat.lt_or_ge (8 * t.br.rangeLen) (t.br.bitpos + n) with past | inside
        · right
          rw [found]
          exact ⟨built, State.overrunExact_consume exact n, past⟩
        · left
          obtain ⟨⟨hsym, hpositive, hlead⟩, rfl⟩ := (m.decodeBits_eq_ok h16).1 hd
          have len := m.lengthOf_le h16 symbol
          have same := State.bitsAt_leading hw len
          rw [← hpos, ← h.bitsAt_inside inside, State.bitsAt_leading hv len, Except.ok.injEq] at same
          have leads : m.decodeBits w = .ok (symbol, m.lengthOf symbol) :=
            m.decodeBits_of_leads h16 ⟨hsym, hpositive, same ▸ hlead⟩
          exact ⟨symbol, _, State.decodeSymbol_eq_ok.2 ⟨m, w, _, hk, hw, leads, rfl⟩, found, inside⟩

end

end Sys2Proof.Machine
end

