-- ==== Sys2Proof/Proofs/SideBySide.lean ====
section
/-! Procedures of a block in two states side by side, the second over the same source range or a shorter one (rules R290, R291). -/

namespace Sys2Proof.Machine

/-! ### States side by side -/

/-- `t'` agrees with `t` on all that a block uses but the accumulators, the reference group and `block_buffer`. Its source
range has length `m`, which is that of `t` unless `cut` holds; if it is shorter, both readers still stand within it. -/
structure State.Beside (cut : Prop) (m : Word) (t t' : State) : Prop where
  regs : t'.regs = { t.regs with srcLen := m }
  palettes : (t'.palCE, t'.palCS, t'.palAE, t'.palAS) = (t.palCE, t.palCS, t.palAE, t.palAS)
  slots : t'.slots = t.slots
  mem : t'.mem = t.mem
  activity : t'.activity = t.activity
  ending : t'.ending = t.ending
  place : t'.walk.place = t.walk.place
  reader : t'.br = { t.br with len := m }
  whole : ¬ cut → t.br.len = m
  short : cut → t.slotsBuilt ∧ m.toNat ≤ t.br.len.toNat ∧ t.br.bitpos ≤ 8 * t'.br.rangeLen ∧ t.br.overrun = false

section
variable {cut : Prop} {m : Word} {t t' : State}

namespace State.Beside

theorem sameStream (h : t.Beside cut m t') (hw : ¬ cut) : t.SameStream t' :=
  ⟨h.slots, h.reader.trans (by rw [← h.whole hw]), h.mem⟩

theorem rangeLen_le (h : t.Beside cut m t') (hc : cut) : t'.br.rangeLen ≤ t.br.rangeLen := by
  obtain ⟨_, hlen, _⟩ := h.short hc
  rw [h.reader]
  simp only [Reader.rangeLen]
  split
  · exact hlen
  · exact le_rfl

theorem cuts (h : t.Beside cut m t') (hc : cut) : t.Cuts t' :=
  ⟨h.mem, by rw [h.reader], by rw [h.reader], h.rangeLen_le hc⟩

theorem slotsBuilt (h : t.Beside cut m t') (hc : cut) : t'.slotsBuilt := by
  intro k md hk
  exact (h.short hc).1 k md (by rwa [State.slot, ← h.slots])

theorem bitpos (h : t.Beside cut m t') : t'.br.bitpos = t.br.bitpos := by rw [h.reader]

theorem exact (h : t.Beside cut m t') (hc : cut) : t'.overrunExact := by
  obtain ⟨_, _, hpos, hover⟩ := h.short hc
  have flag : t'.br.overrun = false := by rw [h.reader]; exact hover
  rw [State.overrunExact, flag, h.bitpos]
  exact iff_of_false nofun (Nat.not_lt.2 hpos)

/-- Both readers move on by the same, within the shorter range. -/
theorem consume (h : t.Beside cut m t') {n : Nat} (hn : cut → t.br.bitpos + n ≤ 8 * t'.br.rangeLen) :
    (t.consume n).Beside cut m (t'.consume n) := by
  have flag : (t'.br.overrun || decide (8 * t'.br.rangeLen < t'.br.bitpos + n)) =
      (t.br.overrun || decide (8 * t.br.rangeLen < t.br.bitpos + n)) := by
    by_cases hc : cut
    · obtain ⟨_, _, _, hover⟩ := h.short hc
      have le := h.rangeLen_le hc
      have inside := hn hc
      have flag' : t'.br.overrun = false := by rw [h.reader]; exact hover
      rw [h.bitpos, flag', hover, decide_eq_false (by omega), decide_eq_false (by omega)]
    · rw [(h.sameStream hc).2.1]
  exact { h with
    reader := by
      simp only [State.consume]
      rw [flag, h.reader]
    short := fun hc => by
      obtain ⟨built, hlen, _, hover⟩ := h.short hc
      refine ⟨built, hlen, hn hc, ?_⟩
      have le := h.rangeLen_le hc
      have inside := hn hc
      show (t.br.overrun || decide _) = false
      rw [hover, decide_eq_false (by omega)]
      rfl }

end State.Beside

/-! ### Procedures side by side -/

/-- `r'` answers what `r` answers, in states that `R` relates, or the stream has ended for it; a refusal of `r` says nothing. -/
def Res.Follows {α : Type} (cut : Prop) (m : Word) (R : State → State → Prop) : Res α → Res α → Prop
  | .ok a u, r' => (∃ u', r' = .ok a u' ∧ R u u') ∨ (cut ∧ r'.Lost)
  | .err c n u, r' => (∃ u', r' = .err c n u' ∧ u.Beside cut m u') ∨ (cut ∧ r'.Lost)
  | .refused _, _ => True

section
variable {α β : Type} {R R' : State → State → Prop}

theorem Res.Follows.of_lost {r r' : Res α} (hc : cut) (h : r'.Lost) : r.Follows cut m R r' := by
  cases r with
  | ok | err => exact .inr ⟨hc, h⟩
  | refused => trivial

theorem Res.Follows.imp {r r' : Res α} (h : r.Follows cut m R r') (himp : ∀ u u', R u u' → R' u u') :
    r.Follows cut m R' r' := by
  cases r with
  | ok a u =>
    refine h.imp_left ?_
    rintro ⟨u', rfl, hu⟩
    exact ⟨u', rfl, himp u u' hu⟩
  | err => exact h
  | refused => trivial

/-- One procedure after another, where the second is one of the block. -/
theorem Res.Follows.andThen {r r' : Res α} {f : α → State → Res β} (h : r.Follows cut m R r')
    (hf : ∀ a u u', r = .ok a u → r' = .ok a u' → R u u' → (f a u).Follows cut m R' (f a u'))
    (ofBlock : ∀ a u', r' = .ok a u' → (f a u').Prepares u' walkCauses) :
    (r.andThen f).Follows cut m R' (r'.andThen f) := by
  have lost (hc : cut) (hl : r'.Lost) : (r.andThen f).Follows cut m R' (r'.andThen f) := by
    refine .of_lost hc ?_
    cases r' with
    | ok a u' => exact (ofBlock a u' rfl).lost hl
    | err => exact hl
    | refused => exact hl
  cases r with
  | refused => trivial
  | ok a u =>
    rcases h with ⟨u', rfl, hu⟩ | ⟨hc, hl⟩
    · exact hf a u u' rfl rfl hu
    · exact lost hc hl
  | err c n u =>
    rcases h with ⟨u', rfl, hu⟩ | ⟨hc, hl⟩
    · exact .inl ⟨u', rfl, hu⟩
    · exact lost hc hl

end

/-- Both states have moved on by the same number of bits. -/
def State.MoveAlike (cut : Prop) (m : Word) (t t' u u' : State) : Prop :=
  ∃ n, u = t.consume n ∧ u' = t'.consume n ∧ u.Beside cut m u'

theorem State.Beside.decode (h : t.Beside cut m t') (k : SlotId) :
    (t.decodeSymbol k).Follows cut m (t.MoveAlike cut m t') (t'.decodeSymbol k) := by
  by_cases hr : ∃ r, t.decodeSymbol k = .refused r
  · obtain ⟨r, hr⟩ := hr
    rw [hr]
    trivial
  by_cases hc : cut
  · rcases (h.cuts hc).decode h.slots h.bitpos (h.exact hc) (h.slotsBuilt hc) (not_exists.1 hr) with
      ⟨v, n, hd, hd', inside⟩ | lost
    · rw [hd, hd']
      rw [h.bitpos] at inside
      exact .inl ⟨_, rfl, n, rfl, rfl, h.consume fun _ => inside⟩
    · exact .of_lost hc lost
  · cases hd : t.decodeSymbol k with
    | refused r => trivial
    | err c n u =>
      have still := (State.decodeSymbol_err hd).1
      exact .inl ⟨t', (h.sameStream hc).decode_err hd, still ▸ h⟩
    | ok v u =>
      obtain ⟨n, rfl, hd'⟩ := (h.sameStream hc).decode_ok hd
      exact .inl ⟨_, hd', n, rfl, rfl, h.consume fun hcut => absurd hcut hc⟩

end
end Sys2Proof.Machine
end

