-- ==== Sys2Proof/Proofs/TwinWalks.lean ====
section
/-! O47, O48: two walks of the same level, block by block (rules R290, R291). -/

namespace Sys2Proof.Machine

/-! ### `block_buffer` side by side -/

/-- Two entries of `block_buffer` that a walk over the channels `chs` reads alike: an index counts where the entry is valid, the
code where one is stashed. -/
structure BufEntry.Alike (chs : List Channel) (stash : Prop) (e e' : BufEntry) : Prop where
  valid : e'.valid = e.valid
  indices : e.valid = true → ∀ ch ∈ chs, e'.index ch = e.index ch
  code : stash → e'.endpointReference = e.endpointReference

section
variable {chs : List Channel} {stash stash' : Prop} {e e' : BufEntry}

theorem BufEntry.Alike.setIndex (h : e.Alike chs stash e') (ch : Channel) (v : Nat) :
    (e.setIndex ch v).Alike chs stash (e'.setIndex ch v) where
  valid := by simpa using h.valid
  indices hv d hd := by
    rw [BufEntry.index_setIndex, BufEntry.index_setIndex, h.indices (by simpa using hv) d hd]
  code hs := by simpa using h.code hs

theorem BufEntry.Alike.mono (h : e.Alike chs stash e') (himp : stash' → stash) : e.Alike chs stash' e' :=
  { h with code := fun hs => h.code (himp hs) }

end

/-- Side by side, with `block_buffer` alike up to the columns that are in the grid; a code is stashed for the columns `stash`, and
`grouped` says that the reference group will be read. -/
structure State.Twins (cut : Prop) (m : Word) (stash : Nat → Prop) (grouped : Prop) (t t' : State) : Prop
    extends t.Beside cut m t' where
  column : t.walk.x < t.regs.wbp
  indices : ∀ ch, t'.walk.index ch = t.walk.index ch
  group : grouped → t'.walk.referenceGroup = t.walk.referenceGroup
  buffer : ∀ x < t.regs.wbp, (bufEntry t.blockBuf x).Alike t.walk.cls.channels (stash x) (bufEntry t'.blockBuf x)

section
variable {cut : Prop} {m : Word} {stash stash' : Nat → Prop} {grouped grouped' : Prop} {t t' u u' : State}

theorem State.Beside.walk_eq (h : t.Beside cut m t') : t'.walk.cls = t.walk.cls ∧ t'.walk.f = t.walk.f ∧
    t'.walk.y = t.walk.y ∧ t'.walk.x = t.walk.x ∧ t'.walk.blocksWritten = t.walk.blocksWritten := by
  have place := h.place
  simpa only [Walker.place, Prod.mk.injEq] using place

theorem State.Beside.x_eq (h : t.Beside cut m t') : t'.walk.x = t.walk.x := h.walk_eq.2.2.2.1
theorem State.Beside.y_eq (h : t.Beside cut m t') : t'.walk.y = t.walk.y := h.walk_eq.2.2.1
theorem State.Beside.cls_eq (h : t.Beside cut m t') : t'.walk.cls = t.walk.cls := h.walk_eq.1

theorem State.Beside.counts (h : t.Beside cut m t') (ch : Channel) :
    t'.regs.endpointCount ch = t.regs.endpointCount ch ∧ t'.regs.selectorCount ch = t.regs.selectorCount ch := by
  rw [h.regs]
  cases ch <;> exact ⟨rfl, rfl⟩

namespace State.Twins

theorem mono (h : t.Twins cut m stash grouped t') (hst : ∀ x < t.regs.wbp, stash' x → stash x) (hg : grouped' → grouped) :
    t.Twins cut m stash' grouped' t' :=
  { h with group := fun hr => h.group (hg hr), buffer := fun x hx => (h.buffer x hx).mono (hst x hx) }

theorem entry (h : t.Twins cut m stash grouped t') : t.entry.Alike t.walk.cls.channels (stash t.walk.x) t'.entry := by
  rw [State.entry, State.entry, h.x_eq]
  exact h.buffer _ h.column

theorem moveAlike (h : t.Twins cut m stash grouped t') (hm : t.MoveAlike cut m t' u u') :
    u.Twins cut m stash grouped u' := by
  obtain ⟨n, rfl, rfl, hb⟩ := hm
  exact { h with toBeside := hb }

theorem decode (h : t.Twins cut m stash grouped t') (k : SlotId) :
    (t.decodeSymbol k).Follows cut m (State.Twins cut m stash grouped) (t'.decodeSymbol k) :=
  (h.toBeside.decode k).imp fun _ _ => h.moveAlike

theorem setAccumulator (h : t.Twins cut m stash grouped t') (ch : Channel) (v : Nat) :
    (t.setAccumulator ch v).Twins cut m stash grouped (t'.setAccumulator ch v) :=
  { h with
    place := by
      have place := h.place
      cases ch <;> exact place
    column := by simpa using h.column
    indices := fun d => by
      rw [State.setAccumulator_walk, State.setAccumulator_walk, Walker.index_setIndex, Walker.index_setIndex, h.indices]
    group := fun hg => by
      have group := h.group hg
      cases ch <;> exact group
    buffer := by simpa using h.buffer }

/-- The entry of the walker's column is written. -/
theorem setEntry (h : t.Twins cut m stash grouped t') {e e' : BufEntry}
    (he : e.Alike t.walk.cls.channels (stash' t.walk.x) e') (hst : ∀ x ≠ t.walk.x, stash' x → stash x) :
    (t.setEntry e).Twins cut m stash' grouped (t'.setEntry e') :=
  { h with
    buffer := fun x hx => by
      rw [State.bufEntry_setEntry, State.bufEntry_setEntry, h.x_eq]
      split
      · next hxx => subst hxx; exact he
      · next hxx => exact (h.buffer x hx).mono (hst x hxx) }

theorem storeIndex (h : t.Twins cut m stash grouped t') (ch : Channel) :
    (t.storeIndex ch).Twins cut m stash grouped (t'.storeIndex ch) := by
  rw [State.storeIndex, State.storeIndex, h.indices]
  exact h.setEntry (h.entry.setIndex ch _) fun _ _ => id

theorem addDelta (h : t.Twins cut m stash grouped t') (ch : Channel) (d : Nat) :
    (t.addDelta ch d).Twins cut m stash grouped (t'.addDelta ch d) := by
  rw [State.addDelta, State.addDelta, h.indices, (h.counts ch).1]
  exact (h.setAccumulator ch _).storeIndex ch

/-- The entry becomes valid where all its indices are the accumulators. -/
theorem markValid (h : t.Twins cut m stash grouped t')
    (stored : ∀ ch ∈ t.walk.cls.channels, t.entry.index ch = t.walk.index ch)
    (stored' : ∀ ch ∈ t.walk.cls.channels, t'.entry.index ch = t'.walk.index ch) :
    t.markValid.Twins cut m stash grouped t'.markValid :=
  h.setEntry ⟨rfl, fun _ ch hch => (stored' ch hch).trans ((h.indices ch).trans (stored ch hch).symm), h.entry.code⟩ fun _ _ => id

end State.Twins

/-! ### The reference codes side by side -/

/-- Behind the deltas the entry holds the accumulators (rule R271). -/
theorem newIndices_stored {chs done : List Channel} {a : Unit} (h : newIndices chs t = .ok a u)
    (hd : ∀ ch ∈ done, t.entry.index ch = t.walk.index ch) : ∀ ch ∈ done ++ chs, u.entry.index ch = u.walk.index ch := by
  induction chs generalizing t done with
  | nil =>
    cases h
    simpa using hd
  | cons c chs ih =>
    obtain ⟨d, v, hv, rest⟩ := Res.andThen_eq_ok.1 h
    obtain ⟨n, rfl⟩ := State.decodeSymbol_ok_moves hv
    have more : ∀ ch ∈ done ++ [c], ((t.consume n).addDelta c d).entry.index ch = ((t.consume n).addDelta c d).walk.index ch := by
      intro ch hch
      rw [State.entry, State.addDelta_bufEntry, State.addDelta_x, if_pos rfl, BufEntry.index_setIndex]
      split
      · next heq => rw [heq]
      · next hne =>
        rw [State.addDelta_index, if_neg hne]
        exact hd ch (by simpa [hne] using hch)
    have all := ih rest more
    rwa [List.append_assoc] at all

theorem State.Twins.newIndices_follows (h : t.Twins cut m stash grouped t') (chs : List Channel) :
    (newIndices chs t).Follows cut m (State.Twins cut m stash grouped) (newIndices chs t') := by
  induction chs generalizing t t' with
  | nil => exact .inl ⟨t', rfl, h⟩
  | cons ch chs ih =>
    refine (h.decode ch.deltaSlot).andThen (fun d u u' _ _ hu => ih (hu.addDelta ch d)) fun d u' _ => ?_
    exact ((newIndices_prepares chs _).mono (by decide)).of_prepared ((State.Prepared.refl u').addDelta ch d)

theorem State.Prepared.cls (h : t.Prepared u) : u.walk.cls = t.walk.cls := Walker.cls_of_place h.place

theorem State.Twins.refNew_follows (h : t.Twins cut m stash grouped t') :
    (runCode .refNew t).Follows cut m (State.Twins cut m stash grouped) (runCode .refNew t') := by
  simp only [runCode]
  rw [h.cls_eq]
  refine (h.newIndices_follows t.walk.cls.channels).andThen (fun a u u' hok hok' hu => .inl ⟨u'.markValid, rfl, ?_⟩)
    fun _ u' _ => (State.Prepared.refl u').markValid
  have ran := newIndices_prepares t.walk.cls.channels t
  rw [hok] at ran
  have cls : u.walk.cls = t.walk.cls := State.Prepared.cls ran
  refine hu.markValid ?_ ?_ <;> rw [cls]
  · exact newIndices_stored (done := []) hok (by simp)
  · exact newIndices_stored (done := []) hok' (by simp)

theorem State.Twins.storeIndices (h : t.Twins cut m stash grouped t') (chs : List Channel) :
    (chs.foldl State.storeIndex t).Twins cut m stash grouped (chs.foldl State.storeIndex t') := by
  induction chs generalizing t t' with
  | nil => exact h
  | cons ch chs ih => exact ih (h.storeIndex ch)

theorem storeIndices_stored (chs : List Channel) (t : State) : ∀ ch ∈ chs,
    (chs.foldl State.storeIndex t).entry.index ch = (chs.foldl State.storeIndex t).walk.index ch := by
  obtain ⟨frame, entries⟩ := t.storeIndices_eq chs
  have walk : (chs.foldl State.storeIndex t).walk = t.walk := by rw [frame]
  intro ch hch
  rw [State.entry, walk, entries, if_pos rfl, BufEntry.index_foldl_setIndex, if_pos hch]

theorem State.Twins.refLeft_follows (h : t.Twins cut m stash grouped t') :
    (runCode .refLeft t).Follows cut m (State.Twins cut m stash grouped) (runCode .refLeft t') := by
  simp only [runCode]
  rw [h.cls_eq]
  have cls : (t.walk.cls.channels.foldl State.storeIndex t).walk.cls = t.walk.cls := by rw [(t.storeIndices_eq _).1]
  refine .inl ⟨_, rfl, (h.storeIndices t.walk.cls.channels).markValid ?_ ?_⟩ <;> rw [cls]
  · exact storeIndices_stored _ t
  · exact storeIndices_stored _ t'

theorem State.Twins.loadIndices (h : t.Twins cut m stash grouped t') (hv : t.entry.valid = true) {chs : List Channel}
    (hsub : chs ⊆ t.walk.cls.channels) :
    (chs.foldl State.loadIndex t).Twins cut m stash grouped (chs.foldl State.loadIndex t') := by
  induction chs generalizing t t' with
  | nil => exact h
  | cons ch chs ih =>
    have same := h.entry.indices hv ch (hsub List.mem_cons_self)
    have loaded : (t.loadIndex ch).Twins cut m stash grouped (t'.loadIndex ch) := by
      rw [State.loadIndex, State.loadIndex, same]
      exact h.setAccumulator ch _
    refine ih loaded (by simpa using hv) ?_
    rw [State.loadIndex, State.setAccumulator_walk, Walker.cls_setIndex]
    exact fun _ hc => hsub (List.mem_cons_of_mem _ hc)

theorem State.Twins.refTop_follows (h : t.Twins cut m stash grouped t') :
    (runCode .refTop t).Follows cut m (State.Twins cut m stash grouped) (runCode .refTop t') := by
  simp only [runCode]
  rw [h.cls_eq, h.entry.valid]
  by_cases hv : t.entry.valid = true
  · rw [if_pos hv, if_pos hv]
    exact .inl ⟨_, rfl, h.loadIndices hv (List.Subset.refl _)⟩
  · rw [if_neg hv, if_neg hv]
    exact .inl ⟨_, rfl, h.toBeside⟩

theorem State.Twins.runCode_follows (h : t.Twins cut m stash grouped t') (c : BitVec 2) :
    (runCode (decodeRef c) t).Follows cut m (State.Twins cut m stash grouped) (runCode (decodeRef c) t') := by
  rcases decodeRef_cases c with hc | hc | hc | hc <;> rw [hc]
  · exact h.refNew_follows
  · exact h.refLeft_follows
  · exact h.refTop_follows
  · exact .inl ⟨_, rfl, h.toBeside⟩

/-! ### The fetch and the selectors side by side -/

/-- The columns for which a code is stashed after `n` columns of row `y` (rules R269, R270). -/
def Stashed (y n x : Nat) : Prop := if y % 2 = 0 then x < n else n ≤ x

theorem State.Twins.evenRowCode (h : t.Twins cut m (Stashed t.walk.y t.walk.x) True t') (hy : t.walk.y % 2 = 0) :
    t'.evenRowCode.1 = t.evenRowCode.1 ∧
      t.evenRowCode.2.Twins cut m (Stashed t.walk.y (t.walk.x + 1)) True t'.evenRowCode.2 := by
  have others : ∀ x ≠ t.walk.x, Stashed t.walk.y (t.walk.x + 1) x → Stashed t.walk.y t.walk.x x := by
    intro x hx
    simp only [Stashed, if_pos hy]
    omega
  have stash (v : BitVec 4) : (t.setEntry { t.entry with endpointReference := v }).Twins cut m (Stashed t.walk.y (t.walk.x + 1)) True
      (t'.setEntry { t'.entry with endpointReference := v }) :=
    h.setEntry ⟨h.entry.valid, h.entry.indices, fun _ => rfl⟩ others
  have group := h.group trivial
  unfold State.evenRowCode
  rw [h.x_eq]
  split
  · exact ⟨by simp only [group], by simp only [group]; exact stash _⟩
  · exact ⟨by simp only [group], by simp only [group]; exact stash _⟩

theorem State.Twins.setReferenceGroup (h : t.Twins cut m stash grouped t') (v : Nat) :
    (t.setReferenceGroup v).Twins cut m stash True (t'.setReferenceGroup v) :=
  { h with group := fun _ => rfl }

theorem State.Twins.readReferenceByte_follows (h : t.Twins cut m stash grouped t') :
    (readReferenceByte t).Follows cut m (State.Twins cut m stash True) (readReferenceByte t') := by
  refine (h.decode .ref).andThen (fun v u u' _ _ hu => ?_) fun v u' _ => ?_
  · by_cases hv : 255 < v
    · rw [if_pos hv, if_pos hv]
      exact .inl ⟨_, rfl, hu.toBeside⟩
    · rw [if_neg hv, if_neg hv]
      exact .inl ⟨_, rfl, hu.setReferenceGroup v⟩
  · split
    · exact ⟨.refl u', fun _ => by decide⟩
    · exact (State.Prepared.refl u').setReferenceGroup v

/-- Before a block, what the fetch reads is alike. -/
def State.Abreast (cut : Prop) (m : Word) (t t' : State) : Prop :=
  t.Twins cut m (Stashed t.walk.y t.walk.x) (t.walk.y % 2 = 0 ∧ t.walk.x % 2 = 1) t'

theorem State.Abreast.fetchRef_follows (h : t.Abreast cut m t') :
    (fetchRef t).Follows cut m (State.Twins cut m (Stashed t.walk.y (t.walk.x + 1)) (t.walk.y % 2 = 0)) (fetchRef t') := by
  have h : t.Twins cut m (Stashed t.walk.y t.walk.x) (t.walk.y % 2 = 0 ∧ t.walk.x % 2 = 1) t' := h
  unfold fetchRef
  rw [h.y_eq, h.x_eq]
  by_cases hy : t.walk.y % 2 = 0
  · rw [if_pos hy, if_pos hy]
    by_cases hx : t.walk.x % 2 = 0
    · rw [if_pos hx, if_pos hx]
      refine h.readReferenceByte_follows.andThen (fun a u u' hok _ hu => ?_) fun a u' _ => u'.evenRowCode_prepared
      have read := readReferenceByte_prepares t
      rw [hok] at read
      have place := State.Prepared.place read
      simp only [Walker.place, Prod.mk.injEq] at place
      obtain ⟨_, _, sameY, sameX, _⟩ := place
      rw [← sameY, ← sameX] at hu ⊢
      obtain ⟨code, hu'⟩ := hu.evenRowCode (sameY ▸ hy)
      rw [code]
      exact .inl ⟨_, rfl, hu'.mono (fun _ _ => id) fun _ => trivial⟩
    · rw [if_neg hx, if_neg hx]
      obtain ⟨code, hu'⟩ := (h.mono (grouped' := True) (fun _ _ => id) fun _ => ⟨hy, by omega⟩).evenRowCode hy
      rw [code]
      exact .inl ⟨_, rfl, hu'.mono (fun _ _ => id) fun _ => trivial⟩
  · rw [if_neg hy, if_neg hy]
    have here : Stashed t.walk.y t.walk.x t.walk.x := by rw [Stashed, if_neg hy]
    rw [h.entry.code here]
    refine .inl ⟨_, rfl, h.mono (fun x _ => ?_) fun heven => absurd heven hy⟩
    rw [Stashed, Stashed, if_neg hy, if_neg hy]
    omega

theorem State.Twins.readSelectors_follows (h : t.Twins cut m stash grouped t') (chs : List Channel) (q : Selectors) :
    (readSelectors chs q t).Follows cut m (State.Twins cut m stash grouped) (readSelectors chs q t') := by
  induction chs generalizing q t t' with
  | nil => exact .inl ⟨t', rfl, h⟩
  | cons ch chs ih =>
    refine (h.decode ch.selectorSlot).andThen (fun v u u' _ _ hu => ?_) fun v u' _ => ?_
    · rw [(hu.counts ch).2]
      by_cases hv : u.regs.selectorCount ch ≤ v
      · rw [if_pos hv, if_pos hv]
        exact .inl ⟨_, rfl, hu.toBeside⟩
      · rw [if_neg hv, if_neg hv]
        exact ih hu _
    · split
      · exact ⟨.refl u', fun _ => by decide⟩
      · exact readSelectors_prepares chs _ u'

theorem State.Abreast.blockBody_follows (h : t.Abreast cut m t') :
    (blockBody t).Follows cut m (State.Twins cut m (Stashed t.walk.y (t.walk.x + 1)) (t.walk.y % 2 = 0)) (blockBody t') := by
  refine h.fetchRef_follows.andThen (fun i u u' hok _ hu => ?_) fun i u' hok => ?_
  · obtain ⟨c, rfl⟩ := fetchRef_decodeRef hok
    refine (hu.runCode_follows c).andThen (fun _ v v' _ _ hv => ?_) fun _ v' _ => readSelectors_prepares _ _ v'
    rw [hv.cls_eq]
    exact hv.readSelectors_follows _ _
  · obtain ⟨c, rfl⟩ := fetchRef_decodeRef hok
    exact (runCode_decodeRef_prepares u' c).andThen fun _ v _ => readSelectors_prepares _ _ v

end
end Sys2Proof.Machine
end

