-- ==== Sys2Proof/Proofs/RepeatedUnpacks.lean ====
section
/-! O47, O48: the end of a block in two walks side by side, and the two runs (rules R276, R277, R290, R291). -/

namespace Sys2Proof.Machine

section
variable {cut : Prop} {m : Word} {stash : Nat → Prop} {grouped : Prop} {s s' t t' u u' v w : State} {k : FormatClass}

/-! ### The next place side by side -/

theorem State.Beside.grid (h : t.Beside cut m t') :
    t'.regs.wbp = t.regs.wbp ∧ t'.regs.hbp = t.regs.hbp ∧ t'.regs.faces = t.regs.faces := by
  rw [h.regs]
  exact ⟨rfl, rfl, rfl⟩

theorem State.Twins.moveTo (h : u.Twins cut m stash grouped u') {f y x f' y' x' : Nat} (hf : f' = f) (hy : y' = y) (hx : x' = x)
    (column : x < u.regs.wbp) :
    State.Twins cut m stash grouped { u with walk := { u.walk with f := f, y := y, x := x } }
      { u' with walk := { u'.walk with f := f', y := y', x := x' } } :=
  { h with
    place := by
      obtain ⟨hcls, _, _, _, hcount⟩ := h.walk_eq
      simp only [Walker.place, hcls, hcount, hf, hy, hx]
    column := column
    indices := fun ch => by
      have same := h.indices ch
      cases ch <;> exact same }

theorem State.Twins.faceReset (h : u.Twins cut m stash grouped u') :
    u.faceReset.Twins cut m stash grouped u'.faceReset :=
  { h with
    indices := fun ch => by rw [State.faceReset_index, State.faceReset_index]
    buffer := fun x hx => by
      have hx : x < u.regs.wbp := hx
      have same := h.buffer x hx
      simp only [State.faceReset, h.grid.1, bufEntry_clearValid, if_pos hx]
      exact ⟨rfl, nofun, same.code⟩ }

/-- The walks have ended alike. -/
structure State.EndedAlike (cut : Prop) (m : Word) (t t' : State) : Prop extends t.Beside cut m t' where
  idle : t.activity = .idle
  result : t'.result = t.result
  errinfo : ∀ c, t.ending = .raised c → t'.errinfo = t.errinfo

theorem State.Beside.raiseInWalk (h : u.Beside cut m u') (c : Cause) (n : BitVec 3) :
    (u.raiseInWalk c n).EndedAlike cut m (u'.raiseInWalk c n) := by
  obtain ⟨_, hf, hy, hx, hcount⟩ := h.walk_eq
  exact { h with
    activity := rfl
    ending := rfl
    idle := rfl
    result := by rw [State.raiseInWalk_result, State.raiseInWalk_result, hcount]
    errinfo := fun _ _ => by rw [State.raiseInWalk_errinfo, State.raiseInWalk_errinfo, hf, hy, hx] }

theorem roundUpEven_even (n : Nat) : roundUpEven n % 2 = 0 := Nat.mul_mod_left ..

/-- What the next block reads has been stashed or read in both walks (rules R268 to R270). -/
theorem State.Twins.advance
    (h : u.Twins cut m (Stashed u.walk.y (u.walk.x + 1)) (u.walk.y % 2 = 0) u') (hact : u.activity = .walking) :
    (u.advance.Abreast cut m u'.advance ∧ u.advance.activity = .walking) ∨ u.advance.EndedAlike cut m u'.advance := by
  obtain ⟨hcls, hf, hy, hx, hcount⟩ := h.walk_eq
  obtain ⟨gx, gy, gf⟩ := h.grid
  have wide : 0 < u.regs.wbp := Nat.zero_lt_of_lt h.column
  have even : u.regs.wbp % 2 = 0 := roundUpEven_even _
  by_cases column : u.walk.x + 1 < u.regs.wbp
  · left
    rw [State.advance_column column, State.advance_column (s := u') (by rwa [hx, gx]), hx]
    exact ⟨(h.moveTo hf hy rfl column).mono (fun _ _ => id) And.left, hact⟩
  by_cases row : u.walk.y + 1 < u.regs.hbp
  · left
    rw [State.advance_row column row, State.advance_row (s := u') (by rwa [hx, gx]) (by rwa [hy, gy]), hy]
    refine ⟨(h.moveTo hf rfl rfl wide).mono (fun x hwbp => ?_) fun odd => absurd odd.2 (by simp), hact⟩
    have hwbp : x < u.regs.wbp := hwbp
    simp only [Stashed]
    split <;> split <;> omega
  by_cases face : u.walk.f + 1 < u.regs.faces.toNat
  · left
    rw [State.advance_face column row face,
      State.advance_face (s := u') (by rwa [hx, gx]) (by rwa [hy, gy]) (by rwa [hf, gf]), hf]
    exact ⟨(h.moveTo rfl rfl rfl wide).faceReset.mono (fun x _ none => absurd none (Nat.not_lt_zero x))
      fun odd => absurd odd.2 (show ¬ 0 % 2 = 1 by decide), hact⟩
  · right
    rw [State.advance_last column row face,
      State.advance_last (s := u') (by rwa [hx, gx]) (by rwa [hy, gy]) (by rwa [hf, gf]), hcount]
    exact { h with activity := rfl, ending := rfl, idle := rfl, result := rfl, errinfo := nofun }

/-! ### The end of a block side by side -/

theorem State.Twins.blockWords (h : u.Twins cut m stash grouped u') (q : Selectors) : u'.blockWords q = u.blockWords q := by
  have palettes := h.palettes
  simp only [Prod.mk.injEq] at palettes
  obtain ⟨hce, hcs, hae, has⟩ := palettes
  have color : u'.walk.colorEndpointIndex = u.walk.colorEndpointIndex := h.indices .color
  have alpha0 : u'.walk.alpha0EndpointIndex = u.walk.alpha0EndpointIndex := h.indices .alpha0
  have alpha1 : u'.walk.alpha1EndpointIndex = u.walk.alpha1EndpointIndex := h.indices .alpha1
  simp only [State.blockWords, State.colorWords, State.alphaWords, h.cls_eq, hce, hcs, hae, has, color, alpha0, alpha1]

theorem State.Twins.emitted (h : u.Twins cut m stash grouped u') (ws : List Word) :
    (u.emitted ws).Twins cut m stash grouped (u'.emitted ws) := by
  obtain ⟨hcls, hf, hy, hx, hcount⟩ := h.walk_eq
  have addr : u'.walkAddr = u.walkAddr := by
    rw [State.walkAddr, State.walkAddr, hcls, hf, hy, hx, h.regs]
    rfl
  exact { h with
    mem := by
      show u'.mem.writeWords u'.walkAddr ws = _
      rw [addr, h.mem]
      rfl
    place := by
      show (u'.walk.cls, u'.walk.f, u'.walk.y, u'.walk.x, u'.walk.blocksWritten + 1) = _
      rw [hcls, hf, hy, hx, hcount]
      rfl
    indices := fun ch => by
      have same := h.indices ch
      cases ch <;> exact same }

/-- The checks, the emission and the move to the next place (rules R276, R277). -/
theorem State.Twins.endBlock_follows (h : u.Twins cut m (Stashed u.walk.y (u.walk.x + 1)) (u.walk.y % 2 = 0) u')
    (hact : u.activity = .walking) {q : Selectors} (hv : endBlock q u = .next v) :
    ∃ v', endBlock q u' = .next v' ∧ ((v.Abreast cut m v' ∧ v.activity = .walking) ∨ v.EndedAlike cut m v') := by
  obtain ⟨_, _, hy, hx, _⟩ := h.walk_eq
  have flag : u'.br.overrun = u.br.overrun := by rw [h.reader]
  have visible : u'.regs.visible u'.walk.y u'.walk.x = u.regs.visible u.walk.y u.walk.x := by
    rw [hy, hx, h.regs]
    rfl
  cases hover : u.br.overrun with
  | true =>
    rw [endBlock_of_overrun hover] at hv
    cases hv
    exact ⟨_, endBlock_of_overrun (flag.trans hover), .inr (h.raiseInWalk .streamOverrun 0)⟩
  | false =>
    cases hvis : u.regs.visible u.walk.y u.walk.x with
    | false =>
      rw [endBlock_of_padded hover hvis] at hv
      cases hv
      exact ⟨_, endBlock_of_padded (flag.trans hover) (visible.trans hvis), h.advance hact⟩
    | true =>
      cases hw : u.blockWords q with
      | error r =>
        rw [endBlock_of_refused hover hvis (State.emit_of_refused hw)] at hv
        cases hv
      | ok ws =>
        rw [endBlock_of_visible hover hvis (State.emit_of_words hw)] at hv
        cases hv
        have emits := State.emit_of_words ((h.blockWords q).trans hw)
        exact ⟨_, endBlock_of_visible (flag.trans hover) (visible.trans hvis) emits, (h.emitted ws).advance hact⟩

/-- The command has ended with an `EntropyError`. -/
def State.Starved (t : State) : Prop := t.activity = .idle ∧ ∃ c, t.ending = .raised c ∧ c.kind = .entropyError

/-- A block that has lost the stream ends the command (rules R276, R278). -/
theorem Res.Lost.starved {r : Res Selectors} (h : r.Lost) : ∃ v, endInWalk r endBlock = .next v ∧ v.Starved := by
  cases r with
  | refused x => exact h.elim
  | err c n u => exact ⟨_, rfl, rfl, c, rfl, h⟩
  | ok q u =>
    have hu : u.Lost := h
    exact ⟨_, endBlock_of_overrun (hu.exact.2 hu.past), rfl, _, rfl, rfl⟩

/-! ### The runs side by side -/

theorem State.Abreast.step (h : t.Abreast cut m t') (hact : t.activity = .walking) (hv : innerStep t = .next v) :
    ∃ v', innerStep t' = .next v' ∧
      ((v.Abreast cut m v' ∧ v.activity = .walking) ∨ v.EndedAlike cut m v' ∨ (cut ∧ v'.Starved)) := by
  have hact' : t'.activity = .walking := h.activity.trans hact
  have follows := h.blockBody_follows
  have prepares := blockBody_prepares t
  rw [innerStep_of_walking hact, walkStep, walkStepWith_eq hact] at hv
  rw [innerStep_of_walking hact', walkStep, walkStepWith_eq hact']
  have lost (hc : cut) (hl : (blockBody t').Lost) : ∃ v', endInWalk (blockBody t') endBlock = .next v' ∧
      ((v.Abreast cut m v' ∧ v.activity = .walking) ∨ v.EndedAlike cut m v' ∨ (cut ∧ v'.Starved)) := by
    obtain ⟨v', hv', starved⟩ := hl.starved
    exact ⟨v', hv', .inr (.inr ⟨hc, starved⟩)⟩
  cases hb : blockBody t with
  | refused r => rw [hb] at hv; cases hv
  | err c n u =>
    rw [hb] at hv follows
    cases hv
    rcases follows with ⟨u', hu', beside⟩ | ⟨hc, hl⟩
    · rw [hu']
      exact ⟨_, rfl, .inr (.inl (beside.raiseInWalk c n))⟩
    · exact lost hc hl
  | ok q u =>
    rw [hb] at hv follows prepares
    rcases follows with ⟨u', hu', twins⟩ | ⟨hc, hl⟩
    · have ready : t.Prepared u := prepares
      have place := ready.place
      simp only [Walker.place, Prod.mk.injEq] at place
      obtain ⟨_, _, hy, hx, _⟩ := place
      rw [← hy, ← hx] at twins
      rw [hu']
      obtain ⟨v', hv', goesOn⟩ := twins.endBlock_follows (ready.activity.trans hact) hv
      exact ⟨v', hv', goesOn.imp_right .inl⟩
    · exact lost hc hl

theorem State.Abreast.run {n : Nat} (h : t.Abreast cut m t') (hact : t.activity = .walking) (hw : runToIdle n t = .next w) :
    ∃ w', runToIdle n t' = .next w' ∧ (w.EndedAlike cut m w' ∨ (cut ∧ w'.Starved)) := by
  induction n generalizing t t' with
  | zero => rw [runToIdle, if_neg (by rw [hact]; decide)] at hw; cases hw
  | succ n ih =>
    have goesOn : t.activity ≠ .idle := by rw [hact]; decide
    have goesOn' : t'.activity ≠ .idle := by rw [h.activity]; exact goesOn
    cases hv : innerStep t with
    | fault x => exact absurd hv (innerStep_noFault t x)
    | refused r => simp only [runToIdle, if_neg goesOn, hv] at hw; cases hw
    | next v =>
      rw [runToIdle_succ goesOn hv] at hw
      obtain ⟨v', hv', outcome⟩ := h.step hact hv
      rw [runToIdle_succ goesOn' hv']
      rcases outcome with ⟨abreast, walking⟩ | ended | ⟨hc, starved⟩
      · exact ih abreast walking hw
      · rw [runToIdle_of_idle ended.idle] at hw
        cases hw
        exact ⟨v', runToIdle_of_idle (ended.activity.trans ended.idle), .inl ended⟩
      · exact ⟨v', runToIdle_of_idle starved.1, .inr ⟨hc, starved⟩⟩

/-- The starts of two walks of the same level (rules R261, R264, R267). -/
theorem State.unpackStart_abreast (hregs : s'.regs = { s.regs with srcLen := m })
    (palettes : (s'.palCE, s'.palCS, s'.palAE, s'.palAS) = (s.palCE, s.palCS, s.palAE, s.palAS)) (slots : s'.slots = s.slots)
    (mem : s'.mem = s.mem) (wide : 0 < s.regs.wb.toNat) (whole : ¬ cut → s.regs.srcLen = m)
    (short : cut → s.slotsBuilt ∧ m.toNat ≤ s.regs.srcLen.toNat) :
    (s.unpackStart k).Abreast cut m (s'.unpackStart k) where
  regs := hregs
  palettes := palettes
  slots := slots
  mem := mem
  activity := rfl
  ending := rfl
  place := rfl
  reader := by
    show ({ base := s'.regs.srcBase, len := s'.regs.srcLen, bitpos := 0, overrun := false, started := true, touched := false } : Reader) = _
    rw [hregs]
    rfl
  whole := whole
  short hc := ⟨(short hc).1, (short hc).2, Nat.zero_le _, rfl⟩
  column := by
    show 0 < roundUpEven s.regs.wb.toNat
    unfold roundUpEven
    omega
  indices ch := by cases ch <;> rfl
  group odd := absurd odd.2 (show ¬ 0 % 2 = 1 by decide)
  buffer x hx := by
    have hx : x < s.regs.wbp := hx
    have hx' : x < s'.regs.wbp := by rw [hregs]; exact hx
    show BufEntry.Alike _ _ (bufEntry (clearValid s.regs.wbp s.blockBuf) x) (bufEntry (clearValid s'.regs.wbp s'.blockBuf) x)
    rw [bufEntry_clearValid, bufEntry_clearValid, if_pos hx, if_pos hx']
    exact ⟨rfl, nofun, fun none => absurd none (Nat.not_lt_zero x)⟩

/-- `UNPACK` of the same level, accepted in both states, over the same source range or a shorter one. -/
theorem exec_unpack_abreast {cls : BitVec 4} (hk : argChecks s.regs cls = .ok k) (hk' : argChecks s'.regs cls = .ok k)
    (hd : s.hostDuties = none) (hd' : s'.hostDuties = none) (start : (s.unpackStart k).Abreast cut m (s'.unpackStart k))
    (hw : exec (.unpack cls) s = .next w) :
    ∃ w', exec (.unpack cls) s' = .next w' ∧ (w.EndedAlike cut m w' ∨ (cut ∧ w'.Starved)) := by
  rw [exec_unpack_of_accepted hk hd] at hw
  have count : s'.regs.blockCount = s.regs.blockCount := by
    have same : (s'.unpackStart k).regs.blockCount = (s.unpackStart k).regs.blockCount := by
      rw [start.regs]
      rfl
    exact same
  rw [exec_unpack_of_accepted hk' hd', count]
  exact start.run rfl hw

end

/-- Settles O47: the two walks go side by side, with the same range. -/
theorem unpackIsRepeatable : Obligations.UnpackIsRepeatable := by
  intro s s' t cls hregs hslots hmem hholes hce hcs hae has hplaces hbase hcfg ht
  have duties : s'.hostDuties = none ↔ s.hostDuties = none := by
    simp only [State.hostDuties_eq_none, State.inHole, State.paletteRanges, State.registerRanges, State.palettesMatch,
      hholes, hregs, hce, hcs, hae, has, hplaces, hbase, hcfg]
  rcases exec_unpack_cases s cls with ⟨c, hc, he⟩ | ⟨r, he⟩ | ⟨k, hk, hd, _⟩
  · rw [he] at ht
    cases ht
    refine ⟨_, exec_unpack_of_argError (hregs ▸ hc), ?_⟩
    rw [State.raiseArgs_eq, State.raiseArgs_eq]
    exact ⟨hmem, rfl, rfl, .inl ⟨c, hc⟩, fun _ _ => rfl⟩
  · rw [he] at ht
    cases ht
  · have wide := (Regs.accepted_of_argChecks hk).wbPos
    have start : (s.unpackStart k).Abreast False s.regs.srcLen (s'.unpackStart k) :=
      State.unpackStart_abreast hregs (by rw [hce, hcs, hae, has]) hslots hmem wide (fun _ => rfl) False.elim
    obtain ⟨t', ht', ended | ⟨none, _⟩⟩ := exec_unpack_abreast hk (hregs ▸ hk) hd (duties.2 hd) start ht
    · exact ⟨t', ht', ended.mem, ended.result, ended.ending, .inr (ended.sameStream id).2.1, ended.errinfo⟩
    · exact none.elim

/-! ### A range that is one byte shorter -/

/-- The state with the source range cut to `m` bytes. -/
def State.withSrcLen (s : State) (m : Word) : State := { s with regs := { s.regs with srcLen := m } }

section
variable {s : State} {m : Word} {k : FormatClass}

theorem argChecks_withSrcLen {cls : BitVec 4} (hm : m.toNat ≤ s.regs.srcLen.toNat) (h : argChecks s.regs cls = .ok k) :
    argChecks (s.withSrcLen m).regs cls = .ok k := by
  have accepted := Regs.accepted_of_argChecks h
  rw [argChecks_eq_ok_iff] at h ⊢
  refine ⟨h.1, ?_⟩
  have before : crosses32 s.regs.srcRange = false := crosses32_eq_false.2 accepted.src32
  have after : crosses32 (s.withSrcLen m).regs.srcRange = false :=
    crosses32_eq_false.2 ((Nat.add_le_add_left hm _).trans accepted.src32)
  have same := h.2
  unfold argErrorOf at same ⊢
  rw [after]
  rw [before] at same
  exact same

theorem rangesMeet_shorter {b n n' : Nat} {r : Nat × Nat} (hn : n' ≤ n) (h : rangesMeet (b, n) r = false) :
    rangesMeet (b, n') r = false := by
  rw [Bool.eq_false_iff, ne_eq, rangesMeet_eq_true] at h ⊢
  rintro ⟨i, hlo, hhi, hr⟩
  exact h ⟨i, hlo, by simp only at hhi ⊢; omega, hr⟩

theorem hostDuties_withSrcLen (hm : m.toNat ≤ s.regs.srcLen.toNat) (h : s.hostDuties = none) :
    (s.withSrcLen m).hostDuties = none := by
  rw [State.hostDuties_eq_none] at h ⊢
  obtain ⟨hsrc, hdst, hpal, hmeet, hhost, hmatch⟩ := h
  refine ⟨?_, hdst, hpal, ?_, hhost, hmatch⟩
  · simp only [State.inHole, List.any_eq_false, Bool.not_eq_true] at hsrc ⊢
    exact fun r hr => rangesMeet_shorter hm (hsrc r hr)
  · rw [someMeet_eq_false, List.pairwise_cons] at hmeet ⊢
    exact ⟨fun r hr => rangesMeet_shorter hm (hmeet.1 r hr), hmeet.2⟩

end

/-- Settles O48: the walk over the shorter range goes beside the other one until it misses the last byte. -/
theorem truncatedLevelFails : Obligations.TruncatedLevelFails := by
  intro s t cls built hpos ht hdone hpast
  have less : (s.regs.srcLen - 1).toNat = s.regs.srcLen.toNat - 1 := by bv_omega
  rcases exec_unpack_cases s cls with ⟨c, _, he⟩ | ⟨r, he⟩ | ⟨k, hk, hd, _⟩
  · cases he.symm.trans ht
    cases hdone
  · cases he.symm.trans ht
  · have hm : (s.regs.srcLen - 1).toNat ≤ s.regs.srcLen.toNat := by omega
    have wide := (Regs.accepted_of_argChecks hk).wbPos
    have start : (s.unpackStart k).Abreast True (s.regs.srcLen - 1) ((s.withSrcLen (s.regs.srcLen - 1)).unpackStart k) :=
      State.unpackStart_abreast rfl rfl rfl rfl wide (fun h => absurd trivial h) fun _ => ⟨built, hm⟩
    obtain ⟨t', ht', ended | ⟨_, _, c, hc, kind⟩⟩ :=
      exec_unpack_abreast hk (argChecks_withSrcLen hm hk) hd (hostDuties_withSrcLen hm hd) start ht
    · obtain ⟨_, _, inside, _⟩ := ended.short trivial
      have len : t'.br.rangeLen ≤ s.regs.srcLen.toNat - 1 := by
        rw [ended.reader, Reader.rangeLen, ← less]
        split
        · exact le_rfl
        · exact Nat.zero_le _
      omega
    · exact ⟨t', c, ht', hc, kind⟩

end Sys2Proof.Machine
end

