-- ==== Sys2Proof/Proofs/UniformLevels.lean ====
section
/-! O44: a level of one-symbol models over a source of zeros: every `Decode` answers 0 and takes one bit, so every block is the same
(rules R210, R261, R271, R275, R279). -/

namespace Sys2Proof.Machine

/-! ### One-symbol models over zeros -/

/-- Every bit of the stream is 0. -/
def State.ReadsZeros (t : State) : Prop := ∀ i, t.streamBit i = .ok false

/-- The model of an alphabet of one symbol. -/
def oneSymbol : Model := ⟨[1]⟩

theorem oneSymbol_decodeBits : oneSymbol.decodeBits 0 = .ok (0, 1) := by decide

section
variable {s t u : State} {k : FormatClass}

theorem State.ReadsZeros.peekBits (h : t.ReadsZeros) (n : Nat) : t.peekBits n = .ok 0 := by
  rw [State.peekBits, State.bitsAt_eq_sum h]
  simp

theorem State.ReadsZeros.decode (h : t.ReadsZeros) {j : SlotId} (hj : t.slot j = some oneSymbol) :
    t.decodeSymbol j = .ok 0 (t.consume 1) :=
  State.decodeSymbol_eq_ok.2 ⟨oneSymbol, 0, 1, hj, h.peekBits 16, oneSymbol_decodeBits, rfl⟩

/-- What every block of the level reads is 0. -/
structure State.ZeroLevel (k : FormatClass) (t : State) : Prop where
  zeros : t.ReadsZeros
  cls : t.walk.cls = k
  ref : t.slot .ref = some oneSymbol
  channels : ∀ ch ∈ k.channels, t.slot ch.deltaSlot = some oneSymbol ∧ t.slot ch.selectorSlot = some oneSymbol
  selectors : ∀ ch ∈ k.channels, 0 < t.regs.selectorCount ch

/-- In a zero level at stream position `pos`, with the accumulators 0, the codes stashed for the columns `stash` 0, and the
reference group 0 where it will be read. -/
structure State.Cleared (k : FormatClass) (stash : Nat → Prop) (grouped : Prop) (pos : Nat) (t : State) : Prop
    extends t.ZeroLevel k where
  column : t.walk.x < t.regs.wbp
  indices : ∀ ch, t.walk.index ch = 0
  group : grouped → t.walk.referenceGroup = 0
  codes : ∀ x < t.regs.wbp, stash x → (bufEntry t.blockBuf x).endpointReference = 0
  position : t.br.bitpos = pos

variable {stash stash' : Nat → Prop} {grouped grouped' : Prop} {pos : Nat}

namespace State.Cleared

theorem mono (h : t.Cleared k stash grouped pos) (hst : ∀ x < t.regs.wbp, stash' x → stash x) (hg : grouped' → grouped) :
    t.Cleared k stash' grouped' pos :=
  { h with group := fun hr => h.group (hg hr), codes := fun x hx hs => h.codes x hx (hst x hx hs) }

theorem consume (h : t.Cleared k stash grouped pos) (n : Nat) : (t.consume n).Cleared k stash grouped (pos + n) :=
  { h with position := congrArg (· + n) h.position }

theorem setAccumulator (h : t.Cleared k stash grouped pos) (ch : Channel) :
    (t.setAccumulator ch 0).Cleared k stash grouped pos :=
  { h with
    cls := by simpa using h.cls
    column := by simpa using h.column
    indices := fun d => by
      rw [State.setAccumulator_walk, Walker.index_setIndex, h.indices d, ite_self]
    group := fun hg => by
      have group := h.group hg
      cases ch <;> exact group
    codes := by simpa using h.codes }

theorem setEntry (h : t.Cleared k stash grouped pos) {e : BufEntry} (he : stash' t.walk.x → e.endpointReference = 0)
    (hst : ∀ x ≠ t.walk.x, stash' x → stash x) : (t.setEntry e).Cleared k stash' grouped pos :=
  { h with
    codes := fun x hx hs => by
      rw [State.bufEntry_setEntry]
      split
      · next hxx => subst hxx; exact he hs
      · next hxx => exact h.codes x hx (hst x hxx hs) }

theorem addDelta (h : t.Cleared k stash grouped pos) (ch : Channel) : (t.addDelta ch 0).Cleared k stash grouped pos := by
  rw [State.addDelta, h.indices, Nat.zero_mod]
  exact (h.setAccumulator ch).setEntry (fun hs => by simpa [State.entry] using h.codes _ h.column (by simpa using hs)) fun _ _ => id

theorem markValid (h : t.Cleared k stash grouped pos) : t.markValid.Cleared k stash grouped pos :=
  h.setEntry (fun hs => h.codes _ h.column hs) fun _ _ => id

theorem newIndices_ok (h : t.Cleared k stash grouped pos) {chs : List Channel} (hsub : chs ⊆ k.channels) :
    ∃ u, newIndices chs t = .ok () u ∧ u.Cleared k stash grouped (pos + chs.length) := by
  induction chs generalizing t pos with
  | nil => exact ⟨t, rfl, h⟩
  | cons ch chs ih =>
    have step := (h.consume 1).addDelta ch
    obtain ⟨u, hu, cleared⟩ := ih step fun _ hc => hsub (List.mem_cons_of_mem _ hc)
    refine ⟨u, ?_, ?_⟩
    · rw [newIndices_cons_of_ok (h.zeros.decode (h.channels ch (hsub List.mem_cons_self)).1), hu]
    · rwa [List.length_cons, Nat.add_comm chs.length, ← Nat.add_assoc]

theorem refNew_ok (h : t.Cleared k stash grouped pos) :
    ∃ u, runCode .refNew t = .ok () u ∧ u.Cleared k stash grouped (pos + k.channels.length) := by
  obtain ⟨u, hu, cleared⟩ := h.newIndices_ok (List.Subset.refl _)
  exact ⟨u.markValid, by simp only [runCode, h.cls, hu, Res.ok_andThen], cleared.markValid⟩

theorem readSelectors_ok (h : t.Cleared k stash grouped pos) {chs : List Channel} (hsub : chs ⊆ k.channels) :
    ∃ u, readSelectors chs {} t = .ok {} u ∧ u.Cleared k stash grouped (pos + chs.length) := by
  induction chs generalizing t pos with
  | nil => exact ⟨t, rfl, h⟩
  | cons ch chs ih =>
    obtain ⟨u, hu, cleared⟩ := ih (h.consume 1) fun _ hc => hsub (List.mem_cons_of_mem _ hc)
    have mem := hsub (List.mem_cons_self (a := ch) (l := chs))
    have zero : (({} : Selectors).set ch 0) = {} := by cases ch <;> rfl
    refine ⟨u, ?_, ?_⟩
    · rw [readSelectors_cons_of_ok (h.zeros.decode (h.channels ch mem).2) (h.selectors ch mem), zero, hu]
    · rwa [List.length_cons, Nat.add_comm chs.length, ← Nat.add_assoc]

theorem evenRowCode (h : t.Cleared k (Stashed t.walk.y t.walk.x) True pos) (hy : t.walk.y % 2 = 0) :
    t.evenRowCode.1 = .refNew ∧ t.evenRowCode.2.Cleared k (Stashed t.walk.y (t.walk.x + 1)) True pos := by
  have others : ∀ x ≠ t.walk.x, Stashed t.walk.y (t.walk.x + 1) x → Stashed t.walk.y t.walk.x x := by
    intro x hx
    simp only [Stashed, if_pos hy]
    omega
  unfold State.evenRowCode
  rw [h.group trivial]
  split
  · exact ⟨rfl, h.setEntry (fun _ => rfl) others⟩
  · exact ⟨rfl, h.setEntry (fun _ => rfl) others⟩

end State.Cleared

/-- One reference byte is read for each group of four blocks, at its first one (rule R268). -/
def groupBit (y x : Nat) : Nat := if y % 2 = 0 ∧ x % 2 = 0 then 1 else 0

/-- Before a block of the level, at stream position `pos`. -/
def State.AtZeroBlock (k : FormatClass) (pos : Nat) (t : State) : Prop :=
  t.Cleared k (Stashed t.walk.y t.walk.x) (t.walk.y % 2 = 0 ∧ t.walk.x % 2 = 1) pos

theorem State.AtZeroBlock.fetchRef_ok (h : t.AtZeroBlock k pos) :
    ∃ u, fetchRef t = .ok .refNew u ∧
      u.Cleared k (Stashed t.walk.y (t.walk.x + 1)) (t.walk.y % 2 = 0) (pos + groupBit t.walk.y t.walk.x) := by
  have h : t.Cleared k (Stashed t.walk.y t.walk.x) (t.walk.y % 2 = 0 ∧ t.walk.x % 2 = 1) pos := h
  unfold groupBit fetchRef
  by_cases hy : t.walk.y % 2 = 0
  · rw [if_pos hy]
    by_cases hx : t.walk.x % 2 = 0
    · have read : ((t.consume 1).setReferenceGroup 0).Cleared k (Stashed t.walk.y t.walk.x) True (pos + 1) :=
        { h.consume 1 with group := fun _ => rfl }
      obtain ⟨code, cleared⟩ := State.Cleared.evenRowCode (t := (t.consume 1).setReferenceGroup 0) read hy
      refine ⟨((t.consume 1).setReferenceGroup 0).evenRowCode.2, ?_, ?_⟩
      · rw [if_pos hx, readReferenceByte, h.zeros.decode h.ref, Res.ok_andThen, if_neg (by decide), Res.ok_andThen, ← code]
        rfl
      · rw [if_pos ⟨hy, hx⟩]
        exact cleared.mono (fun _ _ => id) fun _ => trivial
    · obtain ⟨code, cleared⟩ := (h.mono (grouped' := True) (fun _ _ => id) fun _ => ⟨hy, by omega⟩).evenRowCode hy
      refine ⟨_, by rw [if_neg hx, code], ?_⟩
      rw [if_neg (fun both => hx both.2)]
      exact cleared.mono (fun _ _ => id) fun _ => trivial
  · have here : Stashed t.walk.y t.walk.x t.walk.x := by rw [Stashed, if_neg hy]
    refine ⟨t, ?_, ?_⟩
    · rw [if_neg hy, State.entry, h.codes _ h.column here]
      rfl
    · rw [if_neg (fun both => hy both.1)]
      refine h.mono (fun x _ => ?_) fun heven => absurd heven hy
      rw [Stashed, Stashed, if_neg hy, if_neg hy]
      omega

/-- A block of the level: a delta and a selector for each channel of the class, and all are 0. -/
theorem State.AtZeroBlock.blockBody_ok (h : t.AtZeroBlock k pos) :
    ∃ u, blockBody t = .ok {} u ∧ u.Cleared k (Stashed t.walk.y (t.walk.x + 1)) (t.walk.y % 2 = 0)
      (pos + groupBit t.walk.y t.walk.x + 2 * k.channels.length) := by
  obtain ⟨a, ha, fetched⟩ := h.fetchRef_ok
  obtain ⟨b, hb, ran⟩ := fetched.refNew_ok
  obtain ⟨c, hc, selected⟩ := ran.readSelectors_ok (List.Subset.refl _)
  refine ⟨c, ?_, ?_⟩
  · rw [blockBody, ha, Res.ok_andThen, hb, Res.ok_andThen, ran.cls, hc]
  · rwa [Nat.add_assoc _ k.channels.length, ← Nat.two_mul] at selected

end
end Sys2Proof.Machine
end

