-- ==== Sys2Proof/Proofs/UniformRuns.lean ====
section
/-! O44: the stream position at every block of a uniform level, and the run of its `UNPACK` (rules R261, R265, R268, R277, R279). -/

namespace Sys2Proof.Machine

/-! ### The stream position at a block -/

/-- The reference bytes read before the block at `(f, y, x)`: one for each group of four blocks (rule R268). -/
def Regs.groupsBefore (r : Regs) (f y x : Nat) : Nat :=
  f * (r.hbp / 2 * (r.wbp / 2)) + (y + 1) / 2 * (r.wbp / 2) + if y % 2 = 0 then (x + 1) / 2 else 0

section
variable {r : Regs} {f y x : Nat}

theorem Regs.wbp_even (r : Regs) : r.wbp % 2 = 0 := roundUpEven_even _
theorem Regs.hbp_even (r : Regs) : r.hbp % 2 = 0 := roundUpEven_even _

theorem Regs.groupsBefore_column (r : Regs) (f y x : Nat) :
    r.groupsBefore f y (x + 1) = r.groupsBefore f y x + groupBit y x := by
  unfold Regs.groupsBefore groupBit
  by_cases hy : y % 2 = 0
  · simp only [hy, if_true, true_and]
    split <;> omega
  · simp only [hy, if_false, false_and]

theorem Regs.groupsBefore_row (hx : x + 1 = r.wbp) : r.groupsBefore f (y + 1) 0 = r.groupsBefore f y x + groupBit y x := by
  have even := r.wbp_even
  unfold Regs.groupsBefore groupBit
  rw [if_neg (c := y % 2 = 0 ∧ x % 2 = 0) (by omega)]
  by_cases hy : y % 2 = 0
  · rw [if_pos hy, if_neg (by omega), show (y + 1 + 1) / 2 = (y + 1) / 2 + 1 by omega, Nat.succ_mul, hx]
    omega
  · rw [if_neg hy, if_pos (by omega), show (y + 1 + 1) / 2 = (y + 1) / 2 by omega]

theorem Regs.groupsBefore_face (hx : x + 1 = r.wbp) (hy : y + 1 = r.hbp) :
    (f + 1) * (r.hbp / 2 * (r.wbp / 2)) = r.groupsBefore f y x + groupBit y x := by
  have even := r.hbp_even
  rw [← Regs.groupsBefore_row hx, Regs.groupsBefore, hy, if_pos even, show (r.hbp + 1) / 2 = r.hbp / 2 by omega, Nat.succ_mul]
  rfl

theorem Regs.groupsBefore_le (hf : f < r.faces.toNat) (hy : y < r.hbp) (hx : x < r.wbp) :
    r.groupsBefore f y x + groupBit y x ≤ r.faces.toNat * (r.hbp / 2 * (r.wbp / 2)) := by
  have evenX := r.wbp_even
  have evenY := r.hbp_even
  have rows : (y + 1) / 2 * (r.wbp / 2) + ((if y % 2 = 0 then (x + 1) / 2 else 0) + groupBit y x) ≤
      r.hbp / 2 * (r.wbp / 2) := by
    unfold groupBit
    by_cases heven : y % 2 = 0
    · have row : (y + 1) / 2 + 1 ≤ r.hbp / 2 := by omega
      have column : (x + 1) / 2 + (if x % 2 = 0 then 1 else 0) ≤ r.wbp / 2 := by split <;> omega
      simp only [heven, if_true, true_and]
      calc (y + 1) / 2 * (r.wbp / 2) + ((x + 1) / 2 + if x % 2 = 0 then 1 else 0)
          ≤ ((y + 1) / 2 + 1) * (r.wbp / 2) := by rw [Nat.succ_mul]; omega
        _ ≤ _ := Nat.mul_le_mul_right _ row
    · simp only [heven, if_false, false_and, Nat.add_zero]
      exact Nat.mul_le_mul_right _ (by omega)
  calc r.groupsBefore f y x + groupBit y x
      ≤ f * (r.hbp / 2 * (r.wbp / 2)) + r.hbp / 2 * (r.wbp / 2) := by rw [Regs.groupsBefore]; omega
    _ = (f + 1) * (r.hbp / 2 * (r.wbp / 2)) := (Nat.succ_mul ..).symm
    _ ≤ _ := Nat.mul_le_mul_right _ hf

theorem Regs.groups_eq (r : Regs) : r.faces.toNat * (r.hbp / 2 * (r.wbp / 2)) = r.blockCount / 4 := by
  have evenX : 2 * (r.wbp / 2) = r.wbp := Nat.mul_div_cancel' (Nat.dvd_of_mod_eq_zero r.wbp_even)
  have evenY : 2 * (r.hbp / 2) = r.hbp := Nat.mul_div_cancel' (Nat.dvd_of_mod_eq_zero r.hbp_even)
  have count : r.blockCount = r.faces.toNat * (r.hbp / 2 * (r.wbp / 2)) * 4 := by
    calc r.blockCount = r.faces.toNat * (2 * (r.hbp / 2)) * (2 * (r.wbp / 2)) := by rw [evenX, evenY, Regs.blockCount]
      _ = _ := by ring
  rw [count, Nat.mul_div_cancel _ (by norm_num)]

end

/-- The bits before the walker's block, with `n` channels: a bit for each reference byte, delta and selector. -/
def State.levelPos (n : Nat) (t : State) : Nat :=
  t.regs.groupsBefore t.walk.f t.walk.y t.walk.x + t.walkRank * (2 * n)

/-- The bits of the whole level. -/
def Regs.levelBits (r : Regs) (n : Nat) : Nat := r.blockCount / 4 + r.blockCount * (2 * n)

section
variable {s t u : State} {k : FormatClass}

/-- No block reads past the bits of the level. -/
theorem State.InGrid.levelPos_le (h : u.InGrid) (n : Nat) :
    u.levelPos n + groupBit u.walk.y u.walk.x + 2 * n ≤ u.regs.levelBits n := by
  have groups := Regs.groupsBefore_le h.1 h.2.1 h.2.2
  have rank : (u.walkRank + 1) * (2 * n) ≤ u.regs.blockCount * (2 * n) := Nat.mul_le_mul_right _ h.walkRank_lt
  rw [Regs.groups_eq] at groups
  rw [Nat.succ_mul] at rank
  rw [State.levelPos, Regs.levelBits]
  omega

/-- The next block's position is behind the bits of this one, and so is the end of the level. -/
theorem State.InGrid.advance_levelPos (h : u.InGrid) (n : Nat) :
    (u.advance.activity = u.activity ∧ u.advance.levelPos n = u.levelPos n + groupBit u.walk.y u.walk.x + 2 * n) ∨
    (u.advance.activity = .idle ∧ u.regs.levelBits n = u.levelPos n + groupBit u.walk.y u.walk.x + 2 * n) := by
  obtain ⟨hf, hy, hx⟩ := h
  by_cases column : u.walk.x + 1 < u.regs.wbp
  · left
    rw [State.advance_column column]
    refine ⟨rfl, ?_⟩
    simp only [State.levelPos, State.walkRank, Regs.groupsBefore_column]
    ring
  have lastColumn : u.walk.x + 1 = u.regs.wbp := by omega
  by_cases row : u.walk.y + 1 < u.regs.hbp
  · left
    rw [State.advance_row column row]
    refine ⟨rfl, ?_⟩
    simp only [State.levelPos, State.walkRank, Regs.groupsBefore_row lastColumn, ← lastColumn]
    ring
  have lastRow : u.walk.y + 1 = u.regs.hbp := by omega
  have groups := Regs.groupsBefore_face (f := u.walk.f) lastColumn lastRow
  by_cases face : u.walk.f + 1 < u.regs.faces.toNat
  · left
    rw [State.advance_face column row face]
    refine ⟨rfl, ?_⟩
    have none : u.regs.groupsBefore (u.walk.f + 1) 0 0 = (u.walk.f + 1) * (u.regs.hbp / 2 * (u.regs.wbp / 2)) := by
      simp [Regs.groupsBefore]
    show u.regs.groupsBefore (u.walk.f + 1) 0 0 + (((u.walk.f + 1) * u.regs.hbp + 0) * u.regs.wbp + 0) * (2 * n) = _
    rw [none, groups, State.levelPos, State.walkRank, ← lastColumn, ← lastRow]
    ring
  · right
    rw [State.advance_last column row face]
    refine ⟨rfl, ?_⟩
    have lastFace : u.walk.f + 1 = u.regs.faces.toNat := by omega
    rw [Regs.levelBits, ← Regs.groups_eq, ← lastFace, groups, State.levelPos, State.walkRank, Regs.blockCount, ← lastFace,
      ← lastColumn, ← lastRow]
    ring

/-! ### The run -/

variable {pos : Nat} {ws : List Word}

/-- The next block reads what this one has stashed (rules R268 to R270). -/
theorem State.Cleared.advance
    (h : u.Cleared k (Stashed u.walk.y (u.walk.x + 1)) (u.walk.y % 2 = 0) pos) (goesOn : u.advance.activity = .walking) :
    u.advance.AtZeroBlock k pos := by
  have wide : 0 < u.regs.wbp := Nat.zero_lt_of_lt h.column
  have even := u.regs.wbp_even
  by_cases column : u.walk.x + 1 < u.regs.wbp
  · rw [State.advance_column column]
    exact State.Cleared.mono (t := { u with walk := { u.walk with x := u.walk.x + 1 } })
      { h with column := column, indices := fun ch => by have zero := h.indices ch; cases ch <;> exact zero }
      (fun _ _ => id) And.left
  by_cases row : u.walk.y + 1 < u.regs.hbp
  · rw [State.advance_row column row]
    refine State.Cleared.mono (t := { u with walk := { u.walk with x := 0, y := u.walk.y + 1 } })
      { h with column := wide, indices := fun ch => by have zero := h.indices ch; cases ch <;> exact zero }
      (fun x hx => ?_) fun odd => absurd odd.2 (show ¬ 0 % 2 = 1 by decide)
    have hx : x < u.regs.wbp := hx
    simp only [Stashed]
    split <;> split <;> omega
  by_cases face : u.walk.f + 1 < u.regs.faces.toNat
  · rw [State.advance_face column row face]
    exact { h with
      column := wide
      indices := State.faceReset_index _
      group := fun odd => absurd odd.2 (show ¬ 0 % 2 = 1 by decide)
      codes := fun x _ none => absurd none (Nat.not_lt_zero x) }
  · rw [State.advance_last column row face] at goesOn
    cases goesOn

/-- The words of every block of the level: the first palette entries (rules R302 to R306). -/
def State.firstWords (s : State) (k : FormatClass) : Except Refusal (List Word) :=
  State.blockWords { s with walk := { Walker.reset with cls := k } } {}

theorem State.Cleared.blockWords {stash : Nat → Prop} {grouped : Prop} (h : u.Cleared k stash grouped pos)
    (host : u.hostSide = s.hostSide) : u.blockWords {} = s.firstWords k := by
  simp only [State.hostSide, Prod.mk.injEq] at host
  obtain ⟨_, _, _, hce, hcs, hae, has, _⟩ := host
  have color : u.walk.colorEndpointIndex = 0 := h.indices .color
  have alpha0 : u.walk.alpha0EndpointIndex = 0 := h.indices .alpha0
  have alpha1 : u.walk.alpha1EndpointIndex = 0 := h.indices .alpha1
  simp only [State.firstWords, State.blockWords, State.colorWords, State.alphaWords, h.cls, hce, hcs, hae, has, color, alpha0,
    alpha1, Walker.reset]

/-- The level of `UniformLevelUnpacks`. -/
structure State.UniformLevel (s : State) (k : FormatClass) : Prop extends s.WalkReady k where
  ref : s.slot .ref = some oneSymbol
  channels : ∀ ch ∈ k.channels, s.slot ch.deltaSlot = some oneSymbol ∧ s.slot ch.selectorSlot = some oneSymbol
  zeros : ∀ j < s.regs.srcLen.toNat, Memory.read s.mem (s.regs.srcBase.toNat + j) = some 0
  fits : s.regs.levelBits k.channels.length ≤ 8 * s.regs.srcLen.toNat

theorem State.WalkFrame.reader (h : s.WalkFrame k t) : t.br.base = s.regs.srcBase ∧ t.br.touched = false ∧
    t.br.rangeLen = s.regs.srcLen.toNat := by
  have range := h.range
  simp only [Reader.range, Prod.mk.injEq] at range
  obtain ⟨base, len, started, touched⟩ := range
  exact ⟨base, touched, by rw [Reader.rangeLen, started, if_pos rfl, len]⟩

/-- The walk writes into no source byte (rule R389), so the stream stays zeros. -/
theorem State.WalkFrame.zeroLevel (h : s.WalkFrame k t) (level : s.UniformLevel k) : t.ZeroLevel k where
  zeros i := by
    obtain ⟨base, touched, len⟩ := h.reader
    rcases Nat.lt_or_ge (i / 8) t.br.rangeLen with hi | hi
    · have hj : i / 8 < s.regs.srcLen.toNat := len ▸ hi
      have kept : Memory.read t.mem (s.regs.srcBase.toNat + i / 8) = some 0 := by
        rw [h.changed _ fun f y x hc _ => ?_, level.zeros _ hj]
        refine (not_both_of_apart (level.apart.src f hc.face) ⟨?_, ?_⟩ (hc.inFace level.accepted)).elim
        · exact Nat.le_add_right ..
        · exact Nat.add_lt_add_left hj _
      rw [State.streamBit_of_read hi touched (by rw [base]; exact kept)]
      simp
    · exact State.streamBit_past hi
  cls := h.cls
  ref := by rw [State.slot, h.slots]; exact level.ref
  channels ch hch := by rw [State.slot, State.slot, h.slots]; exact level.channels ch hch
  selectors ch hch := by rw [h.regs]; exact level.accepted.selectors ch hch

/-- Before a block of the level, with the words `ws` in every visible block before it. -/
structure State.Uniform (s : State) (k : FormatClass) (ws : List Word) (t : State) : Prop extends s.Walking k t where
  cleared : t.AtZeroBlock k (t.levelPos k.channels.length)
  blocks : s.regs.HoldsBlocks k (· = ws) t.walk.blocksWritten t.mem

/-- The level has been unpacked. -/
structure State.UniformEnd (s : State) (k : FormatClass) (ws : List Word) (t : State) : Prop extends s.Unpacked k t where
  done : t.ending = .done
  position : t.br.bitpos = s.regs.levelBits k.channels.length
  blocks : s.regs.HoldsBlocks k (· = ws) t.walk.blocksWritten t.mem

theorem State.advance_br (t : State) : t.advance.br = t.br := by
  unfold State.advance
  split_ifs <;> rfl

theorem State.advance_done (hact : u.activity = .walking) (h : u.advance.activity = .idle) : u.advance.ending = .done := by
  unfold State.advance at h ⊢
  split_ifs at h ⊢
  · exact nomatch hact.symm.trans h
  · exact nomatch hact.symm.trans h
  · exact nomatch hact.symm.trans h
  · rfl

/-- After a block of the level the run goes on with the next one, or has ended. -/
theorem State.Uniform.goesOn (h : s.Uniform k ws t) (level : s.UniformLevel k) (hstep : innerStep t = .next u.advance)
    (hin : u.activity = .walking ∧ u.regs = s.regs ∧ u.InGrid)
    (cleared : u.Cleared k (Stashed u.walk.y (u.walk.x + 1)) (u.walk.y % 2 = 0)
      (u.levelPos k.channels.length + groupBit u.walk.y u.walk.x + 2 * k.channels.length))
    (blocks : s.regs.HoldsBlocks k (· = ws) u.walk.blocksWritten u.mem) :
    (s.Uniform k ws u.advance ∧ u.advance.walkRank = t.walkRank + 1) ∨ s.UniformEnd k ws u.advance := by
  obtain ⟨hact, hregs, grid⟩ := hin
  obtain ⟨hmem, hcount⟩ := u.advance_mem
  have held : s.regs.HoldsBlocks k (· = ws) u.advance.walk.blocksWritten u.advance.mem := by rw [hmem, hcount]; exact blocks
  rcases h.toWalking.step level.toWalkReady with ⟨_, r, hr⟩ | ⟨v, hv, _, outcome⟩
  · exact nomatch hr.symm.trans hstep
  obtain rfl : v = u.advance := by
    have same := hv.symm.trans hstep
    cases same
    rfl
  rcases outcome with ⟨walking, rank⟩ | ended
  · left
    refine ⟨{ walking with cleared := ?_, blocks := held }, rank⟩
    rcases grid.advance_levelPos k.channels.length with ⟨_, hpos⟩ | ⟨hidle, _⟩
    · rw [hpos]
      exact cleared.advance walking.inBlock.walking
    · exact nomatch hidle.symm.trans walking.inBlock.walking
  · right
    refine { ended with done := State.advance_done hact ended.idle, position := ?_, blocks := held }
    rcases grid.advance_levelPos k.channels.length with ⟨hgo, _⟩ | ⟨_, hpos⟩
    · exact nomatch (hgo.trans hact).symm.trans ended.idle
    · rw [State.advance_br, cleared.position, ← hpos, hregs]

/-- One block of the level: it reads zeros within the range and is written if it is visible. -/
theorem State.Uniform.step (h : s.Uniform k ws t) (level : s.UniformLevel k) (first : s.firstWords k = .ok ws) :
    ∃ v, innerStep t = .next v ∧ ((s.Uniform k ws v ∧ v.walkRank = t.walkRank + 1) ∨ s.UniformEnd k ws v) := by
  have hact := h.inBlock.walking
  obtain ⟨u, hu, cleared⟩ := h.cleared.blockBody_ok
  have ends := blockBody_endsBlock t
  rw [hu] at ends
  have atEnd : t.AtEnd {} u := ends
  obtain ⟨frame, hin, _, _, vs, hvs, class_, hlen⟩ := h.toWalking.atEnd level.toWalkReady atEnd
  obtain rfl : vs = ws := by
    rw [cleared.blockWords frame.host, first] at hvs
    cases hvs
    rfl
  have place := atEnd.prepared.place
  simp only [Walker.place, Prod.mk.injEq] at place
  obtain ⟨_, hf, hy, hx, hcount⟩ := place
  have samePos : t.levelPos k.channels.length = u.levelPos k.channels.length := by
    rw [State.levelPos, State.levelPos, atEnd.prepared.walkRank, atEnd.prepared.regs, hf, hy, hx]
  rw [samePos, ← hy, ← hx] at cleared
  have inside : u.br.overrun = false := by
    have bound := (hin.inGrid'.levelPos_le k.channels.length).trans (hin.regs ▸ level.fits)
    refine Bool.eq_false_iff.2 fun past => Nat.not_lt.2 bound ?_
    rw [← cleared.position, hin.regs, ← frame.reader.2.2]
    exact frame.exact.1 past
  have held : s.regs.HoldsBlocks k (· = vs) u.walk.blocksWritten u.mem := by
    rw [hcount, atEnd.prepared.mem]
    exact h.blocks
  have steps : innerStep t = endBlock {} u := by
    rw [innerStep_of_walking hact, walkStep, walkStepWith_eq hact, hu]
    rfl
  cases hvis : u.regs.visible u.walk.y u.walk.x with
  | false =>
    have step := steps.trans (endBlock_of_padded inside hvis)
    exact ⟨_, step, h.goesOn level step ⟨hin.walking, hin.regs, hin.inGrid'⟩ cleared held⟩
  | true =>
    have step : innerStep t = .next (u.emitted vs).advance :=
      steps.trans (endBlock_of_visible inside hvis (State.emit_of_words ((cleared.blockWords frame.host).trans first)))
    have shown := Regs.visible_eq_true.1 (hin.regs ▸ hvis)
    have emitted := frame.emitted level.toWalkReady hin shown class_ hlen
    have grid : (u.emitted vs).InGrid := hin.inGrid'
    refine ⟨_, step, h.goesOn level step ⟨hin.walking, hin.regs, grid⟩ ?_ ?_⟩
    · exact { cleared with
        zeros := (emitted.zeroLevel level).zeros
        indices := fun ch => by have zero := cleared.indices ch; cases ch <;> exact zero }
    · exact hin.holdsBlocks_emitted frame.cls level.toWalkReady shown rfl hlen held

theorem State.Uniform.run (h : s.Uniform k ws t) (level : s.UniformLevel k) (first : s.firstWords k = .ok ws) {n : Nat}
    (hn : t.blocksLeft ≤ n) : ∃ v, runToIdle n t = .next v ∧ s.UniformEnd k ws v := by
  refine (runToIdle_cases (P := s.Uniform k ws) (Q := s.UniformEnd k ws) (R := False) State.blocksLeft (fun v hv => ?_) h hn).resolve_left
    fun refused => refused.1
  have left := hv.inBlock.inGrid'.walkRank_lt
  refine ⟨by rw [hv.inBlock.walking]; decide, Nat.sub_pos_of_lt left, .inr ?_⟩
  obtain ⟨w, hw, outcome⟩ := hv.step level first
  refine ⟨w, hw, outcome.imp (fun go => ⟨go.1, ?_⟩) fun ended => ⟨ended.idle, ended⟩⟩
  rw [State.blocksLeft, State.blocksLeft, go.1.inBlock.regs, hv.inBlock.regs, go.2]
  rw [hv.inBlock.regs] at left
  omega

theorem State.unpackStart_uniform {cls : BitVec 4} (hk : argChecks s.regs cls = .ok k) (level : s.UniformLevel k) :
    s.Uniform k ws (s.unpackStart k) := by
  have walking := State.unpackStart_walking (s := s) hk
  have start : (s.unpackStart k).levelPos k.channels.length = 0 := by
    simp [State.levelPos, State.walkRank, Regs.groupsBefore, State.unpackStart, State.startWalk, State.faceReset]
  refine { walking with cleared := ?_, blocks := fun _ _ _ _ _ _ none => absurd none (Nat.not_lt_zero _) }
  rw [start]
  exact { walking.zeroLevel level with
    column := walking.inBlock.inGrid.2.2
    indices := State.faceReset_index _
    group := fun odd => absurd odd.2 (show ¬ 0 % 2 = 1 by decide)
    codes := fun x _ none => absurd none (Nat.not_lt_zero x)
    position := rfl }

/-- The first palette entries exist, so every block has its words (rules R262, R302 to R306). -/
theorem State.UniformLevel.firstWords_ok (level : s.UniformLevel k) : ∃ ws, s.firstWords k = .ok ws := by
  obtain ⟨ws, hws, _⟩ := State.blockWords_inRange (s := { s with walk := { Walker.reset with cls := k } }) (q := {})
    level.palettes
    (fun ch hch => by have some := level.accepted.endpoints ch hch; cases ch <;> exact some)
    fun ch hch => by have some := level.accepted.selectors ch hch; cases ch <;> exact some
  exact ⟨ws, hws⟩

end

/-- Settles O44: every block is the one of zeros; at the end all visible blocks are before the count, and the position is behind
the bits of all blocks. -/
theorem uniformLevelUnpacks : Obligations.UniformLevelUnpacks := by
  intro s cls k hk hd href hchannels hzeros bits hbits
  have level : s.UniformLevel k :=
    { State.walkReady_of_checks hk hd with ref := href, channels := hchannels, zeros := hzeros, fits := hbits }
  obtain ⟨ws, first⟩ := level.firstWords_ok
  obtain ⟨t, ht, ended⟩ := (State.unpackStart_uniform (ws := ws) hk level).run level first (s.blocksLeft_unpackStart k).le
  have result : t.walk.blocksWritten = s.regs.faces.toNat * (s.regs.hb.toNat * s.regs.wb.toNat) ∧ t.br.overrun = false := by
    rcases ended.ended with ⟨_, inside, _, _, total⟩ | ⟨c, hc, _⟩
    · exact ⟨total, inside⟩
    · exact nomatch ended.done.symm.trans hc
  obtain ⟨total, inside⟩ := result
  refine ⟨t, ?_, ended.idle, ended.done, ?_, ?_, fun vs hvs f hf y hy x hx => ?_⟩
  · rw [exec_unpack_of_accepted hk hd]
    exact ht
  · rw [ended.result, total, Nat.mul_assoc, Nat.mul_comm s.regs.hb.toNat]
  · have range := ended.range
    have position : t.br.bitpos = bits := ended.position
    generalize t.br = b at range position inside
    obtain ⟨⟩ := b
    simp only [Reader.range, Prod.mk.injEq] at range position inside
    simp [range, position, inside]
  · obtain rfl : ws = vs := by
      have same := first.symm.trans hvs
      cases same
      rfl
    have before := Regs.visibleBefore_le (r := s.regs) (y := y) (x := x + 1) hf
    rw [Regs.visibleBefore_of_visible hy hx, Regs.blockIndex] at before
    obtain ⟨vs, rfl, _, holds⟩ := ended.blocks f hf y hy x hx (by rw [total, Regs.blockIndex]; omega)
    exact holds

end Sys2Proof.Machine
end
